-- ==== Sys2Proof/Word.lean ====
section
/-! DEFINITION. The word types of the streaming core (00_scope.md R9: unsigned integers of a stated
width, bit 0 least significant, arithmetic modulo 2^N) and the index types of its fixed-size banks. -/

namespace Sys2Proof

/-- One byte of a memory. -/
abbrev Byte := BitVec 8
/-- u32 of R9. -/
abbrev U32 := BitVec 32
/-- u64 of R9. -/
abbrev U64 := BitVec 64
/-- The common timecode representation (10_state.md R30), a u64. -/
abbrev TC64 := BitVec 64
/-- A caller bank number b; at most 8 banks exist (R7 NUM_CALLERS). -/
abbrev BankId := Fin 8
/-- A transfer channel number k; at most 4 exist (R7 NUM_XFER_CH). -/
abbrev ChanId := Fin 4
/-- A video channel number c (R7 MAX_CHANNELS = 2, R14). -/
abbrev VidChan := Fin 2
/-- A slot index i; at most 64 slots exist (R7 POOL_MAX). -/
abbrev SlotIx := Fin 64
/-- A pinned page handle, opaque to the core (R140, R366). The spec states no width; 64 bits are the model's
(DESIGN CHOICE, log 31). -/
abbrev PageHandle := U64

/-- Bits [31:0] of a u64: the `_LO` half of a 64-bit register (R75). -/
def lo32 (v : U64) : U32 := v.extractLsb' 0 32

/-- Bits [63:32] of a u64: the `_HI` half of a 64-bit register (R75). -/
def hi32 (v : U64) : U32 := v.extractLsb' 32 32

/-- A u64 with its low half replaced (a 32-bit access to one half sees that half only, R75). -/
def setLo32 (v : U64) (x : U32) : U64 := hi32 v ++ x

/-- A u64 with its high half replaced. -/
def setHi32 (v : U64) (x : U32) : U64 := x ++ lo32 v

/-- A u1 as a bit. -/
def bit1 (b : Bool) : BitVec 1 := BitVec.ofBool b

end Sys2Proof
end

