-- ==== Sys2Proof/Syntax.lean ====
section
/-! DEFINITION. The syntax of the core: one constructor of `Instr` per row of spec/opcode_table.json
(24 commands, 30_encoding.md R103, and 9 interrupt-status sources, R110), and the host operations and
environment events of R115, with the pseudo-instructions of R116 that expand to them. -/

namespace Sys2Proof

/-- What the core executes. A command carries the caller bank `b` it is issued through, as R114
writes it (`b: MNEMONIC operands`); its other operands are the fields of R101. An interrupt source
has no operand: its handler is the whole of one dispatcher step (45_interrupt_dispatcher.md R326). -/
inductive Instr where
  /-- INIT (R280): CAP, PB, AT, POOL, NCH, SRC. -/
  | init (b : BankId) (cap pb aud : Bool) (pool : BitVec 8) (nch src : BitVec 4)
  /-- START (R281). -/
  | start (b : BankId)
  /-- STOP (R282). -/
  | stop (b : BankId)
  /-- CLOSE (R283). -/
  | close (b : BankId)
  /-- ALLOC (R186). -/
  | alloc (b : BankId)
  /-- FREE i (R187). -/
  | free (b : BankId) (slot : BitVec 16)
  /-- ENQ i (R188). -/
  | enq (b : BankId) (slot : BitVec 16)
  /-- DEQ (R189). -/
  | deq (b : BankId)
  /-- DEPTH (R190). -/
  | depth (b : BankId)
  /-- MDGET i (R191). -/
  | mdget (b : BankId) (slot : BitVec 16)
  /-- MDSET i (R192). -/
  | mdset (b : BankId) (slot : BitVec 16)
  /-- SETSPEED (R285). -/
  | setspeed (b : BankId)
  /-- GETSPEED (R286). -/
  | getspeed (b : BankId)
  /-- SETTRIG (R287). -/
  | settrig (b : BankId)
  /-- FRAMEID (R288). -/
  | frameid (b : BankId)
  /-- FRAMEREC (R289). -/
  | framerec (b : BankId)
  /-- WAITFRAME (R290). -/
  | waitframe (b : BankId)
  /-- DROPS (R291). -/
  | drops (b : BankId)
  /-- XFER (R141): DIR (true is card to host) and HINT. -/
  | xfer (b : BankId) (dir : Bool) (hint : BitVec 2)
  /-- GENSET (R292). -/
  | genset (b : BankId)
  /-- GENGET (R293). -/
  | genget (b : BankId)
  /-- GENRUN e (R294). -/
  | genrun (b : BankId) (en : Bool)
  /-- TCQUERY s (R295). -/
  | tcquery (b : BankId) (src : BitVec 3)
  /-- AUDARM (R296). -/
  | audarm (b : BankId)
  /-- The BUSERR source (R328). -/
  | irqBuserr
  /-- The DONE0 source (R329). -/
  | irqDone0
  /-- The DONE1 source (R329). -/
  | irqDone1
  /-- The DONE2 source (R329). -/
  | irqDone2
  /-- The DONE3 source (R329). -/
  | irqDone3
  /-- The OUTVERT source (R331). -/
  | irqOutvert
  /-- The INVERT0 source (R332). -/
  | irqInvert0
  /-- The INVERT1 source (R332). -/
  | irqInvert1
  /-- The WRAP source (R333). -/
  | irqWrap
  deriving DecidableEq, Repr

/-- The caller bank a command is issued through; an interrupt source has none. -/
def Instr.bank? : Instr → Option BankId
  | .init b _ _ _ _ _ _ => some b
  | .start b => some b
  | .stop b => some b
  | .close b => some b
  | .alloc b => some b
  | .free b _ => some b
  | .enq b _ => some b
  | .deq b => some b
  | .depth b => some b
  | .mdget b _ => some b
  | .mdset b _ => some b
  | .setspeed b => some b
  | .getspeed b => some b
  | .settrig b => some b
  | .frameid b => some b
  | .framerec b => some b
  | .waitframe b => some b
  | .drops b => some b
  | .xfer b _ _ => some b
  | .genset b => some b
  | .genget b => some b
  | .genrun b _ => some b
  | .tcquery b _ => some b
  | .audarm b => some b
  | .irqBuserr => none
  | .irqDone0 => none
  | .irqDone1 => none
  | .irqDone2 => none
  | .irqDone3 => none
  | .irqOutvert => none
  | .irqInvert0 => none
  | .irqInvert1 => none
  | .irqWrap => none

/-- A run: a bus address and a length in bytes (R140). The spec states no width for the length; 64 bits are the
model's (DESIGN CHOICE, log 31). -/
structure Run where
  bus : U64
  len : U64
  deriving DecidableEq, Repr, Inhabited

/-- A scatter entry: a pinned page, an offset within it and a length in bytes (R140). -/
structure ScatterEntry where
  page : PageHandle
  off : Nat
  len : Nat
  deriving DecidableEq, Repr, Inhabited

/-- A move: host bus address, card address, byte count and direction (R140; true is card to host). -/
structure Move where
  host : U64
  card : U32
  bytes : Nat
  dir : Bool
  deriving DecidableEq, Repr, Inhabited

/-- The inputs ENV chooses when it raises OUTVERT (R115, R335). `field` is FIELD: false for field-1
(`field=1`), true for field-2 (R217). -/
structure TickInputs where
  field : Bool := false
  rate : BitVec 3 := 0
  line : U32 := 0
  tick : U64 := 0
  hostTs : U64 := 0
  audpos : U64 := 0
  wire1 : TC64 := 0
  wire2 : TC64 := 0
  deriving DecidableEq, Repr, Inhabited

/-- One answer to come on a sampled input or from a collaborator (R11: every read of an input and
every call of a collaborator is a draw; R366 lists them). -/
inductive Answer where
  | field (v : Bool)
  | rate (v : BitVec 3)
  | line (v : U32)
  | tick (v : U64)
  | hostTs (v : U64)
  | audpos (v : U64)
  | wire1 (v : TC64)
  | wire2 (v : TC64)
  /-- `HMM.pin`: the page handles in address order, or none for FAIL. -/
  | pin (v : Option (List PageHandle))
  /-- `HMM.map`: the runs. -/
  | map (v : List Run)
  /-- `EXT.read_generator`: none is error. -/
  | extGen (v : Option TC64)
  /-- `EXT.read_external`: none is error. -/
  | extLtc (v : Option TC64)
  /-- Which free slot `alloc_slot` takes under ALLOC_POLICY = any (R181). -/
  | pick (v : Nat)
  deriving DecidableEq, Repr, Inhabited

/-- One atomic step's cause: which agent of R6 steps next, and what it brings (R115). A step of an
agent that is not enabled changes nothing. -/
inductive Event where
  /-- `WR off, v`, a register write of the given width in bits (R76). -/
  | wr (off : Nat) (width : Nat) (v : U32)
  /-- `RD off`, a register read of the given width in bits (R76). -/
  | rd (off : Nat) (width : Nat)
  /-- HOST(b) takes the next phase of its running transfer (R141). -/
  | caller (b : BankId)
  /-- The IDS takes its next step: a dispatch, a handler or a tick phase (R325, R326, R25). -/
  | ids
  /-- `@OUTVERT …`, with the inputs of the tick it starts (R335). -/
  | outvert (inp : TickInputs)
  /-- `@DONE k`: raised by CHAN(k), or by ENV when channel k does not exist (R166, R335). -/
  | done (k : ChanId)
  /-- `@BUSERR`, raised by ENV (R335). -/
  | buserr
  /-- BUSERR raised by CHAN(k) (R166). -/
  | chanBuserr (k : ChanId)
  /-- `@INVERT n` (R335). -/
  | invert (n : Fin 2)
  /-- `@WRAP` (R335). -/
  | wrap
  /-- `@TIMEOUT b` (R165). -/
  | timeout (b : BankId)
  /-- `@SIGNAL b` (R165). -/
  | signal (b : BankId)
  /-- CHAN(k) performs its chain's moves (R166). -/
  | move (k : ChanId)
  /-- A byte of channel k's destination range takes a value while GO = 1, or after a timeout or a signal
  (R88, R166). -/
  | spoil (k : ChanId) (addr : U64) (v : Byte)
  /-- ENV or COLLAB fixes an answer to come (R335, R366). -/
  | answer (a : Answer)
  /-- The host stores a byte of its own memory (R70, R91). -/
  | hostStore (addr : U64) (v : Byte)
  /-- The host loads a byte of its own memory (R70, R88). -/
  | hostLoad (addr : U64)
  /-- A video path of the card stores a byte of card memory (R70). -/
  | cardStore (addr : U32) (v : Byte)
  deriving DecidableEq, Repr, Inhabited

/-- The window offset of caller bank b (R79, R116). -/
def bankBase (b : BankId) : Nat := 0x1000 + 0x100 * b.val

/-- `LDARG b, n, v` (R116): the low half, then the high half, of ARGn. -/
def ldarg (b : BankId) (n : Fin 3) (v : U64) : List Event :=
  [.wr (bankBase b + 0x08 + 8 * n.val) 32 (lo32 v), .wr (bankBase b + 0x0C + 8 * n.val) 32 (hi32 v)]

/-- `ISSUE b, w` (R116). -/
def issue (b : BankId) (w : U32) : Event := .wr (bankBase b) 32 w

/-- `LDMD b, off, v` for a 32-bit field (R116). -/
def ldmd (b : BankId) (off : Nat) (v : U32) : Event := .wr (bankBase b + 0x40 + off) 32 v

/-- `LDMD b, off, v` for a 64-bit field: two 32-bit writes (R116). -/
def ldmd64 (b : BankId) (off : Nat) (v : U64) : List Event :=
  [ldmd b off (lo32 v), ldmd b (off + 4) (hi32 v)]

/-- One turn of `WAITDONE b` (R116): the host reads CSTAT; looping on bit 0 is its own control flow. -/
def waitdoneTurn (b : BankId) : Event := .rd (bankBase b + 4) 32

end Sys2Proof
end

