-- ==== Sys2Proof/Config.lean ====
section
/-! DEFINITION. The implementation parameters (00_scope.md R7, constraints R8, R71, R149) and the free
values: constants without a body, applied to the count of draws, so that nothing can be proved of what
the environment answers (R11, 93_implementation_defined.md "any value"). -/

namespace Sys2Proof

/-- ALLOC_POLICY of R7 (decision D22). -/
inductive AllocPolicy where
  /-- The lowest free slot (the default). -/
  | lowest
  /-- Any free slot: a draw. -/
  | any
  deriving DecidableEq, Repr

/-- SPEED_ONE of R7: pacing units for 1x speed. -/
abbrev speedOne : Nat := 1000000
/-- MIN_XFER_BYTES of R7. -/
abbrev minXferBytes : Nat := 8
/-- WORD_BYTES of R7. -/
abbrev wordBytes : Nat := 4
/-- DESC_SIZE of R7. -/
abbrev descSize : Nat := 32
/-- HOST_ADDR_BITS of R7. -/
abbrev hostAddrBits : Nat := 64
/-- CARD_ADDR_BITS of R7. -/
abbrev cardAddrBits : Nat := 32
/-- SYNC_RATE_LIMIT of R7. -/
abbrev syncRateLimit : Nat := 30
/-- The length of the register window (20_memory.md R71). -/
abbrev windowBytes : Nat := 0x1800

/-- The parameters of R7, fixed for a run (R380). The state carries them, so that every statement
about every state is a statement about every configuration. -/
structure Params where
  /-- NUM_XFER_CH. -/
  numXferCh : Nat
  /-- POOL_MAX. -/
  poolMax : Nat
  /-- MAX_SPEED. -/
  maxSpeed : Nat
  /-- MAX_PAGES. -/
  maxPages : Nat
  /-- PAGE_SIZE. -/
  pageSize : Nat
  /-- MERGE_ENABLE. -/
  mergeEnable : Bool
  /-- MAX_MERGE_BYTES. -/
  maxMergeBytes : Nat
  /-- DESC_BASE(k). -/
  descBase : Vector U64 4
  /-- DESC_CAP. -/
  descCap : Nat
  /-- DMA64. -/
  dma64 : Bool
  /-- HAS_AUDIO. -/
  hasAudio : Bool
  /-- EXT_GEN. -/
  extGen : Bool
  /-- NUM_CALLERS. -/
  numCallers : Nat
  /-- ALLOC_POLICY. -/
  allocPolicy : AllocPolicy
  /-- The base register address the enumeration layer supplies (R70, R383); register offsets are counted
  from it, and no rule of the core reads it. -/
  regBase : U64
  /-- The register window length the enumeration layer supplies (R71, R383). -/
  windowLen : Nat
  deriving DecidableEq, Repr

/-- The address of the register at an offset of the window (R70, R77). -/
def Params.registerAddress (p : Params) (off : Nat) : U64 := p.regBase + BitVec.ofNat 64 off

/-- The constraints on a channel's descriptor storage: a multiple of DESC_SIZE (R7, R83) that does not
pass the end of the bus address space (R149). -/
def Params.storageOk (p : Params) (k : ChanId) : Bool :=
  decide (p.descBase[k].toNat % descSize = 0) &&
    decide (p.descBase[k].toNat + p.descCap * descSize ≤ 2 ^ hostAddrBits)

/-- The configuration check of R8 (with R71's window length and R149's bound). A configuration that
fails it has no runs. -/
def Params.ok (p : Params) : Bool :=
  decide (1 ≤ p.numXferCh ∧ p.numXferCh ≤ 4) &&
  decide (1 ≤ p.poolMax ∧ p.poolMax ≤ 64) &&
  decide (speedOne ≤ p.maxSpeed ∧ p.maxSpeed < 2 ^ 63) &&
  decide (1 ≤ p.maxPages) &&
  decide (p.pageSize = 2 ^ p.pageSize.log2 ∧ p.pageSize % wordBytes = 0) &&
  decide (wordBytes ≤ p.maxMergeBytes ∧ p.maxMergeBytes % wordBytes = 0) &&
  decide (p.maxPages ≤ p.descCap) &&
  decide (1 ≤ p.numCallers ∧ p.numCallers ≤ 8) &&
  decide (windowBytes ≤ p.windowLen) &&
  (List.finRange 4).all (fun k => decide (p.numXferCh ≤ k.val) || p.storageOk k)

/-- The configuration `State.reset` carries: R7's defaults, and for the OPEN parameters the values of
95_test_vectors.md program 3 and V-M3 (DESIGN CHOICE, log 2). No statement rests on these values. -/
def Params.reference : Params where
  numXferCh := 3
  poolMax := 64
  maxSpeed := 2 ^ 63 - 1
  maxPages := 16
  pageSize := 4096
  mergeEnable := true
  maxMergeBytes := 0x10000
  descBase := #v[0x80000000, 0x80001000, 0x80002000, 0x80003000]
  descCap := 16
  dma64 := true
  hasAudio := true
  extGen := false
  numCallers := 4
  allocPolicy := .lowest
  regBase := 0
  windowLen := 0x1800

/-! ### Free values (log 3) -/

/-- FIELD when ENV has fixed no answer (I17). -/
opaque Config.freeField : Nat → Bool
/-- RATE when ENV has fixed no answer (I17). -/
opaque Config.freeRate : Nat → BitVec 3
/-- LINE when ENV has fixed no answer (I17). -/
opaque Config.freeLine : Nat → U32
/-- TICK when ENV has fixed no answer (I17). -/
opaque Config.freeTick : Nat → U64
/-- HOST_TS when ENV has fixed no answer (I17, I18). -/
opaque Config.freeHostTs : Nat → U64
/-- AUDPOS when ENV has fixed no answer (I17). -/
opaque Config.freeAudpos : Nat → U64
/-- WIRE_R1 when ENV has fixed no answer (I17). -/
opaque Config.freeWire1 : Nat → TC64
/-- WIRE_R2 when ENV has fixed no answer (I17). -/
opaque Config.freeWire2 : Nat → TC64
/-- The answer of `HMM.pin` when COLLAB has fixed none (I18). -/
opaque Config.freePin : Nat → Option (List PageHandle)
/-- A page handle that a fixed answer of `HMM.pin` leaves out (the contract of R366 gives np handles). -/
opaque Config.freeHandle : Nat → Nat → PageHandle
/-- The answer of `HMM.map` when COLLAB has fixed none (I18). -/
opaque Config.freeMap : Nat → List Run
/-- The answer of `EXT.read_generator` when COLLAB has fixed none (I18). -/
opaque Config.freeExtGen : Nat → Option TC64
/-- The answer of `EXT.read_external` when COLLAB has fixed none (I18). -/
opaque Config.freeExtLtc : Nat → Option TC64
/-- ALLOC's choice under ALLOC_POLICY = any when none is fixed (I23). -/
opaque Config.freePick : Nat → Nat
/-- What a register access of a bad width or alignment reads (R76: any value, I9). -/
opaque Config.freeRead : Nat → U64
/-- A byte that another agent reads in the destination range of a transfer whose GO is set (R88, I19). -/
opaque Config.freeByte : Nat → Byte
/-- What a channel reads as its chain when a record of it may have any value (R91, R88). -/
opaque Config.freeMoves : Nat → List Move
/-- The next atomic step's cause when the agenda is empty: the schedule is free (R6, I21, I22). -/
opaque Config.freeEvent : Nat → Event

end Sys2Proof
end

