-- ==== Sys2Proof/WellFormed.lean ====
section
/-! DEFINITION. Well-formedness of an instruction under a configuration: a command names a caller bank
that exists (20_memory.md R79: a bank with b ≥ NUM_CALLERS ignores writes, so it issues nothing), and a
completion source is one of the four status bits (R110). The fields of R101 have the widths of the
encoding by type; values a rule rejects (a slot index out of range, NCH = 3) are well formed, and the
command completes with the result the rule gives. -/

namespace Sys2Proof

/-- Bank b exists (R79). -/
def bankExists (p : Params) (b : BankId) : Bool := decide (b.val < p.numCallers)

/-- An instruction the core can be given under configuration `p`. -/
def Instr.wf (p : Params) (i : Instr) : Bool :=
  match i.bank? with
  | some b => bankExists p b
  | none => true

end Sys2Proof
end

