-- ==== Sys2Proof/Decode.lean ====
section
/-! DEFINITION. The decoder of command words and interrupt-status words (30_encoding.md R100 to R105,
R110, R113; 45_interrupt_dispatcher.md R326), total and rejecting by name, and the encoder (R114).
A command is one 32-bit word written to CMD of a bank; a status word is the 9-bit set of sources being
handled, of which the lowest bit is taken. There is no program memory, so no bytes are fetched (R91). -/

namespace Sys2Proof

/-- What the decoder is given: a word written to CMD of bank b, or the status sources being handled. -/
inductive InstrWord where
  | cmd (b : BankId) (w : U32)
  | status (s : BitVec 9)
  deriving DecidableEq, Repr

/-- Why a word is no instruction. -/
inductive Reject where
  /-- The OPC value is not in the opcode map (R104). -/
  | illegalOpcode
  /-- A reserved field is not zero (R105). -/
  | reservedField
  /-- A status word with no bit set names no source. -/
  | noSource
  deriving DecidableEq, Repr

/-- OPC, bits [31:24] (R100). -/
def opcOf (w : U32) : BitVec 8 := w.extractLsb' 24 8
/-- SUB, bits [23:16] (R100). -/
def subOf (w : U32) : BitVec 8 := w.extractLsb' 16 8
/-- IMM16, bits [15:0] (R100). -/
def immOf (w : U32) : BitVec 16 := w.extractLsb' 0 16

/-- The instruction, if the reserved fields are zero (R105). -/
def whenReservedZero (zero : Bool) (i : Instr) : Except Reject Instr :=
  if zero then .ok i else .error .reservedField

/-- SUB and IMM16 are both reserved (R101, "every other opcode"). -/
def noOperands (w : U32) : Bool := subOf w == 0 && immOf w == 0

/-- The command of a word written to CMD of bank b (R101, R103 to R105). XFER's must-be-zero operand
ARG2[63:32] is not in the word; the command checks it first (R105). -/
def decodeCommand (b : BankId) (w : U32) : Except Reject Instr :=
  match (opcOf w).toNat with
  | 0x01 =>
    whenReservedZero ((subOf w).extractLsb' 3 5 == 0)
      (.init b ((subOf w).getLsbD 0) ((subOf w).getLsbD 1) ((subOf w).getLsbD 2)
        ((immOf w).extractLsb' 0 8) ((immOf w).extractLsb' 8 4) ((immOf w).extractLsb' 12 4))
  | 0x02 => whenReservedZero (noOperands w) (.start b)
  | 0x03 => whenReservedZero (noOperands w) (.stop b)
  | 0x04 => whenReservedZero (noOperands w) (.close b)
  | 0x10 => whenReservedZero (noOperands w) (.alloc b)
  | 0x11 => whenReservedZero (subOf w == 0) (.free b (immOf w))
  | 0x12 => whenReservedZero (subOf w == 0) (.enq b (immOf w))
  | 0x13 => whenReservedZero (noOperands w) (.deq b)
  | 0x14 => whenReservedZero (noOperands w) (.depth b)
  | 0x15 => whenReservedZero (subOf w == 0) (.mdget b (immOf w))
  | 0x16 => whenReservedZero (subOf w == 0) (.mdset b (immOf w))
  | 0x20 => whenReservedZero (noOperands w) (.setspeed b)
  | 0x21 => whenReservedZero (noOperands w) (.getspeed b)
  | 0x22 => whenReservedZero (noOperands w) (.settrig b)
  | 0x23 => whenReservedZero (noOperands w) (.frameid b)
  | 0x24 => whenReservedZero (noOperands w) (.framerec b)
  | 0x25 => whenReservedZero (noOperands w) (.waitframe b)
  | 0x26 => whenReservedZero (noOperands w) (.drops b)
  | 0x30 =>
    whenReservedZero ((subOf w).extractLsb' 2 5 == 0 && immOf w == 0)
      (.xfer b ((subOf w).getLsbD 7) ((subOf w).extractLsb' 0 2))
  | 0x40 => whenReservedZero (noOperands w) (.genset b)
  | 0x41 => whenReservedZero (noOperands w) (.genget b)
  | 0x42 =>
    whenReservedZero ((subOf w).extractLsb' 1 7 == 0 && immOf w == 0)
      (.genrun b ((subOf w).getLsbD 0))
  | 0x43 =>
    whenReservedZero ((subOf w).extractLsb' 3 5 == 0 && immOf w == 0)
      (.tcquery b ((subOf w).extractLsb' 0 3))
  | 0x50 => whenReservedZero (noOperands w) (.audarm b)
  | _ => .error .illegalOpcode

/-- The handler of status bit j (R110, R326). -/
def sourceInstr (j : Fin 9) : Instr :=
  match j with
  | 0 => .irqBuserr
  | 1 => .irqDone0
  | 2 => .irqDone1
  | 3 => .irqDone2
  | 4 => .irqDone3
  | 5 => .irqOutvert
  | 6 => .irqInvert0
  | 7 => .irqInvert1
  | 8 => .irqWrap

/-- The lowest set bit of a status word, the next source in handling order (R326). -/
def lowestSource (s : BitVec 9) : Option (Fin 9) := (List.finRange 9).find? (fun j => s.getLsbD j.val)

/-- The decoder. -/
def decode : InstrWord → Except Reject Instr
  | .cmd b w => decodeCommand b w
  | .status s =>
    match lowestSource s with
    | some j => .ok (sourceInstr j)
    | none => .error .noSource

/-- The command word OPC, SUB, IMM16 (R100). -/
def commandWord (opc sub : BitVec 8) (imm : BitVec 16) : U32 := opc ++ sub ++ imm

/-- INIT's SUB: AT, PB, CAP in bits 2 to 0 (R101). -/
def initSub (cap pb aud : Bool) : BitVec 8 := (0 : BitVec 5) ++ bit1 aud ++ bit1 pb ++ bit1 cap

/-- INIT's IMM16: SRC, NCH, POOL (R101). -/
def initImm (pool : BitVec 8) (nch src : BitVec 4) : BitVec 16 := src ++ nch ++ pool

/-- The encoder (R114, R110). -/
def encode : Instr → InstrWord
  | .init b cap pb aud pool nch src => .cmd b (commandWord 0x01 (initSub cap pb aud) (initImm pool nch src))
  | .start b => .cmd b (commandWord 0x02 0 0)
  | .stop b => .cmd b (commandWord 0x03 0 0)
  | .close b => .cmd b (commandWord 0x04 0 0)
  | .alloc b => .cmd b (commandWord 0x10 0 0)
  | .free b i => .cmd b (commandWord 0x11 0 i)
  | .enq b i => .cmd b (commandWord 0x12 0 i)
  | .deq b => .cmd b (commandWord 0x13 0 0)
  | .depth b => .cmd b (commandWord 0x14 0 0)
  | .mdget b i => .cmd b (commandWord 0x15 0 i)
  | .mdset b i => .cmd b (commandWord 0x16 0 i)
  | .setspeed b => .cmd b (commandWord 0x20 0 0)
  | .getspeed b => .cmd b (commandWord 0x21 0 0)
  | .settrig b => .cmd b (commandWord 0x22 0 0)
  | .frameid b => .cmd b (commandWord 0x23 0 0)
  | .framerec b => .cmd b (commandWord 0x24 0 0)
  | .waitframe b => .cmd b (commandWord 0x25 0 0)
  | .drops b => .cmd b (commandWord 0x26 0 0)
  | .xfer b dir hint => .cmd b (commandWord 0x30 (bit1 dir ++ (0 : BitVec 5) ++ hint) 0)
  | .genset b => .cmd b (commandWord 0x40 0 0)
  | .genget b => .cmd b (commandWord 0x41 0 0)
  | .genrun b en => .cmd b (commandWord 0x42 ((0 : BitVec 7) ++ bit1 en) 0)
  | .tcquery b src => .cmd b (commandWord 0x43 ((0 : BitVec 5) ++ src) 0)
  | .audarm b => .cmd b (commandWord 0x50 0 0)
  | .irqBuserr => .status 0x001
  | .irqDone0 => .status 0x002
  | .irqDone1 => .status 0x004
  | .irqDone2 => .status 0x008
  | .irqDone3 => .status 0x010
  | .irqOutvert => .status 0x020
  | .irqInvert0 => .status 0x040
  | .irqInvert1 => .status 0x080
  | .irqWrap => .status 0x100

/-- The width in bits of the widest status word of the opcode table, in whole bytes; a command word
has 32 bits. -/
def statusWordBits : Nat := 16

/-- The instruction word of an opcode-table word of `nbits` bits: a status word when it is at most two
bytes wide, otherwise a command word given to bank 0 (R114: the bank may be left out when b = 0). -/
def tableWord (nbits w : Nat) : Option InstrWord :=
  if nbits ≤ statusWordBits then
    if w < 2 ^ 9 then some (.status (BitVec.ofNat 9 w)) else none
  else if w < 2 ^ 32 then some (.cmd 0 (BitVec.ofNat 32 w)) else none

/-- What the decoder reads from a word of the opcode table. -/
def decodeTableWord (nbits w : Nat) : Option Instr :=
  match tableWord nbits w with
  | some iw =>
    match decode iw with
    | .ok i => some i
    | .error _ => none
  | none => none

end Sys2Proof
end

