-- ==== Sys2Proof/Machine/State.lean ====
section
/-! DEFINITION. The state of the core: every piece of state of 10_state.md, the two memories of
20_memory.md R70, the parameters of 00_scope.md R7, and, in `Env`, the model's own record of the
environment (answers to come, schedule to come, outputs made). All of it is plain data. -/

namespace Sys2Proof.Machine

/-- The states of a slot (R41). -/
inductive SlotState where
  /-- FREE. -/
  | free
  /-- INUSE. -/
  | inuse
  /-- QUEUED. -/
  | queued
  deriving DecidableEq, Repr

/-- The eleven steps of the field-1 sequence, F1(1) to F1(11) (R24; 42_frame_clock.md R218 to R228). -/
inductive F1Step where
  /-- F1(1), R218. -/
  | frameId
  /-- F1(2), R219. -/
  | generator
  /-- F1(3), R220. -/
  | boundary
  /-- F1(4), R221. -/
  | snapshot
  /-- F1(5), R222. -/
  | freeing
  /-- F1(6), R223. -/
  | service
  /-- F1(7), R224. -/
  | wirePush
  /-- F1(8), R225. -/
  | extSync
  /-- F1(9), R226. -/
  | serial
  /-- F1(10), R227. -/
  | wake
  /-- F1(11), R228. -/
  | audio
  deriving DecidableEq, Repr

/-- The tick sequencer's `pc` (R24). -/
inductive Phase where
  /-- IDLE: no dispatch pass is running. -/
  | idle
  /-- H: a pass is handling the sources in `pass_set`. -/
  | handling
  /-- F1(n): the field-1 sequence will next execute this step. -/
  | f1 (n : F1Step)
  /-- F2: the field-2 step will run next. -/
  | f2
  deriving DecidableEq, Repr

/-- The result codes 0 to 7 of R106; codes 8 to 15 are reserved and never produced. -/
inductive ResultCode where
  | ok
  | busy
  | empty
  | invalid
  | timeout
  | interrupted
  | illegal
  | deverr
  deriving DecidableEq, Repr

/-- How the wait of a transfer ended (40_descriptor_builder.md R155, R157, R158). -/
inductive XferOutcome where
  | ok
  | timeout
  | interrupted
  deriving DecidableEq, Repr

/-- The phases X2 to X6 of a running transfer (R141); X6 keeps the outcome (R155). -/
inductive XferPhase where
  | x2
  | x3
  | x4
  | x5
  | x6 (outcome : XferOutcome)
  deriving DecidableEq, Repr

/-- A transfer request (R140): DIR (true is card to host), HINT, host address, length, card offset. -/
structure XferReq where
  dir : Bool
  hint : BitVec 2
  addr : U64
  len : U64
  card : U32
  deriving DecidableEq, Repr

/-- The hidden record `op[b]` (R22). The request is the operands read at acceptance (R108). -/
inductive Op where
  | none
  | waitBoundary
  | waitFrame
  | xfer (phase : XferPhase) (k : ChanId) (req : XferReq)
  deriving DecidableEq, Repr

/-- The metadata record, 80 bytes (R43); also the layout of MDBUF. -/
structure Meta where
  line : U32
  field : U32
  tick : U64
  hostTs : U64
  chtag : U32
  incr : U32
  user : U64
  audpos : U64
  tc0 : TC64
  tc1 : TC64
  tc2 : TC64
  tc3 : TC64
  deriving DecidableEq, Repr

/-- A caller bank (R21) with its hidden record (R22). -/
structure Bank where
  /-- CMD: the word of the last accepted command. The host reads it as 0. -/
  cmd : U32
  pend : Bool
  result : ResultCode
  arg0 : U64
  arg1 : U64
  arg2 : U64
  res0 : U64
  res1 : U64
  res2 : U64
  res3 : U64
  mdbuf : Meta
  op : Op
  deriving DecidableEq, Repr

/-- The event counters (R27). -/
structure Counters where
  buserr : U32
  invert0 : U32
  invert1 : U32
  wrap : U32
  spuriousDone : U32
  tagerr : U32
  capfail : U32
  deriving DecidableEq, Repr

/-- The "current frame" record (R29); `field` is FIELD. -/
structure FrameRec where
  line : U32
  field : Bool
  tick : U64
  hostTs : U64
  deriving DecidableEq, Repr

/-- `tc_cache[1]`, `tc_cache[2]`, `tc_cache[4]` (R32). -/
structure TcCache where
  wire1 : TC64
  wire2 : TC64
  extGen : TC64
  deriving DecidableEq, Repr

/-- The audio state (R35). -/
structure Audio where
  trigPending : Bool
  running : Bool
  armed : Bool
  count : U32
  deriving DecidableEq, Repr

/-- The session configuration (R36). -/
structure Session where
  valid : Bool
  flagCap : Bool
  flagPb : Bool
  flagAt : Bool
  nch : BitVec 2
  poolSize : BitVec 7
  tcSource : BitVec 4
  deriving DecidableEq, Repr

/-- The pacing state (R37). -/
structure Pacing where
  speed : U64
  acc : U64
  paced : Bool
  stepCache : U64
  deriving DecidableEq, Repr

/-- The run state asked for (R38). -/
inductive RunReq where
  | none
  | run
  | stop
  deriving DecidableEq, Repr

/-- The run control (R38). -/
structure RunCtl where
  running : Bool
  req : RunReq
  closePending : Bool
  trigArmed : Bool
  trigId : U64
  deriving DecidableEq, Repr

/-- The drop record (R39). -/
structure DropRec where
  count : U64
  lastId : U64
  lastTc : TC64
  deriving DecidableEq, Repr

/-- The frame-buffer pool (R41 to R43): slot states, ready-FIFO (head first), depth counter, metadata. -/
structure Pool where
  slots : Vector SlotState 64
  fifo : List SlotIx
  depth : BitVec 7
  metas : Vector Meta 64
  deriving DecidableEq, Repr

/-- A transfer channel: its registers (R45), its transfer record (R46), and three fields of the channel
hardware the spec implies (log 8, log 10): whether the destination range holds what the chain's moves put
there (R148, R166), whether the running transfer has raised its DONE (R166, R167), and whether a record of
its chain was written while GO = 1 (R91). -/
structure Channel where
  head : U64
  card : U32
  len : U64
  go : Bool
  dir : Bool
  token : Bool
  owner : Option BankId
  pages : List PageHandle
  sg : List ScatterEntry
  runs : List Run
  ts : Vector U64 6
  moved : Bool
  reported : Bool
  tampered : Bool
  deriving DecidableEq, Repr

/-- A model fault with its information (60_exceptions.md R356). Raising one records it and stops
nothing (R11, R357). -/
inductive ModelFault where
  /-- A CMD write while PEND = 1. -/
  | u1 (b : BankId) (w : U32)
  /-- `free_slot` of a QUEUED slot. -/
  | u2 (i : SlotIx)
  /-- `enq_slot` of a slot that is not INUSE. -/
  | u3 (i : SlotIx) (st : SlotState)
  /-- An XFER whose host address or length is not a whole number of words. -/
  | u4 (b : BankId) (addr len : U64)
  /-- A chain needing more than DESC_CAP descriptors. -/
  | u5 (k : ChanId) (n : Nat)
  /-- A descriptor needing A64 with DMA64 = 0. -/
  | u6 (k : ChanId) (bus : U64)
  /-- A run crossing a 4 GiB boundary or too long for WORDS. -/
  | u7 (k : ChanId) (bus len : U64)
  /-- RATE sampled as the reserved code 7. -/
  | u8 (frame : U64) (code : BitVec 3)
  /-- A register access that is not an aligned 32-bit access. -/
  | u9 (off width : Nat)
  /-- The bus-mapping collaborator breaking its contract. -/
  | u10 (k : ChanId)
  deriving DecidableEq, Repr

/-- An output or a collaborator call, in the order made (R11 `out`, `call`; R366). -/
inductive Output where
  | wireW1 (tc : TC64)
  | wireW2 (tc : TC64)
  | serial (tc : TC64)
  | audioStart
  | audioStop
  | extWrite (tc : TC64)
  | extSync (pulse : Bool)
  | extRun (en : Bool)
  | extReadGenerator
  | extReadExternal
  | hmmPin (addr : U64) (first np : Nat)
  | hmmMap (sg : List ScatterEntry) (dir : Bool)
  | hmmUnmap (runs : List Run)
  | hmmUnpin (pages : List PageHandle) (dirty : Bool)
  deriving DecidableEq, Repr

/-- The environment's side of one input or collaborator answer: the answers fixed for the next draws,
in order, and the value it gives when none is left (none: a free value). -/
structure Port (α : Type) where
  answers : List α
  level : Option α
  deriving DecidableEq, Repr

/-- The ports of R366: sampled inputs and collaborator answers. -/
structure Ports where
  field : Port Bool
  rate : Port (BitVec 3)
  line : Port U32
  tick : Port U64
  hostTs : Port U64
  audpos : Port U64
  wire1 : Port TC64
  wire2 : Port TC64
  pin : Port (Option (List PageHandle))
  map : Port (List Run)
  extGen : Port (Option TC64)
  extLtc : Port (Option TC64)
  pick : Port Nat
  deriving DecidableEq, Repr

/-- The model's own fields (log 3, log 4, log 24): the schedule fixed so far (`agenda`, next first), the
inputs chosen with the OUTVERT that is latched, the ports, the count of draws and of steps taken from the
free schedule, the outputs made (oldest first), and the value the host's last read returned. The core's
rules read none of these but the answers. -/
structure Env where
  agenda : List Event
  tick : Option TickInputs
  ports : Ports
  draws : Nat
  trace : List Output
  readData : U64
  deriving DecidableEq, Repr

/-- A memory: cells at strictly rising addresses, none equal to what an unlisted address reads as. -/
abbrev Memory := List Host.Cell

/-- The whole machine. -/
@[ext]
structure State where
  /-- The parameters (R7), never changed. -/
  cfg : Params
  /-- The caller banks (R21, R22); bank b exists when b < NUM_CALLERS. -/
  banks : Vector Bank 8
  /-- `pc` (R24). -/
  pc : Phase
  /-- `pass_set` (R24). -/
  passSet : BitVec 9
  /-- `irq_status` (R26). -/
  irqStatus : BitVec 9
  /-- `irq_enable` (R26). -/
  irqEnable : BitVec 9
  /-- The event counters (R27). -/
  counters : Counters
  /-- `frame_id` (R28). -/
  frameId : U64
  /-- `cur_frame` (R29). -/
  curFrame : FrameRec
  /-- `gen` (R33). -/
  gen : TC64
  /-- `gen_running` (R33). -/
  genRunning : Bool
  /-- `tc_cache` (R32). -/
  tcCache : TcCache
  /-- `tick_rate` (R34). -/
  tickRate : BitVec 3
  /-- The audio state (R35). -/
  audio : Audio
  /-- The session configuration (R36). -/
  session : Session
  /-- The pacing state (R37). -/
  pacing : Pacing
  /-- The run control (R38). -/
  run : RunCtl
  /-- The drop record (R39). -/
  drops : DropRec
  /-- `last_pb[c]` (R40). -/
  lastPb : Vector (Option SlotIx) 2
  /-- `last_cap[c]` (R40). -/
  lastCap : Vector (Option SlotIx) 2
  /-- The pool (R41 to R43). -/
  pool : Pool
  /-- `outsel[c]` (R44). -/
  outsel : Vector (BitVec 16) 2
  /-- `insel[c]` (R44). -/
  insel : Vector (BitVec 16) 2
  /-- The transfer channels (R45, R46); channel k exists when k < NUM_XFER_CH. -/
  chans : Vector Channel 4
  /-- `faults` (R47): a set, kept without repeats. -/
  faults : List ModelFault
  /-- Host bus memory (R70, R72). -/
  hostMem : Memory
  /-- Card memory (R70, R73). -/
  cardMem : Memory
  /-- The model's own record of the environment. -/
  env : Env
  deriving DecidableEq, Repr

/-- Why a step stops the machine. -/
inductive Fault where
  /-- Raised by the dispatcher's step when `pc = H` and `pass_set = 0`: R326 then has no source to take.
  Safe: no run from reset reaches such a state (R334). -/
  | emptyPass
  deriving DecidableEq, Repr

/-- Why a step has no meaning. -/
inductive Refusal where
  /-- An instruction that has no meaning yet. Raised by exec's refused arms only. Safe. -/
  | notModelled (mnemonic : String)
  /-- Raised by `step` when the parameters break a constraint of R7: such a configuration is refused and
  has no runs (R8). Safe. -/
  | badConfiguration
  deriving DecidableEq, Repr

/-- What a meaning or a step answers. -/
abbrev Answered := Host.Outcome State Fault Refusal

/-- A metadata record of zeros (R43). -/
def Meta.zero : Meta := ⟨0, 0, 0, 0, 0, 0, 0, 0, 0, 0, 0, 0⟩

/-- A caller bank at reset (R50). -/
def Bank.reset : Bank := ⟨0, false, .ok, 0, 0, 0, 0, 0, 0, 0, Meta.zero, .none⟩

/-- A pool with every slot FREE and every record zero (R194, R50). -/
def Pool.clear : Pool := ⟨Vector.replicate 64 .free, [], 0, Vector.replicate 64 Meta.zero⟩

/-- A transfer channel at reset (R50). -/
def Channel.reset : Channel :=
  ⟨0, 0, 0, false, false, false, none, [], [], [], Vector.replicate 6 0, false, false, false⟩

/-- A port for which the environment has fixed nothing: every draw is a free value. -/
def Port.unset (α : Type) : Port α := ⟨[], none⟩

/-- Every port unset. -/
def Ports.unset : Ports :=
  ⟨Port.unset _, Port.unset _, Port.unset _, Port.unset _, Port.unset _, Port.unset _, Port.unset _,
   Port.unset _, Port.unset _, Port.unset _, Port.unset _, Port.unset _, Port.unset _⟩

/-- The environment record before the first step. -/
def Env.reset : Env := ⟨[], none, Ports.unset, 0, [], 0⟩

/-- The machine right after reset (R50, R380 to R382) under a configuration. -/
def State.resetWith (p : Params) : State where
  cfg := p
  banks := Vector.replicate 8 Bank.reset
  pc := .idle
  passSet := 0
  irqStatus := 0
  irqEnable := 0
  counters := ⟨0, 0, 0, 0, 0, 0, 0⟩
  frameId := 0
  curFrame := ⟨0, false, 0, 0⟩
  gen := 0
  genRunning := false
  tcCache := ⟨0, 0, 0⟩
  tickRate := 0
  audio := ⟨false, false, false, 0⟩
  session := ⟨false, false, false, false, 0, 0, 0⟩
  pacing := ⟨BitVec.ofNat 64 speedOne, 0, false, 0⟩
  run := ⟨false, .none, false, false, 0⟩
  drops := ⟨0, 0, 0⟩
  lastPb := Vector.replicate 2 none
  lastCap := Vector.replicate 2 none
  pool := Pool.clear
  outsel := Vector.replicate 2 0
  insel := Vector.replicate 2 0
  chans := Vector.replicate 4 Channel.reset
  faults := []
  hostMem := []
  cardMem := []
  env := Env.reset

/-- The machine right after reset, under the reference configuration (log 2). -/
def State.reset : State := State.resetWith Params.reference

end Sys2Proof.Machine
end

