-- ==== Sys2Proof/Machine/Operands.lean ====
section
/-! DEFINITION. Operand assembly (30_encoding.md R112, 20_memory.md R74, R75): slot-index operands,
the label fields of a timecode (10_state.md R30), and the 20 words of a metadata record (R43, R79). -/

namespace Sys2Proof.Machine

/-! ### Slot indices (R74, R112) -/

/-- The slot an IMM16 index names; used only after the index has been checked (R185). -/
def slotOperand (imm : BitVec 16) : SlotIx := Fin.ofNat 64 imm.toNat

/-- The index check `i < pool_size` (R74, R185). -/
def slotValid (s : State) (imm : BitVec 16) : Bool := decide (imm.toNat < s.session.poolSize.toNat)

/-- A slot index as a u64 result (R112). -/
def slotResult (i : SlotIx) : U64 := BitVec.ofNat 64 i.val

/-- A slot index as a select register's u16 (R44). -/
def slotSelect (i : SlotIx) : BitVec 16 := BitVec.ofNat 16 i.val

/-- The video channels c < nch, in order (R258, R262). -/
def videoChannels (nch : BitVec 2) : List VidChan :=
  (List.finRange 2).filter (fun c => decide (c.val < nch.toNat))

/-! ### Timecode labels (R30) -/

/-- Frames, bits [5:0]. -/
def tcFrames (t : TC64) : Nat := (t.extractLsb' 0 6).toNat
/-- Seconds, bits [11:6]. -/
def tcSeconds (t : TC64) : Nat := (t.extractLsb' 6 6).toNat
/-- Minutes, bits [17:12]. -/
def tcMinutes (t : TC64) : Nat := (t.extractLsb' 12 6).toNat
/-- Hours, bits [22:18]. -/
def tcHours (t : TC64) : Nat := (t.extractLsb' 18 5).toNat

/-- The timecode with the label f, s, m, h written back; flags and user bits are carried (R213). -/
def tcWithLabel (t : TC64) (f s m h : Nat) : TC64 :=
  t.extractLsb' 23 41 ++ BitVec.ofNat 5 h ++ BitVec.ofNat 6 m ++ BitVec.ofNat 6 s ++ BitVec.ofNat 6 f

/-! ### Metadata words (R43, R79) -/

/-- Word w of a record: bytes 4w to 4w + 3, little-endian. -/
def Meta.word (m : Meta) (w : Fin 20) : U32 :=
  match w.val with
  | 0 => m.line
  | 1 => m.field
  | 2 => lo32 m.tick
  | 3 => hi32 m.tick
  | 4 => lo32 m.hostTs
  | 5 => hi32 m.hostTs
  | 6 => m.chtag
  | 7 => m.incr
  | 8 => lo32 m.user
  | 9 => hi32 m.user
  | 10 => lo32 m.audpos
  | 11 => hi32 m.audpos
  | 12 => lo32 m.tc0
  | 13 => hi32 m.tc0
  | 14 => lo32 m.tc1
  | 15 => hi32 m.tc1
  | 16 => lo32 m.tc2
  | 17 => hi32 m.tc2
  | 18 => lo32 m.tc3
  | _ => hi32 m.tc3

/-- The record with word w replaced. -/
def Meta.setWord (m : Meta) (w : Fin 20) (v : U32) : Meta :=
  match w.val with
  | 0 => { m with line := v }
  | 1 => { m with field := v }
  | 2 => { m with tick := setLo32 m.tick v }
  | 3 => { m with tick := setHi32 m.tick v }
  | 4 => { m with hostTs := setLo32 m.hostTs v }
  | 5 => { m with hostTs := setHi32 m.hostTs v }
  | 6 => { m with chtag := v }
  | 7 => { m with incr := v }
  | 8 => { m with user := setLo32 m.user v }
  | 9 => { m with user := setHi32 m.user v }
  | 10 => { m with audpos := setLo32 m.audpos v }
  | 11 => { m with audpos := setHi32 m.audpos v }
  | 12 => { m with tc0 := setLo32 m.tc0 v }
  | 13 => { m with tc0 := setHi32 m.tc0 v }
  | 14 => { m with tc1 := setLo32 m.tc1 v }
  | 15 => { m with tc1 := setHi32 m.tc1 v }
  | 16 => { m with tc2 := setLo32 m.tc2 v }
  | 17 => { m with tc2 := setHi32 m.tc2 v }
  | 18 => { m with tc3 := setLo32 m.tc3 v }
  | _ => { m with tc3 := setHi32 m.tc3 v }

end Sys2Proof.Machine
end

