-- ==== Sys2Proof/Machine/Flags.lean ====
section
/-! DEFINITION. Flag computations: the timecode flags DF, F2 and VALID (10_state.md R31), the wire form
(42_frame_clock.md R215), the result codes (30_encoding.md R106), the CSTAT word (20_memory.md R79) and
the interrupt line (45_interrupt_dispatcher.md R323). -/

namespace Sys2Proof.Machine

/-- DF, bit 24: drop-frame counting is asked for. -/
def tcDf (t : TC64) : Bool := t.getLsbD 24
/-- F2, bit 25: the field-2 marker. -/
def tcF2 (t : TC64) : Bool := t.getLsbD 25
/-- VALID, bit 26. -/
def tcValid (t : TC64) : Bool := t.getLsbD 26

/-- The mask of F2. -/
def f2Mask : TC64 := 0x02000000
/-- The mask of VALID. -/
def validMask : TC64 := 0x04000000

/-- F2 cleared. -/
def tcClearF2 (t : TC64) : TC64 := t &&& ~~~f2Mask
/-- F2 set. -/
def tcSetF2 (t : TC64) : TC64 := t ||| f2Mask
/-- VALID cleared. -/
def tcClearValid (t : TC64) : TC64 := t &&& ~~~validMask
/-- VALID set. -/
def tcSetValid (t : TC64) : TC64 := t ||| validMask

/-- `wire(tc)`: F2 cleared, nothing else (R215). -/
def tcWire (t : TC64) : TC64 := tcClearF2 t

/-- The code of a result in CSTAT.RESULT (R106). -/
def ResultCode.code : ResultCode → BitVec 4
  | .ok => 0
  | .busy => 1
  | .empty => 2
  | .invalid => 3
  | .timeout => 4
  | .interrupted => 5
  | .illegal => 6
  | .deverr => 7

/-- CSTAT: PEND in bit 0, RESULT in bits [7:4], the rest 0 (R21, R79). -/
def cstatWord (x : Bank) : U32 := (0 : BitVec 24) ++ x.result.code ++ (0 : BitVec 3) ++ bit1 x.pend

/-- CTRL of a channel window: GO in bit 0, DIR in bit 1 (R78). -/
def ctrlWord (c : Channel) : U32 := (0 : BitVec 30) ++ bit1 c.dir ++ bit1 c.go

/-- The sources that are latched and enabled (R323, R325). -/
def State.pendingSources (s : State) : BitVec 9 := s.irqStatus &&& s.irqEnable

/-- The interrupt line (R323). -/
def State.irqLine (s : State) : Bool := s.pendingSources != 0

/-- Status bit j as a mask (R110). -/
def sourceMask (j : Fin 9) : BitVec 9 := 1#9 <<< j.val

/-- The status bit of the completion of channel k, bit 1 + k (R110). -/
def doneSource (k : ChanId) : Fin 9 := ⟨1 + k.val, by omega⟩

/-- The status bit of input vertical n, bit 6 + n (R110). -/
def invertSource (n : Fin 2) : Fin 9 := ⟨6 + n.val, by omega⟩

/-- A result code of a transfer's outcome (R157, R158, R162). -/
def XferOutcome.code : XferOutcome → ResultCode
  | .ok => .ok
  | .timeout => .timeout
  | .interrupted => .interrupted

end Sys2Proof.Machine
end

