-- ==== Sys2Proof/Machine/Ops.lean ====
section
/-! DEFINITION. The named operations over memory and state that every meaning uses: memory access
(20_memory.md R72), banks and their completion (30_encoding.md R107, R108), inputs and collaborator
answers (00_scope.md R11), outputs, model faults (60_exceptions.md R356), the pool primitives
(41_pool_fifo.md R181 to R184), and taking an interrupt and returning from it (R360, R361). -/

namespace Sys2Proof.Machine

/-! ### Memory -/

/-- What an address with no cell reads as (DESIGN CHOICE, log 5). -/
def Memory.unlisted : Byte := 0

/-- No cell below or at `a`: every address listed is above it. -/
def Memory.above (a : Nat) (m : Memory) : Bool := m.all (fun c => decide (a < c.1))

/-- The canonical form: addresses strictly rising, no cell equal to what an unlisted address reads as. -/
def Memory.wf : Memory → Bool
  | [] => true
  | c :: m => decide (c.2 ≠ Memory.unlisted) && Memory.above c.1 m && Memory.wf m

/-- One byte. -/
def Memory.read : Memory → Nat → Byte
  | [], _ => Memory.unlisted
  | c :: m, a => if c.1 = a then c.2 else Memory.read m a

/-- A cell in front, unless it holds what an unlisted address reads as. -/
def Memory.cell (a : Nat) (v : Byte) (m : Memory) : Memory := if v = Memory.unlisted then m else (a, v) :: m

/-- One byte stored, keeping the canonical form. -/
def Memory.write : Memory → Nat → Byte → Memory
  | [], a, v => Memory.cell a v []
  | c :: m, a, v =>
    if a < c.1 then Memory.cell a v (c :: m)
    else if a = c.1 then Memory.cell a v m
    else c :: Memory.write m a v

/-- `MemRead(addr, n)`: n bytes from a bus address, little-endian (R72, R75). -/
def Memory.readLE (m : Memory) (addr : U64) : Nat → Nat
  | 0 => 0
  | n + 1 => (m.read addr.toNat).toNat + 256 * Memory.readLE m (addr + 1) n

/-- A u32 of host memory (R72 with n = 4). -/
def Memory.readU32 (m : Memory) (addr : U64) : U32 := BitVec.ofNat 32 (m.readLE addr 4)

/-! ### State components -/

/-- Bank b. -/
def State.bank (s : State) (b : BankId) : Bank := s.banks[b]

/-- Bank b replaced. -/
def State.setBank (s : State) (b : BankId) (x : Bank) : State := { s with banks := s.banks.set b.val x }

/-- Channel k. -/
def State.chan (s : State) (k : ChanId) : Channel := s.chans[k]

/-- Channel k replaced. -/
def State.setChan (s : State) (k : ChanId) (x : Channel) : State := { s with chans := s.chans.set k.val x }

/-- `slot_state[i]`. -/
def State.slotState (s : State) (i : SlotIx) : SlotState := s.pool.slots[i]

/-- `slot_state[i] <- st`. -/
def State.setSlot (s : State) (i : SlotIx) (st : SlotState) : State :=
  { s with pool := { s.pool with slots := s.pool.slots.set i.val st } }

/-- `meta[i]`. -/
def State.metaOf (s : State) (i : SlotIx) : Meta := s.pool.metas[i]

/-- `meta[i] <- m`. -/
def State.setMeta (s : State) (i : SlotIx) (m : Meta) : State :=
  { s with pool := { s.pool with metas := s.pool.metas.set i.val m } }

/-- The ready-FIFO and its counter replaced. -/
def State.setFifo (s : State) (q : List SlotIx) (d : BitVec 7) : State :=
  { s with pool := { s.pool with fifo := q, depth := d } }

/-- The environment record replaced. -/
def State.withEnv (s : State) (e : Env) : State := { s with env := e }

/-- Every element of a bank or channel array changed by one function. -/
def mapVector {α β : Type} {n : Nat} (f : α → β) (v : Vector α n) : Vector β n :=
  ⟨(v.toList.map f).toArray, by simp⟩

/-! ### Commands (R107, R108) -/

/-- A command's end: RESULT written, PEND cleared, `op[b]` NONE. -/
def Bank.complete (x : Bank) (r : ResultCode) : Bank := { x with pend := false, result := r, op := .none }

/-- `result(b, code)` (R11). -/
def State.finish (s : State) (b : BankId) (r : ResultCode) : State := s.setBank b ((s.bank b).complete r)

/-- A command that waits: PEND set, `op[b]` the wait state (R108). -/
def State.hold (s : State) (b : BankId) (o : Op) : State :=
  s.setBank b { s.bank b with pend := true, op := o }

/-- RES0 written, then the command ends OK (R102, R108). -/
def State.finishRes0 (s : State) (b : BankId) (v : U64) : State :=
  s.setBank b ({ s.bank b with res0 := v }.complete .ok)

/-! ### Model faults and outputs -/

/-- `raise U<n>(info)`: the fault joins the set; nothing else changes (R11, R356, R357). -/
def State.raise (s : State) (f : ModelFault) : State :=
  { s with faults := if f ∈ s.faults then s.faults else s.faults ++ [f] }

/-- `out NAME(args)`, and a call's record: no effect on the core's state (R11). -/
def State.emit (s : State) (o : Output) : State := s.withEnv { s.env with trace := s.env.trace ++ [o] }

/-! ### Inputs and collaborator answers (R11: each evaluation is a fresh draw) -/

/-- The port's next answer: the first fixed answer, else its level, else the free value. -/
def Port.draw {α : Type} (p : Port α) (free : α) : α × Port α :=
  match p.answers with
  | a :: rest => (a, { p with answers := rest })
  | [] => (p.level.getD free, p)

/-- A port at a level, with no answer queued. -/
def Port.atLevel {α : Type} (v : α) : Port α := ⟨[], some v⟩

/-- An answer queued behind those already fixed. -/
def Port.queue {α : Type} (p : Port α) (v : α) : Port α := { p with answers := p.answers ++ [v] }

/-- The ports replaced and the draw counted. -/
def State.drawn (s : State) (p : Ports) : State := s.withEnv { s.env with ports := p, draws := s.env.draws + 1 }

/-- `in FIELD` (R217). -/
def State.inField (s : State) : Bool × State :=
  let d := s.env.ports.field.draw (Config.freeField s.env.draws)
  (d.1, s.drawn { s.env.ports with field := d.2 })

/-- `in RATE` (R218, R230). -/
def State.inRate (s : State) : BitVec 3 × State :=
  let d := s.env.ports.rate.draw (Config.freeRate s.env.draws)
  (d.1, s.drawn { s.env.ports with rate := d.2 })

/-- `in LINE` (R221). -/
def State.inLine (s : State) : U32 × State :=
  let d := s.env.ports.line.draw (Config.freeLine s.env.draws)
  (d.1, s.drawn { s.env.ports with line := d.2 })

/-- `in TICK` (R221). -/
def State.inTick (s : State) : U64 × State :=
  let d := s.env.ports.tick.draw (Config.freeTick s.env.draws)
  (d.1, s.drawn { s.env.ports with tick := d.2 })

/-- `in HOST_TS` (R221, R163). -/
def State.inHostTs (s : State) : U64 × State :=
  let d := s.env.ports.hostTs.draw (Config.freeHostTs s.env.draws)
  (d.1, s.drawn { s.env.ports with hostTs := d.2 })

/-- `in AUDPOS` (R253). -/
def State.inAudpos (s : State) : U64 × State :=
  let d := s.env.ports.audpos.draw (Config.freeAudpos s.env.draws)
  (d.1, s.drawn { s.env.ports with audpos := d.2 })

/-- `in WIRE_R1` (R233). -/
def State.inWire1 (s : State) : TC64 × State :=
  let d := s.env.ports.wire1.draw (Config.freeWire1 s.env.draws)
  (d.1, s.drawn { s.env.ports with wire1 := d.2 })

/-- `in WIRE_R2` (R233). -/
def State.inWire2 (s : State) : TC64 × State :=
  let d := s.env.ports.wire2.draw (Config.freeWire2 s.env.draws)
  (d.1, s.drawn { s.env.ports with wire2 := d.2 })

/-- `call HMM.pin(a, first, np)`: FAIL, or np page handles (R366); a handle that a fixed answer leaves
out is free, one too many is no part of the answer. -/
def State.callPin (s : State) (a : U64) (first np : Nat) : Option (List PageHandle) × State :=
  let n := s.env.draws
  let d := s.env.ports.pin.draw (Config.freePin n)
  (d.1.map (fun p => (List.range np).map (fun j => p.getD j (Config.freeHandle n j))),
    (s.emit (.hmmPin a first np)).drawn { s.env.ports with pin := d.2 })

/-- `call HMM.map(sg, dir)` (R366). -/
def State.callMap (s : State) (sg : List ScatterEntry) (dir : Bool) : List Run × State :=
  let d := s.env.ports.map.draw (Config.freeMap s.env.draws)
  (d.1, (s.emit (.hmmMap sg dir)).drawn { s.env.ports with map := d.2 })

/-- `call EXT.read_generator()`; none is error (R366). -/
def State.callReadGenerator (s : State) : Option TC64 × State :=
  let d := s.env.ports.extGen.draw (Config.freeExtGen s.env.draws)
  (d.1, (s.emit .extReadGenerator).drawn { s.env.ports with extGen := d.2 })

/-- `call EXT.read_external()`; none is error (R366). -/
def State.callReadExternal (s : State) : Option TC64 × State :=
  let d := s.env.ports.extLtc.draw (Config.freeExtLtc s.env.draws)
  (d.1, (s.emit .extReadExternal).drawn { s.env.ports with extLtc := d.2 })

/-- The draw of ALLOC_POLICY = any (R181). -/
def State.drawPick (s : State) : Nat × State :=
  let d := s.env.ports.pick.draw (Config.freePick s.env.draws)
  (d.1, s.drawn { s.env.ports with pick := d.2 })

/-! ### Pool primitives (R181 to R184) -/

/-- The free slots of the pool, in ascending order: `cand` of R181. -/
def State.freeSlots (s : State) : List SlotIx :=
  (List.finRange 64).filter (fun i => decide (i.val < s.session.poolSize.toNat) && decide (s.slotState i = .free))

/-- The element of a list a pick names. -/
def pickFrom {α : Type} (l : List α) (n : Nat) : Option α := l[n % l.length]?

/-- `alloc_slot()` (R181). -/
def State.allocSlot (s : State) : Option SlotIx × State :=
  match s.freeSlots with
  | [] => (none, s)
  | i :: rest =>
    match s.cfg.allocPolicy with
    | .lowest => (some i, s.setSlot i .inuse)
    | .any =>
      let d := s.drawPick
      let j := (pickFrom (i :: rest) d.1).getD i
      (some j, d.2.setSlot j .inuse)

/-- `free_slot(i)` (R182). -/
def State.freeSlot (s : State) (i : SlotIx) : State :=
  if s.slotState i = .queued then s.raise (.u2 i) else s.setSlot i .free

/-- `enq_slot(i)` (R183). -/
def State.enqSlot (s : State) (i : SlotIx) : State :=
  if s.slotState i = .inuse then
    (s.setSlot i .queued).setFifo (s.pool.fifo ++ [i]) (s.pool.depth + 1)
  else s.raise (.u3 i (s.slotState i))

/-- `deq_slot()` (R184). -/
def State.deqSlot (s : State) : Option SlotIx × State :=
  match s.pool.fifo with
  | [] => (none, s)
  | i :: q => (some i, (s.setFifo q (s.pool.depth - 1)).setSlot i .inuse)

/-! ### Taking an interrupt and returning from it (R360, R361) -/

/-- The latch of an event on source j (R321). -/
def State.latch (s : State) (j : Fin 9) : State := { s with irqStatus := s.irqStatus ||| sourceMask j }

/-- The ports during a tick: the values chosen with its OUTVERT are what the sampled inputs give (R115,
R335). -/
def Ports.outvert (p : Ports) (i : TickInputs) : Ports :=
  { p with
    field := Port.atLevel i.field
    rate := Port.atLevel i.rate
    line := Port.atLevel i.line
    tick := Port.atLevel i.tick
    hostTs := Port.atLevel i.hostTs
    audpos := Port.atLevel i.audpos
    wire1 := Port.atLevel i.wire1
    wire2 := Port.atLevel i.wire2 }

/-- An acknowledged OUTVERT hands its inputs to the tick it starts; a later OUTVERT chooses those of a
later tick (R321, R327, R335; log 24). -/
def Env.beginTick (e : Env) : Env :=
  match e.tick with
  | some i => { e with tick := none, ports := e.ports.outvert i }
  | none => e

/-- Entry: the dispatch step of R325. The pending sources are snapshot into `pass_set` and
acknowledged, and `pc` moves from IDLE to H. Nothing is saved (R360). -/
def State.takeInterrupt (s : State) : State :=
  { s with
    irqStatus := s.irqStatus &&& ~~~s.pendingSources
    passSet := s.pendingSources
    pc := .handling
    env := if s.pendingSources.getLsbD 5 then s.env.beginTick else s.env }

/-- Return: the pass goes on with its next source, or ends (R334, R361). -/
def State.passEnd (s : State) : State := { s with pc := if s.passSet = 0 then .idle else .handling }

/-- Source j taken out of the pass (R326). -/
def State.takeSource (s : State) (j : Fin 9) : State := { s with passSet := s.passSet &&& ~~~sourceMask j }

/-! ### Stores to host memory by other agents than the builder (R91) -/

/-- The address lies in channel k's descriptor storage (R7 DESC_BASE, DESC_CAP). -/
def State.inStorage (s : State) (k : ChanId) (addr : U64) : Bool :=
  decide (s.cfg.descBase[k].toNat ≤ addr.toNat) &&
    decide (addr.toNat < s.cfg.descBase[k].toNat + s.cfg.descCap * descSize)

/-- Channel k noted as tampered with, if its chain storage is stored to while GO = 1 (R91). -/
def State.noteTamper (s : State) (addr : U64) (k : ChanId) : State :=
  if (s.chan k).go && s.inStorage k addr then s.setChan k { s.chan k with tampered := true } else s

/-- One byte stored to host bus memory. -/
def State.storeHost (s : State) (addr : U64) (v : Byte) : State :=
  (List.finRange 4).foldl (fun s k => s.noteTamper addr k) { s with hostMem := s.hostMem.write addr.toNat v }

/-- One byte stored to card memory. -/
def State.storeCard (s : State) (addr : U32) (v : Byte) : State :=
  { s with cardMem := s.cardMem.write addr.toNat v }

/-- Consecutive bytes stored to host bus memory, from a bus address up. -/
def State.storeBytes (s : State) (addr : U64) : List Byte → State
  | [] => s
  | v :: vs => (s.storeHost addr v).storeBytes (addr + 1) vs

/-! ### Loads by the agents (R88: a race while GO = 1) -/

/-- The byte lies in the destination range of the channel's transfer (R88): the mapped runs when the
direction is card to host, otherwise the card range. -/
def Channel.inDestination (c : Channel) (addr : U64) : Bool :=
  if c.dir then c.runs.any (fun r => decide ((addr - r.bus).toNat < r.len.toNat))
  else decide (c.card.toNat ≤ addr.toNat) && decide (addr.toNat < c.card.toNat + c.len.toNat)

/-- A transfer in direction `dir` whose GO is set, run by a channel other than the reader, has the byte in
its destination range (R88). -/
def State.raced (s : State) (reader : Option ChanId) (dir : Bool) (addr : U64) : Bool :=
  (List.finRange 4).any fun j =>
    decide (reader ≠ some j) && (s.chan j).go && (s.chan j).dir == dir && (s.chan j).inDestination addr

/-- One byte of host memory as an agent reads it: any value in a race (R88). -/
def State.loadHost (s : State) (reader : Option ChanId) (addr : U64) : Byte × State :=
  if s.raced reader true addr then (Config.freeByte s.env.draws, s.drawn s.env.ports)
  else (s.hostMem.read addr.toNat, s)

/-- One byte of card memory as an agent reads it: any value in a race (R88). -/
def State.loadCard (s : State) (reader : Option ChanId) (addr : U32) : Byte × State :=
  if s.raced reader false (addr.setWidth 64) then (Config.freeByte s.env.draws, s.drawn s.env.ports)
  else (s.cardMem.read addr.toNat, s)

/-- The four bytes of a u32 in memory order: `MemWrite(addr, 4, v)` (R72, R75). -/
def u32Bytes (v : U32) : List Byte :=
  [v.extractLsb' 0 8, v.extractLsb' 8 8, v.extractLsb' 16 8, v.extractLsb' 24 8]

end Sys2Proof.Machine
end

