-- ==== Sys2Proof/Machine/Timecode.lean ====
section
/-! DEFINITION. Rates and timecode arithmetic (42_frame_clock.md R210 to R216) and the timecode
readers (R233). -/

namespace Sys2Proof.Machine

/-- fps(r): frames per timecode second (R210); code 7's row is for totality only (R211). -/
def fps (r : BitVec 3) : Nat :=
  match r.toNat with
  | 0 => 24
  | 1 => 25
  | 2 => 30
  | 3 => 30
  | 4 => 24
  | 5 => 30
  | 6 => 30
  | _ => 30

/-- The tick rate a code stands for, rounded up to whole ticks per second (R210). -/
def nominalRate (r : BitVec 3) : Nat :=
  match r.toNat with
  | 0 => 24
  | 1 => 25
  | 2 => 30
  | 3 => 30
  | 4 => 24
  | 5 => 60
  | 6 => 60
  | _ => 30

/-- high(r): the tick rate is above SYNC_RATE_LIMIT (R210, R225). -/
def highRate (r : BitVec 3) : Bool := decide (syncRateLimit < nominalRate r)

/-- Drop-frame counting applies: DF is set and the rate is 29.97 or 59.94 (R212). -/
def dfApplies (t : TC64) (r : BitVec 3) : Bool := tcDf t && (r == 3 || r == 6)

/-- `tc_inc(tc, r)`: one frame forward (R213). The temporaries f, s, m and h are numbers, which do not wrap
at six bits: frame label 63 carries (DESIGN CHOICE, log 28). -/
def tcInc (t : TC64) (r : BitVec 3) : TC64 :=
  let f1 := tcFrames t + 1
  let carryS := decide (fps r ≤ f1)
  let s1 := if carryS then tcSeconds t + 1 else tcSeconds t
  let carryM := carryS && decide (60 ≤ s1)
  let m1 := if carryM then tcMinutes t + 1 else tcMinutes t
  let carryH := carryM && decide (60 ≤ m1)
  let h1 := if carryH then tcHours t + 1 else tcHours t
  let f := if carryS then 0 else f1
  let s := if carryM then 0 else s1
  let m := if carryH then 0 else m1
  let h := if carryH && decide (24 ≤ h1) then 0 else h1
  let skip := dfApplies t r && f == 0 && s == 0 && m % 10 != 0
  tcWithLabel t (if skip then 2 else f) s m h

/-- `tc_dec(tc, r)`: one frame back (R214). -/
def tcDec (t : TC64) (r : BitVec 3) : TC64 :=
  let f := tcFrames t
  let s := tcSeconds t
  let m := tcMinutes t
  let h := tcHours t
  if dfApplies t r && f == 2 && s == 0 && m % 10 != 0 then tcWithLabel t (fps r - 1) 59 (m - 1) h
  else if 0 < f then tcWithLabel t (min f (fps r) - 1) s m h
  else if 0 < s then tcWithLabel t (fps r - 1) (min s 60 - 1) m h
  else if 0 < m then tcWithLabel t (fps r - 1) 59 (min m 60 - 1) h
  else tcWithLabel t (fps r - 1) 59 59 (if 0 < h then min h 24 - 1 else 23)

/-- `tc_inc` n times (R261). -/
def tcIncN : Nat → TC64 → BitVec 3 → TC64
  | 0, t, _ => t
  | n + 1, t, r => tcIncN n (tcInc t r) r

/-- `tc_legal(tc, r)` (R216). -/
def tcLegal (t : TC64) (r : BitVec 3) : Bool :=
  decide (tcFrames t < fps r) && decide (tcSeconds t < 60) && decide (tcMinutes t < 60) &&
    decide (tcHours t < 24) && !t.getLsbD 23 && (t.extractLsb' 27 5 == 0) &&
    !(dfApplies t r && tcSeconds t == 0 && decide (tcFrames t < 2) && tcMinutes t % 10 != 0)

/-- `same(r, g)`: the time, DF and the user bits agree (44_session_commands.md R292). -/
def tcSame (r g : TC64) : Bool :=
  (r.extractLsb' 0 23 == g.extractLsb' 0 23) && (tcDf r == tcDf g) && (hi32 r == hi32 g)

/-- What reading a timecode source gives (R233): a TC64, or one of two results for the caller. -/
inductive Reading where
  | tc (v : TC64)
  | noneAttached
  | err
  deriving DecidableEq, Repr

/-- An answer of the external device as a reading: VALID set on a good read (R233). -/
def Reading.ofAnswer : Option TC64 → Reading
  | some v => .tc (tcSetValid v)
  | none => .err

/-- `read_tc(1)`: wire reader 1 (R233). -/
def State.readWire1 (s : State) : TC64 × State :=
  let d := s.inWire1
  (tcSetValid d.1, d.2)

/-- `read_tc(2)`: wire reader 2 (R233). -/
def State.readWire2 (s : State) : TC64 × State :=
  let d := s.inWire2
  (tcSetValid d.1, d.2)

/-- `read_tc(3)`: the external LTC reader (R233). No call is made when none is attached (R366). -/
def State.readExternal (s : State) : Reading × State :=
  if s.cfg.extGen then
    let d := s.callReadExternal
    (Reading.ofAnswer d.1, d.2)
  else (.noneAttached, s)

/-- `read_tc(4)`: the external generator read-back (R233). -/
def State.readGenerator (s : State) : Reading × State :=
  if s.cfg.extGen then
    let d := s.callReadGenerator
    (Reading.ofAnswer d.1, d.2)
  else (.noneAttached, s)

end Sys2Proof.Machine
end

