-- ==== Sys2Proof/Machine/Pacing.lean ====
section
/-! DEFINITION. The stream pacing engine (43_stream_pacing.md): the accumulator, the drop record, the
freeing step, the playback tick and the capture tick. -/

namespace Sys2Proof.Machine

/-- The accumulator's advance: remainder and step count of acc + speed, computed exactly (R250). -/
def Pacing.advance (p : Pacing) : Pacing :=
  let t := p.acc.toNat + p.speed.toNat
  { p with
    stepCache := BitVec.ofNat 64 (t / speedOne)
    acc := BitVec.ofNat 64 (t % speedOne)
    paced := true }

/-- `pace()`: the tick's step count, computed at most once per tick (R250). -/
def State.pace (s : State) : U64 × State :=
  if s.pacing.paced then (s.pacing.stepCache, s)
  else (s.pacing.advance.stepCache, { s with pacing := s.pacing.advance })

/-- `record_drop()` (R252). -/
def State.recordDrop (s : State) : State :=
  { s with drops := ⟨s.drops.count + 1, s.frameId, s.gen⟩ }

/-! ### Freeing (R253, R254) -/

/-- The value `stamp_and_queue` stores for the external reader: 0 on absence or error (R254). -/
def Reading.stamp : Reading → TC64
  | .tc v => v
  | .noneAttached => 0
  | .err => 0

/-- `stamp_and_queue(i, ap)` (R254). -/
def State.stampAndQueue (s : State) (i : SlotIx) (ap : U64) : State :=
  let d1 := s.readWire1
  let d2 := d1.2.readWire2
  let d3 := d2.2.readExternal
  let s1 := d3.2
  (s1.setMeta i { s1.metaOf i with audpos := ap, tc1 := d1.1, tc2 := d2.1, tc3 := d3.1.stamp }).enqSlot i

/-- The playback half of the freeing step for channel c (R253). -/
def State.freePlayed (s : State) (c : VidChan) : State :=
  match s.lastPb[c] with
  | none => s
  | some i =>
    let s1 := s.freeSlot i
    { s1 with lastPb := s1.lastPb.set c.val none }

/-- The capture half of the freeing step for channel c (R253). -/
def State.queueCaptured (s : State) (ap : U64) (c : VidChan) : State :=
  match s.lastCap[c] with
  | none => s
  | some i =>
    let s1 := s.stampAndQueue i ap
    { s1 with lastCap := s1.lastCap.set c.val none }

/-- The freeing step: AUDPOS sampled once, then the channels in order (R253). -/
def State.freeing (s : State) : State :=
  let d := s.inAudpos
  (List.finRange 2).foldl (fun s c => (s.freePlayed c).queueCaptured d.1 c) d.2

/-! ### Playback (R255 to R259) -/

/-- k discards: each dequeues a slot and frees it (R257). -/
def State.discard : Nat → State → State
  | 0, s => s
  | k + 1, s =>
    match s.deqSlot with
    | (none, s1) => s1
    | (some i, s1) => State.discard k (s1.freeSlot i)

/-- How many slots a playback tick with N ≥ 1 discards (R257). -/
def discardCount (n : U64) (depth : BitVec 7) (nch : BitVec 2) : Nat := min (n.toNat - 1) (depth.toNat - nch.toNat)

/-- The generator override of channel 0's slot (R259). -/
def State.override (s : State) (i : SlotIx) : State :=
  let m := s.metaOf i
  if tcValid m.tc0 then
    ({ s with gen := tcClearF2 (tcClearValid m.tc0) }).setMeta i { m with tc0 := tcClearValid m.tc0 }
  else s

/-- Channel c displays slot i (R258). -/
def State.display (s : State) (c : VidChan) (i : SlotIx) : State :=
  { s with outsel := s.outsel.set c.val (slotSelect i), lastPb := s.lastPb.set c.val (some i) }

/-- A tag mismatch: counted, and the slot freed (R258). -/
def State.tagMismatch (s : State) (i : SlotIx) : State :=
  ({ s with counters := { s.counters with tagerr := s.counters.tagerr + 1 } }).freeSlot i

/-- Playback service of the channels left, with `i0` the slot channel 0 took; the override follows the
last channel (R258, R259). The FIFO is never empty here: depth ≥ nch after the discards. -/
def State.servicePlayback : List VidChan → Option SlotIx → State → State
  | [], none, s => s
  | [], some i0, s => s.override i0
  | c :: cs, i0, s =>
    match s.deqSlot with
    | (none, s1) => s1
    | (some i, s1) =>
      if (s1.metaOf i).chtag = BitVec.ofNat 32 c.val then
        State.servicePlayback cs (if c = 0 then some i else i0) (s1.display c i)
      else s1.tagMismatch i

/-- `playback_tick()` (R255 to R258). -/
def State.playbackTick (s : State) : State :=
  if !s.session.flagPb then s
  else if s.pool.depth.toNat < s.session.nch.toNat then s.recordDrop
  else
    let p := s.pace
    if p.1 = 0 then p.2
    else
      State.servicePlayback (videoChannels s.session.nch) none
        (State.discard (discardCount p.1 p.2.pool.depth s.session.nch) p.2)

/-! ### Capture (R260 to R263) -/

/-- The generator adjustment of a capture tick (R261). -/
def State.adjustGenerator (s : State) (n : U64) : State :=
  if s.genRunning then
    if n = 0 then { s with gen := tcDec s.gen s.tickRate }
    else { s with gen := tcIncN (n.toNat - 1) s.gen s.tickRate }
  else s

/-- The stamp of a freshly allocated capture slot (R262); user, audpos and tc[1] to tc[3] are kept. -/
def State.captureStamp (s : State) (c : VidChan) (n : U64) (m : Meta) : Meta :=
  { m with
    line := s.curFrame.line
    field := (bit1 s.curFrame.field).setWidth 32
    tick := s.curFrame.tick
    hostTs := s.curFrame.hostTs
    chtag := BitVec.ofNat 32 c.val
    incr := lo32 n
    tc0 := s.gen }

/-- Channel c captures into slot i (R262). -/
def State.captureInto (s : State) (c : VidChan) (i : SlotIx) (n : U64) : State :=
  let s1 := { s with insel := s.insel.set c.val (slotSelect i), lastCap := s.lastCap.set c.val (some i) }
  s1.setMeta i (s1.captureStamp c n (s1.metaOf i))

/-- A failed allocation: counted (R263). -/
def State.captureFailed (s : State) : State :=
  { s with counters := { s.counters with capfail := s.counters.capfail + 1 } }

/-- Allocation and stamping for the channels left; the first failure ends the tick (R262, R263). -/
def State.serviceCapture : List VidChan → U64 → State → State
  | [], _, s => s
  | c :: cs, n, s =>
    match s.allocSlot with
    | (none, s1) => s1.captureFailed
    | (some i, s1) => State.serviceCapture cs n (s1.captureInto c i n)

/-- `capture_tick()` (R260 to R263). -/
def State.captureTick (s : State) : State :=
  if !s.session.flagCap then s
  else if s.session.poolSize.toNat - s.pool.depth.toNat ≤ s.session.nch.toNat then s.recordDrop
  else
    let p := s.pace
    State.serviceCapture (videoChannels s.session.nch) p.1 (p.2.adjustGenerator p.1)

end Sys2Proof.Machine
end

