-- ==== Sys2Proof/Machine/FrameClock.lean ====
section
/-! DEFINITION. The frame clock (42_frame_clock.md): the eleven steps of the field-1 sequence, each one
atomic phase, and the field-2 step. -/

namespace Sys2Proof.Machine

/-- The rate sampled into `tick_rate`; the reserved code raises U8 and the tick goes on (R210, R211). -/
def State.sampleRate (s : State) : State :=
  let d := s.inRate
  let s1 := { d.2 with tickRate := d.1 }
  if d.1 = 7 then s1.raise (.u8 s1.frameId d.1) else s1

/-- F1(1): frame id and rate (R218). -/
def State.stepFrameId (s : State) : State := ({ s with frameId := s.frameId + 1 }).sampleRate

/-- F1(2): generator advance; F2 is cleared whether or not the generator runs (R219). -/
def State.stepGenerator (s : State) : State :=
  { s with gen := tcClearF2 (if s.genRunning then tcInc s.gen s.tickRate else s.gen) }

/-- The deferred trigger of F1(3) (R220). -/
def RunCtl.trigger (r : RunCtl) (frame : U64) : RunCtl :=
  if r.trigArmed && r.trigId == frame then { r with running := true, trigArmed := false } else r

/-- The request applied at F1(3) (R220); a pending CLOSE is used up by STOP. -/
def RunCtl.applyReq (r : RunCtl) : RunCtl :=
  match r.req with
  | .none => r
  | .run => { r with running := true, req := .none }
  | .stop => { r with running := false, trigArmed := false, closePending := false, req := .none }

/-- CLOSE ends the session at this boundary (R220). -/
def RunCtl.closes (r : RunCtl) : Bool := decide (r.req = .stop) && r.closePending

/-- Every caller waiting in state `o` completes OK (R220, R227). -/
def State.wakeAll (s : State) (o : Op) : State :=
  { s with banks := mapVector (fun x => if x.op = o then x.complete .ok else x) s.banks }

/-- F1(3): deferred trigger, then the pending start, stop or close; START and STOP complete (R220). -/
def State.stepBoundary (s : State) : State :=
  ({ s with
     run := (s.run.trigger s.frameId).applyReq
     session := { s.session with valid := s.session.valid && !s.run.closes } }).wakeAll .waitBoundary

/-- F1(4): the current-frame snapshot; FIELD is 0 here (R221). -/
def State.stepSnapshot (s : State) : State :=
  let d1 := s.inLine
  let d2 := d1.2.inTick
  let d3 := d2.2.inHostTs
  { d3.2 with curFrame := ⟨d1.1, false, d2.1, d3.1⟩ }

/-- The pending audio trigger of F1(6) (R223). -/
def State.audioTrigger (s : State) : State :=
  if s.audio.trigPending then
    ({ s with audio := { s.audio with running := true, trigPending := false } }).emit .audioStart
  else s

/-- F1(6): stream service (R223). -/
def State.stepService (s : State) : State :=
  if s.run.running && s.session.valid then s.audioTrigger.playbackTick.captureTick else s

/-- The timecode F1(7) pushes: one frame ahead if the generator runs (R224). -/
def State.nextTimecode (s : State) : TC64 := if s.genRunning then tcInc s.gen s.tickRate else s.gen

/-- F1(7): wire push; `gen` is unchanged (R224). -/
def State.stepWirePush (s : State) : State :=
  (s.emit (.wireW1 (tcWire s.nextTimecode))).emit (.wireW2 (tcWire s.nextTimecode))

/-- The tick qualifies for external synchronisation (R225). -/
def State.syncTick (s : State) : Bool :=
  s.cfg.extGen && (!highRate s.tickRate || decide (s.frameId.toNat % 2 = 0))

/-- F1(8): external-generator synchronisation (R225). -/
def State.stepExtSync (s : State) : State :=
  if s.syncTick then ((s.emit (.extWrite (tcWire s.gen))).emit (.extSync true)).emit (.extSync false) else s

/-- F1(9): serial notification (R226). -/
def State.stepSerial (s : State) : State := s.emit (.serial (tcWire s.gen))

/-- F1(10): frame wake-up (R227). -/
def State.stepWake (s : State) : State := s.wakeAll .waitFrame

/-- F1(11): audio countdown, decrement then test (R228). -/
def State.stepAudio (s : State) : State :=
  if s.audio.armed then
    let n := if s.audio.count = 0 then s.audio.count else s.audio.count - 1
    if n = 0 then
      ({ s with audio := { s.audio with count := n, running := false, armed := false } }).emit .audioStop
    else if s.audio.running then { s with audio := { s.audio with count := n } }
    else ({ s with audio := { s.audio with count := n, running := true } }).emit .audioStart
  else s

/-- The end of a field-1 tick: `paced <- 0`, and control returns to the pass (R229, R334). -/
def State.tickEnd (s : State) : State :=
  ({ s with pacing := { s.pacing with paced := false } }).passEnd

/-- The sequencer moves on to a step (R25). -/
def State.goto (s : State) (n : F1Step) : State := { s with pc := .f1 n }

/-- One phase of the field-1 sequence, with the sequencer's advance (R25, R218 to R229). -/
def State.f1Phase (n : F1Step) (s : State) : State :=
  match n with
  | .frameId => s.stepFrameId.goto .generator
  | .generator => s.stepGenerator.goto .boundary
  | .boundary => s.stepBoundary.goto .snapshot
  | .snapshot => s.stepSnapshot.goto .freeing
  | .freeing => s.freeing.goto .service
  | .service => s.stepService.goto .wirePush
  | .wirePush => s.stepWirePush.goto .extSync
  | .extSync => s.stepExtSync.goto .serial
  | .serial => s.stepSerial.goto .wake
  | .wake => s.stepWake.goto .audio
  | .audio => s.stepAudio.tickEnd

/-- F2: the field-2 step (R230). -/
def State.f2Phase (s : State) : State :=
  let s1 := s.sampleRate
  (if s1.genRunning then { s1 with gen := tcSetF2 s1.gen } else s1).passEnd

end Sys2Proof.Machine
end

