-- ==== Sys2Proof/Machine/ClockCommands.lean ====
section
/-! DEFINITION. The pacing and frame-clock commands SETSPEED, GETSPEED, FRAMEID, FRAMEREC, WAITFRAME and
DROPS (44_session_commands.md R285, R286, R288 to R291). -/

namespace Sys2Proof.Machine

/-- SETSPEED (R285): 0 to MAX_SPEED; the accumulator is not touched. -/
def execSetspeed (b : BankId) (s : State) : Answered :=
  if s.cfg.maxSpeed < (s.bank b).arg0.toNat then .next (s.finish b .invalid)
  else .next (({ s with pacing := { s.pacing with speed := (s.bank b).arg0 } }).finish b .ok)

/-- GETSPEED (R286). -/
def execGetspeed (b : BankId) (s : State) : Answered := .next (s.finishRes0 b s.pacing.speed)

/-- FRAMEID (R288). -/
def execFrameid (b : BankId) (s : State) : Answered := .next (s.finishRes0 b s.frameId)

/-- FRAMEREC (R289): the four fields of one snapshot. -/
def execFramerec (b : BankId) (s : State) : Answered :=
  .next (s.setBank b
    ({ s.bank b with
       res0 := s.curFrame.line.setWidth 64
       res1 := (bit1 s.curFrame.field).setWidth 64
       res2 := s.curFrame.tick
       res3 := s.curFrame.hostTs }.complete .ok))

/-- WAITFRAME (R290): waits for the next field-1 tick; its operand is read by no rule. -/
def execWaitframe (b : BankId) (s : State) : Answered := .next (s.hold b .waitFrame)

/-- DROPS (R291). -/
def execDrops (b : BankId) (s : State) : Answered :=
  .next (s.setBank b
    ({ s.bank b with res0 := s.drops.count, res1 := s.drops.lastId, res2 := s.drops.lastTc }.complete .ok))

end Sys2Proof.Machine
end

