-- ==== Sys2Proof/Machine/Builder.lean ====
section
/-! DEFINITION. The descriptor-list builder as pure functions (40_descriptor_builder.md R144, R145, R147,
R149 to R151, R168), and what a chain in memory means (R148). -/

namespace Sys2Proof.Machine

/-! ### Page range and scatter list (R144, R145) -/

/-- The first page index of a buffer (R144). -/
def firstPage (pageSize : Nat) (a : U64) : Nat := a.toNat / pageSize

/-- The number of pages a buffer covers (R144). -/
def pageCount (pageSize : Nat) (a len : U64) : Nat :=
  (a.toNat + len.toNat - 1) / pageSize - firstPage pageSize a + 1

/-- The scatter entries of the pages left: `rem` bytes from offset `off` of the first (R145). -/
def scatterFrom (pageSize rem off : Nat) : List PageHandle → List ScatterEntry
  | [] => []
  | p :: ps =>
    let l := min rem (pageSize - off)
    ⟨p, off, l⟩ :: scatterFrom pageSize (rem - l) 0 ps

/-- The scatter list of a buffer over its pinned pages (R145). -/
def scatterList (pageSize : Nat) (a len : U64) (pages : List PageHandle) : List ScatterEntry :=
  scatterFrom pageSize len.toNat (a.toNat % pageSize) pages

/-! ### The merge pass (R147) -/

/-- The last byte's bus address of a run. -/
def runLast (r : Run) : U64 := r.bus + r.len - 1

/-- Run `r` merges into `cur`: adjacent, bounded, and not across a 4 GiB boundary (R147). -/
def mergeable (p : Params) (cur r : Run) : Bool :=
  p.mergeEnable && (cur.bus + cur.len == r.bus) &&
    decide (cur.len.toNat + r.len.toNat ≤ p.maxMergeBytes) && (hi32 cur.bus == hi32 (runLast r))

/-- The merge pass with `cur` the last run so far (R147). -/
def mergeInto (p : Params) (cur : Run) : List Run → List Run
  | [] => [cur]
  | r :: rs =>
    if mergeable p cur r then mergeInto p ⟨cur.bus, cur.len + r.len⟩ rs
    else cur :: mergeInto p r rs

/-- The merge pass (R147). -/
def mergeRuns (p : Params) : List Run → List Run
  | [] => []
  | r :: rs => mergeInto p r rs

/-! ### Descriptor records (30_encoding.md R111; R149 to R151) -/

/-- A descriptor record's fields (R111). -/
structure Descriptor where
  host : U64
  card : U32
  ctrl : U32
  next : U64
  deriving DecidableEq, Repr

/-- CTRL: DIR, A64, WORDS (R111, R150, R151). -/
def ctrlOf (dir : Bool) (r : Run) : U32 :=
  bit1 dir ++ bit1 (hi32 r.bus != 0) ++ BitVec.ofNat 30 (r.len.toNat / wordBytes)

/-- The records of the runs left, the first at bus address `d`, covering the card from `card` (R149). -/
def chainFrom (dir : Bool) (d : U64) (card : U32) : List Run → List Descriptor
  | [] => []
  | r :: rs =>
    ⟨r.bus, card, ctrlOf dir r, if rs.isEmpty then 0 else d + BitVec.ofNat 64 descSize⟩ ::
      chainFrom dir (d + BitVec.ofNat 64 descSize) (card + lo32 r.len) rs

/-- The eight words of a record, at offsets 0x00 to 0x1C (R111, R149). -/
def Descriptor.words (d : Descriptor) : List U32 :=
  [lo32 d.host, hi32 d.host, d.card, d.ctrl, lo32 d.next, hi32 d.next, 0, 0]

/-- The 32 bytes of a record in memory order (R111). -/
def Descriptor.bytes (d : Descriptor) : List Byte := d.words.flatMap u32Bytes

/-- `BUILD(dir, co, runs, base)`: the records, after the merge pass (R168). -/
def buildChain (p : Params) (dir : Bool) (co : U32) (runs : List Run) (base : U64) : List Descriptor :=
  chainFrom dir base co (mergeRuns p runs)

/-- The byte image of `BUILD` (R168). -/
def buildImage (p : Params) (dir : Bool) (co : U32) (runs : List Run) (base : U64) : List Byte :=
  (buildChain p dir co runs base).flatMap Descriptor.bytes

/-- The bits [63:32] of a run's first and last address differ: it crosses a 4 GiB boundary (R150). -/
def runCrosses (r : Run) : Bool := hi32 r.bus != hi32 (runLast r)

/-- The model faults of one merged run: U6 for an address above 4 GiB, U7 for a length that does not fit
WORDS (R150). -/
def runFaults (p : Params) (k : ChanId) (r : Run) : List ModelFault :=
  (if hi32 r.bus != 0 && !p.dma64 then [.u6 k r.bus] else []) ++
    (if 2 ^ 30 ≤ r.len.toNat / wordBytes then [.u7 k r.bus r.len] else [])

/-- The model faults of a build: U5 for a storage overrun, U6 and U7 per merged run, and U7 for a mapped
run that crosses a 4 GiB boundary (R147, R150). -/
def buildFaults (p : Params) (k : ChanId) (runs : List Run) : List ModelFault :=
  let m := mergeRuns p runs
  (if p.descCap < m.length then [.u5 k m.length] else []) ++ m.flatMap (runFaults p k) ++
    (runs.filter runCrosses).map (fun r => .u7 k r.bus r.len)

/-- Several faults raised in order. -/
def State.raiseAll (s : State) (fs : List ModelFault) : State := fs.foldl State.raise s

/-! ### What a chain means (R148) -/

/-- WORDS of a CTRL word, bits [29:0] (R111). -/
def ctrlWords (w : U32) : Nat := (w.extractLsb' 0 30).toNat

/-- The move a record at bus address `d` denotes (R148). -/
def moveAt (m : Memory) (d : U64) : Move :=
  let ctrl := m.readU32 (d + 0x0C)
  ⟨m.readU32 (d + 4) ++ m.readU32 d, m.readU32 (d + 8), ctrlWords ctrl * wordBytes, ctrl.getLsbD 31⟩

/-- NEXT of a record at bus address `d` (R111). -/
def nextAt (m : Memory) (d : U64) : U64 := m.readU32 (d + 0x14) ++ m.readU32 (d + 0x10)

/-- The bus addresses of the records of the chain at `d`, ending with the first record whose NEXT is 0
(R148); `fuel` bounds a chain that never ends. -/
def chainRecords (m : Memory) : Nat → U64 → List U64
  | 0, _ => []
  | fuel + 1, d => d :: (if nextAt m d = 0 then [] else chainRecords m fuel (nextAt m d))

/-- The moves of the chain at `d`, in chain order (R148). -/
def chainMoves (m : Memory) (fuel : Nat) (d : U64) : List Move := (chainRecords m fuel d).map (moveAt m)

/-- `n` bytes copied by channel k from the card to the host (R148, DIR = 1). -/
def State.copyToHost (k : ChanId) : Nat → U64 → U32 → State → State
  | 0, _, _, s => s
  | n + 1, h, c, s =>
    let d := s.loadCard (some k) c
    State.copyToHost k n (h + 1) (c + 1) (d.2.storeHost h d.1)

/-- `n` bytes copied by channel k from the host to the card (R148, DIR = 0). -/
def State.copyToCard (k : ChanId) : Nat → U64 → U32 → State → State
  | 0, _, _, s => s
  | n + 1, h, c, s =>
    let d := s.loadHost (some k) h
    State.copyToCard k n (h + 1) (c + 1) (d.2.storeCard c d.1)

/-- One move done by channel k (R148). -/
def State.doMove (k : ChanId) (s : State) (mv : Move) : State :=
  if mv.dir then State.copyToHost k mv.bytes mv.host mv.card s
  else State.copyToCard k mv.bytes mv.host mv.card s

end Sys2Proof.Machine
end

