-- ==== Sys2Proof/Machine/Transfer.lean ====
section
/-! DEFINITION. The XFER command and its phases, and the transfer channels (40_descriptor_builder.md
R141 to R168). -/

namespace Sys2Proof.Machine

/-! ### Validation and acquisition (R142, R143) -/

/-- What validation finds (R142). -/
inductive XferCheck where
  | pass
  | invalid
  /-- The address or the length is not a whole number of words: U4, then INVALID. -/
  | unaligned
  deriving DecidableEq, Repr

/-- XFER validation, in R142's order. -/
def checkXfer (p : Params) (r : XferReq) : XferCheck :=
  if r.addr = 0 then .invalid
  else if r.len.toNat < minXferBytes then .invalid
  else if 2 ^ hostAddrBits ≤ r.addr.toNat + r.len.toNat then .invalid
  else if p.maxPages < pageCount p.pageSize r.addr r.len then .invalid
  else if p.numXferCh ≤ r.hint.toNat then .invalid
  else if 2 ^ cardAddrBits < r.card.toNat + r.len.toNat then .invalid
  else if r.addr.toNat % wordBytes ≠ 0 ∨ r.len.toNat % wordBytes ≠ 0 then .unaligned
  else .pass

/-- The channel a hint names (R101: two bits). -/
def hintChannel (h : BitVec 2) : ChanId := h.toFin

/-- The search order: the hint, then the others in ascending order (R143). -/
def channelOrder (p : Params) (h : ChanId) : List ChanId :=
  h :: (List.finRange 4).filter (fun j => decide (j.val < p.numXferCh) && decide (j ≠ h))

/-- The first channel in the order whose token is free (R143). -/
def State.findChannel (s : State) (h : ChanId) : Option ChanId :=
  (channelOrder s.cfg h).find? (fun k => !(s.chan k).token)

/-- The token taken for bank b (R143). -/
def State.acquire (s : State) (k : ChanId) (b : BankId) : State :=
  s.setChan k { s.chan k with token := true, owner := some b }

/-! ### Timestamps (R163) -/

/-- `ts(k)[j] <- in HOST_TS`. -/
def State.stampTs (s : State) (k : ChanId) (j : Fin 6) : State :=
  let d := s.inHostTs
  d.2.setChan k { d.2.chan k with ts := (d.2.chan k).ts.set j.val d.1 }

/-! ### The command: phase X1 (R141) -/

/-- The request of an XFER of bank b, operands read at acceptance (R102, R140). -/
def State.xferReq (s : State) (b : BankId) (dir : Bool) (hint : BitVec 2) : XferReq :=
  ⟨dir, hint, (s.bank b).arg0, (s.bank b).arg1, lo32 (s.bank b).arg2⟩

/-- Phase X1 after validation: acquire, or BUSY (R143). -/
def State.xferStart (s : State) (b : BankId) (r : XferReq) : State :=
  match s.findChannel (hintChannel r.hint) with
  | none => s.finish b .busy
  | some k => ((s.acquire k b).stampTs k 0).hold b (.xfer .x2 k r)

/-- XFER (R141). ARG2[63:32] must be 0, checked before any operand value (R105). -/
def execXfer (b : BankId) (dir : Bool) (hint : BitVec 2) (s : State) : Answered :=
  if hi32 (s.bank b).arg2 ≠ 0 then .next (s.finish b .illegal)
  else
    let r := s.xferReq b dir hint
    match checkXfer s.cfg r with
    | .pass => .next (s.xferStart b r)
    | .invalid => .next (s.finish b .invalid)
    | .unaligned => .next ((s.raise (.u4 b r.addr r.len)).finish b .invalid)

/-! ### Phases X2 to X6 -/

/-- The transfer record cleared and the token released; `ts(k)` and the channel registers are kept
(R46, R146, R152, R161). -/
def Channel.release (c : Channel) : Channel :=
  { c with token := false, owner := none, pages := [], sg := [], runs := [] }

/-- The transfer of bank b in a phase. -/
def State.setXferPhase (s : State) (b : BankId) (ph : XferPhase) (k : ChanId) (r : XferReq) : State :=
  s.setBank b { s.bank b with op := .xfer ph k r }

/-- Phase X2: pin the pages and build the scatter list (R144 to R146). -/
def State.xferPin (s : State) (b : BankId) (k : ChanId) (r : XferReq) : State :=
  let np := pageCount s.cfg.pageSize r.addr r.len
  let d := s.callPin r.addr (firstPage s.cfg.pageSize r.addr) np
  match d.1 with
  | none => (d.2.setChan k (d.2.chan k).release).finish b .invalid
  | some pages =>
    (d.2.setChan k { d.2.chan k with pages := pages, sg := scatterList s.cfg.pageSize r.addr r.len pages }).setXferPhase
      b .x3 k r

/-- The mapping breaks the collaborator's contract (R152, R366). The sum of the runs' lengths is exact, not
modulo 2^64 (DESIGN CHOICE, log 30). -/
def mapBroken (np : Nat) (len : U64) (runs : List Run) : Bool :=
  decide ((runs.map (fun r => r.len.toNat)).sum ≠ len.toNat) || decide (np < runs.length) ||
    runs.any (fun r => r.len == 0)

/-- Phase X3: map the scatter list for the bus (R152). -/
def State.xferMap (s : State) (b : BankId) (k : ChanId) (r : XferReq) : State :=
  let d := s.callMap (s.chan k).sg r.dir
  if d.1.isEmpty then
    let s1 := d.2.emit (.hmmUnpin (s.chan k).pages false)
    (s1.setChan k (s1.chan k).release).finish b .busy
  else
    let s1 := if mapBroken (pageCount s.cfg.pageSize r.addr r.len) r.len d.1 then d.2.raise (.u10 k) else d.2
    (s1.setChan k { s1.chan k with runs := d.1 }).setXferPhase b .x4 k r

/-- The channel registers of R153, in R154's order; GO comes last. -/
def State.programChannel (s : State) (k : ChanId) (r : XferReq) : State :=
  s.setChan k { s.chan k with head := s.cfg.descBase[k], card := r.card, len := r.len, dir := r.dir }

/-- GO set, with no move done, no DONE raised and no record tampered with (R153). -/
def State.startChannel (s : State) (k : ChanId) : State :=
  s.setChan k { s.chan k with go := true, moved := false, reported := false, tampered := false }

/-- Phase X4: build the chain and program the channel, one atomic step (R153). -/
def State.xferProgram (s : State) (b : BankId) (k : ChanId) (r : XferReq) : State :=
  let s1 := s.raiseAll (buildFaults s.cfg k (s.chan k).runs)
  let s2 := s1.storeBytes s.cfg.descBase[k] (buildImage s.cfg r.dir r.card (s.chan k).runs s.cfg.descBase[k])
  let s3 := ((s2.programChannel k r).stampTs k 1).stampTs k 2
  (s3.startChannel k).setXferPhase b .x5 k r

/-- The end of the wait X5 with an outcome: transfer stop, and on to X6 (R155). -/
def State.xferStop (s : State) (b : BankId) (k : ChanId) (r : XferReq) (o : XferOutcome) : State :=
  (s.stampTs k 3).setXferPhase b (.x6 o) k r

/-- Phase X5: the hold is lifted once GO(k) = 0 (R155). -/
def State.xferWait (s : State) (b : BankId) (k : ChanId) (r : XferReq) : State :=
  if (s.chan k).go then s else s.xferStop b k r .ok

/-- `GO(k) <- 0`: forced off by a timeout or signal (R157, R158), or cleared by the completion
(45_interrupt_dispatcher.md R329). -/
def State.forceOff (s : State) (k : ChanId) : State := s.setChan k { s.chan k with go := false }

/-- A timeout or signal at phase X5: it decides the wait only while GO(k) = 1 (R155, R157, R158). -/
def State.xferBreak (s : State) (b : BankId) (k : ChanId) (r : XferReq) (o : XferOutcome) : State :=
  if (s.chan k).go then (s.forceOff k).xferStop b k r o else s

/-- The end of a transfer: RES0 = L when OK, otherwise unchanged (R162). -/
def State.xferResult (s : State) (b : BankId) (r : XferReq) (o : XferOutcome) : State :=
  match o with
  | .ok => s.finishRes0 b r.len
  | .timeout => s.finish b .timeout
  | .interrupted => s.finish b .interrupted

/-- Phase X6: unmap, unpin, release, complete; one atomic step (R159 to R162). -/
def State.xferCleanup (s : State) (b : BankId) (k : ChanId) (r : XferReq) (o : XferOutcome) : State :=
  let s1 := s.stampTs k 4
  let s2 := (s1.emit (.hmmUnmap (s1.chan k).runs)).emit (.hmmUnpin (s1.chan k).pages r.dir)
  let s3 := s2.stampTs k 5
  (s3.setChan k (s3.chan k).release).xferResult b r o

/-- HOST(b) takes the next phase of its running transfer; with none running it has no step (R141). -/
def State.callerStep (s : State) (b : BankId) : State :=
  match (s.bank b).op with
  | .none => s
  | .waitBoundary => s
  | .waitFrame => s
  | .xfer .x2 k r => s.xferPin b k r
  | .xfer .x3 k r => s.xferMap b k r
  | .xfer .x4 k r => s.xferProgram b k r
  | .xfer .x5 k r => s.xferWait b k r
  | .xfer (.x6 o) k r => s.xferCleanup b k r o

/-- `@TIMEOUT b` and `@SIGNAL b`: they affect only a caller in X5 or in WAIT_FRAME (R165;
44_session_commands.md R297). -/
def State.callerEvent (s : State) (b : BankId) (o : XferOutcome) : State :=
  match (s.bank b).op with
  | .none => s
  | .waitBoundary => s
  | .waitFrame => s.finish b o.code
  | .xfer .x2 _ _ => s
  | .xfer .x3 _ _ => s
  | .xfer .x4 _ _ => s
  | .xfer .x5 k r => s.xferBreak b k r o
  | .xfer (.x6 _) _ _ => s

/-! ### The channel agents (R166) -/

/-- The records of channel k's chain (R148). -/
def State.recordsOf (s : State) (k : ChanId) : List U64 :=
  chainRecords s.hostMem (s.cfg.descCap + (s.chan k).runs.length) (s.chan k).head

/-- The chain may read as any value: a record was written while GO = 1 (R91), or a record lies in the
destination range of another channel's running transfer (R88). -/
def State.chainFree (s : State) (k : ChanId) : Bool :=
  (s.chan k).tampered || (s.recordsOf k).any fun d =>
    (List.range descSize).any fun i => s.raced (some k) true (d + BitVec.ofNat 64 i)

/-- The moves of channel k's chain (R148), or any moves (R91, R88). -/
def State.chainOf (s : State) (k : ChanId) : List Move :=
  if s.chainFree k then Config.freeMoves s.env.draws else (s.recordsOf k).map (moveAt s.hostMem)

/-- A free chain uses up a draw. -/
def State.countChain (s : State) (k : ChanId) : State :=
  if s.chainFree k then s.drawn s.env.ports else s

/-- CHAN(k) performs its chain's moves while GO(k) = 1, if the destination does not hold their result
already (R148, R166). -/
def State.performChain (s : State) (k : ChanId) : State :=
  if (s.chan k).go && !(s.chan k).moved then
    let s1 := (s.chainOf k).foldl (State.doMove k) (s.countChain k)
    s1.setChan k { s1.chan k with moved := true }
  else s

/-- Channel k's transfer was ended by a timeout or a signal and is not yet cleaned up (R157, R158). -/
def State.aborted (s : State) (k : ChanId) : Bool :=
  match (s.chan k).owner with
  | none => false
  | some b =>
    match (s.bank b).op with
    | .xfer (.x6 o) k' _ => decide (k' = k) && decide (o ≠ .ok)
    | _ => false

/-- One byte of a transfer's destination: host memory when the direction is card to host (R88). -/
def State.storeDestination (s : State) (dir : Bool) (addr : U64) (v : Byte) : State :=
  if dir then s.storeHost addr v else s.storeCard (lo32 addr) v

/-- A byte of the destination range takes any value while GO(k) = 1, so that the moves are still to be
done, and after a timeout or a signal has ended the transfer (R88, R166). -/
def State.spoil (s : State) (k : ChanId) (addr : U64) (v : Byte) : State :=
  if ((s.chan k).go || s.aborted k) && (s.chan k).inDestination addr then
    let s1 := s.storeDestination (s.chan k).dir addr v
    s1.setChan k { s1.chan k with moved := false }
  else s

/-- DONE_k raised: by CHAN(k) while GO(k) = 1 (R166); by ENV when the channel does not exist
(45_interrupt_dispatcher.md R335). It sets a status bit (R115); that the running transfer has raised it is
the model's own record (log 10). -/
def State.raiseDone (s : State) (k : ChanId) : State :=
  if k.val < s.cfg.numXferCh then
    if (s.chan k).go then (s.setChan k { s.chan k with reported := true }).latch (doneSource k) else s
  else s.latch (doneSource k)

/-- The last moment of channel k's transfer: GO is about to be cleared by the completion the transfer has
raised, and what moves are still to be done are done by then (R88, R148; log 10). -/
def State.settle (s : State) (k : ChanId) : State :=
  if (s.chan k).reported then s.performChain k else s

/-- BUSERR raised by CHAN(k) while GO(k) = 1 (R166). -/
def State.raiseChanBuserr (s : State) (k : ChanId) : State := if (s.chan k).go then s.latch 0 else s

end Sys2Proof.Machine
end

