-- ==== Sys2Proof/Machine/Dispatcher.lean ====
section
/-! DEFINITION. The nine interrupt handlers (45_interrupt_dispatcher.md R326, R328 to R334). Each is the
whole of one dispatcher step: the source is taken out of the pass, its handler runs, and the pass goes
on or ends; OUTVERT hands over to the frame clock instead. -/

namespace Sys2Proof.Machine

/-- The counters changed. -/
def State.count (s : State) (c : Counters) : State := { s with counters := c }

/-- BUSERR: counted; no transfer is stopped and no result changed (R328). -/
def execIrqBuserr (s : State) : Answered :=
  let s1 := s.takeSource 0
  .next (s1.count { s1.counters with buserr := s1.counters.buserr + 1 }).passEnd

/-- DONE k: GO(k) cleared, or a spurious completion counted (R329, R330). With GO the destination's race
ends, so the moves of a transfer that has raised this completion are done (R88, R148; log 10); a late
completion of an earlier transfer leaves them as they are (R167). -/
def State.handleDone (s : State) (k : ChanId) : State :=
  if decide (k.val < s.cfg.numXferCh) && (s.chan k).go then (s.settle k).forceOff k
  else s.count { s.counters with spuriousDone := s.counters.spuriousDone + 1 }

/-- DONE0 (R329). -/
def execIrqDone0 (s : State) : Answered := .next (((s.takeSource 1).handleDone 0).passEnd)

/-- DONE1 (R329). -/
def execIrqDone1 (s : State) : Answered := .next (((s.takeSource 2).handleDone 1).passEnd)

/-- DONE2 (R329). -/
def execIrqDone2 (s : State) : Answered := .next (((s.takeSource 3).handleDone 2).passEnd)

/-- DONE3 (R329). -/
def execIrqDone3 (s : State) : Answered := .next (((s.takeSource 4).handleDone 3).passEnd)

/-- OUTVERT: FIELD sampled; the tick's phases follow as the dispatcher's next steps (R331,
42_frame_clock.md R217). -/
def execIrqOutvert (s : State) : Answered :=
  let d := (s.takeSource 5).inField
  .next { d.2 with pc := if d.1 then .f2 else .f1 .frameId }

/-- INVERT0: counted (R332). -/
def execIrqInvert0 (s : State) : Answered :=
  let s1 := s.takeSource 6
  .next (s1.count { s1.counters with invert0 := s1.counters.invert0 + 1 }).passEnd

/-- INVERT1: counted (R332). -/
def execIrqInvert1 (s : State) : Answered :=
  let s1 := s.takeSource 7
  .next (s1.count { s1.counters with invert1 := s1.counters.invert1 + 1 }).passEnd

/-- WRAP: counted (R333). -/
def execIrqWrap (s : State) : Answered :=
  let s1 := s.takeSource 8
  .next (s1.count { s1.counters with wrap := s1.counters.wrap + 1 }).passEnd

end Sys2Proof.Machine
end

