-- ==== Sys2Proof/Machine/PoolCommands.lean ====
section
/-! DEFINITION. The pool commands (41_pool_fifo.md R185 to R192). Each completes in its acceptance step. -/

namespace Sys2Proof.Machine

/-- ALLOC (R186): take a free slot, or BUSY. -/
def execAlloc (b : BankId) (s : State) : Answered :=
  match s.allocSlot with
  | (none, s1) => .next (s1.finish b .busy)
  | (some i, s1) => .next (s1.finishRes0 b (slotResult i))

/-- FREE i (R187). -/
def execFree (b : BankId) (slot : BitVec 16) (s : State) : Answered :=
  if slotValid s slot then .next ((s.freeSlot (slotOperand slot)).finish b .ok)
  else .next (s.finish b .invalid)

/-- ENQ i (R188). -/
def execEnq (b : BankId) (slot : BitVec 16) (s : State) : Answered :=
  if slotValid s slot then .next ((s.enqSlot (slotOperand slot)).finish b .ok)
  else .next (s.finish b .invalid)

/-- DEQ (R189): take the head of the ready-FIFO, or EMPTY. -/
def execDeq (b : BankId) (s : State) : Answered :=
  match s.deqSlot with
  | (none, s1) => .next (s1.finish b .empty)
  | (some i, s1) => .next (s1.finishRes0 b (slotResult i))

/-- DEPTH (R190). -/
def execDepth (b : BankId) (s : State) : Answered := .next (s.finishRes0 b (s.pool.depth.setWidth 64))

/-- MDGET i (R191): the record copied to the bank's MDBUF, whatever the slot's state. -/
def execMdget (b : BankId) (slot : BitVec 16) (s : State) : Answered :=
  if slotValid s slot then
    .next (s.setBank b ({ s.bank b with mdbuf := s.metaOf (slotOperand slot) }.complete .ok))
  else .next (s.finish b .invalid)

/-- MDSET i (R192): the record replaced with the bank's MDBUF, whatever the slot's state. -/
def execMdset (b : BankId) (slot : BitVec 16) (s : State) : Answered :=
  if slotValid s slot then .next ((s.setMeta (slotOperand slot) (s.bank b).mdbuf).finish b .ok)
  else .next (s.finish b .invalid)

end Sys2Proof.Machine
end

