-- ==== Sys2Proof/Machine/SessionCommands.lean ====
section
/-! DEFINITION. The session commands INIT, START, STOP, CLOSE and SETTRIG (44_session_commands.md R280
to R284, R287). -/

namespace Sys2Proof.Machine

/-- INIT's checks (R280): no stream running and no request pending, one or two channels, a pool that
fits, a source code 0 to 3, and audio present when the audio trigger is asked for. -/
def initAccepted (s : State) (aud : Bool) (pool : BitVec 8) (nch src : BitVec 4) : Bool :=
  !s.run.running && decide (s.run.req = .none) && (nch == 1 || nch == 2) &&
    decide (1 ≤ pool.toNat) && decide (pool.toNat ≤ s.cfg.poolMax) && decide (src.toNat ≤ 3) &&
    (!aud || s.cfg.hasAudio)

/-- What INIT writes (R280, 41_pool_fifo.md R194). -/
def State.initSession (s : State) (cap pb aud : Bool) (pool : BitVec 8) (nch src : BitVec 4) : State :=
  { s with
    pool := Pool.clear
    session := ⟨true, cap, pb, aud, nch.setWidth 2, pool.setWidth 7, src⟩
    pacing := { s.pacing with speed := BitVec.ofNat 64 speedOne, acc := 0 }
    drops := ⟨0, 0, 0⟩
    lastPb := Vector.replicate 2 none
    lastCap := Vector.replicate 2 none
    run := { s.run with trigArmed := false, trigId := 0 }
    audio := { s.audio with trigPending := aud } }

/-- INIT (R280). -/
def execInit (b : BankId) (cap pb aud : Bool) (pool : BitVec 8) (nch src : BitVec 4) (s : State) : Answered :=
  if initAccepted s aud pool nch src then .next ((s.initSession cap pb aud pool nch src).finish b .ok)
  else .next (s.finish b .invalid)

/-- The run state asked for at the next boundary (R281 to R283). -/
def State.ask (s : State) (q : RunReq) : State := { s with run := { s.run with req := q } }

/-- START (R281): waits for the next field-1 boundary. -/
def execStart (b : BankId) (s : State) : Answered :=
  if !s.session.valid || s.run.closePending then .next (s.finish b .invalid)
  else .next ((s.ask .run).hold b .waitBoundary)

/-- STOP (R282): waits for the next field-1 boundary. -/
def execStop (b : BankId) (s : State) : Answered :=
  if !s.session.valid then .next (s.finish b .invalid)
  else .next ((s.ask .stop).hold b .waitBoundary)

/-- CLOSE (R283): does not wait. -/
def execClose (b : BankId) (s : State) : Answered :=
  if s.session.valid then
    .next (({ s with run := { s.run with req := .stop, closePending := true } }).finish b .ok)
  else .next (s.finish b .ok)

/-- SETTRIG (R287): a deferred start at frame id ARG0, which must lie ahead. -/
def execSettrig (b : BankId) (s : State) : Answered :=
  if !s.session.valid || decide ((s.bank b).arg0.toNat ≤ s.frameId.toNat) then .next (s.finish b .invalid)
  else .next (({ s with run := { s.run with trigId := (s.bank b).arg0, trigArmed := true } }).finish b .ok)

end Sys2Proof.Machine
end

