-- ==== Sys2Proof/Machine/TimecodeCommands.lean ====
section
/-! DEFINITION. The timecode and audio commands GENSET, GENGET, GENRUN, TCQUERY and AUDARM
(44_session_commands.md R292 to R296). -/

namespace Sys2Proof.Machine

/-- The external generator's part of GENSET: written only when its read-back fails or differs (R292). -/
def State.pushExternal (s : State) (g : TC64) : State :=
  if s.cfg.extGen then
    let d := s.callReadGenerator
    match d.1 with
    | none => d.2.emit (.extWrite (tcWire g))
    | some r => if tcSame r g then d.2 else d.2.emit (.extWrite (tcWire g))
  else s

/-- The generator written and pushed to both wire writers (R292). -/
def State.setGenerator (s : State) (g : TC64) : State :=
  (({ s with gen := g }).emit (.wireW1 (tcWire g))).emit (.wireW2 (tcWire g))

/-- GENSET (R292): the value must be legal at the last sampled rate; F2 and VALID are cleared. -/
def execGenset (b : BankId) (s : State) : Answered :=
  let v := (s.bank b).arg0
  if tcLegal v s.tickRate then
    let g := tcClearValid (tcClearF2 v)
    .next (((s.setGenerator g).pushExternal g).finish b .ok)
  else .next (s.finish b .invalid)

/-- GENGET (R293). -/
def execGenget (b : BankId) (s : State) : Answered := .next (s.finishRes0 b s.gen)

/-- GENRUN e (R294). -/
def execGenrun (b : BankId) (en : Bool) (s : State) : Answered :=
  let s1 := { s with genRunning := en }
  .next ((if s.cfg.extGen then s1.emit (.extRun en) else s1).finish b .ok)

/-- TCQUERY 1: wire reader 1, cached (R295). -/
def State.queryWire1 (s : State) (b : BankId) : State :=
  let d := s.readWire1
  ({ d.2 with tcCache := { d.2.tcCache with wire1 := d.1 } }).finishRes0 b d.1

/-- TCQUERY 2: wire reader 2, cached (R295). -/
def State.queryWire2 (s : State) (b : BankId) : State :=
  let d := s.readWire2
  ({ d.2 with tcCache := { d.2.tcCache with wire2 := d.1 } }).finishRes0 b d.1

/-- TCQUERY 3: the external LTC reader, not cached (R295). -/
def State.queryExternal (s : State) (b : BankId) : State :=
  let d := s.readExternal
  match d.1 with
  | .noneAttached => d.2.finish b .invalid
  | .err => d.2.finish b .deverr
  | .tc v => d.2.finishRes0 b v

/-- TCQUERY 4: the external generator read-back, cached (R295). -/
def State.queryGenerator (s : State) (b : BankId) : State :=
  let d := s.readGenerator
  match d.1 with
  | .noneAttached => d.2.finish b .invalid
  | .err => d.2.finish b .deverr
  | .tc v => ({ d.2 with tcCache := { d.2.tcCache with extGen := v } }).finishRes0 b v

/-- TCQUERY s (R295). -/
def execTcquery (b : BankId) (src : BitVec 3) (s : State) : Answered :=
  match src.toNat with
  | 0 => .next (s.finishRes0 b s.gen)
  | 1 => .next (s.queryWire1 b)
  | 2 => .next (s.queryWire2 b)
  | 3 => .next (s.queryExternal b)
  | 4 => .next (s.queryGenerator b)
  | _ => .next (s.finish b .invalid)

/-- AUDARM (R296): a countdown of 1 to 2^32 - 1 frames, on a board with audio. -/
def execAudarm (b : BankId) (s : State) : Answered :=
  let n := (s.bank b).arg0
  if !s.cfg.hasAudio || n == 0 || decide (2 ^ 32 ≤ n.toNat) then .next (s.finish b .invalid)
  else .next (({ s with audio := { s.audio with count := lo32 n, armed := true } }).finish b .ok)

end Sys2Proof.Machine
end

