-- ==== Sys2Proof/Machine/Dispatch.lean ====
section
/-! DEFINITION. The meaning of every instruction: one arm per row of the opcode table. -/

namespace Sys2Proof.Machine

/-- What an instruction does: a command's acceptance step (30_encoding.md R108), or an interrupt source's
handler step (45_interrupt_dispatcher.md R326). -/
def exec (i : Instr) (s : State) : Host.Outcome State Fault Refusal :=
  match i with
  | .init b cap pb aud pool nch src => Sys2Proof.Machine.execInit b cap pb aud pool nch src s
  | .start b => Sys2Proof.Machine.execStart b s
  | .stop b => Sys2Proof.Machine.execStop b s
  | .close b => Sys2Proof.Machine.execClose b s
  | .alloc b => Sys2Proof.Machine.execAlloc b s
  | .free b slot => Sys2Proof.Machine.execFree b slot s
  | .enq b slot => Sys2Proof.Machine.execEnq b slot s
  | .deq b => Sys2Proof.Machine.execDeq b s
  | .depth b => Sys2Proof.Machine.execDepth b s
  | .mdget b slot => Sys2Proof.Machine.execMdget b slot s
  | .mdset b slot => Sys2Proof.Machine.execMdset b slot s
  | .setspeed b => Sys2Proof.Machine.execSetspeed b s
  | .getspeed b => Sys2Proof.Machine.execGetspeed b s
  | .settrig b => Sys2Proof.Machine.execSettrig b s
  | .frameid b => Sys2Proof.Machine.execFrameid b s
  | .framerec b => Sys2Proof.Machine.execFramerec b s
  | .waitframe b => Sys2Proof.Machine.execWaitframe b s
  | .drops b => Sys2Proof.Machine.execDrops b s
  | .xfer b dir hint => Sys2Proof.Machine.execXfer b dir hint s
  | .genset b => Sys2Proof.Machine.execGenset b s
  | .genget b => Sys2Proof.Machine.execGenget b s
  | .genrun b en => Sys2Proof.Machine.execGenrun b en s
  | .tcquery b src => Sys2Proof.Machine.execTcquery b src s
  | .audarm b => Sys2Proof.Machine.execAudarm b s
  | .irqBuserr => Sys2Proof.Machine.execIrqBuserr s
  | .irqDone0 => Sys2Proof.Machine.execIrqDone0 s
  | .irqDone1 => Sys2Proof.Machine.execIrqDone1 s
  | .irqDone2 => Sys2Proof.Machine.execIrqDone2 s
  | .irqDone3 => Sys2Proof.Machine.execIrqDone3 s
  | .irqOutvert => Sys2Proof.Machine.execIrqOutvert s
  | .irqInvert0 => Sys2Proof.Machine.execIrqInvert0 s
  | .irqInvert1 => Sys2Proof.Machine.execIrqInvert1 s
  | .irqWrap => Sys2Proof.Machine.execIrqWrap s

end Sys2Proof.Machine
end

