-- ==== Sys2Proof/Machine/Registers.lean ====
section
/-! DEFINITION. The register window (20_memory.md R76 to R82): global registers, channel windows and
caller banks, and the issue of a command by a write to CMD (30_encoding.md R108, R109); and what a host's
load of its own memory returns (R88). -/

namespace Sys2Proof.Machine

/-- A u1 as a register word. -/
def flagWord (b : Bool) : U32 := (bit1 b).setWidth 32

/-- CONFIG (R77). -/
def configWord (p : Params) : U32 :=
  (0 : BitVec 12) ++ bit1 p.mergeEnable ++ bit1 p.extGen ++ bit1 p.hasAudio ++ bit1 p.dma64 ++ (0 : BitVec 1) ++
    BitVec.ofNat 7 p.poolMax ++ (0 : BitVec 1) ++ BitVec.ofNat 4 p.numCallers ++ BitVec.ofNat 3 p.numXferCh

/-- The global registers (R77); an offset it does not name reads 0 (R80). -/
def State.readGlobal (s : State) (off : Nat) : U32 :=
  match off with
  | 0x000 => s.irqStatus.setWidth 32
  | 0x004 => s.irqEnable.setWidth 32
  | 0x008 => flagWord s.irqLine
  | 0x010 => s.outsel[0].setWidth 32
  | 0x014 => s.outsel[1].setWidth 32
  | 0x018 => s.insel[0].setWidth 32
  | 0x01C => s.insel[1].setWidth 32
  | 0x020 => s.counters.buserr
  | 0x024 => s.counters.invert0
  | 0x028 => s.counters.invert1
  | 0x02C => s.counters.wrap
  | 0x030 => s.counters.spuriousDone
  | 0x034 => s.counters.tagerr
  | 0x038 => s.counters.capfail
  | 0x040 => configWord s.cfg
  | _ => 0

/-- A channel window (R78). -/
def Channel.readReg (c : Channel) (off : Nat) : U32 :=
  match off with
  | 0x00 => lo32 c.head
  | 0x04 => hi32 c.head
  | 0x08 => c.card
  | 0x0C => lo32 c.len
  | 0x10 => hi32 c.len
  | 0x14 => ctrlWord c
  | 0x18 => flagWord c.token
  | _ => 0

/-- MDBUF word 0 to 19 of a bank offset 0x40 to 0x8C (R79). -/
def mdbufWord (off : Nat) : Option (Fin 20) :=
  if h : 0x40 ≤ off ∧ off < 0x90 then some ⟨(off - 0x40) / 4, by omega⟩ else none

/-- A caller bank (R79). CMD reads as 0. -/
def Bank.readReg (x : Bank) (off : Nat) : U32 :=
  match off with
  | 0x04 => cstatWord x
  | 0x08 => lo32 x.arg0
  | 0x0C => hi32 x.arg0
  | 0x10 => lo32 x.arg1
  | 0x14 => hi32 x.arg1
  | 0x18 => lo32 x.arg2
  | 0x1C => hi32 x.arg2
  | 0x20 => lo32 x.res0
  | 0x24 => hi32 x.res0
  | 0x28 => lo32 x.res1
  | 0x2C => hi32 x.res1
  | 0x30 => lo32 x.res2
  | 0x34 => hi32 x.res2
  | 0x38 => lo32 x.res3
  | 0x3C => hi32 x.res3
  | o =>
    match mdbufWord o with
    | some w => x.mdbuf.word w
    | none => 0

/-- What an offset of the window names (R77 to R79): a global register, a register of a channel that
exists, a register of a bank that exists, or nothing. -/
inductive RegName where
  | global (off : Nat)
  | chan (k : ChanId) (off : Nat)
  | bank (b : BankId) (off : Nat)
  | unnamed
  deriving DecidableEq, Repr

/-- The register an aligned offset names. -/
def regName (p : Params) (off : Nat) : RegName :=
  if off < 0x100 then .global off
  else if h : 0x100 ≤ off ∧ off < 0x180 then
    let k : ChanId := ⟨(off - 0x100) / 0x20, by omega⟩
    if k.val < p.numXferCh then .chan k ((off - 0x100) % 0x20) else .unnamed
  else if h : 0x1000 ≤ off ∧ off < 0x1800 then
    let b : BankId := ⟨(off - 0x1000) / 0x100, by omega⟩
    if bankExists p b then .bank b ((off - 0x1000) % 0x100) else .unnamed
  else .unnamed

/-- An aligned 32-bit register read; it has no side effect (R80, R81). -/
def State.readReg (s : State) (off : Nat) : U32 :=
  match regName s.cfg off with
  | .global o => s.readGlobal o
  | .chan k o => (s.chan k).readReg o
  | .bank b o => (s.bank b).readReg o
  | .unnamed => 0

/-- The word accepted into CMD of bank b (R21). -/
def State.setCmd (s : State) (b : BankId) (w : U32) : State := s.setBank b { s.bank b with cmd := w }

/-- A write of `w` to CMD of bank b: ignored with U1 while a command is pending (R109), otherwise the
acceptance step of R108; a word that is no instruction completes ILLEGAL (R104, R105). -/
def State.issueCommand (s : State) (b : BankId) (w : U32) : Answered :=
  if (s.bank b).pend then .next (s.raise (.u1 b w))
  else
    match decode (.cmd b w) with
    | .ok i => exec i (s.setCmd b w)
    | .error _ => .next ((s.setCmd b w).finish b .illegal)

/-- The writable operand registers of a bank: ARGn halves and MDBUF words; other writes are ignored
(R79 to R81). -/
def Bank.writeReg (x : Bank) (off : Nat) (v : U32) : Bank :=
  match off with
  | 0x08 => { x with arg0 := setLo32 x.arg0 v }
  | 0x0C => { x with arg0 := setHi32 x.arg0 v }
  | 0x10 => { x with arg1 := setLo32 x.arg1 v }
  | 0x14 => { x with arg1 := setHi32 x.arg1 v }
  | 0x18 => { x with arg2 := setLo32 x.arg2 v }
  | 0x1C => { x with arg2 := setHi32 x.arg2 v }
  | o =>
    match mdbufWord o with
    | some w => { x with mdbuf := x.mdbuf.setWord w v }
    | none => x

/-- An aligned 32-bit register write (R80, R81): CMD issues a command, IRQ_ENABLE takes bits [8:0]
(45_interrupt_dispatcher.md R322), ARGn and MDBUF store, and every other write is ignored. -/
def State.writeReg (s : State) (off : Nat) (v : U32) : Answered :=
  match regName s.cfg off with
  | .global o => .next (if o = 0x004 then { s with irqEnable := v.setWidth 9 } else s)
  | .chan _ _ => .next s
  | .bank b o => if o = 0 then s.issueCommand b v else .next (s.setBank b ((s.bank b).writeReg o v))
  | .unnamed => .next s

/-- The access is an aligned 32-bit access (R76). -/
def accessOk (off width : Nat) : Bool := decide (width = 32) && decide (off % 4 = 0)

/-- The value a read returned, kept for the host. -/
def State.returnRead (s : State) (v : U64) : State := s.withEnv { s.env with readData := v }

/-- `RD off` of the given width: a bad access raises U9 and returns any value (R76). -/
def State.hostRead (s : State) (off width : Nat) : State :=
  if accessOk off width then s.returnRead ((s.readReg off).setWidth 64)
  else ((s.raise (.u9 off width)).drawn s.env.ports).returnRead (Config.freeRead s.env.draws)

/-- `WR off, v` of the given width: a bad access raises U9 and changes nothing (R76). -/
def State.hostWrite (s : State) (off width : Nat) (v : U32) : Answered :=
  if accessOk off width then s.writeReg off v else .next (s.raise (.u9 off width))

/-- The host loads one byte of its own memory: any value in a race (R70, R88). -/
def State.hostLoad (s : State) (addr : U64) : State :=
  let d := s.loadHost none addr
  d.2.returnRead (d.1.setWidth 64)

end Sys2Proof.Machine
end

