-- ==== Sys2Proof/Machine/Agents.lean ====
section
/-! DEFINITION. The agents' atomic steps (00_scope.md R6, R12): what each event of the schedule does. A
step of an agent that is not enabled changes nothing. -/

namespace Sys2Proof.Machine

/-- The dispatcher while `pc = H`: the lowest source of the pass is decoded and its handler run (R326). -/
def State.handleNext (s : State) : Answered :=
  match decode (.status s.passSet) with
  | .ok i => exec i s
  | .error _ => .fault .emptyPass

/-- The IDS agent's next step: the dispatch step when the line is asserted (R325), a handler, or a phase
of a tick (R25). -/
def State.idsStep (s : State) : Answered :=
  match s.pc with
  | .idle => .next (if s.irqLine then s.takeInterrupt else s)
  | .handling => s.handleNext
  | .f1 n => .next (s.f1Phase n)
  | .f2 => .next s.f2Phase

/-- The ports with one more answer fixed. -/
def Ports.queue (p : Ports) (a : Answer) : Ports :=
  match a with
  | .field v => { p with field := p.field.queue v }
  | .rate v => { p with rate := p.rate.queue v }
  | .line v => { p with line := p.line.queue v }
  | .tick v => { p with tick := p.tick.queue v }
  | .hostTs v => { p with hostTs := p.hostTs.queue v }
  | .audpos v => { p with audpos := p.audpos.queue v }
  | .wire1 v => { p with wire1 := p.wire1.queue v }
  | .wire2 v => { p with wire2 := p.wire2.queue v }
  | .pin v => { p with pin := p.pin.queue v }
  | .map v => { p with map := p.map.queue v }
  | .extGen v => { p with extGen := p.extGen.queue v }
  | .extLtc v => { p with extLtc := p.extLtc.queue v }
  | .pick v => { p with pick := p.pick.queue v }

/-- The ports replaced. -/
def State.withPorts (s : State) (p : Ports) : State := s.withEnv { s.env with ports := p }

/-- One event of the schedule. An event of a caller bank or channel that does not exist does nothing. -/
def State.apply (s : State) (e : Event) : Answered :=
  match e with
  | .wr off width v => s.hostWrite off width v
  | .rd off width => .next (s.hostRead off width)
  | .caller b => .next (if bankExists s.cfg b then s.callerStep b else s)
  | .ids => s.idsStep
  | .outvert inp => .next ((s.withEnv { s.env with tick := some inp }).latch 5)
  | .done k => .next (s.raiseDone k)
  | .buserr => .next (s.latch 0)
  | .chanBuserr k => .next (s.raiseChanBuserr k)
  | .invert n => .next (s.latch (invertSource n))
  | .wrap => .next (s.latch 8)
  | .timeout b => .next (if bankExists s.cfg b then s.callerEvent b .timeout else s)
  | .signal b => .next (if bankExists s.cfg b then s.callerEvent b .interrupted else s)
  | .move k => .next (s.performChain k)
  | .spoil k addr v => .next (s.spoil k addr v)
  | .answer a => .next (s.withPorts (s.env.ports.queue a))
  | .hostStore addr v => .next (s.storeHost addr v)
  | .hostLoad addr => .next (s.hostLoad addr)
  | .cardStore addr v => .next (s.storeCard addr v)

/-- The next event: the head of the agenda, or a free choice (R6: any enabled agent may step next). -/
def State.nextEvent (s : State) : Event × State :=
  match s.env.agenda with
  | e :: rest => (e, s.withEnv { s.env with agenda := rest })
  | [] => (Config.freeEvent s.env.draws, s.withEnv { s.env with draws := s.env.draws + 1 })

/-- One atomic step of the machine; a configuration that breaks a constraint has no runs (R8). -/
def State.advance (s : State) : Answered :=
  if s.cfg.ok then s.nextEvent.2.apply s.nextEvent.1 else .refused .badConfiguration

/-- The machine about to be given an instruction word: a command word is written to CMD of its bank,
which has no command pending; a status word is the pass the dispatcher is handling (R108, R326). -/
def State.withWord (s : State) (iw : InstrWord) : State :=
  match iw with
  | .cmd b w =>
    let s1 := s.setBank b { s.bank b with pend := false }
    s1.withEnv { s1.env with agenda := issue b w :: s1.env.agenda }
  | .status p =>
    { s with
      pc := .handling
      passSet := p
      env := { s.env with agenda := .ids :: s.env.agenda } }

end Sys2Proof.Machine
end

