-- ==== Sys2Proof/Machine/Step.lean ====
section
/-! DEFINITION. One step, and the machine about to run a given instruction word. -/

namespace Sys2Proof.Machine

/-- One atomic step of one agent (00_scope.md R6, R12). -/
def step (s : State) : Host.Outcome State Fault Refusal := s.advance

/-- `s` with an opcode-table word where the next step takes its instruction from: a write to CMD of
bank 0, or the dispatcher's pass (log 6). A word that fits neither leaves `s` as it is. -/
def State.withFetchWord (s : State) (nbits w : Nat) : State :=
  match tableWord nbits w with
  | some iw => s.withWord iw
  | none => s

end Sys2Proof.Machine
end

