-- ==== Sys2Proof/Safety.lean ====
section
/-! DEFINITION. The terms claims are stated in: what two states share, the invariants of the machine, and
what a safe run is. -/

namespace Sys2Proof.Machine

/-! ### What two states share -/

/-- Bank b of `t` is `x`; every other bank is as in `s`. -/
def BankBecomes (b : BankId) (x : Bank) (s t : State) : Prop :=
  t.bank b = x ∧ ∀ b', b' ≠ b → t.bank b' = s.bank b'

/-- Channel k of `t` is `x`; every other channel is as in `s`. -/
def ChanBecomes (k : ChanId) (x : Channel) (s t : State) : Prop :=
  t.chan k = x ∧ ∀ k', k' ≠ k → t.chan k' = s.chan k'

/-- Slot i of `t` is in state `st`; every other slot is as in `s`. -/
def SlotBecomes (i : SlotIx) (st : SlotState) (s t : State) : Prop :=
  t.slotState i = st ∧ ∀ j, j ≠ i → t.slotState j = s.slotState j

/-- Record i of `t` is `m`; every other metadata record is as in `s`. -/
def MetaBecomes (i : SlotIx) (m : Meta) (s t : State) : Prop :=
  t.metaOf i = m ∧ ∀ j, j ≠ i → t.metaOf j = s.metaOf j

/-- Every byte of host memory and of card memory reads in `t` as in `s`. -/
def MemorySame (s t : State) : Prop :=
  ∀ a, t.hostMem.read a = s.hostMem.read a ∧ t.cardMem.read a = s.cardMem.read a

/-- Bank b becomes `x` and nothing else changes at all. -/
def OnlyBankBecomes (b : BankId) (x : Bank) (s t : State) : Prop :=
  BankBecomes b x s t ∧ t = { s with banks := t.banks } ∧ MemorySame s t

/-- A bank whose command has ended with result `r` (30_encoding.md R107, R108): RESULT written, PEND
clear, no operation left. -/
def Bank.ended (x : Bank) (r : ResultCode) : Bank := { x with pend := false, result := r, op := .none }

/-- A bank whose command waits in `o` (R108, R22). -/
def Bank.waiting (x : Bank) (o : Op) : Bank := { x with pend := true, op := o }

/-- The next event of the schedule is `e`, `rest` follows it, and the configuration has runs. -/
def Scheduled (e : Event) (rest : List Event) (s : State) : Prop :=
  s.cfg.ok = true ∧ s.env.agenda = e :: rest

/-- The state with the schedule `rest` left; nothing else differs. -/
def State.leaving (s : State) (rest : List Event) : State := { s with env := { s.env with agenda := rest } }

/-- The constraints of 00_scope.md R7 with R71's window length and R149's bound: the configurations that
have runs (R8). -/
structure ConfigValid (p : Params) : Prop where
  channels : 1 ≤ p.numXferCh ∧ p.numXferCh ≤ 4
  pool : 1 ≤ p.poolMax ∧ p.poolMax ≤ 64
  speed : 1000000 ≤ p.maxSpeed ∧ p.maxSpeed < 2 ^ 63
  pages : 1 ≤ p.maxPages
  page_pow : ∃ n, p.pageSize = 2 ^ n
  page_words : p.pageSize % 4 = 0
  merge : 4 ≤ p.maxMergeBytes ∧ p.maxMergeBytes % 4 = 0
  storage : p.maxPages ≤ p.descCap
  callers : 1 ≤ p.numCallers ∧ p.numCallers ≤ 8
  window : 0x1800 ≤ p.windowLen
  aligned : ∀ k : ChanId, k.val < p.numXferCh → p.descBase[k].toNat % 32 = 0
  reach : ∀ k : ChanId, k.val < p.numXferCh → p.descBase[k].toNat + p.descCap * 32 ≤ 2 ^ 64

/-- The rows of spec/opcode_table.json with format CMD: mask and match. -/
def commandRows : List (U32 × U32) :=
  [(0xFFF80000, 0x01000000), (0xFFFFFFFF, 0x02000000), (0xFFFFFFFF, 0x03000000), (0xFFFFFFFF, 0x04000000),
   (0xFFFFFFFF, 0x10000000), (0xFFFF0000, 0x11000000), (0xFFFF0000, 0x12000000), (0xFFFFFFFF, 0x13000000),
   (0xFFFFFFFF, 0x14000000), (0xFFFF0000, 0x15000000), (0xFFFF0000, 0x16000000), (0xFFFFFFFF, 0x20000000),
   (0xFFFFFFFF, 0x21000000), (0xFFFFFFFF, 0x22000000), (0xFFFFFFFF, 0x23000000), (0xFFFFFFFF, 0x24000000),
   (0xFFFFFFFF, 0x25000000), (0xFFFFFFFF, 0x26000000), (0xFF7CFFFF, 0x30000000), (0xFFFFFFFF, 0x40000000),
   (0xFFFFFFFF, 0x41000000), (0xFFFEFFFF, 0x42000000), (0xFFF8FFFF, 0x43000000), (0xFFFFFFFF, 0x50000000)]

/-- The completion source's handler of channel k. -/
def doneInstr (k : ChanId) : Instr :=
  match k with
  | 0 => .irqDone0
  | 1 => .irqDone1
  | 2 => .irqDone2
  | 3 => .irqDone3

/-- Where a pass goes after a source (45_interrupt_dispatcher.md R334). -/
def passGoes (left : BitVec 9) : Phase := if left = 0 then .idle else .handling

/-- The bus addresses of a run's bytes, in order (40_descriptor_builder.md R140). -/
def Run.addresses (r : Run) : List U64 := (List.range r.len.toNat).map (fun i => r.bus + BitVec.ofNat 64 i)

/-- The bytes of the runs before run `n`. -/
def bytesBefore (runs : List Run) (n : Nat) : Nat := ((runs.take n).map (fun r => r.len.toNat)).sum

/-- A pacing evaluation in state `s` gives the step count `n` and leaves the pacing state `p`: the cached
count if the tick has paced, otherwise the whole part of (acc + speed) / SPEED_ONE, the remainder kept
(43_stream_pacing.md R250). -/
def PaceGives (s : State) (n : Nat) (p : Pacing) : Prop :=
  if s.pacing.paced = true then n = s.pacing.stepCache.toNat ∧ p = s.pacing
  else
    n = (s.pacing.acc.toNat + s.pacing.speed.toNat) / 1000000 ∧
      p = ⟨s.pacing.speed, BitVec.ofNat 64 ((s.pacing.acc.toNat + s.pacing.speed.toNat) % 1000000), true,
        BitVec.ofNat 64 n⟩

/-- The slots `shown` are taken off the ready-FIFO and INUSE, `q` is what is left of it, and every other slot
that left it is FREE (R184, R257, R258). -/
def FifoBecomes (shown q : List SlotIx) (s t : State) : Prop :=
  t.pool.fifo = q ∧ t.pool.depth.toNat = q.length ∧
    ∀ i, t.slotState i =
      if i ∈ shown then .inuse else if i ∈ s.pool.fifo ∧ i ∉ q then .free else s.slotState i

/-- Slot i is a free slot of the pool that is not among `taken`; under ALLOC_POLICY = lowest it is the lowest
such slot (R181). -/
def Allocatable (s : State) (taken : List SlotIx) (i : SlotIx) : Prop :=
  (i.val < s.session.poolSize.toNat ∧ s.slotState i = .free ∧ i ∉ taken) ∧
    (s.cfg.allocPolicy = .lowest → ∀ j, j < i → s.slotState j = .free → j ∈ taken)

/-- The byte at an address of host memory (`dir` true) or card memory lies in the destination range of a
transfer whose GO is set, run by another agent than channel `k` (20_memory.md R88). -/
def Raced (s : State) (k : Option ChanId) (dir : Bool) (a : U64) : Prop :=
  ∃ j, k ≠ some j ∧ (s.chan j).go = true ∧ (s.chan j).dir = dir ∧
    if dir = true then ∃ r ∈ (s.chan j).runs, (a - r.bus).toNat < r.len.toNat
    else (s.chan j).card.toNat ≤ a.toNat ∧ a.toNat < (s.chan j).card.toNat + (s.chan j).len.toNat

/-- The first of two moves' host ranges ends before the other begins, or the other way round. -/
def Move.hostApart (x y : Move) : Prop :=
  x.host.toNat + x.bytes ≤ y.host.toNat ∨ y.host.toNat + y.bytes ≤ x.host.toNat

/-- The same of their card ranges. -/
def Move.cardApart (x y : Move) : Prop :=
  x.card.toNat + x.bytes ≤ y.card.toNat ∨ y.card.toNat + y.bytes ≤ x.card.toNat

/-- The moves that consecutive runs stand for, from card address `co` up (R148, R149). -/
def runMoves (dir : Bool) (co : U32) (runs : List Run) : List Move :=
  runs.mapIdx (fun n r => ⟨r.bus, co + BitVec.ofNat 32 (bytesBefore runs n), r.len.toNat, dir⟩)

/-- The faults of `t` are those of `s` and `f`. -/
def FaultAdded (f : ModelFault) (s t : State) : Prop :=
  ∀ g, g ∈ t.faults ↔ g ∈ s.faults ∨ g = f

/-! ### Invariants -/

/-- Both memories are in canonical form. -/
def MemoryInv (s : State) : Prop := s.hostMem.wf = true ∧ s.cardMem.wf = true

/-- The pool's invariants (R42, R41, R193): the counter is the FIFO's length, the FIFO holds exactly the
QUEUED slots, each once, slots outside the pool are FREE, and the last-assigned records name slots of
the pool (R185). -/
structure PoolInv (s : State) : Prop where
  depth_eq : s.pool.depth.toNat = s.pool.fifo.length
  nodup : s.pool.fifo.Nodup
  queued_iff : ∀ i, i ∈ s.pool.fifo ↔ s.slotState i = .queued
  outside_free : ∀ i : SlotIx, s.session.poolSize.toNat ≤ i.val → s.slotState i = .free
  lastPb_lt : ∀ (c : VidChan) (i : SlotIx), s.lastPb[c] = some i → i.val < s.session.poolSize.toNat
  lastCap_lt : ∀ (c : VidChan) (i : SlotIx), s.lastCap[c] = some i → i.val < s.session.poolSize.toNat

/-- The callers' and channels' invariants (R22, R143, R161, R164): PEND is set exactly while a command
runs; a token is held exactly by the bank whose transfer runs on the channel; GO is set only while that
transfer waits in X5; a free channel has an empty record; an absent channel is never taken. -/
structure TransferInv (s : State) : Prop where
  pend_iff : ∀ b, (s.bank b).pend = true ↔ (s.bank b).op ≠ .none
  token_iff : ∀ k, (s.chan k).token = true ↔ (s.chan k).owner ≠ none
  owner_iff : ∀ k b, (s.chan k).owner = some b ↔ ∃ ph r, (s.bank b).op = .xfer ph k r
  go_waits : ∀ k, (s.chan k).go = true → ∃ b r, (s.bank b).op = .xfer .x5 k r
  free_clear : ∀ k, (s.chan k).token = false →
    (s.chan k).pages = [] ∧ (s.chan k).sg = [] ∧ (s.chan k).runs = []
  absent_free : ∀ k : ChanId, s.cfg.numXferCh ≤ k.val → (s.chan k).token = false

/-- The session's invariants (R36, R38, R223): a valid session has one or two channels and a pool that
fits; the stream runs, a trigger is armed and a request is pending only in a valid session; CLOSE is
pending only with STOP. -/
structure SessionInv (s : State) : Prop where
  channels : s.session.valid = true → s.session.nch = 1 ∨ s.session.nch = 2
  pool_pos : s.session.valid = true → 1 ≤ s.session.poolSize.toNat
  pool_le : s.session.poolSize.toNat ≤ s.cfg.poolMax
  running_valid : s.run.running = true → s.session.valid = true
  trigger_valid : s.run.trigArmed = true → s.session.valid = true
  request_valid : s.run.req ≠ .none → s.session.valid = true
  close_stops : s.run.closePending = true → s.run.req = .stop

/-- The steps of a tick after F1(6), the only phases in which the tick may have paced (R48, R229). -/
def pacedPhases : List Phase :=
  [.f1 .wirePush, .f1 .extSync, .f1 .serial, .f1 .wake, .f1 .audio]

/-- The pacing invariants (R37, R251): the remainder is below SPEED_ONE, the speed is at most MAX_SPEED,
and `paced` is set only between F1(6) and the end of a tick. -/
structure PacingInv (s : State) : Prop where
  acc_lt : s.pacing.acc.toNat < speedOne
  speed_le : s.pacing.speed.toNat ≤ s.cfg.maxSpeed
  paced_phase : s.pacing.paced = true → s.pc ∈ pacedPhases

/-- The sequencer's invariants (R24, R334): a pass being handled has a source left, and no source is left
when no pass runs. -/
structure SequencerInv (s : State) : Prop where
  handling_some : s.pc = .handling → s.passSet ≠ 0
  idle_none : s.pc = .idle → s.passSet = 0

/-- Every timecode sent out has F2 clear (R215). -/
def Output.clean : Output → Bool
  | .wireW1 tc => !tcF2 tc
  | .wireW2 tc => !tcF2 tc
  | .serial tc => !tcF2 tc
  | .extWrite tc => !tcF2 tc
  | .audioStart => true
  | .audioStop => true
  | .extSync _ => true
  | .extRun _ => true
  | .extReadGenerator => true
  | .extReadExternal => true
  | .hmmPin _ _ _ => true
  | .hmmMap _ _ => true
  | .hmmUnmap _ => true
  | .hmmUnpin _ _ => true

/-! ### Safe runs -/

/-- No model fault has been raised: the runs about which a claim on the original may be made (R357). -/
def State.faultFree (s : State) : Prop := s.faults = []

/-- The states a run reaches from reset under configuration `p`, by any schedule. -/
inductive Reachable (p : Params) : State → Prop where
  | reset : Reachable p (State.resetWith p)
  | step {s t : State} : Reachable p s → Sys2Proof.Machine.step s = .next t → Reachable p t

end Sys2Proof.Machine
end

