-- ==== Sys2Proof/Certificates/Slice0/Obligations.lean ====
section
/-! DEFINITION. The statements for the provers, in the terms of Sys2Proof/Safety.lean. Each says which rules
of spec/ it formalises. -/

section
open Sys2Proof Sys2Proof.Machine

/-! ### Encoding -/

/-- The decoder reads back every instruction from the words the encoder writes for it, whatever its
operands (R100, R101, R103, R110, R114). -/
def Obligations.DecodeEncodeRoundTrip : Prop := ∀ i : Instr, decode (encode i) = .ok i

/-- A word is a command exactly when it matches a row of the opcode table, and it is then the only word of its
instruction; otherwise it is rejected, as an illegal opcode when no row has its OPC, and for its reserved
fields when some row has (R100, R101, R103 to R105). -/
def Obligations.DecodesExactlyTableRows : Prop :=
  ∀ (b : BankId) (w : U32),
    ((∃ i, decode (.cmd b w) = .ok i) ↔ ∃ row ∈ commandRows, w &&& row.1 = row.2) ∧
    (decode (.cmd b w) = .error .illegalOpcode ↔ ∀ row ∈ commandRows, row.2 >>> 24 ≠ w >>> 24) ∧
    (decode (.cmd b w) = .error .reservedField ↔
      (∃ row ∈ commandRows, row.2 >>> 24 = w >>> 24) ∧ ∀ row ∈ commandRows, w &&& row.1 ≠ row.2) ∧
    (∀ i, decode (.cmd b w) = .ok i → encode i = .cmd b w)

/-- Words written out in 44_session_commands.md R280, 41_pool_fifo.md R188, R114 and 95_test_vectors.md
decode to the instructions they stand for. -/
def Obligations.KnownWordsDecode : Prop :=
  decode (.cmd 0 0x01020104) = .ok (.init 0 false true false 4 1 0) ∧
  decode (.cmd 0 0x01040101) = .ok (.init 0 false false true 1 1 0) ∧
  decode (.cmd 2 0x12000001) = .ok (.enq 2 1) ∧
  decode (.cmd 1 0x30010000) = .ok (.xfer 1 false 1) ∧
  decode (.cmd 2 0x30800000) = .ok (.xfer 2 true 0) ∧
  decode (.cmd 0 0x42010000) = .ok (.genrun 0 true) ∧
  decode (.status 0x00C) = .ok .irqDone1 ∧
  decode (.status 0x020) = .ok .irqOutvert

/-! ### A step runs what is decoded -/

/-- A write of a word to CMD of a bank with no command pending runs the instruction the word decodes to,
in the state where CMD holds the word (R108). -/
def Obligations.StepRunsIssuedCommand : Prop :=
  ∀ (s : State) (rest : List Event) (b : BankId) (w : U32) (i : Instr),
    Scheduled (issue b w) rest s → b.val < s.cfg.numCallers → (s.bank b).pend = false →
    decode (.cmd b w) = .ok i →
    step s = exec i ((s.leaving rest).setBank b { s.bank b with cmd := w })

/-- While `pc = H`, a step of the dispatcher runs the handler of the lowest bit of `pass_set` (R326). -/
def Obligations.StepRunsLowestSource : Prop :=
  ∀ (s : State) (rest : List Event) (j : Fin 9),
    Scheduled .ids rest s → s.pc = .handling → s.passSet.getLsbD j.val = true →
    (∀ j' : Fin 9, j' < j → s.passSet.getLsbD j'.val = false) →
    step s = exec (sourceInstr j) (s.leaving rest)

/-- A word that is no command completes ILLEGAL in its acceptance step and changes nothing else; so does
an XFER whose ARG2[63:32] is not zero, before any operand value is checked (R104, R105). That CMD keeps the
illegal word is the model's choice (log 12): the rules say nothing of it. -/
def Obligations.IllegalWordCompletesIllegal : Prop :=
  ∀ (s : State) (rest : List Event) (b : BankId) (w : U32),
    Scheduled (issue b w) rest s → b.val < s.cfg.numCallers → (s.bank b).pend = false →
    (∀ row ∈ commandRows, w &&& row.1 ≠ row.2) ∨
      ((w &&& 0xFF7CFFFF = 0x30000000) ∧ (s.bank b).arg2.extractLsb' 32 32 ≠ 0) →
    ∃ t, step s = .next t ∧
      OnlyBankBecomes b ({ s.bank b with cmd := w }.ended .illegal) (s.leaving rest) t

/-- A write to CMD while a command is pending is ignored and raises U1 (R109). -/
def Obligations.PendingWriteIgnored : Prop :=
  ∀ (s : State) (rest : List Event) (b : BankId) (w : U32),
    Scheduled (issue b w) rest s → b.val < s.cfg.numCallers → (s.bank b).pend = true →
    ∃ t, step s = .next t ∧ FaultAdded (.u1 b w) s t ∧
      t = { s.leaving rest with faults := t.faults } ∧ MemorySame s t

/-- A configuration that breaks a constraint has no runs; one that keeps them all is refused nowhere
(R8, R71, R149). -/
def Obligations.BadConfigurationRefused : Prop :=
  ∀ s : State,
    (¬ ConfigValid s.cfg → step s = .refused .badConfiguration) ∧
    (ConfigValid s.cfg → ∀ r, step s ≠ .refused r)

/-! ### Registers -/

/-- The dispatch step: the pending and enabled sources are acknowledged and become the pass, and nothing else
changes but that an acknowledged OUTVERT hands the inputs chosen with it to the tick it starts, as the next
values of its inputs (R325, R335; the model's record of them is log 24). With no source pending the
dispatcher has no step, which the model shows as an unchanged state (log 4). -/
def Obligations.DispatchStep : Prop :=
  ∀ (s : State) (rest : List Event) (p : BitVec 9), Scheduled .ids rest s → s.pc = .idle →
    p = s.irqStatus &&& s.irqEnable →
    (p ≠ 0 →
      ∃ t, step s = .next t ∧ t.env.agenda = rest ∧ t.env.trace = s.env.trace ∧
        t = { s with irqStatus := s.irqStatus &&& ~~~p, passSet := p, pc := .handling, env := t.env } ∧
        (p.getLsbD 5 = false ∨ s.env.tick = none → t.env = { s.env with agenda := rest }) ∧
        (∀ i, p.getLsbD 5 = true → s.env.tick = some i →
          t.env.tick = none ∧ t.inField.1 = i.field ∧ t.inRate.1 = i.rate ∧ t.inLine.1 = i.line ∧
            t.inTick.1 = i.tick ∧ t.inHostTs.1 = i.hostTs ∧ t.inAudpos.1 = i.audpos ∧
            t.inWire1.1 = i.wire1 ∧ t.inWire2.1 = i.wire2)) ∧
    (p = 0 → step s = .next (s.leaving rest))

/-- An event latches its bit of `irq_status`, enabled or not, and changes nothing else (R321, R335): OUTVERT,
BUSERR, INVERT and WRAP of the environment, DONE_k and BUSERR of a channel whose GO is set, DONE_k of a
channel that does not exist. The model also records the inputs chosen with OUTVERT (log 24) and that a
running transfer has raised its DONE (log 10); a channel whose GO is clear takes no step (R166), which the
model shows as an unchanged state (log 4). -/
def Obligations.EventsLatch : Prop :=
  ∀ (s : State) (rest : List Event),
    (∀ i, Scheduled (.outvert i) rest s →
      step s = .next { s with
        irqStatus := s.irqStatus ||| 0x020
        env := { s.env with agenda := rest, tick := some i } }) ∧
    (Scheduled .buserr rest s → step s = .next { s.leaving rest with irqStatus := s.irqStatus ||| 0x001 }) ∧
    (Scheduled (.invert 0) rest s → step s = .next { s.leaving rest with irqStatus := s.irqStatus ||| 0x040 }) ∧
    (Scheduled (.invert 1) rest s → step s = .next { s.leaving rest with irqStatus := s.irqStatus ||| 0x080 }) ∧
    (Scheduled .wrap rest s → step s = .next { s.leaving rest with irqStatus := s.irqStatus ||| 0x100 }) ∧
    (∀ k, Scheduled (.chanBuserr k) rest s → step s =
      .next (if (s.chan k).go = true then { s.leaving rest with irqStatus := s.irqStatus ||| 0x001 }
        else s.leaving rest)) ∧
    (∀ k, Scheduled (.done k) rest s → s.cfg.numXferCh ≤ k.val →
      step s = .next { s.leaving rest with irqStatus := s.irqStatus ||| 1#9 <<< (1 + k.val) }) ∧
    (∀ k, Scheduled (.done k) rest s → k.val < s.cfg.numXferCh → (s.chan k).go = false →
      step s = .next (s.leaving rest)) ∧
    (∀ k, Scheduled (.done k) rest s → k.val < s.cfg.numXferCh → (s.chan k).go = true →
      ∃ t, step s = .next t ∧
        t = { s.leaving rest with irqStatus := s.irqStatus ||| 1#9 <<< (1 + k.val), chans := t.chans } ∧
        ChanBecomes k { s.chan k with reported := true } s t)

/-- A write to IRQ_ENABLE sets the nine enables and nothing else, so a latched source stays latched; the
line follows at once (R322). -/
def Obligations.EnableWrite : Prop :=
  (∀ (s : State) (rest : List Event) (v : U32), Scheduled (.wr 0x004 32 v) rest s →
    ∃ t, step s = .next t ∧ t = { s.leaving rest with irqEnable := v.extractLsb' 0 9 } ∧
      (t.irqLine = true ↔ s.irqStatus &&& v.extractLsb' 0 9 ≠ 0)) ∧
  (∀ p, (State.resetWith p).irqEnable = 0)

/-- A register read changes nothing but the value the host gets. An aligned write to an ARGn half or to an
MDBUF word of a bank that exists stores exactly that half or word; one to any other offset but IRQ_ENABLE and
CMD changes nothing. An access that is not an aligned 32-bit access raises U9 and changes nothing else (R75,
R76, R79 to R81). -/
def Obligations.RegisterAccessEffects : Prop :=
  ∀ (s : State) (rest : List Event) (off width : Nat) (v : U32),
    (Scheduled (.rd off width) rest s → width = 32 ∧ off % 4 = 0 →
      step s = .next { s.leaving rest with
        env := { s.env with agenda := rest, readData := (s.readReg off).setWidth 64 } }) ∧
    (Scheduled (.rd off width) rest s → ¬ (width = 32 ∧ off % 4 = 0) →
      ∃ t, step s = .next t ∧ FaultAdded (.u9 off width) s t ∧
        t = { s.leaving rest with faults := t.faults, env := t.env } ∧ t.env.trace = s.env.trace) ∧
    (Scheduled (.wr off width v) rest s → ¬ (width = 32 ∧ off % 4 = 0) →
      ∃ t, step s = .next t ∧ FaultAdded (.u9 off width) s t ∧
        t = { s.leaving rest with faults := t.faults }) ∧
    (∀ (b : BankId) (x : Bank), b.val < s.cfg.numCallers → Scheduled (.wr off 32 v) rest s →
      (off, x) ∈
        [(0x1008 + 0x100 * b.val, { s.bank b with arg0 := (s.bank b).arg0.extractLsb' 32 32 ++ v }),
          (0x100C + 0x100 * b.val, { s.bank b with arg0 := v ++ (s.bank b).arg0.extractLsb' 0 32 }),
          (0x1010 + 0x100 * b.val, { s.bank b with arg1 := (s.bank b).arg1.extractLsb' 32 32 ++ v }),
          (0x1014 + 0x100 * b.val, { s.bank b with arg1 := v ++ (s.bank b).arg1.extractLsb' 0 32 }),
          (0x1018 + 0x100 * b.val, { s.bank b with arg2 := (s.bank b).arg2.extractLsb' 32 32 ++ v }),
          (0x101C + 0x100 * b.val, { s.bank b with arg2 := v ++ (s.bank b).arg2.extractLsb' 0 32 })] →
      ∃ t, step s = .next t ∧ OnlyBankBecomes b x (s.leaving rest) t) ∧
    (∀ (b : BankId) (w : Fin 20), b.val < s.cfg.numCallers → Scheduled (.wr off 32 v) rest s →
      off = 0x1040 + 0x100 * b.val + 4 * w.val →
      ∃ t, step s = .next t ∧ OnlyBankBecomes b { s.bank b with mdbuf := (t.bank b).mdbuf } (s.leaving rest) t ∧
        ∀ w' : Fin 20, t.readReg (0x1040 + 0x100 * b.val + 4 * w'.val) =
          if w' = w then v else s.readReg (0x1040 + 0x100 * b.val + 4 * w'.val)) ∧
    (Scheduled (.wr off 32 v) rest s → off % 4 = 0 → off ≠ 0x004 →
      (∀ b : BankId, b.val < s.cfg.numCallers →
        ¬ (off = 0x1000 + 0x100 * b.val ∨
          (0x1008 + 0x100 * b.val ≤ off ∧ off < 0x1020 + 0x100 * b.val) ∨
          (0x1040 + 0x100 * b.val ≤ off ∧ off < 0x1090 + 0x100 * b.val))) →
      step s = .next (s.leaving rest))

/-- The contents of every register (R75, R77 to R80): status, enable, line, selects, counters and CONFIG; a
channel's registers, which read 0 when the channel does not exist; CMD, which reads 0, CSTAT, ARGn, RESn and
the words of MDBUF (R43), which read 0 when the bank does not exist; and 0 at every offset that names
none. -/
def Obligations.RegisterContents : Prop :=
  ∀ s : State,
    (s.readReg 0x000 = s.irqStatus.setWidth 32 ∧ s.readReg 0x004 = s.irqEnable.setWidth 32 ∧
      (s.readReg 0x008 = if s.irqStatus &&& s.irqEnable = 0 then 0 else 1) ∧
      s.readReg 0x010 = s.outsel[0].setWidth 32 ∧ s.readReg 0x014 = s.outsel[1].setWidth 32 ∧
      s.readReg 0x018 = s.insel[0].setWidth 32 ∧ s.readReg 0x01C = s.insel[1].setWidth 32 ∧
      s.readReg 0x020 = s.counters.buserr ∧ s.readReg 0x024 = s.counters.invert0 ∧
      s.readReg 0x028 = s.counters.invert1 ∧ s.readReg 0x02C = s.counters.wrap ∧
      s.readReg 0x030 = s.counters.spuriousDone ∧ s.readReg 0x034 = s.counters.tagerr ∧
      s.readReg 0x038 = s.counters.capfail) ∧
    (s.cfg.ok = true → (s.readReg 0x040).toNat =
      s.cfg.numXferCh + 2 ^ 3 * s.cfg.numCallers + 2 ^ 8 * s.cfg.poolMax + 2 ^ 16 * s.cfg.dma64.toNat +
        2 ^ 17 * s.cfg.hasAudio.toNat + 2 ^ 18 * s.cfg.extGen.toNat + 2 ^ 19 * s.cfg.mergeEnable.toNat) ∧
    (∀ off, off ∈ [0x00C, 0x03C] ∨ (0x044 ≤ off ∧ off < 0x100) ∨ (0x180 ≤ off ∧ off < 0x1000) ∨ 0x1800 ≤ off →
      s.readReg off = 0) ∧
    (∀ k : ChanId, k.val < s.cfg.numXferCh →
      s.readReg (0x100 + 0x20 * k.val) = (s.chan k).head.extractLsb' 0 32 ∧
      s.readReg (0x104 + 0x20 * k.val) = (s.chan k).head.extractLsb' 32 32 ∧
      s.readReg (0x108 + 0x20 * k.val) = (s.chan k).card ∧
      s.readReg (0x10C + 0x20 * k.val) = (s.chan k).len.extractLsb' 0 32 ∧
      s.readReg (0x110 + 0x20 * k.val) = (s.chan k).len.extractLsb' 32 32 ∧
      (s.readReg (0x114 + 0x20 * k.val)).toNat = (s.chan k).go.toNat + 2 * (s.chan k).dir.toNat ∧
      (s.readReg (0x118 + 0x20 * k.val)).toNat = (s.chan k).token.toNat ∧
      s.readReg (0x11C + 0x20 * k.val) = 0) ∧
    (∀ (k : ChanId) (o : Fin 0x20), s.cfg.numXferCh ≤ k.val →
      s.readReg (0x100 + 0x20 * k.val + o.val) = 0) ∧
    (∀ b : BankId, s.readReg (0x1000 + 0x100 * b.val) = 0) ∧
    (∀ b : BankId, b.val < s.cfg.numCallers →
      (s.readReg (0x1004 + 0x100 * b.val)).toNat =
        (s.bank b).pend.toNat + 16 * (s.bank b).result.code.toNat) ∧
    (∀ (b : BankId) (n : Fin 7) (v : U64), b.val < s.cfg.numCallers →
      v = [(s.bank b).arg0, (s.bank b).arg1, (s.bank b).arg2, (s.bank b).res0, (s.bank b).res1,
        (s.bank b).res2, (s.bank b).res3][n] →
      s.readReg (0x1008 + 0x100 * b.val + 8 * n.val) = v.extractLsb' 0 32 ∧
      s.readReg (0x100C + 0x100 * b.val + 8 * n.val) = v.extractLsb' 32 32) ∧
    (∀ (b : BankId) (m : Meta), b.val < s.cfg.numCallers → m = (s.bank b).mdbuf →
      s.readReg (0x1040 + 0x100 * b.val) = m.line ∧ s.readReg (0x1044 + 0x100 * b.val) = m.field ∧
      s.readReg (0x1058 + 0x100 * b.val) = m.chtag ∧ s.readReg (0x105C + 0x100 * b.val) = m.incr ∧
      ∀ (o : Nat) (v : U64),
        (o, v) ∈ [(0x08, m.tick), (0x10, m.hostTs), (0x20, m.user), (0x28, m.audpos), (0x30, m.tc0),
          (0x38, m.tc1), (0x40, m.tc2), (0x48, m.tc3)] →
        s.readReg (0x1040 + 0x100 * b.val + o) = v.extractLsb' 0 32 ∧
        s.readReg (0x1044 + 0x100 * b.val + o) = v.extractLsb' 32 32) ∧
    (∀ (b : BankId) (o : Nat), 0x90 ≤ o → o < 0x100 → s.readReg (0x1000 + 0x100 * b.val + o) = 0) ∧
    (∀ (b : BankId) (o : Fin 0x100), s.cfg.numCallers ≤ b.val →
      s.readReg (0x1000 + 0x100 * b.val + o.val) = 0)

/-! ### Commands that only read -/

/-- GETSPEED, FRAMEID, FRAMEREC, DROPS, GENGET and DEPTH complete OK with their values in the result
registers, and change nothing else (R286, R288, R289, R291, R293, R190). -/
def Obligations.SnapshotCommands : Prop :=
  ∀ (b : BankId) (s : State),
    (∃ t, exec (.getspeed b) s = .next t ∧
      OnlyBankBecomes b { (s.bank b).ended .ok with res0 := s.pacing.speed } s t) ∧
    (∃ t, exec (.frameid b) s = .next t ∧
      OnlyBankBecomes b { (s.bank b).ended .ok with res0 := s.frameId } s t) ∧
    (∃ t, exec (.framerec b) s = .next t ∧
      OnlyBankBecomes b
        { (s.bank b).ended .ok with
          res0 := BitVec.ofNat 64 s.curFrame.line.toNat
          res1 := if s.curFrame.field then 1 else 0
          res2 := s.curFrame.tick
          res3 := s.curFrame.hostTs } s t) ∧
    (∃ t, exec (.drops b) s = .next t ∧
      OnlyBankBecomes b
        { (s.bank b).ended .ok with
          res0 := s.drops.count
          res1 := s.drops.lastId
          res2 := s.drops.lastTc } s t) ∧
    (∃ t, exec (.genget b) s = .next t ∧
      OnlyBankBecomes b { (s.bank b).ended .ok with res0 := s.gen } s t) ∧
    (∃ t, exec (.depth b) s = .next t ∧
      OnlyBankBecomes b { (s.bank b).ended .ok with res0 := BitVec.ofNat 64 s.pool.depth.toNat } s t)

/-! ### Pool commands -/

/-- ALLOC takes a free slot of the pool, the lowest one under ALLOC_POLICY = lowest, marks it INUSE and
returns its index; with no free slot it completes BUSY and changes nothing else (R181, R186). DEQ takes the
head of the ready-FIFO, which becomes INUSE, and returns its index; on an empty FIFO it completes EMPTY and
changes nothing else (R184, R189). -/
def Obligations.AllocAndDeqTakeSlots : Prop :=
  ∀ (b : BankId) (s : State),
    ((∀ i : SlotIx, i.val < s.session.poolSize.toNat → s.slotState i ≠ .free) →
      ∃ t, exec (.alloc b) s = .next t ∧ OnlyBankBecomes b ((s.bank b).ended .busy) s t) ∧
    ((∃ i : SlotIx, i.val < s.session.poolSize.toNat ∧ s.slotState i = .free) →
      ∃ (t : State) (i : SlotIx), exec (.alloc b) s = .next t ∧
        i.val < s.session.poolSize.toNat ∧ s.slotState i = .free ∧
        (s.cfg.allocPolicy = .lowest → t.env = s.env ∧
          ∀ j : SlotIx, j.val < s.session.poolSize.toNat → s.slotState j = .free → i ≤ j) ∧
        SlotBecomes i .inuse s t ∧
        BankBecomes b { (s.bank b).ended .ok with res0 := BitVec.ofNat 64 i.val } s t ∧
        t = { s with banks := t.banks, pool := { s.pool with slots := t.pool.slots }, env := t.env } ∧
        t.env.trace = s.env.trace ∧ MemorySame s t) ∧
    (s.pool.fifo = [] →
      ∃ t, exec (.deq b) s = .next t ∧ OnlyBankBecomes b ((s.bank b).ended .empty) s t) ∧
    (∀ i q, s.pool.fifo = i :: q →
      ∃ t, exec (.deq b) s = .next t ∧ SlotBecomes i .inuse s t ∧
        t.pool.fifo = q ∧ t.pool.depth = s.pool.depth - 1 ∧
        BankBecomes b { (s.bank b).ended .ok with res0 := BitVec.ofNat 64 i.val } s t ∧
        t = { s with
          banks := t.banks
          pool := { s.pool with slots := t.pool.slots, fifo := t.pool.fifo, depth := t.pool.depth } } ∧
        MemorySame s t)

/-- FREE of a slot of the pool: a slot that is not QUEUED becomes FREE; a QUEUED slot stays as it is and U2
is raised (R182, R187). ENQ of a slot of the pool: an INUSE slot becomes QUEUED at the tail of the ready-FIFO
and `depth` goes up by one; any other slot stays as it is and U3 is raised (R183, R188). Both complete OK. -/
def Obligations.FreeAndEnqSlots : Prop :=
  ∀ (b : BankId) (i : SlotIx) (s : State), i.val < s.session.poolSize.toNat →
    (∃ t, exec (.free b (BitVec.ofNat 16 i.val)) s = .next t ∧
        BankBecomes b ((s.bank b).ended .ok) s t ∧ MemorySame s t ∧
        (s.slotState i ≠ .queued → SlotBecomes i .free s t ∧
          t = { s with banks := t.banks, pool := { s.pool with slots := t.pool.slots } }) ∧
        (s.slotState i = .queued → FaultAdded (.u2 i) s t ∧
          t = { s with banks := t.banks, faults := t.faults })) ∧
    (∃ t, exec (.enq b (BitVec.ofNat 16 i.val)) s = .next t ∧
        BankBecomes b ((s.bank b).ended .ok) s t ∧ MemorySame s t ∧
        (s.slotState i = .inuse → SlotBecomes i .queued s t ∧
          t.pool.fifo = s.pool.fifo ++ [i] ∧ t.pool.depth = s.pool.depth + 1 ∧
          t = { s with
            banks := t.banks
            pool := { s.pool with slots := t.pool.slots, fifo := t.pool.fifo, depth := t.pool.depth } }) ∧
        (s.slotState i ≠ .inuse → FaultAdded (.u3 i (s.slotState i)) s t ∧
          t = { s with banks := t.banks, faults := t.faults }))

/-- MDGET copies a record to MDBUF and MDSET replaces a record with MDBUF, whatever the slot's state (R191,
R192). A slot index that is not below `pool_size` ends FREE, ENQ, MDGET and MDSET with INVALID and no other
effect (R74, R185). -/
def Obligations.IndexedCommands : Prop :=
  ∀ (b : BankId) (s : State),
    (∀ i : SlotIx, i.val < s.session.poolSize.toNat →
      (∃ t, exec (.mdget b (BitVec.ofNat 16 i.val)) s = .next t ∧
        OnlyBankBecomes b { (s.bank b).ended .ok with mdbuf := s.metaOf i } s t) ∧
      (∃ t, exec (.mdset b (BitVec.ofNat 16 i.val)) s = .next t ∧
        BankBecomes b ((s.bank b).ended .ok) s t ∧ MetaBecomes i (s.bank b).mdbuf s t ∧
        t = { s with banks := t.banks, pool := { s.pool with metas := t.pool.metas } } ∧ MemorySame s t)) ∧
    (∀ (slot : BitVec 16) (i : Instr), s.session.poolSize.toNat ≤ slot.toNat →
      i ∈ [Instr.free b slot, .enq b slot, .mdget b slot, .mdset b slot] →
      ∃ t, exec i s = .next t ∧ OnlyBankBecomes b ((s.bank b).ended .invalid) s t)

/-! ### Session, pacing and clock commands -/

/-- INIT with values its checks accept clears the pool, configures the session and completes OK; with any
other values it completes INVALID and changes nothing else (R280, R194). -/
def Obligations.InitConfiguresSession : Prop :=
  ∀ (b : BankId) (cap pb aud : Bool) (pool : BitVec 8) (nch src : BitVec 4) (s : State),
    if s.run.running = false ∧ s.run.req = .none ∧ (nch = 1 ∨ nch = 2) ∧
        (1 ≤ pool.toNat ∧ pool.toNat ≤ s.cfg.poolMax) ∧ src.toNat ≤ 3 ∧ (aud = true → s.cfg.hasAudio = true)
    then
      ∃ t, exec (.init b cap pb aud pool nch src) s = .next t ∧
        BankBecomes b ((s.bank b).ended .ok) s t ∧
        (∀ i : SlotIx, i.val < s.cfg.poolMax → t.slotState i = .free ∧ t.metaOf i = Meta.zero) ∧
        t.pool.fifo = [] ∧ t.pool.depth = 0 ∧
        (∀ c : VidChan, t.lastPb[c] = none ∧ t.lastCap[c] = none) ∧
        t = { s with
          banks := t.banks
          pool := t.pool
          lastPb := t.lastPb
          lastCap := t.lastCap
          session := ⟨true, cap, pb, aud, nch.setWidth 2, pool.setWidth 7, src⟩
          pacing := { s.pacing with speed := 1000000, acc := 0 }
          drops := ⟨0, 0, 0⟩
          run := { s.run with trigArmed := false, trigId := 0 }
          audio := { s.audio with trigPending := aud } } ∧
        MemorySame s t
    else
      ∃ t, exec (.init b cap pb aud pool nch src) s = .next t ∧
        OnlyBankBecomes b ((s.bank b).ended .invalid) s t

/-- START and STOP ask for the run state and wait for the next field-1 boundary, START only in a session
that is not closing and STOP only in a session; otherwise they complete INVALID with no other effect
(R281, R282). CLOSE completes OK at once; with a session it asks for a stop and marks the close pending,
without one it has no effect. WAITFRAME waits for the next field-1 tick and changes nothing else (R283,
R290). -/
def Obligations.RunAndWaitCommands : Prop :=
  ∀ (b : BankId) (s : State),
    (if s.session.valid = true ∧ s.run.closePending = false then
      ∃ t, exec (.start b) s = .next t ∧ BankBecomes b ((s.bank b).waiting .waitBoundary) s t ∧
        t = { s with banks := t.banks, run := { s.run with req := .run } } ∧ MemorySame s t
    else ∃ t, exec (.start b) s = .next t ∧ OnlyBankBecomes b ((s.bank b).ended .invalid) s t) ∧
    (if s.session.valid = true then
      ∃ t, exec (.stop b) s = .next t ∧ BankBecomes b ((s.bank b).waiting .waitBoundary) s t ∧
        t = { s with banks := t.banks, run := { s.run with req := .stop } } ∧ MemorySame s t
    else ∃ t, exec (.stop b) s = .next t ∧ OnlyBankBecomes b ((s.bank b).ended .invalid) s t) ∧
    (s.session.valid = true →
      ∃ t, exec (.close b) s = .next t ∧ BankBecomes b ((s.bank b).ended .ok) s t ∧
        t = { s with banks := t.banks, run := { s.run with req := .stop, closePending := true } } ∧
        MemorySame s t) ∧
    (s.session.valid = false →
      ∃ t, exec (.close b) s = .next t ∧ OnlyBankBecomes b ((s.bank b).ended .ok) s t) ∧
    (∃ t, exec (.waitframe b) s = .next t ∧ OnlyBankBecomes b ((s.bank b).waiting .waitFrame) s t)

/-- SETTRIG, SETSPEED and AUDARM write their register when their operand is accepted, and otherwise
complete INVALID with no other effect (R285, R287, R296). GENRUN writes the running flag and tells an attached
external generator (R294). -/
def Obligations.RegisterWritingCommands : Prop :=
  ∀ (b : BankId) (s : State),
    (if s.session.valid = true ∧ s.frameId.toNat < (s.bank b).arg0.toNat then
      ∃ t, exec (.settrig b) s = .next t ∧ BankBecomes b ((s.bank b).ended .ok) s t ∧
        t = { s with
          banks := t.banks
          run := { s.run with trigId := (s.bank b).arg0, trigArmed := true } } ∧ MemorySame s t
    else ∃ t, exec (.settrig b) s = .next t ∧ OnlyBankBecomes b ((s.bank b).ended .invalid) s t) ∧
    (if (s.bank b).arg0.toNat ≤ s.cfg.maxSpeed then
      ∃ t, exec (.setspeed b) s = .next t ∧ BankBecomes b ((s.bank b).ended .ok) s t ∧
        t = { s with banks := t.banks, pacing := { s.pacing with speed := (s.bank b).arg0 } } ∧
        MemorySame s t
    else ∃ t, exec (.setspeed b) s = .next t ∧ OnlyBankBecomes b ((s.bank b).ended .invalid) s t) ∧
    (if s.cfg.hasAudio = true ∧ 1 ≤ (s.bank b).arg0.toNat ∧ (s.bank b).arg0.toNat < 2 ^ 32 then
      ∃ t, exec (.audarm b) s = .next t ∧ BankBecomes b ((s.bank b).ended .ok) s t ∧
        t = { s with
          banks := t.banks
          audio := { s.audio with count := (s.bank b).arg0.extractLsb' 0 32, armed := true } } ∧
        MemorySame s t
    else ∃ t, exec (.audarm b) s = .next t ∧ OnlyBankBecomes b ((s.bank b).ended .invalid) s t) ∧
    (∀ en : Bool, ∃ t, exec (.genrun b en) s = .next t ∧ BankBecomes b ((s.bank b).ended .ok) s t ∧
      t = { s with
        banks := t.banks
        genRunning := en
        env := { s.env with
          trace := if s.cfg.extGen = true then s.env.trace ++ [.extRun en] else s.env.trace } } ∧
      MemorySame s t)

/-! ### Timecode commands -/

/-- A value is legal at a rate when its label is in range, its reserved bits are 0 and it is no label that
drop-frame counting skips (R210, R212, R216). GENSET with a legal value writes the generator with F2 and VALID
clear, pushes it to both wire writers, and writes the external generator only when its read-back fails or
differs; an illegal value completes INVALID with no other effect (R292). -/
def Obligations.GensetWritesGenerator : Prop :=
  (∀ (v : TC64) (r : BitVec 3), tcLegal v r = true ↔
    (v.extractLsb' 0 6).toNat < (if r = 0 ∨ r = 4 then 24 else if r = 1 then 25 else 30) ∧
      (v.extractLsb' 6 6).toNat < 60 ∧ (v.extractLsb' 12 6).toNat < 60 ∧ (v.extractLsb' 18 5).toNat < 24 ∧
      v.getLsbD 23 = false ∧ v.extractLsb' 27 5 = 0 ∧
      ¬ ((v.getLsbD 24 = true ∧ (r = 3 ∨ r = 6)) ∧ v.extractLsb' 6 6 = 0 ∧ (v.extractLsb' 0 6).toNat < 2 ∧
        (v.extractLsb' 12 6).toNat % 10 ≠ 0)) ∧
  ∀ (b : BankId) (s : State),
    (tcLegal (s.bank b).arg0 s.tickRate = false →
      ∃ t, exec (.genset b) s = .next t ∧ OnlyBankBecomes b ((s.bank b).ended .invalid) s t) ∧
    (tcLegal (s.bank b).arg0 s.tickRate = true →
      ∃ (t : State) (g : TC64), g = (s.bank b).arg0 &&& ~~~0x06000000 ∧ exec (.genset b) s = .next t ∧
        BankBecomes b ((s.bank b).ended .ok) s t ∧
        t = { s with banks := t.banks, gen := g, env := t.env } ∧ MemorySame s t ∧
        (s.cfg.extGen = false → t.env = { s.env with trace := s.env.trace ++ [.wireW1 g, .wireW2 g] }) ∧
        (s.cfg.extGen = true →
          ((∃ r, s.callReadGenerator.1 = some r ∧ r.extractLsb' 0 23 = g.extractLsb' 0 23 ∧
              r.getLsbD 24 = g.getLsbD 24 ∧ r.extractLsb' 32 32 = g.extractLsb' 32 32) →
            t.env.trace = s.env.trace ++ [.wireW1 g, .wireW2 g, .extReadGenerator]) ∧
          ((∀ r, s.callReadGenerator.1 = some r → ¬ (r.extractLsb' 0 23 = g.extractLsb' 0 23 ∧
              r.getLsbD 24 = g.getLsbD 24 ∧ r.extractLsb' 32 32 = g.extractLsb' 32 32)) →
            t.env.trace = s.env.trace ++ [.wireW1 g, .wireW2 g, .extReadGenerator, .extWrite g])))

/-- TCQUERY for each source: the generator; a wire reader, cached, with VALID set; the external reader and
the external generator, INVALID when none is attached, DEVERR on an error, the latter cached; INVALID
for the other codes (R233, R295). -/
def Obligations.TcqueryReadsSource : Prop :=
  ∀ (b : BankId) (s : State),
    (∃ t, exec (.tcquery b 0) s = .next t ∧
      OnlyBankBecomes b { (s.bank b).ended .ok with res0 := s.gen } s t) ∧
    (∃ (t : State) (v : TC64), v = s.inWire1.1 ||| 0x04000000 ∧ exec (.tcquery b 1) s = .next t ∧
      BankBecomes b { (s.bank b).ended .ok with res0 := v } s t ∧
      t = { s with banks := t.banks, tcCache := { s.tcCache with wire1 := v }, env := t.env } ∧
      t.env.trace = s.env.trace ∧ MemorySame s t) ∧
    (∃ (t : State) (v : TC64), v = s.inWire2.1 ||| 0x04000000 ∧ exec (.tcquery b 2) s = .next t ∧
      BankBecomes b { (s.bank b).ended .ok with res0 := v } s t ∧
      t = { s with banks := t.banks, tcCache := { s.tcCache with wire2 := v }, env := t.env } ∧
      t.env.trace = s.env.trace ∧ MemorySame s t) ∧
    (∃ t, exec (.tcquery b 3) s = .next t ∧ MemorySame s t ∧
      (s.cfg.extGen = false → OnlyBankBecomes b ((s.bank b).ended .invalid) s t) ∧
      (s.cfg.extGen = true → t = { s with banks := t.banks, env := t.env } ∧
        t.env.trace = s.env.trace ++ [.extReadExternal] ∧
        (s.callReadExternal.1 = none → BankBecomes b ((s.bank b).ended .deverr) s t) ∧
        (∀ v, s.callReadExternal.1 = some v →
          BankBecomes b { (s.bank b).ended .ok with res0 := v ||| 0x04000000 } s t))) ∧
    (∃ t, exec (.tcquery b 4) s = .next t ∧ MemorySame s t ∧
      (s.cfg.extGen = false → OnlyBankBecomes b ((s.bank b).ended .invalid) s t) ∧
      (s.cfg.extGen = true → t = { s with banks := t.banks, tcCache := t.tcCache, env := t.env } ∧
        t.env.trace = s.env.trace ++ [.extReadGenerator] ∧
        (s.callReadGenerator.1 = none →
          t.tcCache = s.tcCache ∧ BankBecomes b ((s.bank b).ended .deverr) s t) ∧
        (∀ v, s.callReadGenerator.1 = some v →
          t.tcCache = { s.tcCache with extGen := v ||| 0x04000000 } ∧
          BankBecomes b { (s.bank b).ended .ok with res0 := v ||| 0x04000000 } s t))) ∧
    (∀ src : BitVec 3, 5 ≤ src.toNat →
      ∃ t, exec (.tcquery b src) s = .next t ∧ OnlyBankBecomes b ((s.bank b).ended .invalid) s t)

/-! ### Transfers -/

/-- XFER with a request its validation accepts and a channel free takes the hinted channel if its token is
free, else the lowest free one, stamps the setup start, and goes on to phase X2 (R141, R142, R143). -/
def Obligations.XferAcquiresChannel : Prop :=
  ∀ (b : BankId) (dir : Bool) (hint : BitVec 2) (s : State) (a len : U64) (co : U32),
    (s.bank b).arg0 = a → (s.bank b).arg1 = len → (s.bank b).arg2 = BitVec.ofNat 64 co.toNat →
    a ≠ 0 → 8 ≤ len.toNat → a.toNat + len.toNat < 2 ^ 64 →
    (a.toNat + len.toNat - 1) / s.cfg.pageSize - a.toNat / s.cfg.pageSize + 1 ≤ s.cfg.maxPages →
    hint.toNat < s.cfg.numXferCh → co.toNat + len.toNat ≤ 2 ^ 32 →
    a.toNat % 4 = 0 → len.toNat % 4 = 0 →
    (∃ j : ChanId, j.val < s.cfg.numXferCh ∧ (s.chan j).token = false) →
    ∃ (t : State) (k : ChanId), exec (.xfer b dir hint) s = .next t ∧
      k.val < s.cfg.numXferCh ∧ (s.chan k).token = false ∧
      ((s.chan hint.toFin).token = false → k = hint.toFin) ∧
      ((s.chan hint.toFin).token = true →
        ∀ j : ChanId, j.val < s.cfg.numXferCh → (s.chan j).token = false → k ≤ j) ∧
      BankBecomes b ((s.bank b).waiting (.xfer .x2 k ⟨dir, hint, a, len, co⟩)) s t ∧
      ChanBecomes k
        { s.chan k with token := true, owner := some b, ts := (s.chan k).ts.set 0 s.inHostTs.1 } s t ∧
      t = { s with banks := t.banks, chans := t.chans, env := t.env } ∧
      t.env.trace = s.env.trace ∧ MemorySame s t

/-- XFER that does not start: ILLEGAL for a reserved operand, INVALID for a request the checks reject, with
U4 when only the word alignment fails, and BUSY when every channel is held; nothing else changes (R105,
R142, R143). -/
def Obligations.XferRejectsRequest : Prop :=
  ∀ (b : BankId) (dir : Bool) (hint : BitVec 2) (s : State) (a len : U64) (co : U32),
    (s.bank b).arg0 = a → (s.bank b).arg1 = len → (s.bank b).arg2.extractLsb' 0 32 = co →
    if (s.bank b).arg2.extractLsb' 32 32 ≠ 0 then
      ∃ t, exec (.xfer b dir hint) s = .next t ∧ OnlyBankBecomes b ((s.bank b).ended .illegal) s t
    else if a = 0 ∨ len.toNat < 8 ∨ 2 ^ 64 ≤ a.toNat + len.toNat ∨
        s.cfg.maxPages < (a.toNat + len.toNat - 1) / s.cfg.pageSize - a.toNat / s.cfg.pageSize + 1 ∨
        s.cfg.numXferCh ≤ hint.toNat ∨ 2 ^ 32 < co.toNat + len.toNat then
      ∃ t, exec (.xfer b dir hint) s = .next t ∧ OnlyBankBecomes b ((s.bank b).ended .invalid) s t
    else if a.toNat % 4 ≠ 0 ∨ len.toNat % 4 ≠ 0 then
      ∃ t, exec (.xfer b dir hint) s = .next t ∧ BankBecomes b ((s.bank b).ended .invalid) s t ∧
        FaultAdded (.u4 b a len) s t ∧ t = { s with banks := t.banks, faults := t.faults } ∧
        MemorySame s t
    else (∀ k : ChanId, k.val < s.cfg.numXferCh → (s.chan k).token = true) →
      ∃ t, exec (.xfer b dir hint) s = .next t ∧ OnlyBankBecomes b ((s.bank b).ended .busy) s t

/-- Phase X2: the pages are pinned and the scatter list kept, or the transfer ends INVALID with its channel
released (R144, R146). -/
def Obligations.TransferPins : Prop :=
  ∀ (s : State) (rest : List Event) (b : BankId) (k : ChanId) (r : XferReq) (np : Nat),
    Scheduled (.caller b) rest s → b.val < s.cfg.numCallers → (s.bank b).op = .xfer .x2 k r →
    np = (r.addr.toNat + r.len.toNat - 1) / s.cfg.pageSize - r.addr.toNat / s.cfg.pageSize + 1 →
    ∃ t, step s = .next t ∧ t = { s with banks := t.banks, chans := t.chans, env := t.env } ∧
      t.env.agenda = rest ∧
      t.env.trace = s.env.trace ++ [.hmmPin r.addr (r.addr.toNat / s.cfg.pageSize) np] ∧
      MemorySame s t ∧
      ((s.callPin r.addr (r.addr.toNat / s.cfg.pageSize) np).1 = none →
        BankBecomes b ((s.bank b).ended .invalid) s t ∧
        ChanBecomes k
          { s.chan k with token := false, owner := none, pages := [], sg := [], runs := [] } s t) ∧
      (∀ pages, (s.callPin r.addr (r.addr.toNat / s.cfg.pageSize) np).1 = some pages →
        pages.length = np ∧ BankBecomes b { s.bank b with op := .xfer .x3 k r } s t ∧
        ChanBecomes k
          { s.chan k with
            pages := pages
            sg := scatterList s.cfg.pageSize r.addr r.len pages } s t)

/-- The scatter list has one entry per page, in page order; each entry lies within its page; only the first
may start inside its page, at the buffer's offset; and the lengths sum to the length of the buffer
(R145). -/
def Obligations.ScatterListCoversBuffer : Prop :=
  ∀ (n : Nat) (a len : U64) (pages : List PageHandle) (sg : List ScatterEntry),
    1 ≤ len.toNat → pages.length = (a.toNat + len.toNat - 1) / 2 ^ n - a.toNat / 2 ^ n + 1 →
    sg = scatterList (2 ^ n) a len pages →
    sg.map (·.page) = pages ∧
      (∀ e ∈ sg, e.off + e.len ≤ 2 ^ n) ∧
      sg.map (·.off) = (a.toNat % 2 ^ n) :: List.replicate (pages.length - 1) 0 ∧
      (sg.map (·.len)).sum = len.toNat

/-- Phase X3: the runs of the mapping are kept, with U10 when they break the collaborator's contract; an
empty mapping unpins the pages, releases the channel and ends the transfer BUSY (R152). That the lengths are
summed exactly is the model's choice (log 30). -/
def Obligations.TransferMaps : Prop :=
  ∀ (s : State) (rest : List Event) (b : BankId) (k : ChanId) (r : XferReq) (np : Nat) (runs : List Run),
    Scheduled (.caller b) rest s → b.val < s.cfg.numCallers → (s.bank b).op = .xfer .x3 k r →
    np = (r.addr.toNat + r.len.toNat - 1) / s.cfg.pageSize - r.addr.toNat / s.cfg.pageSize + 1 →
    (s.callMap (s.chan k).sg r.dir).1 = runs →
    ∃ t, step s = .next t ∧ MemorySame s t ∧ t.env.agenda = rest ∧
      t = { s with banks := t.banks, chans := t.chans, env := t.env, faults := t.faults } ∧
      (runs = [] → t.faults = s.faults ∧
        t.env.trace = s.env.trace ++ [.hmmMap (s.chan k).sg r.dir, .hmmUnpin (s.chan k).pages false] ∧
        BankBecomes b ((s.bank b).ended .busy) s t ∧
        ChanBecomes k
          { s.chan k with token := false, owner := none, pages := [], sg := [], runs := [] } s t) ∧
      (runs ≠ [] → t.env.trace = s.env.trace ++ [.hmmMap (s.chan k).sg r.dir] ∧
        BankBecomes b { s.bank b with op := .xfer .x4 k r } s t ∧
        ChanBecomes k { s.chan k with runs := runs } s t ∧
        (if (runs.map (·.len.toNat)).sum = r.len.toNat ∧ runs.length ≤ np ∧ (∀ x ∈ runs, x.len ≠ 0)
          then t.faults = s.faults else FaultAdded (.u10 k) s t))

/-- The merge pass moves no byte: the merged runs name the same bus addresses in the same order. It never
makes more runs, and a run it makes is no longer than MAX_MERGE_BYTES and begins and ends in one 4 GiB
region. Without MERGE_ENABLE it changes nothing; with it, no two runs it leaves in a row meet the merge
condition, provided that no run is empty (R140) or reaches the end of the bus address space, where an
address wraps (R147). -/
def Obligations.MergeIsExact : Prop :=
  ∀ (p : Params) (runs : List Run),
    (runs.map (·.len.toNat)).sum < 2 ^ 64 →
    (mergeRuns p runs).flatMap Run.addresses = runs.flatMap Run.addresses ∧
    (mergeRuns p runs).length ≤ runs.length ∧
    (∀ r ∈ mergeRuns p runs, r ∈ runs ∨
      (p.mergeEnable = true ∧ r.len.toNat ≤ p.maxMergeBytes ∧
        r.bus.extractLsb' 32 32 = (r.bus + r.len - 1).extractLsb' 32 32)) ∧
    (p.mergeEnable = false → mergeRuns p runs = runs) ∧
    (p.mergeEnable = true → (∀ r ∈ runs, 0 < r.len.toNat ∧ r.bus.toNat + r.len.toNat < 2 ^ 64) →
      ∀ (n : Nat) (x y : Run), (mergeRuns p runs)[n]? = some x → (mergeRuns p runs)[n + 1]? = some y →
        ¬ (x.bus + x.len = y.bus ∧ x.len.toNat + y.len.toNat ≤ p.maxMergeBytes ∧
          x.bus.extractLsb' 32 32 = (y.bus + y.len - 1).extractLsb' 32 32))

/-- Phase X4: the channel's registers are programmed, two readings of HOST_TS are kept, GO is set, and the
records of the merged runs stand in the channel's descriptor storage as R149 lays them out; every other byte
of host memory and all of card memory is as before (R149, R153). The faults raised are U5 for more records
than DESC_CAP, U6 for a merged run above 4 GiB with DMA64 = 0, and U7 for a merged run too long for WORDS
or a mapped run that crosses a 4 GiB boundary (R147, R150). -/
def Obligations.TransferPrograms : Prop :=
  ∀ (s : State) (rest : List Event) (b : BankId) (k : ChanId) (r : XferReq) (m : List Run) (base : U64),
    Scheduled (.caller b) rest s → b.val < s.cfg.numCallers → (s.bank b).op = .xfer .x4 k r →
    base = s.cfg.descBase[k] → m = mergeRuns s.cfg (s.chan k).runs →
    ∃ t, step s = .next t ∧
      t = { s with
        banks := t.banks, chans := t.chans, env := t.env, faults := t.faults, hostMem := t.hostMem } ∧
      t.env.agenda = rest ∧ t.env.trace = s.env.trace ∧
      BankBecomes b { s.bank b with op := .xfer .x5 k r } s t ∧
      t.chan k =
        { s.chan k with
          head := base, card := r.card, len := r.len, dir := r.dir, go := true
          ts := ((s.chan k).ts.set 1 s.inHostTs.1).set 2 s.inHostTs.2.inHostTs.1
          moved := false, reported := false, tampered := false } ∧
      (∀ k', k' ≠ k → t.chan k' = { s.chan k' with tampered := (t.chan k').tampered }) ∧
      (∀ f, f ∈ t.faults ↔ f ∈ s.faults ∨
        (s.cfg.descCap < m.length ∧ f = .u5 k m.length) ∨
        (∃ x ∈ m, s.cfg.dma64 = false ∧ x.bus.extractLsb' 32 32 ≠ 0 ∧ f = .u6 k x.bus) ∨
        (∃ x ∈ m, 2 ^ 30 ≤ x.len.toNat / 4 ∧ f = .u7 k x.bus x.len) ∨
        (∃ x ∈ (s.chan k).runs,
          x.bus.extractLsb' 32 32 ≠ (x.bus + x.len - 1).extractLsb' 32 32 ∧ f = .u7 k x.bus x.len)) ∧
      t.cardMem = s.cardMem ∧
      (k.val < s.cfg.numXferCh → MemoryInv s → m.length ≤ s.cfg.descCap →
        (∀ (n : Nat) (x : Run), m[n]? = some x →
          (∀ i : Fin 8, t.hostMem.readU32 (base + BitVec.ofNat 64 (32 * n + 4 * i.val)) =
            [x.bus.extractLsb' 0 32, x.bus.extractLsb' 32 32,
              r.card + BitVec.ofNat 32 (bytesBefore m n),
              BitVec.ofBool r.dir ++ BitVec.ofBool (x.bus.extractLsb' 32 32 != 0) ++
                BitVec.ofNat 30 (x.len.toNat / 4),
              (if n + 1 < m.length then base + BitVec.ofNat 64 (32 * (n + 1)) else 0).extractLsb' 0 32,
              (if n + 1 < m.length then base + BitVec.ofNat 64 (32 * (n + 1)) else 0).extractLsb' 32 32,
              0, 0][i])) ∧
        (∀ a, a < base.toNat ∨ base.toNat + 32 * m.length ≤ a → t.hostMem.read a = s.hostMem.read a))

/-- The chain that phase X4 leaves means the merged runs in order: walked from HEAD it denotes one move per
run, which together cover the card from the card offset up, and these are what the channel performs, unless
another transfer is moving data into the records (R148, R149, R151, R88). -/
def Obligations.ChainDenotesMergedRuns : Prop :=
  ∀ (s : State) (rest : List Event) (b : BankId) (k : ChanId) (r : XferReq) (m : List Run),
    Scheduled (.caller b) rest s → b.val < s.cfg.numCallers → (s.bank b).op = .xfer .x4 k r →
    k.val < s.cfg.numXferCh → MemoryInv s → m = mergeRuns s.cfg (s.chan k).runs → m ≠ [] →
    m.length ≤ s.cfg.descCap → (∀ x ∈ m, x.len.toNat % 4 = 0 ∧ x.len.toNat < 2 ^ 32) →
    ∃ t, step s = .next t ∧
      chainMoves t.hostMem (s.cfg.descCap + (s.chan k).runs.length) (t.chan k).head =
        runMoves r.dir r.card m ∧
      ((∀ a : U64, s.cfg.descBase[k].toNat ≤ a.toNat → a.toNat < s.cfg.descBase[k].toNat + 32 * m.length →
          ¬ Raced s (some k) true a) →
        t.chainOf k = runMoves r.dir r.card m)

/-- CHAN(k) performs its chain's moves while GO(k) = 1 (R148, R166): for a chain whose moves all go one way,
with destinations apart, no address wrapping and no source byte in a race, every byte of a destination is
then the source's byte, every other byte of both memories is as before, and no other state changes but the
model's own marks (log 8). With GO clear, or the moves done, it takes no step. -/
def Obligations.ChannelMovesData : Prop :=
  ∀ (s : State) (rest : List Event) (k : ChanId), Scheduled (.move k) rest s →
    ((s.chan k).go = false ∨ (s.chan k).moved = true → step s = .next (s.leaving rest)) ∧
    (∀ (ms : List Move) (dir : Bool), (s.chan k).go = true → (s.chan k).moved = false →
      s.chainFree k = false → ms = s.chainOf k → MemoryInv s →
      (∀ mv ∈ ms, mv.dir = dir ∧ mv.host.toNat + mv.bytes ≤ 2 ^ 64 ∧ mv.card.toNat + mv.bytes ≤ 2 ^ 32) →
      (if dir = true then ms.Pairwise Move.hostApart else ms.Pairwise Move.cardApart) →
      (∀ mv ∈ ms, ∀ i, i < mv.bytes →
        ¬ Raced s (some k) (!dir)
          (if dir = true then BitVec.ofNat 64 (mv.card.toNat + i) else BitVec.ofNat 64 (mv.host.toNat + i))) →
      ∃ t, step s = .next t ∧ MemoryInv t ∧
        t = { s.leaving rest with chans := t.chans, hostMem := t.hostMem, cardMem := t.cardMem } ∧
        (∀ j, t.chan j = { s.chan j with
          tampered := (t.chan j).tampered, moved := if j = k then true else (s.chan j).moved }) ∧
        (if dir = true then
          t.cardMem = s.cardMem ∧
          (∀ mv ∈ ms, ∀ i, i < mv.bytes →
            t.hostMem.read (mv.host.toNat + i) = s.cardMem.read (mv.card.toNat + i)) ∧
          (∀ a, (∀ mv ∈ ms, a < mv.host.toNat ∨ mv.host.toNat + mv.bytes ≤ a) →
            t.hostMem.read a = s.hostMem.read a)
        else
          t.hostMem = s.hostMem ∧ t.chans = (s.setChan k { s.chan k with moved := true }).chans ∧
          (∀ mv ∈ ms, ∀ i, i < mv.bytes →
            t.cardMem.read (mv.card.toNat + i) = s.hostMem.read (mv.host.toNat + i)) ∧
          (∀ a, (∀ mv ∈ ms, a < mv.card.toNat ∨ mv.card.toNat + mv.bytes ≤ a) →
            t.cardMem.read a = s.cardMem.read a)))

/-- A byte of a transfer's destination range is any value while GO is set (R88): an agent's load of it gives
a free value, while a load outside every such range gives the memory's byte; and it may take any value, after
which the moves are still to be done (the event and the mark are the model's own, log 8). -/
def Obligations.DestinationIsRaced : Prop :=
  ∀ (s : State) (rest : List Event) (a : U64),
    (Scheduled (.hostLoad a) rest s →
      ∃ t, step s = .next t ∧ t = { s with env := t.env } ∧ t.env.agenda = rest ∧
        t.env.trace = s.env.trace ∧
        (Raced s none true a → t.env.readData = (Config.freeByte s.env.draws).setWidth 64) ∧
        (¬ Raced s none true a → t.env.readData = (s.hostMem.read a.toNat).setWidth 64)) ∧
    (∀ k, (s.loadHost (some k) a).1 =
        (if s.raced (some k) true a = true then Config.freeByte s.env.draws else s.hostMem.read a.toNat) ∧
      (s.raced (some k) true a = true ↔ Raced s (some k) true a)) ∧
    (∀ (k : ChanId) (c : U32), (s.loadCard (some k) c).1 =
        (if s.raced (some k) false (c.setWidth 64) = true then Config.freeByte s.env.draws
        else s.cardMem.read c.toNat) ∧
      (s.raced (some k) false (c.setWidth 64) = true ↔ Raced s (some k) false (c.setWidth 64))) ∧
    (∀ (k : ChanId) (v : Byte), Scheduled (.spoil k a v) rest s → MemoryInv s → (s.chan k).go = true →
      (s.chan k).dir = true → (∃ r ∈ (s.chan k).runs, (a - r.bus).toNat < r.len.toNat) →
      ∃ t, step s = .next t ∧ (t.chan k).moved = false ∧ t.cardMem = s.cardMem ∧
        t = { s.leaving rest with chans := t.chans, hostMem := t.hostMem } ∧
        ∀ x, t.hostMem.read x = if x = a.toNat then v else s.hostMem.read x) ∧
    (∀ (k : ChanId) (v : Byte), Scheduled (.spoil k a v) rest s → MemoryInv s → (s.chan k).go = true →
      (s.chan k).dir = false → (s.chan k).card.toNat ≤ a.toNat →
      a.toNat < (s.chan k).card.toNat + (s.chan k).len.toNat → a.toNat < 2 ^ 32 →
      ∃ t, step s = .next t ∧ (t.chan k).moved = false ∧ t.hostMem = s.hostMem ∧
        t = { s.leaving rest with chans := t.chans, cardMem := t.cardMem } ∧
        ∀ x, t.cardMem.read x = if x = a.toNat then v else s.cardMem.read x)

/-- Phases X5 and X6 of HOST(b): the wait is held while GO = 1 and goes on with OK once GO = 0; the cleanup
unmaps, unpins (dirty exactly when card to host), releases the channel and completes with the outcome, RES0
being the length when OK and unchanged otherwise (R155, R159 to R162). -/
def Obligations.TransferWaitsAndCompletes : Prop :=
  ∀ (s : State) (rest : List Event) (b : BankId) (k : ChanId) (r : XferReq),
    Scheduled (.caller b) rest s → b.val < s.cfg.numCallers →
    ((s.bank b).op = .xfer .x5 k r → (s.chan k).go = true → step s = .next (s.leaving rest)) ∧
    ((s.bank b).op = .xfer .x5 k r → (s.chan k).go = false →
      ∃ t, step s = .next t ∧ t = { s with banks := t.banks, chans := t.chans, env := t.env } ∧
        t.env.trace = s.env.trace ∧ MemorySame s t ∧
        BankBecomes b { s.bank b with op := .xfer (.x6 .ok) k r } s t ∧
        ChanBecomes k { s.chan k with ts := (s.chan k).ts.set 3 s.inHostTs.1 } s t) ∧
    (∀ o, (s.bank b).op = .xfer (.x6 o) k r →
      ∃ t, step s = .next t ∧ t = { s with banks := t.banks, chans := t.chans, env := t.env } ∧
        MemorySame s t ∧
        t.env.trace = s.env.trace ++ [.hmmUnmap (s.chan k).runs, .hmmUnpin (s.chan k).pages r.dir] ∧
        ChanBecomes k
          { s.chan k with
            token := false, owner := none, pages := [], sg := [], runs := [], ts := (t.chan k).ts } s t ∧
        (∀ j : Fin 6, j ≠ 4 → j ≠ 5 → (t.chan k).ts[j] = (s.chan k).ts[j]) ∧
        BankBecomes b
          (match o with
            | .ok => { (s.bank b).ended .ok with res0 := r.len }
            | .timeout => (s.bank b).ended .timeout
            | .interrupted => (s.bank b).ended .interrupted) s t)

/-- A timeout or a signal ends a frame wait, and forces GO off in a transfer wait that GO still holds;
anywhere else it is discarded (R157, R158, R165, R297). When GO is already 0 in X5 it is discarded too: the
model's reading of R155's "the first to hold decides" (log 13). -/
def Obligations.CallerEvents : Prop :=
  ∀ (s : State) (rest : List Event) (b : BankId) (e : Event) (o : XferOutcome) (code : ResultCode),
    (e, o, code) ∈ [(Event.timeout b, XferOutcome.timeout, ResultCode.timeout),
      (.signal b, .interrupted, .interrupted)] →
    Scheduled e rest s → b.val < s.cfg.numCallers →
    ((s.bank b).op = .waitFrame →
      ∃ t, step s = .next t ∧ OnlyBankBecomes b ((s.bank b).ended code) (s.leaving rest) t) ∧
    (∀ k r, (s.bank b).op = .xfer .x5 k r → (s.chan k).go = true →
      ∃ t, step s = .next t ∧ t = { s with banks := t.banks, chans := t.chans, env := t.env } ∧
        t.env.trace = s.env.trace ∧ MemorySame s t ∧
        BankBecomes b { s.bank b with op := .xfer (.x6 o) k r } s t ∧
        ChanBecomes k { s.chan k with go := false, ts := (s.chan k).ts.set 3 s.inHostTs.1 } s t) ∧
    ((s.bank b).op ≠ .waitFrame → (∀ k r, (s.bank b).op = .xfer .x5 k r → (s.chan k).go = false) →
      step s = .next (s.leaving rest))

/-! ### Interrupt handlers -/

/-- BUSERR, INVERT0, INVERT1 and WRAP count their event, and the pass goes on or ends; nothing else changes
(R328, R332, R333, R334). -/
def Obligations.CountingHandlers : Prop :=
  ∀ s : State,
    exec .irqBuserr s = .next { s with
      passSet := s.passSet &&& ~~~0x001, pc := passGoes (s.passSet &&& ~~~0x001)
      counters := { s.counters with buserr := s.counters.buserr + 1 } } ∧
    exec .irqInvert0 s = .next { s with
      passSet := s.passSet &&& ~~~0x040, pc := passGoes (s.passSet &&& ~~~0x040)
      counters := { s.counters with invert0 := s.counters.invert0 + 1 } } ∧
    exec .irqInvert1 s = .next { s with
      passSet := s.passSet &&& ~~~0x080, pc := passGoes (s.passSet &&& ~~~0x080)
      counters := { s.counters with invert1 := s.counters.invert1 + 1 } } ∧
    exec .irqWrap s = .next { s with
      passSet := s.passSet &&& ~~~0x100, pc := passGoes (s.passSet &&& ~~~0x100)
      counters := { s.counters with wrap := s.counters.wrap + 1 } }

/-- DONE0 to DONE3: the completion clears GO of a channel that exists and is going, and does nothing else to
its registers; any other completion is counted as spurious (R156, R329, R330). If the running transfer raised
this completion, its moves are done by then (R88, R148), which the model shows by doing in this step those
still to be done (log 10); a late completion of an earlier transfer does none (R167). -/
def Obligations.DoneHandlers : Prop :=
  ∀ (k : ChanId) (s : State), ∃ (t : State) (left : BitVec 9),
    left = s.passSet &&& ~~~(1#9 <<< (1 + k.val)) ∧ exec (doneInstr k) s = .next t ∧
    (k.val < s.cfg.numXferCh ∧ (s.chan k).go = true →
      ((s.chan k).moved = true ∨ (s.chan k).reported = false →
        ChanBecomes k { s.chan k with go := false } s t ∧ MemorySame s t ∧
        t = { s with passSet := left, pc := passGoes left, chans := t.chans }) ∧
      (∀ u, (s.chan k).moved = false → (s.chan k).reported = true →
        u = ({ s with passSet := left }).performChain k →
        ChanBecomes k { u.chan k with go := false } u t ∧ MemorySame u t ∧
        t = { u with pc := passGoes left, chans := t.chans })) ∧
    (¬ (k.val < s.cfg.numXferCh ∧ (s.chan k).go = true) → MemorySame s t ∧
      t = { s with
        passSet := left, pc := passGoes left
        counters := { s.counters with spuriousDone := s.counters.spuriousDone + 1 } })

/-- OUTVERT draws FIELD once and enters the field-1 sequence or the field-2 step; nothing else changes (R217,
R331). -/
def Obligations.OutvertSelectsField : Prop :=
  ∀ s : State, ∃ t, exec .irqOutvert s = .next t ∧
    t = { s with
      passSet := s.passSet &&& ~~~0x020
      pc := if s.inField.1 then .f2 else .f1 .frameId
      env := s.inField.2.env } ∧
    t.env.trace = s.env.trace ∧ MemorySame s t

/-- A command that completes with ILLEGAL, INVALID, BUSY or EMPTY in its acceptance step changes no state
except CSTAT of its bank, and the model-fault record (R107, R352). -/
def Obligations.RejectionBeforeMutation : Prop :=
  ∀ (i : Instr) (b : BankId) (s t : State), i.bank? = some b → exec i s = .next t →
    (t.bank b).pend = false →
    (t.bank b).result ∈ [ResultCode.illegal, .invalid, .busy, .empty] →
    BankBecomes b ((s.bank b).ended (t.bank b).result) s t ∧
      t = { s with banks := t.banks, faults := t.faults } ∧ MemorySame s t

/-! ### The tick -/

/-- F1(3): the armed trigger whose frame has come starts the stream, then the request is applied and used
up; STOP disarms the trigger and, with a close pending, ends the session; every bank waiting for the
boundary completes OK (R220). -/
def Obligations.FieldOneBoundary : Prop :=
  ∀ (s : State) (rest : List Event) (fired : Bool), Scheduled .ids rest s → s.pc = .f1 .boundary →
    (fired = true ↔ s.run.trigArmed = true ∧ s.run.trigId = s.frameId) →
    ∃ t, step s = .next t ∧
      t = { s.leaving rest with
        pc := .f1 .snapshot
        banks := t.banks
        run :=
          { s.run with
            req := .none
            running :=
              match s.run.req with
              | .none => s.run.running || fired
              | .run => true
              | .stop => false
            trigArmed :=
              match s.run.req with
              | .none => s.run.trigArmed && !fired
              | .run => s.run.trigArmed && !fired
              | .stop => false
            closePending :=
              match s.run.req with
              | .none => s.run.closePending
              | .run => s.run.closePending
              | .stop => false }
        session := { s.session with
          valid := s.session.valid && !(decide (s.run.req = .stop) && s.run.closePending) } } ∧
      (∀ b, t.bank b = if (s.bank b).op = .waitBoundary then (s.bank b).ended .ok else s.bank b) ∧
      MemorySame s t

/-- F1(1): the frame id goes up by one and RATE is sampled, with U8 for code 7 (R211, R218). F1(2): a running
generator advances, and F2 is cleared (R219). F1(4): LINE, TICK and HOST_TS are sampled into the current
frame, with FIELD 0 (R221). The field-2 step: RATE is sampled as before, a running generator's F2 is set, and
the tick ends (R230). Nothing else changes. -/
def Obligations.ClockSteps : Prop :=
  ∀ (s u : State) (rest : List Event), Scheduled .ids rest s → u = s.leaving rest →
    (s.pc = .f1 .frameId →
      ∃ t, step s = .next t ∧
        t = { u with
          pc := .f1 .generator
          frameId := s.frameId + 1
          tickRate := u.inRate.1
          faults := t.faults
          env := u.inRate.2.env } ∧
        (u.inRate.1 = 7 → FaultAdded (.u8 (s.frameId + 1) 7) s t) ∧
        (u.inRate.1 ≠ 7 → t.faults = s.faults)) ∧
    (s.pc = .f1 .generator →
      step s = .next { u with
        pc := .f1 .boundary
        gen := (if s.genRunning = true then tcInc s.gen s.tickRate else s.gen) &&& ~~~0x02000000 }) ∧
    (s.pc = .f1 .snapshot →
      step s = .next { u with
        pc := .f1 .freeing
        curFrame := ⟨u.inLine.1, false, u.inLine.2.inTick.1, u.inLine.2.inTick.2.inHostTs.1⟩
        env := u.inLine.2.inTick.2.inHostTs.2.env }) ∧
    (s.pc = .f2 →
      ∃ t, step s = .next t ∧
        t = { u with
          pc := passGoes s.passSet
          tickRate := u.inRate.1
          gen := if s.genRunning = true then s.gen ||| 0x02000000 else s.gen
          faults := t.faults
          env := u.inRate.2.env } ∧
        (u.inRate.1 = 7 → FaultAdded (.u8 s.frameId 7) s t) ∧
        (u.inRate.1 ≠ 7 → t.faults = s.faults))

/-- F1(5): AUDPOS is sampled once, then for each channel in turn the slot played is freed and the slot
captured is stamped with AUDPOS and the three readers' timecodes and queued; both records are cleared. A slot
played that has been queued, or a slot captured that is not INUSE, raises U2 or U3 instead (R222, R233, R253,
R254, R182, R183). -/
def Obligations.FreeingStep : Prop :=
  (∀ (s u : State) (rest : List Event), Scheduled .ids rest s → s.pc = .f1 .freeing → u = s.leaving rest →
    step s = .next { (((u.inAudpos.2.freePlayed 0).queueCaptured u.inAudpos.1 0).freePlayed 1).queueCaptured
      u.inAudpos.1 1 with pc := .f1 .service }) ∧
  (∀ s : State, s.inAudpos.2 = { s with env := s.inAudpos.2.env }) ∧
  (∀ (s : State) (c : VidChan),
    (s.lastPb[c] = none → s.freePlayed c = s) ∧
    (∀ i, s.lastPb[c] = some i → ∃ t, s.freePlayed c = t ∧
      t.lastPb[c] = none ∧ (∀ c', c' ≠ c → t.lastPb[c'] = s.lastPb[c']) ∧
      (s.slotState i ≠ .queued → SlotBecomes i .free s t ∧
        t = { s with pool := { s.pool with slots := t.pool.slots }, lastPb := t.lastPb }) ∧
      (s.slotState i = .queued → FaultAdded (.u2 i) s t ∧ t = { s with faults := t.faults, lastPb := t.lastPb }))) ∧
  (∀ (s : State) (c : VidChan) (ap : U64),
    (s.lastCap[c] = none → s.queueCaptured ap c = s) ∧
    (∀ (i : SlotIx) (w1 w2 x : TC64), s.lastCap[c] = some i →
      w1 = s.inWire1.1 ||| 0x04000000 → w2 = s.inWire1.2.inWire2.1 ||| 0x04000000 →
      x = (if s.cfg.extGen = true then
          (match s.inWire1.2.inWire2.2.callReadExternal.1 with
            | some v => v ||| 0x04000000
            | none => 0)
        else 0) →
      ∃ t, s.queueCaptured ap c = t ∧
        t.lastCap[c] = none ∧ (∀ c', c' ≠ c → t.lastCap[c'] = s.lastCap[c']) ∧
        MetaBecomes i { s.metaOf i with audpos := ap, tc1 := w1, tc2 := w2, tc3 := x } s t ∧
        t.env.trace = s.env.trace ++ (if s.cfg.extGen = true then [.extReadExternal] else []) ∧
        t.env.agenda = s.env.agenda ∧
        (s.slotState i = .inuse → SlotBecomes i .queued s t ∧
          t.pool.fifo = s.pool.fifo ++ [i] ∧ t.pool.depth = s.pool.depth + 1 ∧
          t = { s with pool := t.pool, lastCap := t.lastCap, env := t.env }) ∧
        (s.slotState i ≠ .inuse → FaultAdded (.u3 i (s.slotState i)) s t ∧
          t = { s with
            pool := { s.pool with metas := t.pool.metas }, lastCap := t.lastCap, env := t.env
            faults := t.faults })))

/-- F1(7): the timecode one frame ahead of a running generator, or the generator, goes to both wire writers
with F2 clear. F1(8): on a tick that qualifies the external generator is written and pulsed. F1(9): the serial
collaborator is told. F1(10): every bank waiting for a frame completes OK. F1(11): an armed countdown goes
down, stopping audio at 0 and starting it before that, and the tick ends. Nothing else changes (R215, R224 to
R229). -/
def Obligations.TickOutputSteps : Prop :=
  ∀ (s u : State) (rest : List Event) (cur nxt : TC64), Scheduled .ids rest s → u = s.leaving rest →
    cur = s.gen &&& ~~~0x02000000 →
    nxt = (if s.genRunning = true then tcInc s.gen s.tickRate else s.gen) &&& ~~~0x02000000 →
    (s.pc = .f1 .wirePush →
      step s = .next { u with
        pc := .f1 .extSync
        env := { u.env with trace := s.env.trace ++ [.wireW1 nxt, .wireW2 nxt] } }) ∧
    (s.pc = .f1 .extSync →
      step s = .next { u with
        pc := .f1 .serial
        env := { u.env with trace := s.env.trace ++
          if s.cfg.extGen = true ∧ (¬ (s.tickRate = 5 ∨ s.tickRate = 6) ∨ s.frameId.toNat % 2 = 0) then
            [.extWrite cur, .extSync true, .extSync false]
          else [] } }) ∧
    (s.pc = .f1 .serial →
      step s = .next { u with
        pc := .f1 .wake, env := { u.env with trace := s.env.trace ++ [.serial cur] } }) ∧
    (s.pc = .f1 .wake →
      ∃ t, step s = .next t ∧ t = { u with pc := .f1 .audio, banks := t.banks } ∧
        ∀ b, t.bank b = if (s.bank b).op = .waitFrame then (s.bank b).ended .ok else s.bank b) ∧
    (∀ n : U32, s.pc = .f1 .audio → n = (if s.audio.count = 0 then 0 else s.audio.count - 1) →
      step s = .next { u with
        pc := passGoes s.passSet
        pacing := { s.pacing with paced := false }
        audio :=
          if s.audio.armed = false then s.audio
          else if n = 0 then { s.audio with count := 0, running := false, armed := false }
          else { s.audio with count := n, running := true }
        env := { u.env with trace := s.env.trace ++
          if s.audio.armed = false then []
          else if n = 0 then [.audioStop]
          else if s.audio.running = true then []
          else [.audioStart] } })

/-- Only F1(1) writes `frame_id`, adding one; only F1(4) writes `cur_frame`; only the stream service F1(6)
writes the select registers; whatever step is taken (R28, R29, R44, R232). -/
def Obligations.ClockRegisterWriters : Prop :=
  ∀ s t : State, step s = .next t →
    (t.frameId ≠ s.frameId → s.pc = .f1 .frameId ∧ t.frameId = s.frameId + 1) ∧
    (t.curFrame ≠ s.curFrame → s.pc = .f1 .snapshot) ∧
    (t.outsel ≠ s.outsel ∨ t.insel ≠ s.insel → s.pc = .f1 .service)

/-- The dispatcher's step, the phases of a tick and the handlers of every source but a completion leave every
transfer channel and both memories as they are (R164). -/
def Obligations.TickLeavesChannels : Prop :=
  ∀ (s t : State) (rest : List Event), Scheduled .ids rest s → step s = .next t →
    (s.pc = .handling → ∃ j : Fin 9, ¬ (1 ≤ j.val ∧ j.val ≤ 4) ∧ s.passSet.getLsbD j.val = true ∧
      ∀ j' : Fin 9, j' < j → s.passSet.getLsbD j'.val = false) →
    t.chans = s.chans ∧ t.hostMem = s.hostMem ∧ t.cardMem = s.cardMem

/-- A stream service whose enabled directions all fail their guards records one drop for each, with this
frame's id and the generator, and writes no select register and paces nothing (R252, R255, R260, R265). -/
def Obligations.DropAccounting : Prop :=
  ∀ (s : State) (rest : List Event), Scheduled .ids rest s → s.pc = .f1 .service →
    s.run.running = true → s.session.valid = true →
    (s.session.flagPb = true → s.pool.depth.toNat < s.session.nch.toNat) →
    (s.session.flagCap = true →
      s.session.poolSize.toNat - s.pool.depth.toNat ≤ s.session.nch.toNat) →
    ∃ t, step s = .next t ∧
      t = { s.leaving rest with pc := .f1 .wirePush, drops := t.drops, audio := t.audio, env := t.env } ∧
      t.drops =
        (if s.session.flagPb = true ∨ s.session.flagCap = true then
          ⟨s.drops.count + BitVec.ofNat 64 (s.session.flagPb.toNat + s.session.flagCap.toNat),
            s.frameId, s.gen⟩
        else s.drops) ∧
      t.audio =
        (if s.audio.trigPending then { s.audio with running := true, trigPending := false } else s.audio) ∧
      t.env.trace = s.env.trace ++ (if s.audio.trigPending then [.audioStart] else [])

/-- F1(6) of a running session starts a pending audio trigger, then plays, then captures (R223). A playback
tick does nothing without the playback flag, and records a drop when fewer slots are queued than channels
(R255). Otherwise it paces, once in a tick (R250). With N = 0 it holds: nothing else changes (R256). With N ≥ 1
it frees the slots the discard rule names from the head of the FIFO (R257), then shows for each channel the
next slot, if its tag is the channel's; the first mismatch is counted, its slot freed, and the tick ends
(R258). After the last channel it adopts channel 0's generator override (R259). -/
def Obligations.PlaybackTick : Prop :=
  (∀ (s u : State) (rest : List Event), Scheduled .ids rest s → s.pc = .f1 .service → u = s.leaving rest →
    step s = .next { (if s.run.running = true ∧ s.session.valid = true then
      (if s.audio.trigPending = true then
        { u with
          audio := { s.audio with running := true, trigPending := false }
          env := { u.env with trace := s.env.trace ++ [.audioStart] } }
      else u).playbackTick.captureTick else u) with pc := .f1 .wirePush }) ∧
  (∀ s : State, s.session.flagPb = false → s.playbackTick = s) ∧
  (∀ s : State, s.session.flagPb = true → s.pool.depth.toNat < s.session.nch.toNat →
    s.playbackTick = { s with drops := ⟨s.drops.count + 1, s.frameId, s.gen⟩ }) ∧
  ∀ (s : State) (n : Nat) (p : Pacing) (nch : Nat),
    PoolInv s → s.session.flagPb = true → nch = s.session.nch.toNat → 1 ≤ nch → nch ≤ 2 →
    nch ≤ s.pool.fifo.length → PaceGives s n p →
    (n = 0 → s.playbackTick = { s with pacing := p }) ∧
    (1 ≤ n → ∃ t, s.playbackTick = t ∧
      t = { s with
        pool := t.pool, outsel := t.outsel, lastPb := t.lastPb, pacing := p, gen := t.gen
        counters := t.counters } ∧
      (∀ (i : SlotIx) (q : List SlotIx),
        s.pool.fifo.drop (min (n - 1) (s.pool.fifo.length - nch)) = i :: q →
        ((s.metaOf i).chtag ≠ 0 →
          FifoBecomes [] q s t ∧ (∀ x, t.metaOf x = s.metaOf x) ∧ t.outsel = s.outsel ∧
          t.lastPb = s.lastPb ∧ t.gen = s.gen ∧
          t.counters = { s.counters with tagerr := s.counters.tagerr + 1 }) ∧
        ((s.metaOf i).chtag = 0 → t.outsel[0] = BitVec.ofNat 16 i.val ∧ t.lastPb[0] = some i ∧
          (nch = 1 → FifoBecomes [i] q s t ∧ t.outsel[1] = s.outsel[1] ∧ t.lastPb[1] = s.lastPb[1] ∧
            t.counters = s.counters) ∧
          (∀ (j : SlotIx) (q' : List SlotIx), nch = 2 → q = j :: q' →
            ((s.metaOf j).chtag ≠ 1 →
              FifoBecomes [i] q' s t ∧ (∀ x, t.metaOf x = s.metaOf x) ∧ t.outsel[1] = s.outsel[1] ∧
              t.lastPb[1] = s.lastPb[1] ∧ t.gen = s.gen ∧
              t.counters = { s.counters with tagerr := s.counters.tagerr + 1 }) ∧
            ((s.metaOf j).chtag = 1 →
              FifoBecomes [i, j] q' s t ∧ t.outsel[1] = BitVec.ofNat 16 j.val ∧ t.lastPb[1] = some j ∧
              t.counters = s.counters)) ∧
          (nch = 1 ∨ (∃ j q', q = j :: q' ∧ (s.metaOf j).chtag = 1) →
            t.gen = (if (s.metaOf i).tc0.getLsbD 26 = true then (s.metaOf i).tc0 &&& ~~~0x06000000 else s.gen) ∧
            MetaBecomes i { s.metaOf i with tc0 := (s.metaOf i).tc0 &&& ~~~0x04000000 } s t))))

/-- A capture tick does nothing without the capture flag, and records a drop when no more slots are unqueued
than there are channels (R260). Otherwise it paces, once in a tick (R250), adjusts a running generator (R261),
and for each channel takes a free slot, the lowest one under ALLOC_POLICY = lowest, which it selects, stamps
with the frame record, the channel, the step count and the generator, and remembers (R181, R262); the first
channel that finds none is counted, and the tick ends there (R263). -/
def Obligations.CaptureTick : Prop :=
  (∀ s : State, s.session.flagCap = false → s.captureTick = s) ∧
  (∀ s : State, s.session.flagCap = true →
    s.session.poolSize.toNat - s.pool.depth.toNat ≤ s.session.nch.toNat →
    s.captureTick = { s with drops := ⟨s.drops.count + 1, s.frameId, s.gen⟩ }) ∧
  ∀ (s : State) (n : Nat) (p : Pacing) (nch : Nat) (g : TC64) (stamp : VidChan → Meta → Meta),
    s.session.flagCap = true → nch = s.session.nch.toNat → 1 ≤ nch → nch ≤ 2 →
    nch < s.session.poolSize.toNat - s.pool.depth.toNat → PaceGives s n p →
    g = (if s.genRunning = true then
      (if n = 0 then tcDec s.gen s.tickRate else tcIncN (n - 1) s.gen s.tickRate) else s.gen) →
    (∀ c m, stamp c m = { m with
      line := s.curFrame.line
      field := if s.curFrame.field = true then 1 else 0
      tick := s.curFrame.tick
      hostTs := s.curFrame.hostTs
      chtag := BitVec.ofNat 32 c.val
      incr := BitVec.ofNat 32 n
      tc0 := g }) →
    ∃ t, s.captureTick = t ∧
      t = { s with
        pool := { s.pool with slots := t.pool.slots, metas := t.pool.metas }
        insel := t.insel, lastCap := t.lastCap, pacing := p, gen := g, counters := t.counters, env := t.env } ∧
      t.env.trace = s.env.trace ∧ t.env.agenda = s.env.agenda ∧
      (s.cfg.allocPolicy = .lowest → t.env = s.env) ∧
      ((∀ i, ¬ Allocatable s [] i) →
        t = { s with
          pacing := p, gen := g, counters := { s.counters with capfail := s.counters.capfail + 1 } }) ∧
      ((∃ i, Allocatable s [] i) →
        ∃ i, Allocatable s [] i ∧ t.insel[0] = BitVec.ofNat 16 i.val ∧ t.lastCap[0] = some i ∧
          (nch = 1 ∨ (∀ j, ¬ Allocatable s [i] j) →
            SlotBecomes i .inuse s t ∧ MetaBecomes i (stamp 0 (s.metaOf i)) s t ∧
            t.insel[1] = s.insel[1] ∧ t.lastCap[1] = s.lastCap[1] ∧
            t.counters = (if nch = 1 then s.counters
              else { s.counters with capfail := s.counters.capfail + 1 })) ∧
          (nch = 2 → (∃ j, Allocatable s [i] j) →
            ∃ j, Allocatable s [i] j ∧ t.insel[1] = BitVec.ofNat 16 j.val ∧ t.lastCap[1] = some j ∧
              t.counters = s.counters ∧
              (∀ x, t.slotState x = if x = i ∨ x = j then .inuse else s.slotState x) ∧
              (∀ x, t.metaOf x =
                if x = i then stamp 0 (s.metaOf i) else if x = j then stamp 1 (s.metaOf j) else s.metaOf x)))

/-- Over T evaluations at constant speed, the step counts sum to (r0 + T × v) / 1,000,000 and the remainder
is (r0 + T × v) mod 1,000,000; so at 1x the remainder never changes and every step is 1 (R250, R251). -/
def Obligations.PacingSum : Prop :=
  ∀ (p : Pacing) (T : Nat), p.acc.toNat < 1000000 →
    ((List.range T).map (fun n => (Pacing.advance^[n + 1] p).stepCache.toNat)).sum =
        (p.acc.toNat + T * p.speed.toNat) / 1000000 ∧
      (Pacing.advance^[T] p).acc.toNat = (p.acc.toNat + T * p.speed.toNat) % 1000000 ∧
      (p.speed = 1000000 → (Pacing.advance^[T + 1] p).stepCache = 1)

/-- One frame forward goes up by one in the first of frames, seconds, minutes and hours that has room and sets
those below to 0, but to frame 2 at a minute where drop-frame counting skips labels 0 and 1; the other bits are
kept (R213). That a label out of range does not wrap in between is the model's choice (log 28). On every label
legal at a rate, one frame forward and one frame back undo each other, and both keep the label legal (R213,
R214, R216). -/
def Obligations.TimecodeSteps : Prop :=
  (∀ (t : TC64) (r : BitVec 3) (lim f s m h : Nat) (df : Bool),
    lim = (if r = 0 ∨ r = 4 then 24 else if r = 1 then 25 else 30) → df = (t.getLsbD 24 && (r == 3 || r == 6)) →
    f = (t.extractLsb' 0 6).toNat → s = (t.extractLsb' 6 6).toNat → m = (t.extractLsb' 12 6).toNat →
    h = (t.extractLsb' 18 5).toNat →
    ∃ f' s' m' h' : Nat,
      tcInc t r = t.extractLsb' 23 41 ++ BitVec.ofNat 5 h' ++ BitVec.ofNat 6 m' ++ BitVec.ofNat 6 s' ++
        BitVec.ofNat 6 f' ∧
      (f + 1 < lim → f' = f + 1 ∧ s' = s ∧ m' = m ∧ h' = h) ∧
      (lim ≤ f + 1 → s + 1 < 60 → f' = 0 ∧ s' = s + 1 ∧ m' = m ∧ h' = h) ∧
      (lim ≤ f + 1 → 60 ≤ s + 1 → m + 1 < 60 →
        f' = (if df = true ∧ (m + 1) % 10 ≠ 0 then 2 else 0) ∧ s' = 0 ∧ m' = m + 1 ∧ h' = h) ∧
      (lim ≤ f + 1 → 60 ≤ s + 1 → 60 ≤ m + 1 →
        f' = 0 ∧ s' = 0 ∧ m' = 0 ∧ h' = if h + 1 < 24 then h + 1 else 0)) ∧
  (∀ (t : TC64) (r : BitVec 3), tcLegal t r = true →
    tcDec (tcInc t r) r = t ∧ tcInc (tcDec t r) r = t ∧
      tcLegal (tcInc t r) r = true ∧ tcLegal (tcDec t r) r = true)

/-! ### The whole machine -/

/-- Every step keeps every timecode sent to a wire writer, the external generator or the serial collaborator
with F2 clear (R215), and the generator's VALID bit 0 (R216). -/
def Obligations.StepKeepsTimecodeFlags : Prop :=
  ∀ s t : State, step s = .next t →
    ((∀ o ∈ s.env.trace, o.clean = true) → ∀ o ∈ t.env.trace, o.clean = true) ∧
    (s.gen.getLsbD 26 = false → t.gen.getLsbD 26 = false)

/-- While a pass runs, no step adds a source to it, and no latched source is lost (R321, R325, R327). -/
def Obligations.NoNesting : Prop :=
  ∀ s t : State, step s = .next t → s.pc ≠ .idle →
    (∀ j : Fin 9, t.passSet.getLsbD j.val = true → s.passSet.getLsbD j.val = true) ∧
    (∀ j : Fin 9, s.irqStatus.getLsbD j.val = true → t.irqStatus.getLsbD j.val = true)

/-- A model fault once raised stays, under every step (R47, R357). -/
def Obligations.FaultsAreSticky : Prop :=
  ∀ s t : State, step s = .next t → ∀ f ∈ s.faults, f ∈ t.faults

/-- Every step keeps both memories in canonical form. -/
def Obligations.StepKeepsMemoryForm : Prop :=
  ∀ s t : State, step s = .next t → MemoryInv s → MemoryInv t

/-- Every step keeps the pool's invariants: the counter, the FIFO and the slot states agree (R42, R193). -/
def Obligations.StepKeepsPoolInvariant : Prop :=
  ∀ s t : State, step s = .next t → PoolInv s → PoolInv t

/-- Every step keeps the callers' and channels' invariants: a token is held by exactly the bank whose
transfer runs on the channel, and GO is set only in its wait (R22, R143, R161, R164). -/
def Obligations.StepKeepsTransferInvariant : Prop :=
  ∀ s t : State, step s = .next t → TransferInv s → TransferInv t

/-- Every step keeps the session's invariants (R36, R38, R223). -/
def Obligations.StepKeepsSessionInvariant : Prop :=
  ∀ s t : State, step s = .next t → SessionInv s → SessionInv t

/-- Every step keeps the pacing invariants: the remainder below SPEED_ONE, the speed within MAX_SPEED, and
`paced` set only between F1(6) and the end of a tick (R37, R229, R251). -/
def Obligations.StepKeepsPacingInvariant : Prop :=
  ∀ s t : State, step s = .next t → PacingInv s → PacingInv t

/-- Every step keeps the sequencer's invariants, so from a state that has them no step faults: a step either
answers a next state that has them too or refuses a bad configuration (R24, R334). -/
def Obligations.StepKeepsSequencerInvariant : Prop :=
  ∀ s : State, SequencerInv s →
    (∃ t, step s = .next t ∧ SequencerInv t) ∨ step s = .refused .badConfiguration

/-! ### Reset -/

/-- Every piece of state has R50's value at reset, under every configuration. -/
def Obligations.ResetValues : Prop :=
  ∀ (p : Params) (s : State), s = State.resetWith p →
    (∀ b, s.bank b = ⟨0, false, .ok, 0, 0, 0, 0, 0, 0, 0, ⟨0, 0, 0, 0, 0, 0, 0, 0, 0, 0, 0, 0⟩, .none⟩) ∧
    s.pc = .idle ∧ s.passSet = 0 ∧ s.irqStatus = 0 ∧ s.irqEnable = 0 ∧
    s.counters = ⟨0, 0, 0, 0, 0, 0, 0⟩ ∧ s.frameId = 0 ∧ s.curFrame = ⟨0, false, 0, 0⟩ ∧
    s.gen = 0 ∧ s.genRunning = false ∧ s.tickRate = 0 ∧ s.tcCache = ⟨0, 0, 0⟩ ∧
    s.audio = ⟨false, false, false, 0⟩ ∧ s.session = ⟨false, false, false, false, 0, 0, 0⟩ ∧
    s.pacing = ⟨1000000, 0, false, 0⟩ ∧ s.run = ⟨false, .none, false, false, 0⟩ ∧
    s.drops = ⟨0, 0, 0⟩ ∧ (∀ c : VidChan, s.lastPb[c] = none ∧ s.lastCap[c] = none) ∧
    (∀ i, s.slotState i = .free ∧ s.metaOf i = ⟨0, 0, 0, 0, 0, 0, 0, 0, 0, 0, 0, 0⟩) ∧
    s.pool.fifo = [] ∧ s.pool.depth = 0 ∧ (∀ c : VidChan, s.outsel[c] = 0 ∧ s.insel[c] = 0) ∧
    (∀ k, (s.chan k).head = 0 ∧ (s.chan k).card = 0 ∧ (s.chan k).len = 0 ∧ (s.chan k).go = false ∧
      (s.chan k).dir = false ∧ (s.chan k).token = false ∧ (s.chan k).owner = none ∧
      (s.chan k).pages = [] ∧ (s.chan k).sg = [] ∧ (s.chan k).runs = [] ∧
      ∀ j : Fin 6, (s.chan k).ts[j] = 0) ∧
    s.faults = []

/-- The reset state of every configuration that has runs meets every invariant above. -/
def Obligations.ResetMeetsInvariants : Prop :=
  ∀ (p : Params) (s : State), ConfigValid p → s = State.resetWith p →
    MemoryInv s ∧ PoolInv s ∧ TransferInv s ∧ SessionInv s ∧ PacingInv s ∧ SequencerInv s ∧
      s.gen.getLsbD 26 = false ∧ (∀ o ∈ s.env.trace, o.clean = true)

end
end

