-- ==== Sys2Proof/Laws/State.lean ====
section
/-! SUPPORT. One lemma per field of the state per update: what an update leaves as it was. Later proofs
use these by simp and never unfold a record update. -/

namespace Sys2Proof.Machine

/-! ### setBank -/

@[simp] theorem State.setBank_cfg (s : State) (b : BankId) (x : Bank) : (s.setBank b x).cfg = s.cfg := rfl
@[simp] theorem State.setBank_pc (s : State) (b : BankId) (x : Bank) : (s.setBank b x).pc = s.pc := rfl
@[simp] theorem State.setBank_passSet (s : State) (b : BankId) (x : Bank) : (s.setBank b x).passSet = s.passSet := rfl
@[simp] theorem State.setBank_irqStatus (s : State) (b : BankId) (x : Bank) : (s.setBank b x).irqStatus = s.irqStatus := rfl
@[simp] theorem State.setBank_irqEnable (s : State) (b : BankId) (x : Bank) : (s.setBank b x).irqEnable = s.irqEnable := rfl
@[simp] theorem State.setBank_counters (s : State) (b : BankId) (x : Bank) : (s.setBank b x).counters = s.counters := rfl
@[simp] theorem State.setBank_frameId (s : State) (b : BankId) (x : Bank) : (s.setBank b x).frameId = s.frameId := rfl
@[simp] theorem State.setBank_curFrame (s : State) (b : BankId) (x : Bank) : (s.setBank b x).curFrame = s.curFrame := rfl
@[simp] theorem State.setBank_gen (s : State) (b : BankId) (x : Bank) : (s.setBank b x).gen = s.gen := rfl
@[simp] theorem State.setBank_genRunning (s : State) (b : BankId) (x : Bank) : (s.setBank b x).genRunning = s.genRunning := rfl
@[simp] theorem State.setBank_tcCache (s : State) (b : BankId) (x : Bank) : (s.setBank b x).tcCache = s.tcCache := rfl
@[simp] theorem State.setBank_tickRate (s : State) (b : BankId) (x : Bank) : (s.setBank b x).tickRate = s.tickRate := rfl
@[simp] theorem State.setBank_audio (s : State) (b : BankId) (x : Bank) : (s.setBank b x).audio = s.audio := rfl
@[simp] theorem State.setBank_session (s : State) (b : BankId) (x : Bank) : (s.setBank b x).session = s.session := rfl
@[simp] theorem State.setBank_pacing (s : State) (b : BankId) (x : Bank) : (s.setBank b x).pacing = s.pacing := rfl
@[simp] theorem State.setBank_run (s : State) (b : BankId) (x : Bank) : (s.setBank b x).run = s.run := rfl
@[simp] theorem State.setBank_drops (s : State) (b : BankId) (x : Bank) : (s.setBank b x).drops = s.drops := rfl
@[simp] theorem State.setBank_lastPb (s : State) (b : BankId) (x : Bank) : (s.setBank b x).lastPb = s.lastPb := rfl
@[simp] theorem State.setBank_lastCap (s : State) (b : BankId) (x : Bank) : (s.setBank b x).lastCap = s.lastCap := rfl
@[simp] theorem State.setBank_pool (s : State) (b : BankId) (x : Bank) : (s.setBank b x).pool = s.pool := rfl
@[simp] theorem State.setBank_outsel (s : State) (b : BankId) (x : Bank) : (s.setBank b x).outsel = s.outsel := rfl
@[simp] theorem State.setBank_insel (s : State) (b : BankId) (x : Bank) : (s.setBank b x).insel = s.insel := rfl
@[simp] theorem State.setBank_chans (s : State) (b : BankId) (x : Bank) : (s.setBank b x).chans = s.chans := rfl
@[simp] theorem State.setBank_faults (s : State) (b : BankId) (x : Bank) : (s.setBank b x).faults = s.faults := rfl
@[simp] theorem State.setBank_hostMem (s : State) (b : BankId) (x : Bank) : (s.setBank b x).hostMem = s.hostMem := rfl
@[simp] theorem State.setBank_cardMem (s : State) (b : BankId) (x : Bank) : (s.setBank b x).cardMem = s.cardMem := rfl
@[simp] theorem State.setBank_env (s : State) (b : BankId) (x : Bank) : (s.setBank b x).env = s.env := rfl

/-! ### setChan -/

@[simp] theorem State.setChan_cfg (s : State) (k : ChanId) (c : Channel) : (s.setChan k c).cfg = s.cfg := rfl
@[simp] theorem State.setChan_banks (s : State) (k : ChanId) (c : Channel) : (s.setChan k c).banks = s.banks := rfl
@[simp] theorem State.setChan_pc (s : State) (k : ChanId) (c : Channel) : (s.setChan k c).pc = s.pc := rfl
@[simp] theorem State.setChan_passSet (s : State) (k : ChanId) (c : Channel) : (s.setChan k c).passSet = s.passSet := rfl
@[simp] theorem State.setChan_irqStatus (s : State) (k : ChanId) (c : Channel) : (s.setChan k c).irqStatus = s.irqStatus := rfl
@[simp] theorem State.setChan_irqEnable (s : State) (k : ChanId) (c : Channel) : (s.setChan k c).irqEnable = s.irqEnable := rfl
@[simp] theorem State.setChan_counters (s : State) (k : ChanId) (c : Channel) : (s.setChan k c).counters = s.counters := rfl
@[simp] theorem State.setChan_frameId (s : State) (k : ChanId) (c : Channel) : (s.setChan k c).frameId = s.frameId := rfl
@[simp] theorem State.setChan_curFrame (s : State) (k : ChanId) (c : Channel) : (s.setChan k c).curFrame = s.curFrame := rfl
@[simp] theorem State.setChan_gen (s : State) (k : ChanId) (c : Channel) : (s.setChan k c).gen = s.gen := rfl
@[simp] theorem State.setChan_genRunning (s : State) (k : ChanId) (c : Channel) : (s.setChan k c).genRunning = s.genRunning := rfl
@[simp] theorem State.setChan_tcCache (s : State) (k : ChanId) (c : Channel) : (s.setChan k c).tcCache = s.tcCache := rfl
@[simp] theorem State.setChan_tickRate (s : State) (k : ChanId) (c : Channel) : (s.setChan k c).tickRate = s.tickRate := rfl
@[simp] theorem State.setChan_audio (s : State) (k : ChanId) (c : Channel) : (s.setChan k c).audio = s.audio := rfl
@[simp] theorem State.setChan_session (s : State) (k : ChanId) (c : Channel) : (s.setChan k c).session = s.session := rfl
@[simp] theorem State.setChan_pacing (s : State) (k : ChanId) (c : Channel) : (s.setChan k c).pacing = s.pacing := rfl
@[simp] theorem State.setChan_run (s : State) (k : ChanId) (c : Channel) : (s.setChan k c).run = s.run := rfl
@[simp] theorem State.setChan_drops (s : State) (k : ChanId) (c : Channel) : (s.setChan k c).drops = s.drops := rfl
@[simp] theorem State.setChan_lastPb (s : State) (k : ChanId) (c : Channel) : (s.setChan k c).lastPb = s.lastPb := rfl
@[simp] theorem State.setChan_lastCap (s : State) (k : ChanId) (c : Channel) : (s.setChan k c).lastCap = s.lastCap := rfl
@[simp] theorem State.setChan_pool (s : State) (k : ChanId) (c : Channel) : (s.setChan k c).pool = s.pool := rfl
@[simp] theorem State.setChan_outsel (s : State) (k : ChanId) (c : Channel) : (s.setChan k c).outsel = s.outsel := rfl
@[simp] theorem State.setChan_insel (s : State) (k : ChanId) (c : Channel) : (s.setChan k c).insel = s.insel := rfl
@[simp] theorem State.setChan_faults (s : State) (k : ChanId) (c : Channel) : (s.setChan k c).faults = s.faults := rfl
@[simp] theorem State.setChan_hostMem (s : State) (k : ChanId) (c : Channel) : (s.setChan k c).hostMem = s.hostMem := rfl
@[simp] theorem State.setChan_cardMem (s : State) (k : ChanId) (c : Channel) : (s.setChan k c).cardMem = s.cardMem := rfl
@[simp] theorem State.setChan_env (s : State) (k : ChanId) (c : Channel) : (s.setChan k c).env = s.env := rfl

/-! ### setSlot -/

@[simp] theorem State.setSlot_cfg (s : State) (i : SlotIx) (st : SlotState) : (s.setSlot i st).cfg = s.cfg := rfl
@[simp] theorem State.setSlot_banks (s : State) (i : SlotIx) (st : SlotState) : (s.setSlot i st).banks = s.banks := rfl
@[simp] theorem State.setSlot_pc (s : State) (i : SlotIx) (st : SlotState) : (s.setSlot i st).pc = s.pc := rfl
@[simp] theorem State.setSlot_passSet (s : State) (i : SlotIx) (st : SlotState) : (s.setSlot i st).passSet = s.passSet := rfl
@[simp] theorem State.setSlot_irqStatus (s : State) (i : SlotIx) (st : SlotState) : (s.setSlot i st).irqStatus = s.irqStatus := rfl
@[simp] theorem State.setSlot_irqEnable (s : State) (i : SlotIx) (st : SlotState) : (s.setSlot i st).irqEnable = s.irqEnable := rfl
@[simp] theorem State.setSlot_counters (s : State) (i : SlotIx) (st : SlotState) : (s.setSlot i st).counters = s.counters := rfl
@[simp] theorem State.setSlot_frameId (s : State) (i : SlotIx) (st : SlotState) : (s.setSlot i st).frameId = s.frameId := rfl
@[simp] theorem State.setSlot_curFrame (s : State) (i : SlotIx) (st : SlotState) : (s.setSlot i st).curFrame = s.curFrame := rfl
@[simp] theorem State.setSlot_gen (s : State) (i : SlotIx) (st : SlotState) : (s.setSlot i st).gen = s.gen := rfl
@[simp] theorem State.setSlot_genRunning (s : State) (i : SlotIx) (st : SlotState) : (s.setSlot i st).genRunning = s.genRunning := rfl
@[simp] theorem State.setSlot_tcCache (s : State) (i : SlotIx) (st : SlotState) : (s.setSlot i st).tcCache = s.tcCache := rfl
@[simp] theorem State.setSlot_tickRate (s : State) (i : SlotIx) (st : SlotState) : (s.setSlot i st).tickRate = s.tickRate := rfl
@[simp] theorem State.setSlot_audio (s : State) (i : SlotIx) (st : SlotState) : (s.setSlot i st).audio = s.audio := rfl
@[simp] theorem State.setSlot_session (s : State) (i : SlotIx) (st : SlotState) : (s.setSlot i st).session = s.session := rfl
@[simp] theorem State.setSlot_pacing (s : State) (i : SlotIx) (st : SlotState) : (s.setSlot i st).pacing = s.pacing := rfl
@[simp] theorem State.setSlot_run (s : State) (i : SlotIx) (st : SlotState) : (s.setSlot i st).run = s.run := rfl
@[simp] theorem State.setSlot_drops (s : State) (i : SlotIx) (st : SlotState) : (s.setSlot i st).drops = s.drops := rfl
@[simp] theorem State.setSlot_lastPb (s : State) (i : SlotIx) (st : SlotState) : (s.setSlot i st).lastPb = s.lastPb := rfl
@[simp] theorem State.setSlot_lastCap (s : State) (i : SlotIx) (st : SlotState) : (s.setSlot i st).lastCap = s.lastCap := rfl
@[simp] theorem State.setSlot_outsel (s : State) (i : SlotIx) (st : SlotState) : (s.setSlot i st).outsel = s.outsel := rfl
@[simp] theorem State.setSlot_insel (s : State) (i : SlotIx) (st : SlotState) : (s.setSlot i st).insel = s.insel := rfl
@[simp] theorem State.setSlot_chans (s : State) (i : SlotIx) (st : SlotState) : (s.setSlot i st).chans = s.chans := rfl
@[simp] theorem State.setSlot_faults (s : State) (i : SlotIx) (st : SlotState) : (s.setSlot i st).faults = s.faults := rfl
@[simp] theorem State.setSlot_hostMem (s : State) (i : SlotIx) (st : SlotState) : (s.setSlot i st).hostMem = s.hostMem := rfl
@[simp] theorem State.setSlot_cardMem (s : State) (i : SlotIx) (st : SlotState) : (s.setSlot i st).cardMem = s.cardMem := rfl
@[simp] theorem State.setSlot_env (s : State) (i : SlotIx) (st : SlotState) : (s.setSlot i st).env = s.env := rfl

/-! ### setMeta -/

@[simp] theorem State.setMeta_cfg (s : State) (i : SlotIx) (m : Meta) : (s.setMeta i m).cfg = s.cfg := rfl
@[simp] theorem State.setMeta_banks (s : State) (i : SlotIx) (m : Meta) : (s.setMeta i m).banks = s.banks := rfl
@[simp] theorem State.setMeta_pc (s : State) (i : SlotIx) (m : Meta) : (s.setMeta i m).pc = s.pc := rfl
@[simp] theorem State.setMeta_passSet (s : State) (i : SlotIx) (m : Meta) : (s.setMeta i m).passSet = s.passSet := rfl
@[simp] theorem State.setMeta_irqStatus (s : State) (i : SlotIx) (m : Meta) : (s.setMeta i m).irqStatus = s.irqStatus := rfl
@[simp] theorem State.setMeta_irqEnable (s : State) (i : SlotIx) (m : Meta) : (s.setMeta i m).irqEnable = s.irqEnable := rfl
@[simp] theorem State.setMeta_counters (s : State) (i : SlotIx) (m : Meta) : (s.setMeta i m).counters = s.counters := rfl
@[simp] theorem State.setMeta_frameId (s : State) (i : SlotIx) (m : Meta) : (s.setMeta i m).frameId = s.frameId := rfl
@[simp] theorem State.setMeta_curFrame (s : State) (i : SlotIx) (m : Meta) : (s.setMeta i m).curFrame = s.curFrame := rfl
@[simp] theorem State.setMeta_gen (s : State) (i : SlotIx) (m : Meta) : (s.setMeta i m).gen = s.gen := rfl
@[simp] theorem State.setMeta_genRunning (s : State) (i : SlotIx) (m : Meta) : (s.setMeta i m).genRunning = s.genRunning := rfl
@[simp] theorem State.setMeta_tcCache (s : State) (i : SlotIx) (m : Meta) : (s.setMeta i m).tcCache = s.tcCache := rfl
@[simp] theorem State.setMeta_tickRate (s : State) (i : SlotIx) (m : Meta) : (s.setMeta i m).tickRate = s.tickRate := rfl
@[simp] theorem State.setMeta_audio (s : State) (i : SlotIx) (m : Meta) : (s.setMeta i m).audio = s.audio := rfl
@[simp] theorem State.setMeta_session (s : State) (i : SlotIx) (m : Meta) : (s.setMeta i m).session = s.session := rfl
@[simp] theorem State.setMeta_pacing (s : State) (i : SlotIx) (m : Meta) : (s.setMeta i m).pacing = s.pacing := rfl
@[simp] theorem State.setMeta_run (s : State) (i : SlotIx) (m : Meta) : (s.setMeta i m).run = s.run := rfl
@[simp] theorem State.setMeta_drops (s : State) (i : SlotIx) (m : Meta) : (s.setMeta i m).drops = s.drops := rfl
@[simp] theorem State.setMeta_lastPb (s : State) (i : SlotIx) (m : Meta) : (s.setMeta i m).lastPb = s.lastPb := rfl
@[simp] theorem State.setMeta_lastCap (s : State) (i : SlotIx) (m : Meta) : (s.setMeta i m).lastCap = s.lastCap := rfl
@[simp] theorem State.setMeta_outsel (s : State) (i : SlotIx) (m : Meta) : (s.setMeta i m).outsel = s.outsel := rfl
@[simp] theorem State.setMeta_insel (s : State) (i : SlotIx) (m : Meta) : (s.setMeta i m).insel = s.insel := rfl
@[simp] theorem State.setMeta_chans (s : State) (i : SlotIx) (m : Meta) : (s.setMeta i m).chans = s.chans := rfl
@[simp] theorem State.setMeta_faults (s : State) (i : SlotIx) (m : Meta) : (s.setMeta i m).faults = s.faults := rfl
@[simp] theorem State.setMeta_hostMem (s : State) (i : SlotIx) (m : Meta) : (s.setMeta i m).hostMem = s.hostMem := rfl
@[simp] theorem State.setMeta_cardMem (s : State) (i : SlotIx) (m : Meta) : (s.setMeta i m).cardMem = s.cardMem := rfl
@[simp] theorem State.setMeta_env (s : State) (i : SlotIx) (m : Meta) : (s.setMeta i m).env = s.env := rfl

/-! ### setFifo -/

@[simp] theorem State.setFifo_cfg (s : State) (q : List SlotIx) (d : BitVec 7) : (s.setFifo q d).cfg = s.cfg := rfl
@[simp] theorem State.setFifo_banks (s : State) (q : List SlotIx) (d : BitVec 7) : (s.setFifo q d).banks = s.banks := rfl
@[simp] theorem State.setFifo_pc (s : State) (q : List SlotIx) (d : BitVec 7) : (s.setFifo q d).pc = s.pc := rfl
@[simp] theorem State.setFifo_passSet (s : State) (q : List SlotIx) (d : BitVec 7) : (s.setFifo q d).passSet = s.passSet := rfl
@[simp] theorem State.setFifo_irqStatus (s : State) (q : List SlotIx) (d : BitVec 7) : (s.setFifo q d).irqStatus = s.irqStatus := rfl
@[simp] theorem State.setFifo_irqEnable (s : State) (q : List SlotIx) (d : BitVec 7) : (s.setFifo q d).irqEnable = s.irqEnable := rfl
@[simp] theorem State.setFifo_counters (s : State) (q : List SlotIx) (d : BitVec 7) : (s.setFifo q d).counters = s.counters := rfl
@[simp] theorem State.setFifo_frameId (s : State) (q : List SlotIx) (d : BitVec 7) : (s.setFifo q d).frameId = s.frameId := rfl
@[simp] theorem State.setFifo_curFrame (s : State) (q : List SlotIx) (d : BitVec 7) : (s.setFifo q d).curFrame = s.curFrame := rfl
@[simp] theorem State.setFifo_gen (s : State) (q : List SlotIx) (d : BitVec 7) : (s.setFifo q d).gen = s.gen := rfl
@[simp] theorem State.setFifo_genRunning (s : State) (q : List SlotIx) (d : BitVec 7) : (s.setFifo q d).genRunning = s.genRunning := rfl
@[simp] theorem State.setFifo_tcCache (s : State) (q : List SlotIx) (d : BitVec 7) : (s.setFifo q d).tcCache = s.tcCache := rfl
@[simp] theorem State.setFifo_tickRate (s : State) (q : List SlotIx) (d : BitVec 7) : (s.setFifo q d).tickRate = s.tickRate := rfl
@[simp] theorem State.setFifo_audio (s : State) (q : List SlotIx) (d : BitVec 7) : (s.setFifo q d).audio = s.audio := rfl
@[simp] theorem State.setFifo_session (s : State) (q : List SlotIx) (d : BitVec 7) : (s.setFifo q d).session = s.session := rfl
@[simp] theorem State.setFifo_pacing (s : State) (q : List SlotIx) (d : BitVec 7) : (s.setFifo q d).pacing = s.pacing := rfl
@[simp] theorem State.setFifo_run (s : State) (q : List SlotIx) (d : BitVec 7) : (s.setFifo q d).run = s.run := rfl
@[simp] theorem State.setFifo_drops (s : State) (q : List SlotIx) (d : BitVec 7) : (s.setFifo q d).drops = s.drops := rfl
@[simp] theorem State.setFifo_lastPb (s : State) (q : List SlotIx) (d : BitVec 7) : (s.setFifo q d).lastPb = s.lastPb := rfl
@[simp] theorem State.setFifo_lastCap (s : State) (q : List SlotIx) (d : BitVec 7) : (s.setFifo q d).lastCap = s.lastCap := rfl
@[simp] theorem State.setFifo_outsel (s : State) (q : List SlotIx) (d : BitVec 7) : (s.setFifo q d).outsel = s.outsel := rfl
@[simp] theorem State.setFifo_insel (s : State) (q : List SlotIx) (d : BitVec 7) : (s.setFifo q d).insel = s.insel := rfl
@[simp] theorem State.setFifo_chans (s : State) (q : List SlotIx) (d : BitVec 7) : (s.setFifo q d).chans = s.chans := rfl
@[simp] theorem State.setFifo_faults (s : State) (q : List SlotIx) (d : BitVec 7) : (s.setFifo q d).faults = s.faults := rfl
@[simp] theorem State.setFifo_hostMem (s : State) (q : List SlotIx) (d : BitVec 7) : (s.setFifo q d).hostMem = s.hostMem := rfl
@[simp] theorem State.setFifo_cardMem (s : State) (q : List SlotIx) (d : BitVec 7) : (s.setFifo q d).cardMem = s.cardMem := rfl
@[simp] theorem State.setFifo_env (s : State) (q : List SlotIx) (d : BitVec 7) : (s.setFifo q d).env = s.env := rfl

/-! ### withEnv -/

@[simp] theorem State.withEnv_cfg (s : State) (e : Env) : (s.withEnv e).cfg = s.cfg := rfl
@[simp] theorem State.withEnv_banks (s : State) (e : Env) : (s.withEnv e).banks = s.banks := rfl
@[simp] theorem State.withEnv_pc (s : State) (e : Env) : (s.withEnv e).pc = s.pc := rfl
@[simp] theorem State.withEnv_passSet (s : State) (e : Env) : (s.withEnv e).passSet = s.passSet := rfl
@[simp] theorem State.withEnv_irqStatus (s : State) (e : Env) : (s.withEnv e).irqStatus = s.irqStatus := rfl
@[simp] theorem State.withEnv_irqEnable (s : State) (e : Env) : (s.withEnv e).irqEnable = s.irqEnable := rfl
@[simp] theorem State.withEnv_counters (s : State) (e : Env) : (s.withEnv e).counters = s.counters := rfl
@[simp] theorem State.withEnv_frameId (s : State) (e : Env) : (s.withEnv e).frameId = s.frameId := rfl
@[simp] theorem State.withEnv_curFrame (s : State) (e : Env) : (s.withEnv e).curFrame = s.curFrame := rfl
@[simp] theorem State.withEnv_gen (s : State) (e : Env) : (s.withEnv e).gen = s.gen := rfl
@[simp] theorem State.withEnv_genRunning (s : State) (e : Env) : (s.withEnv e).genRunning = s.genRunning := rfl
@[simp] theorem State.withEnv_tcCache (s : State) (e : Env) : (s.withEnv e).tcCache = s.tcCache := rfl
@[simp] theorem State.withEnv_tickRate (s : State) (e : Env) : (s.withEnv e).tickRate = s.tickRate := rfl
@[simp] theorem State.withEnv_audio (s : State) (e : Env) : (s.withEnv e).audio = s.audio := rfl
@[simp] theorem State.withEnv_session (s : State) (e : Env) : (s.withEnv e).session = s.session := rfl
@[simp] theorem State.withEnv_pacing (s : State) (e : Env) : (s.withEnv e).pacing = s.pacing := rfl
@[simp] theorem State.withEnv_run (s : State) (e : Env) : (s.withEnv e).run = s.run := rfl
@[simp] theorem State.withEnv_drops (s : State) (e : Env) : (s.withEnv e).drops = s.drops := rfl
@[simp] theorem State.withEnv_lastPb (s : State) (e : Env) : (s.withEnv e).lastPb = s.lastPb := rfl
@[simp] theorem State.withEnv_lastCap (s : State) (e : Env) : (s.withEnv e).lastCap = s.lastCap := rfl
@[simp] theorem State.withEnv_pool (s : State) (e : Env) : (s.withEnv e).pool = s.pool := rfl
@[simp] theorem State.withEnv_outsel (s : State) (e : Env) : (s.withEnv e).outsel = s.outsel := rfl
@[simp] theorem State.withEnv_insel (s : State) (e : Env) : (s.withEnv e).insel = s.insel := rfl
@[simp] theorem State.withEnv_chans (s : State) (e : Env) : (s.withEnv e).chans = s.chans := rfl
@[simp] theorem State.withEnv_faults (s : State) (e : Env) : (s.withEnv e).faults = s.faults := rfl
@[simp] theorem State.withEnv_hostMem (s : State) (e : Env) : (s.withEnv e).hostMem = s.hostMem := rfl
@[simp] theorem State.withEnv_cardMem (s : State) (e : Env) : (s.withEnv e).cardMem = s.cardMem := rfl

/-! ### finish -/

@[simp] theorem State.finish_cfg (s : State) (b : BankId) (r : ResultCode) : (s.finish b r).cfg = s.cfg := rfl
@[simp] theorem State.finish_pc (s : State) (b : BankId) (r : ResultCode) : (s.finish b r).pc = s.pc := rfl
@[simp] theorem State.finish_passSet (s : State) (b : BankId) (r : ResultCode) : (s.finish b r).passSet = s.passSet := rfl
@[simp] theorem State.finish_irqStatus (s : State) (b : BankId) (r : ResultCode) : (s.finish b r).irqStatus = s.irqStatus := rfl
@[simp] theorem State.finish_irqEnable (s : State) (b : BankId) (r : ResultCode) : (s.finish b r).irqEnable = s.irqEnable := rfl
@[simp] theorem State.finish_counters (s : State) (b : BankId) (r : ResultCode) : (s.finish b r).counters = s.counters := rfl
@[simp] theorem State.finish_frameId (s : State) (b : BankId) (r : ResultCode) : (s.finish b r).frameId = s.frameId := rfl
@[simp] theorem State.finish_curFrame (s : State) (b : BankId) (r : ResultCode) : (s.finish b r).curFrame = s.curFrame := rfl
@[simp] theorem State.finish_gen (s : State) (b : BankId) (r : ResultCode) : (s.finish b r).gen = s.gen := rfl
@[simp] theorem State.finish_genRunning (s : State) (b : BankId) (r : ResultCode) : (s.finish b r).genRunning = s.genRunning := rfl
@[simp] theorem State.finish_tcCache (s : State) (b : BankId) (r : ResultCode) : (s.finish b r).tcCache = s.tcCache := rfl
@[simp] theorem State.finish_tickRate (s : State) (b : BankId) (r : ResultCode) : (s.finish b r).tickRate = s.tickRate := rfl
@[simp] theorem State.finish_audio (s : State) (b : BankId) (r : ResultCode) : (s.finish b r).audio = s.audio := rfl
@[simp] theorem State.finish_session (s : State) (b : BankId) (r : ResultCode) : (s.finish b r).session = s.session := rfl
@[simp] theorem State.finish_pacing (s : State) (b : BankId) (r : ResultCode) : (s.finish b r).pacing = s.pacing := rfl
@[simp] theorem State.finish_run (s : State) (b : BankId) (r : ResultCode) : (s.finish b r).run = s.run := rfl
@[simp] theorem State.finish_drops (s : State) (b : BankId) (r : ResultCode) : (s.finish b r).drops = s.drops := rfl
@[simp] theorem State.finish_lastPb (s : State) (b : BankId) (r : ResultCode) : (s.finish b r).lastPb = s.lastPb := rfl
@[simp] theorem State.finish_lastCap (s : State) (b : BankId) (r : ResultCode) : (s.finish b r).lastCap = s.lastCap := rfl
@[simp] theorem State.finish_pool (s : State) (b : BankId) (r : ResultCode) : (s.finish b r).pool = s.pool := rfl
@[simp] theorem State.finish_outsel (s : State) (b : BankId) (r : ResultCode) : (s.finish b r).outsel = s.outsel := rfl
@[simp] theorem State.finish_insel (s : State) (b : BankId) (r : ResultCode) : (s.finish b r).insel = s.insel := rfl
@[simp] theorem State.finish_chans (s : State) (b : BankId) (r : ResultCode) : (s.finish b r).chans = s.chans := rfl
@[simp] theorem State.finish_faults (s : State) (b : BankId) (r : ResultCode) : (s.finish b r).faults = s.faults := rfl
@[simp] theorem State.finish_hostMem (s : State) (b : BankId) (r : ResultCode) : (s.finish b r).hostMem = s.hostMem := rfl
@[simp] theorem State.finish_cardMem (s : State) (b : BankId) (r : ResultCode) : (s.finish b r).cardMem = s.cardMem := rfl
@[simp] theorem State.finish_env (s : State) (b : BankId) (r : ResultCode) : (s.finish b r).env = s.env := rfl

/-! ### hold -/

@[simp] theorem State.hold_cfg (s : State) (b : BankId) (o : Op) : (s.hold b o).cfg = s.cfg := rfl
@[simp] theorem State.hold_pc (s : State) (b : BankId) (o : Op) : (s.hold b o).pc = s.pc := rfl
@[simp] theorem State.hold_passSet (s : State) (b : BankId) (o : Op) : (s.hold b o).passSet = s.passSet := rfl
@[simp] theorem State.hold_irqStatus (s : State) (b : BankId) (o : Op) : (s.hold b o).irqStatus = s.irqStatus := rfl
@[simp] theorem State.hold_irqEnable (s : State) (b : BankId) (o : Op) : (s.hold b o).irqEnable = s.irqEnable := rfl
@[simp] theorem State.hold_counters (s : State) (b : BankId) (o : Op) : (s.hold b o).counters = s.counters := rfl
@[simp] theorem State.hold_frameId (s : State) (b : BankId) (o : Op) : (s.hold b o).frameId = s.frameId := rfl
@[simp] theorem State.hold_curFrame (s : State) (b : BankId) (o : Op) : (s.hold b o).curFrame = s.curFrame := rfl
@[simp] theorem State.hold_gen (s : State) (b : BankId) (o : Op) : (s.hold b o).gen = s.gen := rfl
@[simp] theorem State.hold_genRunning (s : State) (b : BankId) (o : Op) : (s.hold b o).genRunning = s.genRunning := rfl
@[simp] theorem State.hold_tcCache (s : State) (b : BankId) (o : Op) : (s.hold b o).tcCache = s.tcCache := rfl
@[simp] theorem State.hold_tickRate (s : State) (b : BankId) (o : Op) : (s.hold b o).tickRate = s.tickRate := rfl
@[simp] theorem State.hold_audio (s : State) (b : BankId) (o : Op) : (s.hold b o).audio = s.audio := rfl
@[simp] theorem State.hold_session (s : State) (b : BankId) (o : Op) : (s.hold b o).session = s.session := rfl
@[simp] theorem State.hold_pacing (s : State) (b : BankId) (o : Op) : (s.hold b o).pacing = s.pacing := rfl
@[simp] theorem State.hold_run (s : State) (b : BankId) (o : Op) : (s.hold b o).run = s.run := rfl
@[simp] theorem State.hold_drops (s : State) (b : BankId) (o : Op) : (s.hold b o).drops = s.drops := rfl
@[simp] theorem State.hold_lastPb (s : State) (b : BankId) (o : Op) : (s.hold b o).lastPb = s.lastPb := rfl
@[simp] theorem State.hold_lastCap (s : State) (b : BankId) (o : Op) : (s.hold b o).lastCap = s.lastCap := rfl
@[simp] theorem State.hold_pool (s : State) (b : BankId) (o : Op) : (s.hold b o).pool = s.pool := rfl
@[simp] theorem State.hold_outsel (s : State) (b : BankId) (o : Op) : (s.hold b o).outsel = s.outsel := rfl
@[simp] theorem State.hold_insel (s : State) (b : BankId) (o : Op) : (s.hold b o).insel = s.insel := rfl
@[simp] theorem State.hold_chans (s : State) (b : BankId) (o : Op) : (s.hold b o).chans = s.chans := rfl
@[simp] theorem State.hold_faults (s : State) (b : BankId) (o : Op) : (s.hold b o).faults = s.faults := rfl
@[simp] theorem State.hold_hostMem (s : State) (b : BankId) (o : Op) : (s.hold b o).hostMem = s.hostMem := rfl
@[simp] theorem State.hold_cardMem (s : State) (b : BankId) (o : Op) : (s.hold b o).cardMem = s.cardMem := rfl
@[simp] theorem State.hold_env (s : State) (b : BankId) (o : Op) : (s.hold b o).env = s.env := rfl

/-! ### finishRes0 -/

@[simp] theorem State.finishRes0_cfg (s : State) (b : BankId) (v : U64) : (s.finishRes0 b v).cfg = s.cfg := rfl
@[simp] theorem State.finishRes0_pc (s : State) (b : BankId) (v : U64) : (s.finishRes0 b v).pc = s.pc := rfl
@[simp] theorem State.finishRes0_passSet (s : State) (b : BankId) (v : U64) : (s.finishRes0 b v).passSet = s.passSet := rfl
@[simp] theorem State.finishRes0_irqStatus (s : State) (b : BankId) (v : U64) : (s.finishRes0 b v).irqStatus = s.irqStatus := rfl
@[simp] theorem State.finishRes0_irqEnable (s : State) (b : BankId) (v : U64) : (s.finishRes0 b v).irqEnable = s.irqEnable := rfl
@[simp] theorem State.finishRes0_counters (s : State) (b : BankId) (v : U64) : (s.finishRes0 b v).counters = s.counters := rfl
@[simp] theorem State.finishRes0_frameId (s : State) (b : BankId) (v : U64) : (s.finishRes0 b v).frameId = s.frameId := rfl
@[simp] theorem State.finishRes0_curFrame (s : State) (b : BankId) (v : U64) : (s.finishRes0 b v).curFrame = s.curFrame := rfl
@[simp] theorem State.finishRes0_gen (s : State) (b : BankId) (v : U64) : (s.finishRes0 b v).gen = s.gen := rfl
@[simp] theorem State.finishRes0_genRunning (s : State) (b : BankId) (v : U64) : (s.finishRes0 b v).genRunning = s.genRunning := rfl
@[simp] theorem State.finishRes0_tcCache (s : State) (b : BankId) (v : U64) : (s.finishRes0 b v).tcCache = s.tcCache := rfl
@[simp] theorem State.finishRes0_tickRate (s : State) (b : BankId) (v : U64) : (s.finishRes0 b v).tickRate = s.tickRate := rfl
@[simp] theorem State.finishRes0_audio (s : State) (b : BankId) (v : U64) : (s.finishRes0 b v).audio = s.audio := rfl
@[simp] theorem State.finishRes0_session (s : State) (b : BankId) (v : U64) : (s.finishRes0 b v).session = s.session := rfl
@[simp] theorem State.finishRes0_pacing (s : State) (b : BankId) (v : U64) : (s.finishRes0 b v).pacing = s.pacing := rfl
@[simp] theorem State.finishRes0_run (s : State) (b : BankId) (v : U64) : (s.finishRes0 b v).run = s.run := rfl
@[simp] theorem State.finishRes0_drops (s : State) (b : BankId) (v : U64) : (s.finishRes0 b v).drops = s.drops := rfl
@[simp] theorem State.finishRes0_lastPb (s : State) (b : BankId) (v : U64) : (s.finishRes0 b v).lastPb = s.lastPb := rfl
@[simp] theorem State.finishRes0_lastCap (s : State) (b : BankId) (v : U64) : (s.finishRes0 b v).lastCap = s.lastCap := rfl
@[simp] theorem State.finishRes0_pool (s : State) (b : BankId) (v : U64) : (s.finishRes0 b v).pool = s.pool := rfl
@[simp] theorem State.finishRes0_outsel (s : State) (b : BankId) (v : U64) : (s.finishRes0 b v).outsel = s.outsel := rfl
@[simp] theorem State.finishRes0_insel (s : State) (b : BankId) (v : U64) : (s.finishRes0 b v).insel = s.insel := rfl
@[simp] theorem State.finishRes0_chans (s : State) (b : BankId) (v : U64) : (s.finishRes0 b v).chans = s.chans := rfl
@[simp] theorem State.finishRes0_faults (s : State) (b : BankId) (v : U64) : (s.finishRes0 b v).faults = s.faults := rfl
@[simp] theorem State.finishRes0_hostMem (s : State) (b : BankId) (v : U64) : (s.finishRes0 b v).hostMem = s.hostMem := rfl
@[simp] theorem State.finishRes0_cardMem (s : State) (b : BankId) (v : U64) : (s.finishRes0 b v).cardMem = s.cardMem := rfl
@[simp] theorem State.finishRes0_env (s : State) (b : BankId) (v : U64) : (s.finishRes0 b v).env = s.env := rfl

/-! ### raise -/

@[simp] theorem State.raise_cfg (s : State) (f : ModelFault) : (s.raise f).cfg = s.cfg := rfl
@[simp] theorem State.raise_banks (s : State) (f : ModelFault) : (s.raise f).banks = s.banks := rfl
@[simp] theorem State.raise_pc (s : State) (f : ModelFault) : (s.raise f).pc = s.pc := rfl
@[simp] theorem State.raise_passSet (s : State) (f : ModelFault) : (s.raise f).passSet = s.passSet := rfl
@[simp] theorem State.raise_irqStatus (s : State) (f : ModelFault) : (s.raise f).irqStatus = s.irqStatus := rfl
@[simp] theorem State.raise_irqEnable (s : State) (f : ModelFault) : (s.raise f).irqEnable = s.irqEnable := rfl
@[simp] theorem State.raise_counters (s : State) (f : ModelFault) : (s.raise f).counters = s.counters := rfl
@[simp] theorem State.raise_frameId (s : State) (f : ModelFault) : (s.raise f).frameId = s.frameId := rfl
@[simp] theorem State.raise_curFrame (s : State) (f : ModelFault) : (s.raise f).curFrame = s.curFrame := rfl
@[simp] theorem State.raise_gen (s : State) (f : ModelFault) : (s.raise f).gen = s.gen := rfl
@[simp] theorem State.raise_genRunning (s : State) (f : ModelFault) : (s.raise f).genRunning = s.genRunning := rfl
@[simp] theorem State.raise_tcCache (s : State) (f : ModelFault) : (s.raise f).tcCache = s.tcCache := rfl
@[simp] theorem State.raise_tickRate (s : State) (f : ModelFault) : (s.raise f).tickRate = s.tickRate := rfl
@[simp] theorem State.raise_audio (s : State) (f : ModelFault) : (s.raise f).audio = s.audio := rfl
@[simp] theorem State.raise_session (s : State) (f : ModelFault) : (s.raise f).session = s.session := rfl
@[simp] theorem State.raise_pacing (s : State) (f : ModelFault) : (s.raise f).pacing = s.pacing := rfl
@[simp] theorem State.raise_run (s : State) (f : ModelFault) : (s.raise f).run = s.run := rfl
@[simp] theorem State.raise_drops (s : State) (f : ModelFault) : (s.raise f).drops = s.drops := rfl
@[simp] theorem State.raise_lastPb (s : State) (f : ModelFault) : (s.raise f).lastPb = s.lastPb := rfl
@[simp] theorem State.raise_lastCap (s : State) (f : ModelFault) : (s.raise f).lastCap = s.lastCap := rfl
@[simp] theorem State.raise_pool (s : State) (f : ModelFault) : (s.raise f).pool = s.pool := rfl
@[simp] theorem State.raise_outsel (s : State) (f : ModelFault) : (s.raise f).outsel = s.outsel := rfl
@[simp] theorem State.raise_insel (s : State) (f : ModelFault) : (s.raise f).insel = s.insel := rfl
@[simp] theorem State.raise_chans (s : State) (f : ModelFault) : (s.raise f).chans = s.chans := rfl
@[simp] theorem State.raise_hostMem (s : State) (f : ModelFault) : (s.raise f).hostMem = s.hostMem := rfl
@[simp] theorem State.raise_cardMem (s : State) (f : ModelFault) : (s.raise f).cardMem = s.cardMem := rfl
@[simp] theorem State.raise_env (s : State) (f : ModelFault) : (s.raise f).env = s.env := rfl

/-! ### emit -/

@[simp] theorem State.emit_cfg (s : State) (o : Output) : (s.emit o).cfg = s.cfg := rfl
@[simp] theorem State.emit_banks (s : State) (o : Output) : (s.emit o).banks = s.banks := rfl
@[simp] theorem State.emit_pc (s : State) (o : Output) : (s.emit o).pc = s.pc := rfl
@[simp] theorem State.emit_passSet (s : State) (o : Output) : (s.emit o).passSet = s.passSet := rfl
@[simp] theorem State.emit_irqStatus (s : State) (o : Output) : (s.emit o).irqStatus = s.irqStatus := rfl
@[simp] theorem State.emit_irqEnable (s : State) (o : Output) : (s.emit o).irqEnable = s.irqEnable := rfl
@[simp] theorem State.emit_counters (s : State) (o : Output) : (s.emit o).counters = s.counters := rfl
@[simp] theorem State.emit_frameId (s : State) (o : Output) : (s.emit o).frameId = s.frameId := rfl
@[simp] theorem State.emit_curFrame (s : State) (o : Output) : (s.emit o).curFrame = s.curFrame := rfl
@[simp] theorem State.emit_gen (s : State) (o : Output) : (s.emit o).gen = s.gen := rfl
@[simp] theorem State.emit_genRunning (s : State) (o : Output) : (s.emit o).genRunning = s.genRunning := rfl
@[simp] theorem State.emit_tcCache (s : State) (o : Output) : (s.emit o).tcCache = s.tcCache := rfl
@[simp] theorem State.emit_tickRate (s : State) (o : Output) : (s.emit o).tickRate = s.tickRate := rfl
@[simp] theorem State.emit_audio (s : State) (o : Output) : (s.emit o).audio = s.audio := rfl
@[simp] theorem State.emit_session (s : State) (o : Output) : (s.emit o).session = s.session := rfl
@[simp] theorem State.emit_pacing (s : State) (o : Output) : (s.emit o).pacing = s.pacing := rfl
@[simp] theorem State.emit_run (s : State) (o : Output) : (s.emit o).run = s.run := rfl
@[simp] theorem State.emit_drops (s : State) (o : Output) : (s.emit o).drops = s.drops := rfl
@[simp] theorem State.emit_lastPb (s : State) (o : Output) : (s.emit o).lastPb = s.lastPb := rfl
@[simp] theorem State.emit_lastCap (s : State) (o : Output) : (s.emit o).lastCap = s.lastCap := rfl
@[simp] theorem State.emit_pool (s : State) (o : Output) : (s.emit o).pool = s.pool := rfl
@[simp] theorem State.emit_outsel (s : State) (o : Output) : (s.emit o).outsel = s.outsel := rfl
@[simp] theorem State.emit_insel (s : State) (o : Output) : (s.emit o).insel = s.insel := rfl
@[simp] theorem State.emit_chans (s : State) (o : Output) : (s.emit o).chans = s.chans := rfl
@[simp] theorem State.emit_faults (s : State) (o : Output) : (s.emit o).faults = s.faults := rfl
@[simp] theorem State.emit_hostMem (s : State) (o : Output) : (s.emit o).hostMem = s.hostMem := rfl
@[simp] theorem State.emit_cardMem (s : State) (o : Output) : (s.emit o).cardMem = s.cardMem := rfl

/-! ### drawn -/

@[simp] theorem State.drawn_cfg (s : State) (p : Ports) : (s.drawn p).cfg = s.cfg := rfl
@[simp] theorem State.drawn_banks (s : State) (p : Ports) : (s.drawn p).banks = s.banks := rfl
@[simp] theorem State.drawn_pc (s : State) (p : Ports) : (s.drawn p).pc = s.pc := rfl
@[simp] theorem State.drawn_passSet (s : State) (p : Ports) : (s.drawn p).passSet = s.passSet := rfl
@[simp] theorem State.drawn_irqStatus (s : State) (p : Ports) : (s.drawn p).irqStatus = s.irqStatus := rfl
@[simp] theorem State.drawn_irqEnable (s : State) (p : Ports) : (s.drawn p).irqEnable = s.irqEnable := rfl
@[simp] theorem State.drawn_counters (s : State) (p : Ports) : (s.drawn p).counters = s.counters := rfl
@[simp] theorem State.drawn_frameId (s : State) (p : Ports) : (s.drawn p).frameId = s.frameId := rfl
@[simp] theorem State.drawn_curFrame (s : State) (p : Ports) : (s.drawn p).curFrame = s.curFrame := rfl
@[simp] theorem State.drawn_gen (s : State) (p : Ports) : (s.drawn p).gen = s.gen := rfl
@[simp] theorem State.drawn_genRunning (s : State) (p : Ports) : (s.drawn p).genRunning = s.genRunning := rfl
@[simp] theorem State.drawn_tcCache (s : State) (p : Ports) : (s.drawn p).tcCache = s.tcCache := rfl
@[simp] theorem State.drawn_tickRate (s : State) (p : Ports) : (s.drawn p).tickRate = s.tickRate := rfl
@[simp] theorem State.drawn_audio (s : State) (p : Ports) : (s.drawn p).audio = s.audio := rfl
@[simp] theorem State.drawn_session (s : State) (p : Ports) : (s.drawn p).session = s.session := rfl
@[simp] theorem State.drawn_pacing (s : State) (p : Ports) : (s.drawn p).pacing = s.pacing := rfl
@[simp] theorem State.drawn_run (s : State) (p : Ports) : (s.drawn p).run = s.run := rfl
@[simp] theorem State.drawn_drops (s : State) (p : Ports) : (s.drawn p).drops = s.drops := rfl
@[simp] theorem State.drawn_lastPb (s : State) (p : Ports) : (s.drawn p).lastPb = s.lastPb := rfl
@[simp] theorem State.drawn_lastCap (s : State) (p : Ports) : (s.drawn p).lastCap = s.lastCap := rfl
@[simp] theorem State.drawn_pool (s : State) (p : Ports) : (s.drawn p).pool = s.pool := rfl
@[simp] theorem State.drawn_outsel (s : State) (p : Ports) : (s.drawn p).outsel = s.outsel := rfl
@[simp] theorem State.drawn_insel (s : State) (p : Ports) : (s.drawn p).insel = s.insel := rfl
@[simp] theorem State.drawn_chans (s : State) (p : Ports) : (s.drawn p).chans = s.chans := rfl
@[simp] theorem State.drawn_faults (s : State) (p : Ports) : (s.drawn p).faults = s.faults := rfl
@[simp] theorem State.drawn_hostMem (s : State) (p : Ports) : (s.drawn p).hostMem = s.hostMem := rfl
@[simp] theorem State.drawn_cardMem (s : State) (p : Ports) : (s.drawn p).cardMem = s.cardMem := rfl

/-! ### latch -/

@[simp] theorem State.latch_cfg (s : State) (j : Fin 9) : (s.latch j).cfg = s.cfg := rfl
@[simp] theorem State.latch_banks (s : State) (j : Fin 9) : (s.latch j).banks = s.banks := rfl
@[simp] theorem State.latch_pc (s : State) (j : Fin 9) : (s.latch j).pc = s.pc := rfl
@[simp] theorem State.latch_passSet (s : State) (j : Fin 9) : (s.latch j).passSet = s.passSet := rfl
@[simp] theorem State.latch_irqEnable (s : State) (j : Fin 9) : (s.latch j).irqEnable = s.irqEnable := rfl
@[simp] theorem State.latch_counters (s : State) (j : Fin 9) : (s.latch j).counters = s.counters := rfl
@[simp] theorem State.latch_frameId (s : State) (j : Fin 9) : (s.latch j).frameId = s.frameId := rfl
@[simp] theorem State.latch_curFrame (s : State) (j : Fin 9) : (s.latch j).curFrame = s.curFrame := rfl
@[simp] theorem State.latch_gen (s : State) (j : Fin 9) : (s.latch j).gen = s.gen := rfl
@[simp] theorem State.latch_genRunning (s : State) (j : Fin 9) : (s.latch j).genRunning = s.genRunning := rfl
@[simp] theorem State.latch_tcCache (s : State) (j : Fin 9) : (s.latch j).tcCache = s.tcCache := rfl
@[simp] theorem State.latch_tickRate (s : State) (j : Fin 9) : (s.latch j).tickRate = s.tickRate := rfl
@[simp] theorem State.latch_audio (s : State) (j : Fin 9) : (s.latch j).audio = s.audio := rfl
@[simp] theorem State.latch_session (s : State) (j : Fin 9) : (s.latch j).session = s.session := rfl
@[simp] theorem State.latch_pacing (s : State) (j : Fin 9) : (s.latch j).pacing = s.pacing := rfl
@[simp] theorem State.latch_run (s : State) (j : Fin 9) : (s.latch j).run = s.run := rfl
@[simp] theorem State.latch_drops (s : State) (j : Fin 9) : (s.latch j).drops = s.drops := rfl
@[simp] theorem State.latch_lastPb (s : State) (j : Fin 9) : (s.latch j).lastPb = s.lastPb := rfl
@[simp] theorem State.latch_lastCap (s : State) (j : Fin 9) : (s.latch j).lastCap = s.lastCap := rfl
@[simp] theorem State.latch_pool (s : State) (j : Fin 9) : (s.latch j).pool = s.pool := rfl
@[simp] theorem State.latch_outsel (s : State) (j : Fin 9) : (s.latch j).outsel = s.outsel := rfl
@[simp] theorem State.latch_insel (s : State) (j : Fin 9) : (s.latch j).insel = s.insel := rfl
@[simp] theorem State.latch_chans (s : State) (j : Fin 9) : (s.latch j).chans = s.chans := rfl
@[simp] theorem State.latch_faults (s : State) (j : Fin 9) : (s.latch j).faults = s.faults := rfl
@[simp] theorem State.latch_hostMem (s : State) (j : Fin 9) : (s.latch j).hostMem = s.hostMem := rfl
@[simp] theorem State.latch_cardMem (s : State) (j : Fin 9) : (s.latch j).cardMem = s.cardMem := rfl
@[simp] theorem State.latch_env (s : State) (j : Fin 9) : (s.latch j).env = s.env := rfl

/-! ### takeInterrupt -/

@[simp] theorem State.takeInterrupt_cfg (s : State) : (s.takeInterrupt).cfg = s.cfg := rfl
@[simp] theorem State.takeInterrupt_banks (s : State) : (s.takeInterrupt).banks = s.banks := rfl
@[simp] theorem State.takeInterrupt_irqEnable (s : State) : (s.takeInterrupt).irqEnable = s.irqEnable := rfl
@[simp] theorem State.takeInterrupt_counters (s : State) : (s.takeInterrupt).counters = s.counters := rfl
@[simp] theorem State.takeInterrupt_frameId (s : State) : (s.takeInterrupt).frameId = s.frameId := rfl
@[simp] theorem State.takeInterrupt_curFrame (s : State) : (s.takeInterrupt).curFrame = s.curFrame := rfl
@[simp] theorem State.takeInterrupt_gen (s : State) : (s.takeInterrupt).gen = s.gen := rfl
@[simp] theorem State.takeInterrupt_genRunning (s : State) : (s.takeInterrupt).genRunning = s.genRunning := rfl
@[simp] theorem State.takeInterrupt_tcCache (s : State) : (s.takeInterrupt).tcCache = s.tcCache := rfl
@[simp] theorem State.takeInterrupt_tickRate (s : State) : (s.takeInterrupt).tickRate = s.tickRate := rfl
@[simp] theorem State.takeInterrupt_audio (s : State) : (s.takeInterrupt).audio = s.audio := rfl
@[simp] theorem State.takeInterrupt_session (s : State) : (s.takeInterrupt).session = s.session := rfl
@[simp] theorem State.takeInterrupt_pacing (s : State) : (s.takeInterrupt).pacing = s.pacing := rfl
@[simp] theorem State.takeInterrupt_run (s : State) : (s.takeInterrupt).run = s.run := rfl
@[simp] theorem State.takeInterrupt_drops (s : State) : (s.takeInterrupt).drops = s.drops := rfl
@[simp] theorem State.takeInterrupt_lastPb (s : State) : (s.takeInterrupt).lastPb = s.lastPb := rfl
@[simp] theorem State.takeInterrupt_lastCap (s : State) : (s.takeInterrupt).lastCap = s.lastCap := rfl
@[simp] theorem State.takeInterrupt_pool (s : State) : (s.takeInterrupt).pool = s.pool := rfl
@[simp] theorem State.takeInterrupt_outsel (s : State) : (s.takeInterrupt).outsel = s.outsel := rfl
@[simp] theorem State.takeInterrupt_insel (s : State) : (s.takeInterrupt).insel = s.insel := rfl
@[simp] theorem State.takeInterrupt_chans (s : State) : (s.takeInterrupt).chans = s.chans := rfl
@[simp] theorem State.takeInterrupt_faults (s : State) : (s.takeInterrupt).faults = s.faults := rfl
@[simp] theorem State.takeInterrupt_hostMem (s : State) : (s.takeInterrupt).hostMem = s.hostMem := rfl
@[simp] theorem State.takeInterrupt_cardMem (s : State) : (s.takeInterrupt).cardMem = s.cardMem := rfl

/-! ### passEnd -/

@[simp] theorem State.passEnd_cfg (s : State) : (s.passEnd).cfg = s.cfg := rfl
@[simp] theorem State.passEnd_banks (s : State) : (s.passEnd).banks = s.banks := rfl
@[simp] theorem State.passEnd_passSet (s : State) : (s.passEnd).passSet = s.passSet := rfl
@[simp] theorem State.passEnd_irqStatus (s : State) : (s.passEnd).irqStatus = s.irqStatus := rfl
@[simp] theorem State.passEnd_irqEnable (s : State) : (s.passEnd).irqEnable = s.irqEnable := rfl
@[simp] theorem State.passEnd_counters (s : State) : (s.passEnd).counters = s.counters := rfl
@[simp] theorem State.passEnd_frameId (s : State) : (s.passEnd).frameId = s.frameId := rfl
@[simp] theorem State.passEnd_curFrame (s : State) : (s.passEnd).curFrame = s.curFrame := rfl
@[simp] theorem State.passEnd_gen (s : State) : (s.passEnd).gen = s.gen := rfl
@[simp] theorem State.passEnd_genRunning (s : State) : (s.passEnd).genRunning = s.genRunning := rfl
@[simp] theorem State.passEnd_tcCache (s : State) : (s.passEnd).tcCache = s.tcCache := rfl
@[simp] theorem State.passEnd_tickRate (s : State) : (s.passEnd).tickRate = s.tickRate := rfl
@[simp] theorem State.passEnd_audio (s : State) : (s.passEnd).audio = s.audio := rfl
@[simp] theorem State.passEnd_session (s : State) : (s.passEnd).session = s.session := rfl
@[simp] theorem State.passEnd_pacing (s : State) : (s.passEnd).pacing = s.pacing := rfl
@[simp] theorem State.passEnd_run (s : State) : (s.passEnd).run = s.run := rfl
@[simp] theorem State.passEnd_drops (s : State) : (s.passEnd).drops = s.drops := rfl
@[simp] theorem State.passEnd_lastPb (s : State) : (s.passEnd).lastPb = s.lastPb := rfl
@[simp] theorem State.passEnd_lastCap (s : State) : (s.passEnd).lastCap = s.lastCap := rfl
@[simp] theorem State.passEnd_pool (s : State) : (s.passEnd).pool = s.pool := rfl
@[simp] theorem State.passEnd_outsel (s : State) : (s.passEnd).outsel = s.outsel := rfl
@[simp] theorem State.passEnd_insel (s : State) : (s.passEnd).insel = s.insel := rfl
@[simp] theorem State.passEnd_chans (s : State) : (s.passEnd).chans = s.chans := rfl
@[simp] theorem State.passEnd_faults (s : State) : (s.passEnd).faults = s.faults := rfl
@[simp] theorem State.passEnd_hostMem (s : State) : (s.passEnd).hostMem = s.hostMem := rfl
@[simp] theorem State.passEnd_cardMem (s : State) : (s.passEnd).cardMem = s.cardMem := rfl
@[simp] theorem State.passEnd_env (s : State) : (s.passEnd).env = s.env := rfl

/-! ### takeSource -/

@[simp] theorem State.takeSource_cfg (s : State) (j : Fin 9) : (s.takeSource j).cfg = s.cfg := rfl
@[simp] theorem State.takeSource_banks (s : State) (j : Fin 9) : (s.takeSource j).banks = s.banks := rfl
@[simp] theorem State.takeSource_pc (s : State) (j : Fin 9) : (s.takeSource j).pc = s.pc := rfl
@[simp] theorem State.takeSource_irqStatus (s : State) (j : Fin 9) : (s.takeSource j).irqStatus = s.irqStatus := rfl
@[simp] theorem State.takeSource_irqEnable (s : State) (j : Fin 9) : (s.takeSource j).irqEnable = s.irqEnable := rfl
@[simp] theorem State.takeSource_counters (s : State) (j : Fin 9) : (s.takeSource j).counters = s.counters := rfl
@[simp] theorem State.takeSource_frameId (s : State) (j : Fin 9) : (s.takeSource j).frameId = s.frameId := rfl
@[simp] theorem State.takeSource_curFrame (s : State) (j : Fin 9) : (s.takeSource j).curFrame = s.curFrame := rfl
@[simp] theorem State.takeSource_gen (s : State) (j : Fin 9) : (s.takeSource j).gen = s.gen := rfl
@[simp] theorem State.takeSource_genRunning (s : State) (j : Fin 9) : (s.takeSource j).genRunning = s.genRunning := rfl
@[simp] theorem State.takeSource_tcCache (s : State) (j : Fin 9) : (s.takeSource j).tcCache = s.tcCache := rfl
@[simp] theorem State.takeSource_tickRate (s : State) (j : Fin 9) : (s.takeSource j).tickRate = s.tickRate := rfl
@[simp] theorem State.takeSource_audio (s : State) (j : Fin 9) : (s.takeSource j).audio = s.audio := rfl
@[simp] theorem State.takeSource_session (s : State) (j : Fin 9) : (s.takeSource j).session = s.session := rfl
@[simp] theorem State.takeSource_pacing (s : State) (j : Fin 9) : (s.takeSource j).pacing = s.pacing := rfl
@[simp] theorem State.takeSource_run (s : State) (j : Fin 9) : (s.takeSource j).run = s.run := rfl
@[simp] theorem State.takeSource_drops (s : State) (j : Fin 9) : (s.takeSource j).drops = s.drops := rfl
@[simp] theorem State.takeSource_lastPb (s : State) (j : Fin 9) : (s.takeSource j).lastPb = s.lastPb := rfl
@[simp] theorem State.takeSource_lastCap (s : State) (j : Fin 9) : (s.takeSource j).lastCap = s.lastCap := rfl
@[simp] theorem State.takeSource_pool (s : State) (j : Fin 9) : (s.takeSource j).pool = s.pool := rfl
@[simp] theorem State.takeSource_outsel (s : State) (j : Fin 9) : (s.takeSource j).outsel = s.outsel := rfl
@[simp] theorem State.takeSource_insel (s : State) (j : Fin 9) : (s.takeSource j).insel = s.insel := rfl
@[simp] theorem State.takeSource_chans (s : State) (j : Fin 9) : (s.takeSource j).chans = s.chans := rfl
@[simp] theorem State.takeSource_faults (s : State) (j : Fin 9) : (s.takeSource j).faults = s.faults := rfl
@[simp] theorem State.takeSource_hostMem (s : State) (j : Fin 9) : (s.takeSource j).hostMem = s.hostMem := rfl
@[simp] theorem State.takeSource_cardMem (s : State) (j : Fin 9) : (s.takeSource j).cardMem = s.cardMem := rfl
@[simp] theorem State.takeSource_env (s : State) (j : Fin 9) : (s.takeSource j).env = s.env := rfl

/-! ### count -/

@[simp] theorem State.count_cfg (s : State) (c : Counters) : (s.count c).cfg = s.cfg := rfl
@[simp] theorem State.count_banks (s : State) (c : Counters) : (s.count c).banks = s.banks := rfl
@[simp] theorem State.count_pc (s : State) (c : Counters) : (s.count c).pc = s.pc := rfl
@[simp] theorem State.count_passSet (s : State) (c : Counters) : (s.count c).passSet = s.passSet := rfl
@[simp] theorem State.count_irqStatus (s : State) (c : Counters) : (s.count c).irqStatus = s.irqStatus := rfl
@[simp] theorem State.count_irqEnable (s : State) (c : Counters) : (s.count c).irqEnable = s.irqEnable := rfl
@[simp] theorem State.count_frameId (s : State) (c : Counters) : (s.count c).frameId = s.frameId := rfl
@[simp] theorem State.count_curFrame (s : State) (c : Counters) : (s.count c).curFrame = s.curFrame := rfl
@[simp] theorem State.count_gen (s : State) (c : Counters) : (s.count c).gen = s.gen := rfl
@[simp] theorem State.count_genRunning (s : State) (c : Counters) : (s.count c).genRunning = s.genRunning := rfl
@[simp] theorem State.count_tcCache (s : State) (c : Counters) : (s.count c).tcCache = s.tcCache := rfl
@[simp] theorem State.count_tickRate (s : State) (c : Counters) : (s.count c).tickRate = s.tickRate := rfl
@[simp] theorem State.count_audio (s : State) (c : Counters) : (s.count c).audio = s.audio := rfl
@[simp] theorem State.count_session (s : State) (c : Counters) : (s.count c).session = s.session := rfl
@[simp] theorem State.count_pacing (s : State) (c : Counters) : (s.count c).pacing = s.pacing := rfl
@[simp] theorem State.count_run (s : State) (c : Counters) : (s.count c).run = s.run := rfl
@[simp] theorem State.count_drops (s : State) (c : Counters) : (s.count c).drops = s.drops := rfl
@[simp] theorem State.count_lastPb (s : State) (c : Counters) : (s.count c).lastPb = s.lastPb := rfl
@[simp] theorem State.count_lastCap (s : State) (c : Counters) : (s.count c).lastCap = s.lastCap := rfl
@[simp] theorem State.count_pool (s : State) (c : Counters) : (s.count c).pool = s.pool := rfl
@[simp] theorem State.count_outsel (s : State) (c : Counters) : (s.count c).outsel = s.outsel := rfl
@[simp] theorem State.count_insel (s : State) (c : Counters) : (s.count c).insel = s.insel := rfl
@[simp] theorem State.count_chans (s : State) (c : Counters) : (s.count c).chans = s.chans := rfl
@[simp] theorem State.count_faults (s : State) (c : Counters) : (s.count c).faults = s.faults := rfl
@[simp] theorem State.count_hostMem (s : State) (c : Counters) : (s.count c).hostMem = s.hostMem := rfl
@[simp] theorem State.count_cardMem (s : State) (c : Counters) : (s.count c).cardMem = s.cardMem := rfl
@[simp] theorem State.count_env (s : State) (c : Counters) : (s.count c).env = s.env := rfl

/-! ### ask -/

@[simp] theorem State.ask_cfg (s : State) (q : RunReq) : (s.ask q).cfg = s.cfg := rfl
@[simp] theorem State.ask_banks (s : State) (q : RunReq) : (s.ask q).banks = s.banks := rfl
@[simp] theorem State.ask_pc (s : State) (q : RunReq) : (s.ask q).pc = s.pc := rfl
@[simp] theorem State.ask_passSet (s : State) (q : RunReq) : (s.ask q).passSet = s.passSet := rfl
@[simp] theorem State.ask_irqStatus (s : State) (q : RunReq) : (s.ask q).irqStatus = s.irqStatus := rfl
@[simp] theorem State.ask_irqEnable (s : State) (q : RunReq) : (s.ask q).irqEnable = s.irqEnable := rfl
@[simp] theorem State.ask_counters (s : State) (q : RunReq) : (s.ask q).counters = s.counters := rfl
@[simp] theorem State.ask_frameId (s : State) (q : RunReq) : (s.ask q).frameId = s.frameId := rfl
@[simp] theorem State.ask_curFrame (s : State) (q : RunReq) : (s.ask q).curFrame = s.curFrame := rfl
@[simp] theorem State.ask_gen (s : State) (q : RunReq) : (s.ask q).gen = s.gen := rfl
@[simp] theorem State.ask_genRunning (s : State) (q : RunReq) : (s.ask q).genRunning = s.genRunning := rfl
@[simp] theorem State.ask_tcCache (s : State) (q : RunReq) : (s.ask q).tcCache = s.tcCache := rfl
@[simp] theorem State.ask_tickRate (s : State) (q : RunReq) : (s.ask q).tickRate = s.tickRate := rfl
@[simp] theorem State.ask_audio (s : State) (q : RunReq) : (s.ask q).audio = s.audio := rfl
@[simp] theorem State.ask_session (s : State) (q : RunReq) : (s.ask q).session = s.session := rfl
@[simp] theorem State.ask_pacing (s : State) (q : RunReq) : (s.ask q).pacing = s.pacing := rfl
@[simp] theorem State.ask_drops (s : State) (q : RunReq) : (s.ask q).drops = s.drops := rfl
@[simp] theorem State.ask_lastPb (s : State) (q : RunReq) : (s.ask q).lastPb = s.lastPb := rfl
@[simp] theorem State.ask_lastCap (s : State) (q : RunReq) : (s.ask q).lastCap = s.lastCap := rfl
@[simp] theorem State.ask_pool (s : State) (q : RunReq) : (s.ask q).pool = s.pool := rfl
@[simp] theorem State.ask_outsel (s : State) (q : RunReq) : (s.ask q).outsel = s.outsel := rfl
@[simp] theorem State.ask_insel (s : State) (q : RunReq) : (s.ask q).insel = s.insel := rfl
@[simp] theorem State.ask_chans (s : State) (q : RunReq) : (s.ask q).chans = s.chans := rfl
@[simp] theorem State.ask_faults (s : State) (q : RunReq) : (s.ask q).faults = s.faults := rfl
@[simp] theorem State.ask_hostMem (s : State) (q : RunReq) : (s.ask q).hostMem = s.hostMem := rfl
@[simp] theorem State.ask_cardMem (s : State) (q : RunReq) : (s.ask q).cardMem = s.cardMem := rfl
@[simp] theorem State.ask_env (s : State) (q : RunReq) : (s.ask q).env = s.env := rfl

/-! ### goto -/

@[simp] theorem State.goto_cfg (s : State) (n : F1Step) : (s.goto n).cfg = s.cfg := rfl
@[simp] theorem State.goto_banks (s : State) (n : F1Step) : (s.goto n).banks = s.banks := rfl
@[simp] theorem State.goto_passSet (s : State) (n : F1Step) : (s.goto n).passSet = s.passSet := rfl
@[simp] theorem State.goto_irqStatus (s : State) (n : F1Step) : (s.goto n).irqStatus = s.irqStatus := rfl
@[simp] theorem State.goto_irqEnable (s : State) (n : F1Step) : (s.goto n).irqEnable = s.irqEnable := rfl
@[simp] theorem State.goto_counters (s : State) (n : F1Step) : (s.goto n).counters = s.counters := rfl
@[simp] theorem State.goto_frameId (s : State) (n : F1Step) : (s.goto n).frameId = s.frameId := rfl
@[simp] theorem State.goto_curFrame (s : State) (n : F1Step) : (s.goto n).curFrame = s.curFrame := rfl
@[simp] theorem State.goto_gen (s : State) (n : F1Step) : (s.goto n).gen = s.gen := rfl
@[simp] theorem State.goto_genRunning (s : State) (n : F1Step) : (s.goto n).genRunning = s.genRunning := rfl
@[simp] theorem State.goto_tcCache (s : State) (n : F1Step) : (s.goto n).tcCache = s.tcCache := rfl
@[simp] theorem State.goto_tickRate (s : State) (n : F1Step) : (s.goto n).tickRate = s.tickRate := rfl
@[simp] theorem State.goto_audio (s : State) (n : F1Step) : (s.goto n).audio = s.audio := rfl
@[simp] theorem State.goto_session (s : State) (n : F1Step) : (s.goto n).session = s.session := rfl
@[simp] theorem State.goto_pacing (s : State) (n : F1Step) : (s.goto n).pacing = s.pacing := rfl
@[simp] theorem State.goto_run (s : State) (n : F1Step) : (s.goto n).run = s.run := rfl
@[simp] theorem State.goto_drops (s : State) (n : F1Step) : (s.goto n).drops = s.drops := rfl
@[simp] theorem State.goto_lastPb (s : State) (n : F1Step) : (s.goto n).lastPb = s.lastPb := rfl
@[simp] theorem State.goto_lastCap (s : State) (n : F1Step) : (s.goto n).lastCap = s.lastCap := rfl
@[simp] theorem State.goto_pool (s : State) (n : F1Step) : (s.goto n).pool = s.pool := rfl
@[simp] theorem State.goto_outsel (s : State) (n : F1Step) : (s.goto n).outsel = s.outsel := rfl
@[simp] theorem State.goto_insel (s : State) (n : F1Step) : (s.goto n).insel = s.insel := rfl
@[simp] theorem State.goto_chans (s : State) (n : F1Step) : (s.goto n).chans = s.chans := rfl
@[simp] theorem State.goto_faults (s : State) (n : F1Step) : (s.goto n).faults = s.faults := rfl
@[simp] theorem State.goto_hostMem (s : State) (n : F1Step) : (s.goto n).hostMem = s.hostMem := rfl
@[simp] theorem State.goto_cardMem (s : State) (n : F1Step) : (s.goto n).cardMem = s.cardMem := rfl
@[simp] theorem State.goto_env (s : State) (n : F1Step) : (s.goto n).env = s.env := rfl

/-! ### wakeAll -/

@[simp] theorem State.wakeAll_cfg (s : State) (o : Op) : (s.wakeAll o).cfg = s.cfg := rfl
@[simp] theorem State.wakeAll_pc (s : State) (o : Op) : (s.wakeAll o).pc = s.pc := rfl
@[simp] theorem State.wakeAll_passSet (s : State) (o : Op) : (s.wakeAll o).passSet = s.passSet := rfl
@[simp] theorem State.wakeAll_irqStatus (s : State) (o : Op) : (s.wakeAll o).irqStatus = s.irqStatus := rfl
@[simp] theorem State.wakeAll_irqEnable (s : State) (o : Op) : (s.wakeAll o).irqEnable = s.irqEnable := rfl
@[simp] theorem State.wakeAll_counters (s : State) (o : Op) : (s.wakeAll o).counters = s.counters := rfl
@[simp] theorem State.wakeAll_frameId (s : State) (o : Op) : (s.wakeAll o).frameId = s.frameId := rfl
@[simp] theorem State.wakeAll_curFrame (s : State) (o : Op) : (s.wakeAll o).curFrame = s.curFrame := rfl
@[simp] theorem State.wakeAll_gen (s : State) (o : Op) : (s.wakeAll o).gen = s.gen := rfl
@[simp] theorem State.wakeAll_genRunning (s : State) (o : Op) : (s.wakeAll o).genRunning = s.genRunning := rfl
@[simp] theorem State.wakeAll_tcCache (s : State) (o : Op) : (s.wakeAll o).tcCache = s.tcCache := rfl
@[simp] theorem State.wakeAll_tickRate (s : State) (o : Op) : (s.wakeAll o).tickRate = s.tickRate := rfl
@[simp] theorem State.wakeAll_audio (s : State) (o : Op) : (s.wakeAll o).audio = s.audio := rfl
@[simp] theorem State.wakeAll_session (s : State) (o : Op) : (s.wakeAll o).session = s.session := rfl
@[simp] theorem State.wakeAll_pacing (s : State) (o : Op) : (s.wakeAll o).pacing = s.pacing := rfl
@[simp] theorem State.wakeAll_run (s : State) (o : Op) : (s.wakeAll o).run = s.run := rfl
@[simp] theorem State.wakeAll_drops (s : State) (o : Op) : (s.wakeAll o).drops = s.drops := rfl
@[simp] theorem State.wakeAll_lastPb (s : State) (o : Op) : (s.wakeAll o).lastPb = s.lastPb := rfl
@[simp] theorem State.wakeAll_lastCap (s : State) (o : Op) : (s.wakeAll o).lastCap = s.lastCap := rfl
@[simp] theorem State.wakeAll_pool (s : State) (o : Op) : (s.wakeAll o).pool = s.pool := rfl
@[simp] theorem State.wakeAll_outsel (s : State) (o : Op) : (s.wakeAll o).outsel = s.outsel := rfl
@[simp] theorem State.wakeAll_insel (s : State) (o : Op) : (s.wakeAll o).insel = s.insel := rfl
@[simp] theorem State.wakeAll_chans (s : State) (o : Op) : (s.wakeAll o).chans = s.chans := rfl
@[simp] theorem State.wakeAll_faults (s : State) (o : Op) : (s.wakeAll o).faults = s.faults := rfl
@[simp] theorem State.wakeAll_hostMem (s : State) (o : Op) : (s.wakeAll o).hostMem = s.hostMem := rfl
@[simp] theorem State.wakeAll_cardMem (s : State) (o : Op) : (s.wakeAll o).cardMem = s.cardMem := rfl
@[simp] theorem State.wakeAll_env (s : State) (o : Op) : (s.wakeAll o).env = s.env := rfl

/-! ### recordDrop -/

@[simp] theorem State.recordDrop_cfg (s : State) : (s.recordDrop).cfg = s.cfg := rfl
@[simp] theorem State.recordDrop_banks (s : State) : (s.recordDrop).banks = s.banks := rfl
@[simp] theorem State.recordDrop_pc (s : State) : (s.recordDrop).pc = s.pc := rfl
@[simp] theorem State.recordDrop_passSet (s : State) : (s.recordDrop).passSet = s.passSet := rfl
@[simp] theorem State.recordDrop_irqStatus (s : State) : (s.recordDrop).irqStatus = s.irqStatus := rfl
@[simp] theorem State.recordDrop_irqEnable (s : State) : (s.recordDrop).irqEnable = s.irqEnable := rfl
@[simp] theorem State.recordDrop_counters (s : State) : (s.recordDrop).counters = s.counters := rfl
@[simp] theorem State.recordDrop_frameId (s : State) : (s.recordDrop).frameId = s.frameId := rfl
@[simp] theorem State.recordDrop_curFrame (s : State) : (s.recordDrop).curFrame = s.curFrame := rfl
@[simp] theorem State.recordDrop_gen (s : State) : (s.recordDrop).gen = s.gen := rfl
@[simp] theorem State.recordDrop_genRunning (s : State) : (s.recordDrop).genRunning = s.genRunning := rfl
@[simp] theorem State.recordDrop_tcCache (s : State) : (s.recordDrop).tcCache = s.tcCache := rfl
@[simp] theorem State.recordDrop_tickRate (s : State) : (s.recordDrop).tickRate = s.tickRate := rfl
@[simp] theorem State.recordDrop_audio (s : State) : (s.recordDrop).audio = s.audio := rfl
@[simp] theorem State.recordDrop_session (s : State) : (s.recordDrop).session = s.session := rfl
@[simp] theorem State.recordDrop_pacing (s : State) : (s.recordDrop).pacing = s.pacing := rfl
@[simp] theorem State.recordDrop_run (s : State) : (s.recordDrop).run = s.run := rfl
@[simp] theorem State.recordDrop_lastPb (s : State) : (s.recordDrop).lastPb = s.lastPb := rfl
@[simp] theorem State.recordDrop_lastCap (s : State) : (s.recordDrop).lastCap = s.lastCap := rfl
@[simp] theorem State.recordDrop_pool (s : State) : (s.recordDrop).pool = s.pool := rfl
@[simp] theorem State.recordDrop_outsel (s : State) : (s.recordDrop).outsel = s.outsel := rfl
@[simp] theorem State.recordDrop_insel (s : State) : (s.recordDrop).insel = s.insel := rfl
@[simp] theorem State.recordDrop_chans (s : State) : (s.recordDrop).chans = s.chans := rfl
@[simp] theorem State.recordDrop_faults (s : State) : (s.recordDrop).faults = s.faults := rfl
@[simp] theorem State.recordDrop_hostMem (s : State) : (s.recordDrop).hostMem = s.hostMem := rfl
@[simp] theorem State.recordDrop_cardMem (s : State) : (s.recordDrop).cardMem = s.cardMem := rfl
@[simp] theorem State.recordDrop_env (s : State) : (s.recordDrop).env = s.env := rfl

/-! ### display -/

@[simp] theorem State.display_cfg (s : State) (c : VidChan) (i : SlotIx) : (s.display c i).cfg = s.cfg := rfl
@[simp] theorem State.display_banks (s : State) (c : VidChan) (i : SlotIx) : (s.display c i).banks = s.banks := rfl
@[simp] theorem State.display_pc (s : State) (c : VidChan) (i : SlotIx) : (s.display c i).pc = s.pc := rfl
@[simp] theorem State.display_passSet (s : State) (c : VidChan) (i : SlotIx) : (s.display c i).passSet = s.passSet := rfl
@[simp] theorem State.display_irqStatus (s : State) (c : VidChan) (i : SlotIx) : (s.display c i).irqStatus = s.irqStatus := rfl
@[simp] theorem State.display_irqEnable (s : State) (c : VidChan) (i : SlotIx) : (s.display c i).irqEnable = s.irqEnable := rfl
@[simp] theorem State.display_counters (s : State) (c : VidChan) (i : SlotIx) : (s.display c i).counters = s.counters := rfl
@[simp] theorem State.display_frameId (s : State) (c : VidChan) (i : SlotIx) : (s.display c i).frameId = s.frameId := rfl
@[simp] theorem State.display_curFrame (s : State) (c : VidChan) (i : SlotIx) : (s.display c i).curFrame = s.curFrame := rfl
@[simp] theorem State.display_gen (s : State) (c : VidChan) (i : SlotIx) : (s.display c i).gen = s.gen := rfl
@[simp] theorem State.display_genRunning (s : State) (c : VidChan) (i : SlotIx) : (s.display c i).genRunning = s.genRunning := rfl
@[simp] theorem State.display_tcCache (s : State) (c : VidChan) (i : SlotIx) : (s.display c i).tcCache = s.tcCache := rfl
@[simp] theorem State.display_tickRate (s : State) (c : VidChan) (i : SlotIx) : (s.display c i).tickRate = s.tickRate := rfl
@[simp] theorem State.display_audio (s : State) (c : VidChan) (i : SlotIx) : (s.display c i).audio = s.audio := rfl
@[simp] theorem State.display_session (s : State) (c : VidChan) (i : SlotIx) : (s.display c i).session = s.session := rfl
@[simp] theorem State.display_pacing (s : State) (c : VidChan) (i : SlotIx) : (s.display c i).pacing = s.pacing := rfl
@[simp] theorem State.display_run (s : State) (c : VidChan) (i : SlotIx) : (s.display c i).run = s.run := rfl
@[simp] theorem State.display_drops (s : State) (c : VidChan) (i : SlotIx) : (s.display c i).drops = s.drops := rfl
@[simp] theorem State.display_lastCap (s : State) (c : VidChan) (i : SlotIx) : (s.display c i).lastCap = s.lastCap := rfl
@[simp] theorem State.display_pool (s : State) (c : VidChan) (i : SlotIx) : (s.display c i).pool = s.pool := rfl
@[simp] theorem State.display_insel (s : State) (c : VidChan) (i : SlotIx) : (s.display c i).insel = s.insel := rfl
@[simp] theorem State.display_chans (s : State) (c : VidChan) (i : SlotIx) : (s.display c i).chans = s.chans := rfl
@[simp] theorem State.display_faults (s : State) (c : VidChan) (i : SlotIx) : (s.display c i).faults = s.faults := rfl
@[simp] theorem State.display_hostMem (s : State) (c : VidChan) (i : SlotIx) : (s.display c i).hostMem = s.hostMem := rfl
@[simp] theorem State.display_cardMem (s : State) (c : VidChan) (i : SlotIx) : (s.display c i).cardMem = s.cardMem := rfl
@[simp] theorem State.display_env (s : State) (c : VidChan) (i : SlotIx) : (s.display c i).env = s.env := rfl

/-! ### storeCard -/

@[simp] theorem State.storeCard_cfg (s : State) (a : U32) (v : Byte) : (s.storeCard a v).cfg = s.cfg := rfl
@[simp] theorem State.storeCard_banks (s : State) (a : U32) (v : Byte) : (s.storeCard a v).banks = s.banks := rfl
@[simp] theorem State.storeCard_pc (s : State) (a : U32) (v : Byte) : (s.storeCard a v).pc = s.pc := rfl
@[simp] theorem State.storeCard_passSet (s : State) (a : U32) (v : Byte) : (s.storeCard a v).passSet = s.passSet := rfl
@[simp] theorem State.storeCard_irqStatus (s : State) (a : U32) (v : Byte) : (s.storeCard a v).irqStatus = s.irqStatus := rfl
@[simp] theorem State.storeCard_irqEnable (s : State) (a : U32) (v : Byte) : (s.storeCard a v).irqEnable = s.irqEnable := rfl
@[simp] theorem State.storeCard_counters (s : State) (a : U32) (v : Byte) : (s.storeCard a v).counters = s.counters := rfl
@[simp] theorem State.storeCard_frameId (s : State) (a : U32) (v : Byte) : (s.storeCard a v).frameId = s.frameId := rfl
@[simp] theorem State.storeCard_curFrame (s : State) (a : U32) (v : Byte) : (s.storeCard a v).curFrame = s.curFrame := rfl
@[simp] theorem State.storeCard_gen (s : State) (a : U32) (v : Byte) : (s.storeCard a v).gen = s.gen := rfl
@[simp] theorem State.storeCard_genRunning (s : State) (a : U32) (v : Byte) : (s.storeCard a v).genRunning = s.genRunning := rfl
@[simp] theorem State.storeCard_tcCache (s : State) (a : U32) (v : Byte) : (s.storeCard a v).tcCache = s.tcCache := rfl
@[simp] theorem State.storeCard_tickRate (s : State) (a : U32) (v : Byte) : (s.storeCard a v).tickRate = s.tickRate := rfl
@[simp] theorem State.storeCard_audio (s : State) (a : U32) (v : Byte) : (s.storeCard a v).audio = s.audio := rfl
@[simp] theorem State.storeCard_session (s : State) (a : U32) (v : Byte) : (s.storeCard a v).session = s.session := rfl
@[simp] theorem State.storeCard_pacing (s : State) (a : U32) (v : Byte) : (s.storeCard a v).pacing = s.pacing := rfl
@[simp] theorem State.storeCard_run (s : State) (a : U32) (v : Byte) : (s.storeCard a v).run = s.run := rfl
@[simp] theorem State.storeCard_drops (s : State) (a : U32) (v : Byte) : (s.storeCard a v).drops = s.drops := rfl
@[simp] theorem State.storeCard_lastPb (s : State) (a : U32) (v : Byte) : (s.storeCard a v).lastPb = s.lastPb := rfl
@[simp] theorem State.storeCard_lastCap (s : State) (a : U32) (v : Byte) : (s.storeCard a v).lastCap = s.lastCap := rfl
@[simp] theorem State.storeCard_pool (s : State) (a : U32) (v : Byte) : (s.storeCard a v).pool = s.pool := rfl
@[simp] theorem State.storeCard_outsel (s : State) (a : U32) (v : Byte) : (s.storeCard a v).outsel = s.outsel := rfl
@[simp] theorem State.storeCard_insel (s : State) (a : U32) (v : Byte) : (s.storeCard a v).insel = s.insel := rfl
@[simp] theorem State.storeCard_chans (s : State) (a : U32) (v : Byte) : (s.storeCard a v).chans = s.chans := rfl
@[simp] theorem State.storeCard_faults (s : State) (a : U32) (v : Byte) : (s.storeCard a v).faults = s.faults := rfl
@[simp] theorem State.storeCard_hostMem (s : State) (a : U32) (v : Byte) : (s.storeCard a v).hostMem = s.hostMem := rfl
@[simp] theorem State.storeCard_env (s : State) (a : U32) (v : Byte) : (s.storeCard a v).env = s.env := rfl

/-! ### forceOff -/

@[simp] theorem State.forceOff_cfg (s : State) (k : ChanId) : (s.forceOff k).cfg = s.cfg := rfl
@[simp] theorem State.forceOff_banks (s : State) (k : ChanId) : (s.forceOff k).banks = s.banks := rfl
@[simp] theorem State.forceOff_pc (s : State) (k : ChanId) : (s.forceOff k).pc = s.pc := rfl
@[simp] theorem State.forceOff_passSet (s : State) (k : ChanId) : (s.forceOff k).passSet = s.passSet := rfl
@[simp] theorem State.forceOff_irqStatus (s : State) (k : ChanId) : (s.forceOff k).irqStatus = s.irqStatus := rfl
@[simp] theorem State.forceOff_irqEnable (s : State) (k : ChanId) : (s.forceOff k).irqEnable = s.irqEnable := rfl
@[simp] theorem State.forceOff_counters (s : State) (k : ChanId) : (s.forceOff k).counters = s.counters := rfl
@[simp] theorem State.forceOff_frameId (s : State) (k : ChanId) : (s.forceOff k).frameId = s.frameId := rfl
@[simp] theorem State.forceOff_curFrame (s : State) (k : ChanId) : (s.forceOff k).curFrame = s.curFrame := rfl
@[simp] theorem State.forceOff_gen (s : State) (k : ChanId) : (s.forceOff k).gen = s.gen := rfl
@[simp] theorem State.forceOff_genRunning (s : State) (k : ChanId) : (s.forceOff k).genRunning = s.genRunning := rfl
@[simp] theorem State.forceOff_tcCache (s : State) (k : ChanId) : (s.forceOff k).tcCache = s.tcCache := rfl
@[simp] theorem State.forceOff_tickRate (s : State) (k : ChanId) : (s.forceOff k).tickRate = s.tickRate := rfl
@[simp] theorem State.forceOff_audio (s : State) (k : ChanId) : (s.forceOff k).audio = s.audio := rfl
@[simp] theorem State.forceOff_session (s : State) (k : ChanId) : (s.forceOff k).session = s.session := rfl
@[simp] theorem State.forceOff_pacing (s : State) (k : ChanId) : (s.forceOff k).pacing = s.pacing := rfl
@[simp] theorem State.forceOff_run (s : State) (k : ChanId) : (s.forceOff k).run = s.run := rfl
@[simp] theorem State.forceOff_drops (s : State) (k : ChanId) : (s.forceOff k).drops = s.drops := rfl
@[simp] theorem State.forceOff_lastPb (s : State) (k : ChanId) : (s.forceOff k).lastPb = s.lastPb := rfl
@[simp] theorem State.forceOff_lastCap (s : State) (k : ChanId) : (s.forceOff k).lastCap = s.lastCap := rfl
@[simp] theorem State.forceOff_pool (s : State) (k : ChanId) : (s.forceOff k).pool = s.pool := rfl
@[simp] theorem State.forceOff_outsel (s : State) (k : ChanId) : (s.forceOff k).outsel = s.outsel := rfl
@[simp] theorem State.forceOff_insel (s : State) (k : ChanId) : (s.forceOff k).insel = s.insel := rfl
@[simp] theorem State.forceOff_faults (s : State) (k : ChanId) : (s.forceOff k).faults = s.faults := rfl
@[simp] theorem State.forceOff_hostMem (s : State) (k : ChanId) : (s.forceOff k).hostMem = s.hostMem := rfl
@[simp] theorem State.forceOff_cardMem (s : State) (k : ChanId) : (s.forceOff k).cardMem = s.cardMem := rfl
@[simp] theorem State.forceOff_env (s : State) (k : ChanId) : (s.forceOff k).env = s.env := rfl

/-! ### returnRead -/

@[simp] theorem State.returnRead_cfg (s : State) (v : U64) : (s.returnRead v).cfg = s.cfg := rfl
@[simp] theorem State.returnRead_banks (s : State) (v : U64) : (s.returnRead v).banks = s.banks := rfl
@[simp] theorem State.returnRead_pc (s : State) (v : U64) : (s.returnRead v).pc = s.pc := rfl
@[simp] theorem State.returnRead_passSet (s : State) (v : U64) : (s.returnRead v).passSet = s.passSet := rfl
@[simp] theorem State.returnRead_irqStatus (s : State) (v : U64) : (s.returnRead v).irqStatus = s.irqStatus := rfl
@[simp] theorem State.returnRead_irqEnable (s : State) (v : U64) : (s.returnRead v).irqEnable = s.irqEnable := rfl
@[simp] theorem State.returnRead_counters (s : State) (v : U64) : (s.returnRead v).counters = s.counters := rfl
@[simp] theorem State.returnRead_frameId (s : State) (v : U64) : (s.returnRead v).frameId = s.frameId := rfl
@[simp] theorem State.returnRead_curFrame (s : State) (v : U64) : (s.returnRead v).curFrame = s.curFrame := rfl
@[simp] theorem State.returnRead_gen (s : State) (v : U64) : (s.returnRead v).gen = s.gen := rfl
@[simp] theorem State.returnRead_genRunning (s : State) (v : U64) : (s.returnRead v).genRunning = s.genRunning := rfl
@[simp] theorem State.returnRead_tcCache (s : State) (v : U64) : (s.returnRead v).tcCache = s.tcCache := rfl
@[simp] theorem State.returnRead_tickRate (s : State) (v : U64) : (s.returnRead v).tickRate = s.tickRate := rfl
@[simp] theorem State.returnRead_audio (s : State) (v : U64) : (s.returnRead v).audio = s.audio := rfl
@[simp] theorem State.returnRead_session (s : State) (v : U64) : (s.returnRead v).session = s.session := rfl
@[simp] theorem State.returnRead_pacing (s : State) (v : U64) : (s.returnRead v).pacing = s.pacing := rfl
@[simp] theorem State.returnRead_run (s : State) (v : U64) : (s.returnRead v).run = s.run := rfl
@[simp] theorem State.returnRead_drops (s : State) (v : U64) : (s.returnRead v).drops = s.drops := rfl
@[simp] theorem State.returnRead_lastPb (s : State) (v : U64) : (s.returnRead v).lastPb = s.lastPb := rfl
@[simp] theorem State.returnRead_lastCap (s : State) (v : U64) : (s.returnRead v).lastCap = s.lastCap := rfl
@[simp] theorem State.returnRead_pool (s : State) (v : U64) : (s.returnRead v).pool = s.pool := rfl
@[simp] theorem State.returnRead_outsel (s : State) (v : U64) : (s.returnRead v).outsel = s.outsel := rfl
@[simp] theorem State.returnRead_insel (s : State) (v : U64) : (s.returnRead v).insel = s.insel := rfl
@[simp] theorem State.returnRead_chans (s : State) (v : U64) : (s.returnRead v).chans = s.chans := rfl
@[simp] theorem State.returnRead_faults (s : State) (v : U64) : (s.returnRead v).faults = s.faults := rfl
@[simp] theorem State.returnRead_hostMem (s : State) (v : U64) : (s.returnRead v).hostMem = s.hostMem := rfl
@[simp] theorem State.returnRead_cardMem (s : State) (v : U64) : (s.returnRead v).cardMem = s.cardMem := rfl

/-! ### withPorts -/

@[simp] theorem State.withPorts_cfg (s : State) (p : Ports) : (s.withPorts p).cfg = s.cfg := rfl
@[simp] theorem State.withPorts_banks (s : State) (p : Ports) : (s.withPorts p).banks = s.banks := rfl
@[simp] theorem State.withPorts_pc (s : State) (p : Ports) : (s.withPorts p).pc = s.pc := rfl
@[simp] theorem State.withPorts_passSet (s : State) (p : Ports) : (s.withPorts p).passSet = s.passSet := rfl
@[simp] theorem State.withPorts_irqStatus (s : State) (p : Ports) : (s.withPorts p).irqStatus = s.irqStatus := rfl
@[simp] theorem State.withPorts_irqEnable (s : State) (p : Ports) : (s.withPorts p).irqEnable = s.irqEnable := rfl
@[simp] theorem State.withPorts_counters (s : State) (p : Ports) : (s.withPorts p).counters = s.counters := rfl
@[simp] theorem State.withPorts_frameId (s : State) (p : Ports) : (s.withPorts p).frameId = s.frameId := rfl
@[simp] theorem State.withPorts_curFrame (s : State) (p : Ports) : (s.withPorts p).curFrame = s.curFrame := rfl
@[simp] theorem State.withPorts_gen (s : State) (p : Ports) : (s.withPorts p).gen = s.gen := rfl
@[simp] theorem State.withPorts_genRunning (s : State) (p : Ports) : (s.withPorts p).genRunning = s.genRunning := rfl
@[simp] theorem State.withPorts_tcCache (s : State) (p : Ports) : (s.withPorts p).tcCache = s.tcCache := rfl
@[simp] theorem State.withPorts_tickRate (s : State) (p : Ports) : (s.withPorts p).tickRate = s.tickRate := rfl
@[simp] theorem State.withPorts_audio (s : State) (p : Ports) : (s.withPorts p).audio = s.audio := rfl
@[simp] theorem State.withPorts_session (s : State) (p : Ports) : (s.withPorts p).session = s.session := rfl
@[simp] theorem State.withPorts_pacing (s : State) (p : Ports) : (s.withPorts p).pacing = s.pacing := rfl
@[simp] theorem State.withPorts_run (s : State) (p : Ports) : (s.withPorts p).run = s.run := rfl
@[simp] theorem State.withPorts_drops (s : State) (p : Ports) : (s.withPorts p).drops = s.drops := rfl
@[simp] theorem State.withPorts_lastPb (s : State) (p : Ports) : (s.withPorts p).lastPb = s.lastPb := rfl
@[simp] theorem State.withPorts_lastCap (s : State) (p : Ports) : (s.withPorts p).lastCap = s.lastCap := rfl
@[simp] theorem State.withPorts_pool (s : State) (p : Ports) : (s.withPorts p).pool = s.pool := rfl
@[simp] theorem State.withPorts_outsel (s : State) (p : Ports) : (s.withPorts p).outsel = s.outsel := rfl
@[simp] theorem State.withPorts_insel (s : State) (p : Ports) : (s.withPorts p).insel = s.insel := rfl
@[simp] theorem State.withPorts_chans (s : State) (p : Ports) : (s.withPorts p).chans = s.chans := rfl
@[simp] theorem State.withPorts_faults (s : State) (p : Ports) : (s.withPorts p).faults = s.faults := rfl
@[simp] theorem State.withPorts_hostMem (s : State) (p : Ports) : (s.withPorts p).hostMem = s.hostMem := rfl
@[simp] theorem State.withPorts_cardMem (s : State) (p : Ports) : (s.withPorts p).cardMem = s.cardMem := rfl

end Sys2Proof.Machine
end

