-- ==== Sys2Proof/Laws/Components.lean ====
section
/-! SUPPORT. Reading one bank, channel, slot or record after an update; what a draw changes; and two
states that agree field by field. -/

namespace Sys2Proof.Machine

/-! ### One element after its array is written -/

theorem State.bank_setBank (s : State) (b b' : BankId) (x : Bank) :
    (s.setBank b x).bank b' = if b' = b then x else s.bank b' := by
  simp only [State.bank, State.setBank, Fin.getElem_fin, Vector.getElem_set]
  by_cases h : b' = b
  · simp [h]
  · simp [h, Ne.symm (Fin.val_ne_of_ne h)]

@[simp] theorem State.bank_setBank_self (s : State) (b : BankId) (x : Bank) : (s.setBank b x).bank b = x := by
  simp [State.bank_setBank]

theorem State.bank_setBank_ne (s : State) {b b' : BankId} (x : Bank) (h : b' ≠ b) :
    (s.setBank b x).bank b' = s.bank b' := by
  simp [State.bank_setBank, h]

theorem State.chan_setChan (s : State) (k k' : ChanId) (c : Channel) :
    (s.setChan k c).chan k' = if k' = k then c else s.chan k' := by
  simp only [State.chan, State.setChan, Fin.getElem_fin, Vector.getElem_set]
  by_cases h : k' = k
  · simp [h]
  · simp [h, Ne.symm (Fin.val_ne_of_ne h)]

@[simp] theorem State.chan_setChan_self (s : State) (k : ChanId) (c : Channel) : (s.setChan k c).chan k = c := by
  simp [State.chan_setChan]

theorem State.chan_setChan_ne (s : State) {k k' : ChanId} (c : Channel) (h : k' ≠ k) :
    (s.setChan k c).chan k' = s.chan k' := by
  simp [State.chan_setChan, h]

theorem State.slotState_setSlot (s : State) (i j : SlotIx) (st : SlotState) :
    (s.setSlot i st).slotState j = if j = i then st else s.slotState j := by
  simp only [State.slotState, State.setSlot, Fin.getElem_fin, Vector.getElem_set]
  by_cases h : j = i
  · simp [h]
  · simp [h, Ne.symm (Fin.val_ne_of_ne h)]

theorem State.metaOf_setMeta (s : State) (i j : SlotIx) (m : Meta) :
    (s.setMeta i m).metaOf j = if j = i then m else s.metaOf j := by
  simp only [State.metaOf, State.setMeta, Fin.getElem_fin, Vector.getElem_set]
  by_cases h : j = i
  · simp [h]
  · simp [h, Ne.symm (Fin.val_ne_of_ne h)]

@[simp] theorem State.setSlot_fifo (s : State) (i : SlotIx) (st : SlotState) :
    (s.setSlot i st).pool.fifo = s.pool.fifo := rfl
@[simp] theorem State.setSlot_depth (s : State) (i : SlotIx) (st : SlotState) :
    (s.setSlot i st).pool.depth = s.pool.depth := rfl
@[simp] theorem State.setSlot_metaOf (s : State) (i j : SlotIx) (st : SlotState) :
    (s.setSlot i st).metaOf j = s.metaOf j := rfl
@[simp] theorem State.setMeta_fifo (s : State) (i : SlotIx) (m : Meta) :
    (s.setMeta i m).pool.fifo = s.pool.fifo := rfl
@[simp] theorem State.setMeta_depth (s : State) (i : SlotIx) (m : Meta) :
    (s.setMeta i m).pool.depth = s.pool.depth := rfl
@[simp] theorem State.setMeta_slotState (s : State) (i j : SlotIx) (m : Meta) :
    (s.setMeta i m).slotState j = s.slotState j := rfl
@[simp] theorem State.setFifo_fifo (s : State) (q : List SlotIx) (d : BitVec 7) :
    (s.setFifo q d).pool.fifo = q := rfl
@[simp] theorem State.setFifo_depth (s : State) (q : List SlotIx) (d : BitVec 7) :
    (s.setFifo q d).pool.depth = d := rfl
@[simp] theorem State.setFifo_slotState (s : State) (q : List SlotIx) (d : BitVec 7) (j : SlotIx) :
    (s.setFifo q d).slotState j = s.slotState j := rfl
@[simp] theorem State.setFifo_metaOf (s : State) (q : List SlotIx) (d : BitVec 7) (j : SlotIx) :
    (s.setFifo q d).metaOf j = s.metaOf j := rfl

/-! ### A command's end -/

theorem State.bank_finish (s : State) (b b' : BankId) (r : ResultCode) :
    (s.finish b r).bank b' = if b' = b then (s.bank b).complete r else s.bank b' := State.bank_setBank ..

theorem State.bank_hold (s : State) (b b' : BankId) (o : Op) :
    (s.hold b o).bank b' = if b' = b then { s.bank b with pend := true, op := o } else s.bank b' :=
  State.bank_setBank ..

theorem State.bank_finishRes0 (s : State) (b b' : BankId) (v : U64) :
    (s.finishRes0 b v).bank b' =
      if b' = b then { s.bank b with res0 := v }.complete .ok else s.bank b' := State.bank_setBank ..

@[simp] theorem mapVector_get {α β : Type} {n : Nat} (f : α → β) (v : Vector α n) (i : Fin n) :
    (mapVector f v)[i] = f v[i] := by
  simp [mapVector, Vector.getElem_mk]

theorem State.bank_wakeAll (s : State) (o : Op) (b : BankId) :
    (s.wakeAll o).bank b = if (s.bank b).op = o then (s.bank b).complete .ok else s.bank b := by
  simp only [State.bank, State.wakeAll, mapVector_get]
  rfl

/-! ### Elements of arrays an update leaves alone -/

@[simp] theorem State.setBank_chan (s : State) (b : BankId) (x : Bank) (k' : ChanId) : (s.setBank b x).chan k' = s.chan k' := rfl
@[simp] theorem State.setBank_slotState (s : State) (b : BankId) (x : Bank) (j' : SlotIx) : (s.setBank b x).slotState j' = s.slotState j' := rfl
@[simp] theorem State.setBank_metaOf (s : State) (b : BankId) (x : Bank) (j' : SlotIx) : (s.setBank b x).metaOf j' = s.metaOf j' := rfl
@[simp] theorem State.setChan_bank (s : State) (k : ChanId) (c : Channel) (b' : BankId) : (s.setChan k c).bank b' = s.bank b' := rfl
@[simp] theorem State.setChan_slotState (s : State) (k : ChanId) (c : Channel) (j' : SlotIx) : (s.setChan k c).slotState j' = s.slotState j' := rfl
@[simp] theorem State.setChan_metaOf (s : State) (k : ChanId) (c : Channel) (j' : SlotIx) : (s.setChan k c).metaOf j' = s.metaOf j' := rfl
@[simp] theorem State.setSlot_bank (s : State) (i : SlotIx) (st : SlotState) (b' : BankId) : (s.setSlot i st).bank b' = s.bank b' := rfl
@[simp] theorem State.setSlot_chan (s : State) (i : SlotIx) (st : SlotState) (k' : ChanId) : (s.setSlot i st).chan k' = s.chan k' := rfl
@[simp] theorem State.setMeta_bank (s : State) (i : SlotIx) (m : Meta) (b' : BankId) : (s.setMeta i m).bank b' = s.bank b' := rfl
@[simp] theorem State.setMeta_chan (s : State) (i : SlotIx) (m : Meta) (k' : ChanId) : (s.setMeta i m).chan k' = s.chan k' := rfl
@[simp] theorem State.setFifo_bank (s : State) (q : List SlotIx) (d : BitVec 7) (b' : BankId) : (s.setFifo q d).bank b' = s.bank b' := rfl
@[simp] theorem State.setFifo_chan (s : State) (q : List SlotIx) (d : BitVec 7) (k' : ChanId) : (s.setFifo q d).chan k' = s.chan k' := rfl
@[simp] theorem State.withEnv_bank (s : State) (e : Env) (b' : BankId) : (s.withEnv e).bank b' = s.bank b' := rfl
@[simp] theorem State.withEnv_chan (s : State) (e : Env) (k' : ChanId) : (s.withEnv e).chan k' = s.chan k' := rfl
@[simp] theorem State.withEnv_slotState (s : State) (e : Env) (j' : SlotIx) : (s.withEnv e).slotState j' = s.slotState j' := rfl
@[simp] theorem State.withEnv_metaOf (s : State) (e : Env) (j' : SlotIx) : (s.withEnv e).metaOf j' = s.metaOf j' := rfl
@[simp] theorem State.finish_chan (s : State) (b : BankId) (r : ResultCode) (k' : ChanId) : (s.finish b r).chan k' = s.chan k' := rfl
@[simp] theorem State.finish_slotState (s : State) (b : BankId) (r : ResultCode) (j' : SlotIx) : (s.finish b r).slotState j' = s.slotState j' := rfl
@[simp] theorem State.finish_metaOf (s : State) (b : BankId) (r : ResultCode) (j' : SlotIx) : (s.finish b r).metaOf j' = s.metaOf j' := rfl
@[simp] theorem State.hold_chan (s : State) (b : BankId) (o : Op) (k' : ChanId) : (s.hold b o).chan k' = s.chan k' := rfl
@[simp] theorem State.hold_slotState (s : State) (b : BankId) (o : Op) (j' : SlotIx) : (s.hold b o).slotState j' = s.slotState j' := rfl
@[simp] theorem State.hold_metaOf (s : State) (b : BankId) (o : Op) (j' : SlotIx) : (s.hold b o).metaOf j' = s.metaOf j' := rfl
@[simp] theorem State.finishRes0_chan (s : State) (b : BankId) (v : U64) (k' : ChanId) : (s.finishRes0 b v).chan k' = s.chan k' := rfl
@[simp] theorem State.finishRes0_slotState (s : State) (b : BankId) (v : U64) (j' : SlotIx) : (s.finishRes0 b v).slotState j' = s.slotState j' := rfl
@[simp] theorem State.finishRes0_metaOf (s : State) (b : BankId) (v : U64) (j' : SlotIx) : (s.finishRes0 b v).metaOf j' = s.metaOf j' := rfl
@[simp] theorem State.raise_bank (s : State) (f : ModelFault) (b' : BankId) : (s.raise f).bank b' = s.bank b' := rfl
@[simp] theorem State.raise_chan (s : State) (f : ModelFault) (k' : ChanId) : (s.raise f).chan k' = s.chan k' := rfl
@[simp] theorem State.raise_slotState (s : State) (f : ModelFault) (j' : SlotIx) : (s.raise f).slotState j' = s.slotState j' := rfl
@[simp] theorem State.raise_metaOf (s : State) (f : ModelFault) (j' : SlotIx) : (s.raise f).metaOf j' = s.metaOf j' := rfl
@[simp] theorem State.emit_bank (s : State) (o : Output) (b' : BankId) : (s.emit o).bank b' = s.bank b' := rfl
@[simp] theorem State.emit_chan (s : State) (o : Output) (k' : ChanId) : (s.emit o).chan k' = s.chan k' := rfl
@[simp] theorem State.emit_slotState (s : State) (o : Output) (j' : SlotIx) : (s.emit o).slotState j' = s.slotState j' := rfl
@[simp] theorem State.emit_metaOf (s : State) (o : Output) (j' : SlotIx) : (s.emit o).metaOf j' = s.metaOf j' := rfl
@[simp] theorem State.drawn_bank (s : State) (p : Ports) (b' : BankId) : (s.drawn p).bank b' = s.bank b' := rfl
@[simp] theorem State.drawn_chan (s : State) (p : Ports) (k' : ChanId) : (s.drawn p).chan k' = s.chan k' := rfl
@[simp] theorem State.drawn_slotState (s : State) (p : Ports) (j' : SlotIx) : (s.drawn p).slotState j' = s.slotState j' := rfl
@[simp] theorem State.drawn_metaOf (s : State) (p : Ports) (j' : SlotIx) : (s.drawn p).metaOf j' = s.metaOf j' := rfl
@[simp] theorem State.latch_bank (s : State) (j : Fin 9) (b' : BankId) : (s.latch j).bank b' = s.bank b' := rfl
@[simp] theorem State.latch_chan (s : State) (j : Fin 9) (k' : ChanId) : (s.latch j).chan k' = s.chan k' := rfl
@[simp] theorem State.latch_slotState (s : State) (j : Fin 9) (j' : SlotIx) : (s.latch j).slotState j' = s.slotState j' := rfl
@[simp] theorem State.latch_metaOf (s : State) (j : Fin 9) (j' : SlotIx) : (s.latch j).metaOf j' = s.metaOf j' := rfl
@[simp] theorem State.takeInterrupt_bank (s : State) (b' : BankId) : (s.takeInterrupt).bank b' = s.bank b' := rfl
@[simp] theorem State.takeInterrupt_chan (s : State) (k' : ChanId) : (s.takeInterrupt).chan k' = s.chan k' := rfl
@[simp] theorem State.takeInterrupt_slotState (s : State) (j' : SlotIx) : (s.takeInterrupt).slotState j' = s.slotState j' := rfl
@[simp] theorem State.takeInterrupt_metaOf (s : State) (j' : SlotIx) : (s.takeInterrupt).metaOf j' = s.metaOf j' := rfl
@[simp] theorem State.passEnd_bank (s : State) (b' : BankId) : (s.passEnd).bank b' = s.bank b' := rfl
@[simp] theorem State.passEnd_chan (s : State) (k' : ChanId) : (s.passEnd).chan k' = s.chan k' := rfl
@[simp] theorem State.passEnd_slotState (s : State) (j' : SlotIx) : (s.passEnd).slotState j' = s.slotState j' := rfl
@[simp] theorem State.passEnd_metaOf (s : State) (j' : SlotIx) : (s.passEnd).metaOf j' = s.metaOf j' := rfl
@[simp] theorem State.takeSource_bank (s : State) (j : Fin 9) (b' : BankId) : (s.takeSource j).bank b' = s.bank b' := rfl
@[simp] theorem State.takeSource_chan (s : State) (j : Fin 9) (k' : ChanId) : (s.takeSource j).chan k' = s.chan k' := rfl
@[simp] theorem State.takeSource_slotState (s : State) (j : Fin 9) (j' : SlotIx) : (s.takeSource j).slotState j' = s.slotState j' := rfl
@[simp] theorem State.takeSource_metaOf (s : State) (j : Fin 9) (j' : SlotIx) : (s.takeSource j).metaOf j' = s.metaOf j' := rfl
@[simp] theorem State.count_bank (s : State) (c : Counters) (b' : BankId) : (s.count c).bank b' = s.bank b' := rfl
@[simp] theorem State.count_chan (s : State) (c : Counters) (k' : ChanId) : (s.count c).chan k' = s.chan k' := rfl
@[simp] theorem State.count_slotState (s : State) (c : Counters) (j' : SlotIx) : (s.count c).slotState j' = s.slotState j' := rfl
@[simp] theorem State.count_metaOf (s : State) (c : Counters) (j' : SlotIx) : (s.count c).metaOf j' = s.metaOf j' := rfl
@[simp] theorem State.ask_bank (s : State) (q : RunReq) (b' : BankId) : (s.ask q).bank b' = s.bank b' := rfl
@[simp] theorem State.ask_chan (s : State) (q : RunReq) (k' : ChanId) : (s.ask q).chan k' = s.chan k' := rfl
@[simp] theorem State.ask_slotState (s : State) (q : RunReq) (j' : SlotIx) : (s.ask q).slotState j' = s.slotState j' := rfl
@[simp] theorem State.ask_metaOf (s : State) (q : RunReq) (j' : SlotIx) : (s.ask q).metaOf j' = s.metaOf j' := rfl
@[simp] theorem State.goto_bank (s : State) (n : F1Step) (b' : BankId) : (s.goto n).bank b' = s.bank b' := rfl
@[simp] theorem State.goto_chan (s : State) (n : F1Step) (k' : ChanId) : (s.goto n).chan k' = s.chan k' := rfl
@[simp] theorem State.goto_slotState (s : State) (n : F1Step) (j' : SlotIx) : (s.goto n).slotState j' = s.slotState j' := rfl
@[simp] theorem State.goto_metaOf (s : State) (n : F1Step) (j' : SlotIx) : (s.goto n).metaOf j' = s.metaOf j' := rfl
@[simp] theorem State.wakeAll_chan (s : State) (o : Op) (k' : ChanId) : (s.wakeAll o).chan k' = s.chan k' := rfl
@[simp] theorem State.wakeAll_slotState (s : State) (o : Op) (j' : SlotIx) : (s.wakeAll o).slotState j' = s.slotState j' := rfl
@[simp] theorem State.wakeAll_metaOf (s : State) (o : Op) (j' : SlotIx) : (s.wakeAll o).metaOf j' = s.metaOf j' := rfl
@[simp] theorem State.recordDrop_bank (s : State) (b' : BankId) : (s.recordDrop).bank b' = s.bank b' := rfl
@[simp] theorem State.recordDrop_chan (s : State) (k' : ChanId) : (s.recordDrop).chan k' = s.chan k' := rfl
@[simp] theorem State.recordDrop_slotState (s : State) (j' : SlotIx) : (s.recordDrop).slotState j' = s.slotState j' := rfl
@[simp] theorem State.recordDrop_metaOf (s : State) (j' : SlotIx) : (s.recordDrop).metaOf j' = s.metaOf j' := rfl
@[simp] theorem State.display_bank (s : State) (c : VidChan) (i : SlotIx) (b' : BankId) : (s.display c i).bank b' = s.bank b' := rfl
@[simp] theorem State.display_chan (s : State) (c : VidChan) (i : SlotIx) (k' : ChanId) : (s.display c i).chan k' = s.chan k' := rfl
@[simp] theorem State.display_slotState (s : State) (c : VidChan) (i : SlotIx) (j' : SlotIx) : (s.display c i).slotState j' = s.slotState j' := rfl
@[simp] theorem State.display_metaOf (s : State) (c : VidChan) (i : SlotIx) (j' : SlotIx) : (s.display c i).metaOf j' = s.metaOf j' := rfl
@[simp] theorem State.storeCard_bank (s : State) (a : U32) (v : Byte) (b' : BankId) : (s.storeCard a v).bank b' = s.bank b' := rfl
@[simp] theorem State.storeCard_chan (s : State) (a : U32) (v : Byte) (k' : ChanId) : (s.storeCard a v).chan k' = s.chan k' := rfl
@[simp] theorem State.storeCard_slotState (s : State) (a : U32) (v : Byte) (j' : SlotIx) : (s.storeCard a v).slotState j' = s.slotState j' := rfl
@[simp] theorem State.storeCard_metaOf (s : State) (a : U32) (v : Byte) (j' : SlotIx) : (s.storeCard a v).metaOf j' = s.metaOf j' := rfl
@[simp] theorem State.forceOff_bank (s : State) (k : ChanId) (b' : BankId) : (s.forceOff k).bank b' = s.bank b' := rfl
@[simp] theorem State.forceOff_slotState (s : State) (k : ChanId) (j' : SlotIx) : (s.forceOff k).slotState j' = s.slotState j' := rfl
@[simp] theorem State.forceOff_metaOf (s : State) (k : ChanId) (j' : SlotIx) : (s.forceOff k).metaOf j' = s.metaOf j' := rfl
@[simp] theorem State.returnRead_bank (s : State) (v : U64) (b' : BankId) : (s.returnRead v).bank b' = s.bank b' := rfl
@[simp] theorem State.returnRead_chan (s : State) (v : U64) (k' : ChanId) : (s.returnRead v).chan k' = s.chan k' := rfl
@[simp] theorem State.returnRead_slotState (s : State) (v : U64) (j' : SlotIx) : (s.returnRead v).slotState j' = s.slotState j' := rfl
@[simp] theorem State.returnRead_metaOf (s : State) (v : U64) (j' : SlotIx) : (s.returnRead v).metaOf j' = s.metaOf j' := rfl
@[simp] theorem State.withPorts_bank (s : State) (p : Ports) (b' : BankId) : (s.withPorts p).bank b' = s.bank b' := rfl
@[simp] theorem State.withPorts_chan (s : State) (p : Ports) (k' : ChanId) : (s.withPorts p).chan k' = s.chan k' := rfl
@[simp] theorem State.withPorts_slotState (s : State) (p : Ports) (j' : SlotIx) : (s.withPorts p).slotState j' = s.slotState j' := rfl
@[simp] theorem State.withPorts_metaOf (s : State) (p : Ports) (j' : SlotIx) : (s.withPorts p).metaOf j' = s.metaOf j' := rfl

/-! ### Draws: each changes the environment record only (R11) -/

@[simp] theorem State.inField_snd (s : State) :
    s.inField.2 = s.drawn { s.env.ports with field := (s.env.ports.field.draw (Config.freeField s.env.draws)).2 } := rfl
@[simp] theorem State.inRate_snd (s : State) :
    s.inRate.2 = s.drawn { s.env.ports with rate := (s.env.ports.rate.draw (Config.freeRate s.env.draws)).2 } := rfl
@[simp] theorem State.inLine_snd (s : State) :
    s.inLine.2 = s.drawn { s.env.ports with line := (s.env.ports.line.draw (Config.freeLine s.env.draws)).2 } := rfl
@[simp] theorem State.inTick_snd (s : State) :
    s.inTick.2 = s.drawn { s.env.ports with tick := (s.env.ports.tick.draw (Config.freeTick s.env.draws)).2 } := rfl
@[simp] theorem State.inHostTs_snd (s : State) :
    s.inHostTs.2 = s.drawn { s.env.ports with hostTs := (s.env.ports.hostTs.draw (Config.freeHostTs s.env.draws)).2 } := rfl
@[simp] theorem State.inAudpos_snd (s : State) :
    s.inAudpos.2 = s.drawn { s.env.ports with audpos := (s.env.ports.audpos.draw (Config.freeAudpos s.env.draws)).2 } := rfl
@[simp] theorem State.inWire1_snd (s : State) :
    s.inWire1.2 = s.drawn { s.env.ports with wire1 := (s.env.ports.wire1.draw (Config.freeWire1 s.env.draws)).2 } := rfl
@[simp] theorem State.inWire2_snd (s : State) :
    s.inWire2.2 = s.drawn { s.env.ports with wire2 := (s.env.ports.wire2.draw (Config.freeWire2 s.env.draws)).2 } := rfl
@[simp] theorem State.drawPick_snd (s : State) :
    s.drawPick.2 = s.drawn { s.env.ports with pick := (s.env.ports.pick.draw (Config.freePick s.env.draws)).2 } := rfl
@[simp] theorem State.callPin_snd (s : State) (a : U64) (first np : Nat) :
    (s.callPin a first np).2 =
      (s.emit (.hmmPin a first np)).drawn
        { s.env.ports with pin := (s.env.ports.pin.draw (Config.freePin s.env.draws)).2 } := rfl
@[simp] theorem State.callMap_snd (s : State) (sg : List ScatterEntry) (dir : Bool) :
    (s.callMap sg dir).2 =
      (s.emit (.hmmMap sg dir)).drawn
        { s.env.ports with map := (s.env.ports.map.draw (Config.freeMap s.env.draws)).2 } := rfl
@[simp] theorem State.callReadGenerator_snd (s : State) :
    s.callReadGenerator.2 =
      (s.emit .extReadGenerator).drawn
        { s.env.ports with extGen := (s.env.ports.extGen.draw (Config.freeExtGen s.env.draws)).2 } := rfl
@[simp] theorem State.callReadExternal_snd (s : State) :
    s.callReadExternal.2 =
      (s.emit .extReadExternal).drawn
        { s.env.ports with extLtc := (s.env.ports.extLtc.draw (Config.freeExtLtc s.env.draws)).2 } := rfl

/-- A draw with an answer queued takes it; otherwise it gives the level, or the free value. -/
theorem Port.draw_spec {α : Type} (p : Port α) (free : α) :
    (∃ a rest, p.answers = a :: rest ∧ p.draw free = (a, { p with answers := rest })) ∨
      (p.answers = [] ∧ p.draw free = (p.level.getD free, p)) := by
  unfold Port.draw
  split
  · rename_i a rest h
    exact .inl ⟨a, rest, h, rfl⟩
  · rename_i h
    exact .inr ⟨h, rfl⟩

/-- What a timecode reading changes: the environment record only (R233). -/
theorem State.readWire1_snd (s : State) : ∃ e, s.readWire1.2 = s.withEnv e := ⟨_, rfl⟩
theorem State.readWire2_snd (s : State) : ∃ e, s.readWire2.2 = s.withEnv e := ⟨_, rfl⟩
theorem State.readExternal_snd (s : State) : ∃ e, s.readExternal.2 = s.withEnv e := by
  unfold State.readExternal
  split
  · exact ⟨_, rfl⟩
  · exact ⟨s.env, rfl⟩
theorem State.readGenerator_snd (s : State) : ∃ e, s.readGenerator.2 = s.withEnv e := by
  unfold State.readGenerator
  split
  · exact ⟨_, rfl⟩
  · exact ⟨s.env, rfl⟩

/-- What a load changes: the environment record, by a draw, and only in a race (R88). -/
theorem State.loadHost_snd (s : State) (reader : Option ChanId) (addr : U64) :
    (s.loadHost reader addr).2 = s ∨ (s.loadHost reader addr).2 = s.drawn s.env.ports := by
  unfold State.loadHost
  split
  · exact .inr rfl
  · exact .inl rfl
theorem State.loadCard_snd (s : State) (reader : Option ChanId) (addr : U32) :
    (s.loadCard reader addr).2 = s ∨ (s.loadCard reader addr).2 = s.drawn s.env.ports := by
  unfold State.loadCard
  split
  · exact .inr rfl
  · exact .inl rfl

/-- Outside a race a load gives the byte of the memory and changes nothing (R88). -/
theorem State.loadHost_of_not_raced {s : State} {reader : Option ChanId} {addr : U64}
    (h : s.raced reader true addr = false) : s.loadHost reader addr = (s.hostMem.read addr.toNat, s) := by
  simp [State.loadHost, h]
theorem State.loadCard_of_not_raced {s : State} {reader : Option ChanId} {addr : U32}
    (h : s.raced reader false (addr.setWidth 64) = false) :
    s.loadCard reader addr = (s.cardMem.read addr.toNat, s) := by
  simp [State.loadCard, h]

/-- A fault raised is in the set, with all those before it (R356, R357). -/
theorem State.mem_raise (s : State) (f g : ModelFault) : g ∈ (s.raise f).faults ↔ g ∈ s.faults ∨ g = f := by
  unfold State.raise
  by_cases h : f ∈ s.faults
  · simp only [h, if_true]
    exact ⟨.inl, fun hg => hg.elim id (fun e => e ▸ h)⟩
  · simp [h]

end Sys2Proof.Machine
end

