-- ==== Sys2Proof/Laws/Memory.lean ====
section
/-! SUPPORT. Memory laws: every operation keeps the canonical form; a read after a write; equal reads are
equal memories; what the byte stores of a state change. -/

namespace Sys2Proof.Machine

/-! ### The canonical form -/

@[simp] theorem Memory.wf_nil : Memory.wf [] = true := rfl
@[simp] theorem Memory.read_nil (a : Nat) : Memory.read [] a = Memory.unlisted := rfl

theorem Memory.wf_cons (c : Host.Cell) (m : Memory) :
    Memory.wf (c :: m) = true ↔ c.2 ≠ Memory.unlisted ∧ Memory.above c.1 m = true ∧ Memory.wf m = true := by
  simp [Memory.wf, and_assoc]

theorem Memory.above_cons (a : Nat) (c : Host.Cell) (m : Memory) :
    Memory.above a (c :: m) = true ↔ a < c.1 ∧ Memory.above a m = true := by
  simp [Memory.above]

theorem Memory.above_mono {a b : Nat} {m : Memory} (h : a ≤ b) (hm : Memory.above b m = true) :
    Memory.above a m = true := by
  simp only [Memory.above, List.all_eq_true, decide_eq_true_eq] at *
  exact fun c hc => lt_of_le_of_lt h (hm c hc)

/-- An address that no cell reaches down to reads as unlisted. -/
theorem Memory.read_of_above {a x : Nat} {m : Memory} (hm : Memory.above a m = true) (hx : x ≤ a) :
    m.read x = Memory.unlisted := by
  induction m with
  | nil => rfl
  | cons c m ih =>
    obtain ⟨hc, hm⟩ := (Memory.above_cons ..).1 hm
    simp [Memory.read, Nat.ne_of_gt (lt_of_le_of_lt hx hc), ih hm]

theorem Memory.above_cell {a x : Nat} {v : Byte} {m : Memory} (hx : a < x) (hm : Memory.above a m = true) :
    Memory.above a (Memory.cell x v m) = true := by
  unfold Memory.cell
  split
  · exact hm
  · exact (Memory.above_cons ..).2 ⟨hx, hm⟩

theorem Memory.above_write {a x : Nat} {v : Byte} {m : Memory} (hx : a < x) (hm : Memory.above a m = true) :
    Memory.above a (m.write x v) = true := by
  induction m with
  | nil => exact Memory.above_cell hx rfl
  | cons c m ih =>
    have hc := (Memory.above_cons ..).1 hm
    unfold Memory.write
    split
    · exact Memory.above_cell hx hm
    split
    · exact Memory.above_cell hx hc.2
    · exact (Memory.above_cons ..).2 ⟨hc.1, ih hc.2⟩

theorem Memory.wf_cell {x : Nat} {v : Byte} {m : Memory} (ha : Memory.above x m = true) (hm : m.wf = true) :
    (Memory.cell x v m).wf = true := by
  unfold Memory.cell
  split
  · exact hm
  · rename_i h
    exact (Memory.wf_cons ..).2 ⟨h, ha, hm⟩

/-- A write keeps the canonical form. -/
theorem Memory.wf_write {m : Memory} (hm : m.wf = true) (x : Nat) (v : Byte) : (m.write x v).wf = true := by
  induction m with
  | nil => exact Memory.wf_cell rfl rfl
  | cons c m ih =>
    obtain ⟨h1, h2, h3⟩ := (Memory.wf_cons ..).1 hm
    unfold Memory.write
    split
    · rename_i h
      exact Memory.wf_cell ((Memory.above_cons ..).2 ⟨h, Memory.above_mono h.le h2⟩) hm
    split
    · rename_i h
      exact Memory.wf_cell (h ▸ h2) h3
    · rename_i hlt hne
      exact (Memory.wf_cons ..).2 ⟨h1, Memory.above_write (by omega) h2, ih h3⟩

/-! ### Reads and writes -/

theorem Memory.read_cell {x a : Nat} {v : Byte} {m : Memory} (hm : Memory.above x m = true) :
    (Memory.cell x v m).read a = if a = x then v else m.read a := by
  unfold Memory.cell
  split
  · rename_i h
    split
    · rename_i h'
      rw [Memory.read_of_above hm h'.le, h]
    · rfl
  · by_cases h : x = a
    · simp [Memory.read, h]
    · simp [Memory.read, h, Ne.symm h]

/-- A read after a write: the byte written at its address, every other byte as before. -/
theorem Memory.read_write {m : Memory} (hm : m.wf = true) (x a : Nat) (v : Byte) :
    (m.write x v).read a = if a = x then v else m.read a := by
  induction m with
  | nil => exact Memory.read_cell rfl
  | cons c m ih =>
    obtain ⟨h1, h2, h3⟩ := (Memory.wf_cons ..).1 hm
    unfold Memory.write
    split
    · rename_i h
      exact Memory.read_cell ((Memory.above_cons ..).2 ⟨h, Memory.above_mono h.le h2⟩)
    split
    · rename_i h
      rw [Memory.read_cell (h ▸ h2)]
      by_cases ha : a = x
      · simp [ha]
      · simp [Memory.read, ha, ← h, Ne.symm ha]
    · rename_i hlt hne
      by_cases ha : c.1 = a
      · have : a ≠ x := fun e => hne (by omega)
        simp [Memory.read, ha, this]
      · simp [Memory.read, ha, ih h3]

/-- Two memories in canonical form that read alike are equal. -/
theorem Memory.ext_read {m n : Memory} (hm : m.wf = true) (hn : n.wf = true) (h : ∀ a, m.read a = n.read a) :
    m = n := by
  induction m generalizing n with
  | nil =>
    cases n with
    | nil => rfl
    | cons d n =>
      have := h d.1
      simp [Memory.read] at this
      exact absurd this.symm ((Memory.wf_cons ..).1 hn).1
  | cons c m ih =>
    obtain ⟨c1, c2, c3⟩ := (Memory.wf_cons ..).1 hm
    cases n with
    | nil =>
      have := h c.1
      simp [Memory.read] at this
      exact absurd this c1
    | cons d n =>
      obtain ⟨d1, d2, d3⟩ := (Memory.wf_cons ..).1 hn
      have hcd : c.1 = d.1 := by
        rcases Nat.lt_trichotomy c.1 d.1 with hlt | he | hlt
        · have hr := h c.1
          rw [Memory.read_of_above (a := c.1) (m := d :: n)
            ((Memory.above_cons ..).2 ⟨hlt, Memory.above_mono hlt.le d2⟩) le_rfl] at hr
          simp [Memory.read] at hr
          exact absurd hr c1
        · exact he
        · have hr := h d.1
          rw [Memory.read_of_above (a := d.1) (m := c :: m)
            ((Memory.above_cons ..).2 ⟨hlt, Memory.above_mono hlt.le c2⟩) le_rfl] at hr
          simp [Memory.read] at hr
          exact absurd hr.symm d1
      have hv : c.2 = d.2 := by
        have := h c.1
        simpa [Memory.read, hcd] using this
      have ht : m = n := ih c3 d3 fun a => by
        by_cases ha : c.1 = a
        · rw [Memory.read_of_above c2 ha.ge, Memory.read_of_above d2 (hcd ▸ ha.ge)]
        · have := h a
          simpa [Memory.read, ha, ← hcd] using this
      rw [ht, Prod.ext hcd hv]

/-! ### The byte stores of a state -/

/-- Noting a tampered chain changes one field of one channel. -/
theorem State.noteTamper_eq (s : State) (addr : U64) (k : ChanId) :
    ∃ cs, s.noteTamper addr k = { s with chans := cs } := by
  unfold State.noteTamper
  split
  · exact ⟨_, rfl⟩
  · exact ⟨s.chans, rfl⟩

theorem State.chan_noteTamper (s : State) (addr : U64) (k k' : ChanId) :
    ∃ v, (s.noteTamper addr k).chan k' = { s.chan k' with tampered := v } := by
  unfold State.noteTamper
  split
  · rw [State.chan_setChan]
    split
    · rename_i h
      exact ⟨true, by rw [h]⟩
    · exact ⟨(s.chan k').tampered, rfl⟩
  · exact ⟨(s.chan k').tampered, rfl⟩

theorem State.foldl_noteTamper (ks : List ChanId) (s : State) (addr : U64) :
    (∃ cs, ks.foldl (fun s k => s.noteTamper addr k) s = { s with chans := cs }) ∧
      ∀ k', ∃ v, (ks.foldl (fun s k => s.noteTamper addr k) s).chan k' = { s.chan k' with tampered := v } := by
  induction ks generalizing s with
  | nil => exact ⟨⟨s.chans, rfl⟩, fun k' => ⟨(s.chan k').tampered, rfl⟩⟩
  | cons k ks ih =>
    obtain ⟨⟨cs, hcs⟩, hch⟩ := ih (s.noteTamper addr k)
    obtain ⟨cs0, h0⟩ := s.noteTamper_eq addr k
    constructor
    · exact ⟨cs, by rw [List.foldl_cons, hcs, h0]⟩
    · intro k'
      obtain ⟨v, hv⟩ := hch k'
      obtain ⟨v0, hv0⟩ := s.chan_noteTamper addr k k'
      exact ⟨v, by rw [List.foldl_cons, hv, hv0]⟩

/-- A byte stored to host memory: the memory's write, and tamper marks in the channels; nothing else. -/
theorem State.storeHost_eq (s : State) (addr : U64) (v : Byte) :
    ∃ cs, s.storeHost addr v = { s with hostMem := s.hostMem.write addr.toNat v, chans := cs } := by
  obtain ⟨cs, h⟩ := (State.foldl_noteTamper (List.finRange 4)
    { s with hostMem := s.hostMem.write addr.toNat v } addr).1
  exact ⟨cs, h⟩

theorem State.chan_storeHost (s : State) (addr : U64) (v : Byte) (k : ChanId) :
    ∃ w, (s.storeHost addr v).chan k = { s.chan k with tampered := w } :=
  (State.foldl_noteTamper (List.finRange 4) { s with hostMem := s.hostMem.write addr.toNat v } addr).2 k

@[simp] theorem State.storeHost_hostMem (s : State) (addr : U64) (v : Byte) :
    (s.storeHost addr v).hostMem = s.hostMem.write addr.toNat v := by
  obtain ⟨cs, h⟩ := s.storeHost_eq addr v
  rw [h]

@[simp] theorem State.storeHost_cardMem (s : State) (addr : U64) (v : Byte) :
    (s.storeHost addr v).cardMem = s.cardMem := by
  obtain ⟨cs, h⟩ := s.storeHost_eq addr v
  rw [h]

@[simp] theorem State.storeCard_write (s : State) (addr : U32) (v : Byte) :
    (s.storeCard addr v).cardMem = s.cardMem.write addr.toNat v := rfl

/-- Bytes stored in a row: host memory and tamper marks change; nothing else. -/
theorem State.storeBytes_eq (bs : List Byte) (s : State) (addr : U64) :
    (∃ m cs, s.storeBytes addr bs = { s with hostMem := m, chans := cs }) ∧
      ∀ k, ∃ w, (s.storeBytes addr bs).chan k = { s.chan k with tampered := w } := by
  induction bs generalizing s addr with
  | nil => exact ⟨⟨s.hostMem, s.chans, rfl⟩, fun k => ⟨(s.chan k).tampered, rfl⟩⟩
  | cons v vs ih =>
    obtain ⟨⟨m, cs, h⟩, hk⟩ := ih (s.storeHost addr v) (addr + 1)
    obtain ⟨cs0, h0⟩ := s.storeHost_eq addr v
    refine ⟨⟨m, cs, by rw [State.storeBytes, h, h0]⟩, fun k => ?_⟩
    obtain ⟨w, hw⟩ := hk k
    obtain ⟨w0, hw0⟩ := s.chan_storeHost addr v k
    exact ⟨w, by rw [State.storeBytes, hw, hw0]⟩

/-- The bytes stored are read back, and every other byte reads as before, when the range does not pass
the end of the address space. -/
theorem State.storeBytes_read (bs : List Byte) (s : State) (addr : U64) (hwf : s.hostMem.wf = true)
    (hr : addr.toNat + bs.length ≤ 2 ^ 64) :
    (s.storeBytes addr bs).hostMem.wf = true ∧
      ∀ a, (s.storeBytes addr bs).hostMem.read a =
        if h : addr.toNat ≤ a ∧ a < addr.toNat + bs.length then bs[a - addr.toNat]'(by omega)
        else s.hostMem.read a := by
  induction bs generalizing s addr with
  | nil =>
    refine ⟨hwf, fun a => ?_⟩
    have : ¬ (addr.toNat ≤ a ∧ a < addr.toNat + ([] : List Byte).length) := by simp
    rw [dif_neg this]
    rfl
  | cons v vs ih =>
    simp only [List.length_cons] at hr
    have hwf' : (s.storeHost addr v).hostMem.wf = true := by simpa using Memory.wf_write hwf _ _
    cases vs with
    | nil =>
      refine ⟨hwf', fun a => ?_⟩
      simp only [State.storeBytes, State.storeHost_hostMem, Memory.read_write hwf, List.length_cons, List.length_nil]
      by_cases ha : a = addr.toNat
      · subst ha
        simp
      · rw [if_neg ha, dif_neg (by omega)]
    | cons v2 vs =>
      simp only [List.length_cons] at hr
      have hadd : (addr + 1).toNat = addr.toNat + 1 := by
        rw [BitVec.toNat_add, Nat.mod_eq_of_lt] <;> simp
        omega
      obtain ⟨h1, h2⟩ := ih (s.storeHost addr v) (addr + 1) hwf' (by simp only [List.length_cons]; omega)
      rw [State.storeBytes]
      refine ⟨h1, fun a => ?_⟩
      rw [h2 a]
      simp only [hadd, State.storeHost_hostMem, Memory.read_write hwf, List.length_cons]
      by_cases ha : a = addr.toNat
      · subst ha
        rw [dif_neg (by omega), dif_pos (by omega), if_pos rfl]
        simp
      · by_cases hin : addr.toNat + 1 ≤ a ∧ a < addr.toNat + 1 + (vs.length + 1)
        · rw [dif_pos hin, dif_pos (by omega)]
          have hi : a - addr.toNat = (a - (addr.toNat + 1)) + 1 := by omega
          simp only [hi, List.getElem_cons_succ]
        · rw [dif_neg hin, dif_neg (by omega), if_neg ha]

end Sys2Proof.Machine
end

