-- ==== Sys2Proof/Laws/Pool.lean ====
section
/-! SUPPORT. What each pool primitive can do (41_pool_fifo.md R181 to R184), and that each keeps the pool's
invariants. -/

namespace Sys2Proof.Machine

/-! ### The four primitives -/

theorem State.mem_freeSlots (s : State) (i : SlotIx) :
    i ∈ s.freeSlots ↔ i.val < s.session.poolSize.toNat ∧ s.slotState i = .free := by
  simp [State.freeSlots]

/-- `alloc_slot` finds no free slot and changes nothing, or takes a free slot of the pool: the lowest one
under `lowest`, where no draw is made (R181). -/
theorem State.allocSlot_cases (s : State) :
    (s.allocSlot = (none, s) ∧ ∀ i : SlotIx, i.val < s.session.poolSize.toNat → s.slotState i ≠ .free) ∨
      ∃ i e, s.allocSlot = (some i, (s.withEnv e).setSlot i .inuse) ∧ i.val < s.session.poolSize.toNat ∧
        s.slotState i = .free ∧
        (s.cfg.allocPolicy = .lowest →
          e = s.env ∧ ∀ j : SlotIx, j.val < s.session.poolSize.toNat → s.slotState j = .free → i ≤ j) := by
  unfold State.allocSlot
  split
  · rename_i h
    refine .inl ⟨rfl, fun i hi hf => ?_⟩
    have : i ∈ s.freeSlots := (s.mem_freeSlots i).2 ⟨hi, hf⟩
    simp [h] at this
  · rename_i i rest h
    refine .inr ?_
    split
    · rename_i hp
      have hi := (s.mem_freeSlots i).1 (h ▸ List.mem_cons_self)
      refine ⟨i, s.env, rfl, hi.1, hi.2, fun _ => ⟨rfl, fun j hj hf => ?_⟩⟩
      have hsort : (i :: rest).Pairwise (· < ·) :=
        h ▸ List.Pairwise.filter _ (List.pairwise_lt_finRange 64)
      have hj : j ∈ i :: rest := h ▸ (s.mem_freeSlots j).2 ⟨hj, hf⟩
      rcases List.mem_cons.1 hj with e | hm
      · exact e.ge
      · exact (List.rel_of_pairwise_cons hsort hm).le
    · rename_i hp
      have hm : (pickFrom (i :: rest) s.drawPick.1).getD i ∈ s.freeSlots := by
        rw [h]
        cases hg : pickFrom (i :: rest) s.drawPick.1 with
        | none => simp
        | some j => simpa using List.mem_of_getElem? hg
      have hi := (s.mem_freeSlots _).1 hm
      exact ⟨_, _, rfl, hi.1, hi.2, fun hl => by simp [hl] at hp⟩

theorem State.freeSlot_cases (s : State) (i : SlotIx) :
    (s.slotState i = .queued ∧ s.freeSlot i = s.raise (.u2 i)) ∨
      (s.slotState i ≠ .queued ∧ s.freeSlot i = s.setSlot i .free) := by
  unfold State.freeSlot
  split
  · rename_i h
    exact .inl ⟨h, rfl⟩
  · rename_i h
    exact .inr ⟨h, rfl⟩

theorem State.enqSlot_cases (s : State) (i : SlotIx) :
    (s.slotState i = .inuse ∧
        s.enqSlot i = (s.setSlot i .queued).setFifo (s.pool.fifo ++ [i]) (s.pool.depth + 1)) ∨
      (s.slotState i ≠ .inuse ∧ s.enqSlot i = s.raise (.u3 i (s.slotState i))) := by
  unfold State.enqSlot
  split
  · rename_i h
    exact .inl ⟨h, rfl⟩
  · rename_i h
    exact .inr ⟨h, rfl⟩

theorem State.deqSlot_cases (s : State) :
    (s.pool.fifo = [] ∧ s.deqSlot = (none, s)) ∨
      ∃ i q, s.pool.fifo = i :: q ∧ s.deqSlot = (some i, (s.setFifo q (s.pool.depth - 1)).setSlot i .inuse) := by
  unfold State.deqSlot
  split
  · rename_i h
    exact .inl ⟨h, rfl⟩
  · rename_i i q h
    exact .inr ⟨i, q, h, rfl⟩

/-! ### The pool's invariants -/

/-- The invariants read the pool, the pool size and the last-assigned records only. -/
theorem PoolInv.congr {s t : State} (h : PoolInv s) (hp : ∀ i, t.slotState i = s.slotState i)
    (hf : t.pool.fifo = s.pool.fifo) (hd : t.pool.depth = s.pool.depth)
    (hn : t.session.poolSize = s.session.poolSize) (hb : t.lastPb = s.lastPb) (hc : t.lastCap = s.lastCap) :
    PoolInv t where
  depth_eq := by rw [hd, hf, h.depth_eq]
  nodup := hf ▸ h.nodup
  queued_iff i := by rw [hf, hp, h.queued_iff]
  outside_free i hi := by rw [hp]; exact h.outside_free i (hn ▸ hi)
  lastPb_lt c i hi := by rw [hn]; exact h.lastPb_lt c i (hb ▸ hi)
  lastCap_lt c i hi := by rw [hn]; exact h.lastCap_lt c i (hc ▸ hi)

theorem PoolInv.withEnv {s : State} (h : PoolInv s) (e : Env) : PoolInv (s.withEnv e) :=
  h.congr (fun _ => rfl) rfl rfl rfl rfl rfl

theorem PoolInv.raise {s : State} (h : PoolInv s) (f : ModelFault) : PoolInv (s.raise f) :=
  h.congr (fun _ => rfl) rfl rfl rfl rfl rfl

theorem PoolInv.setMeta {s : State} (h : PoolInv s) (i : SlotIx) (m : Meta) : PoolInv (s.setMeta i m) :=
  h.congr (fun _ => rfl) rfl rfl rfl rfl rfl

/-- A slot that is not queued may become FREE or INUSE, if it is in the pool. -/
theorem PoolInv.setSlot {s : State} (h : PoolInv s) {i : SlotIx} {st : SlotState}
    (hi : i.val < s.session.poolSize.toNat) (hq : s.slotState i ≠ .queued) (hst : st ≠ .queued) :
    PoolInv (s.setSlot i st) where
  depth_eq := h.depth_eq
  nodup := h.nodup
  queued_iff j := by
    rw [State.setSlot_fifo, h.queued_iff, State.slotState_setSlot]
    split
    · rename_i e
      simp [e, hq, hst]
    · rfl
  outside_free j hj := by
    rw [State.slotState_setSlot, if_neg]
    · exact h.outside_free j hj
    · rintro rfl
      exact absurd hi (Nat.not_lt.2 hj)
  lastPb_lt := h.lastPb_lt
  lastCap_lt := h.lastCap_lt

/-- A slot of the pool that is not FREE lies inside the pool. -/
theorem PoolInv.lt_of_not_free {s : State} (h : PoolInv s) {i : SlotIx} (hi : s.slotState i ≠ .free) :
    i.val < s.session.poolSize.toNat := by
  by_contra hc
  exact hi (h.outside_free i (Nat.not_lt.1 hc))

theorem PoolInv.allocSlot {s : State} (h : PoolInv s) : PoolInv s.allocSlot.2 := by
  obtain ⟨e, -⟩ | ⟨i, e, ha, hi, hf, -⟩ := s.allocSlot_cases
  · rw [e]
    exact h
  · rw [ha]
    exact (h.withEnv e).setSlot hi (by simp [hf]) (by simp)

/-- `free_slot` keeps the invariants for a slot of the pool (R182). -/
theorem PoolInv.freeSlot {s : State} (h : PoolInv s) {i : SlotIx} (hi : i.val < s.session.poolSize.toNat) :
    PoolInv (s.freeSlot i) := by
  obtain ⟨-, e⟩ | ⟨hq, e⟩ := s.freeSlot_cases i
  · rw [e]
    exact h.raise _
  · rw [e]
    exact h.setSlot hi hq (by simp)

theorem length_le_of_nodup (q : List SlotIx) (h : q.Nodup) : q.length ≤ 64 := by
  simpa using h.length_le_card

/-- `enq_slot` keeps the invariants: the counter never wraps, since the FIFO has no repeats (R183). -/
theorem PoolInv.enqSlot {s : State} (h : PoolInv s) (i : SlotIx) : PoolInv (s.enqSlot i) := by
  obtain ⟨hu, e⟩ | ⟨-, e⟩ := s.enqSlot_cases i
  · have hni : i ∉ s.pool.fifo := fun hm => by
      rw [h.queued_iff, hu] at hm
      cases hm
    have hnd : (s.pool.fifo ++ [i]).Nodup := by
      simpa using List.nodup_append.2 ⟨h.nodup, by simp, fun a ha b hb => by
        simp at hb
        rintro rfl
        exact hni (hb ▸ ha)⟩
    have hlen := length_le_of_nodup _ hnd
    simp only [List.length_append, List.length_singleton] at hlen
    have hd := h.depth_eq
    rw [e]
    refine ⟨?_, hnd, fun j => ?_, fun j hj => ?_, h.lastPb_lt, h.lastCap_lt⟩
    · simp only [State.setFifo_depth, State.setFifo_fifo, List.length_append, List.length_singleton]
      rw [BitVec.toNat_add, hd]
      simp
      omega
    · simp only [State.setFifo_fifo, State.setFifo_slotState, State.slotState_setSlot, List.mem_append,
        List.mem_singleton, h.queued_iff]
      by_cases hj : j = i
      · simp [hj]
      · simp [hj]
    · simp only [State.setFifo_slotState, State.slotState_setSlot]
      rw [if_neg]
      · exact h.outside_free j hj
      · rintro rfl
        rw [h.outside_free j hj] at hu
        cases hu
  · rw [e]
    exact h.raise _

/-- `deq_slot` keeps the invariants (R184). -/
theorem PoolInv.deqSlot {s : State} (h : PoolInv s) : PoolInv s.deqSlot.2 := by
  obtain ⟨-, e⟩ | ⟨i, q, hq, e⟩ := s.deqSlot_cases
  · rw [e]
    exact h
  · have hnd := h.nodup
    have hd := h.depth_eq
    have hlen := length_le_of_nodup _ hnd
    rw [hq] at hnd hd hlen
    simp only [List.length_cons] at hd hlen
    have hni := (List.nodup_cons.1 hnd).1
    rw [e]
    refine ⟨?_, (List.nodup_cons.1 hnd).2, fun j => ?_, fun j hj => ?_, h.lastPb_lt, h.lastCap_lt⟩
    · simp only [State.setSlot_depth, State.setSlot_fifo, State.setFifo_depth, State.setFifo_fifo]
      rw [BitVec.toNat_sub]
      simp
      omega
    · simp only [State.setSlot_fifo, State.setFifo_fifo, State.slotState_setSlot, State.setFifo_slotState]
      by_cases hj : j = i
      · simp [hj, hni]
      · rw [if_neg hj, ← h.queued_iff, hq]
        simp [hj]
    · simp only [State.slotState_setSlot, State.setFifo_slotState]
      rw [if_neg]
      · exact h.outside_free j hj
      · rintro rfl
        have : s.slotState j = .queued := (h.queued_iff j).1 (hq ▸ List.mem_cons_self)
        rw [h.outside_free j hj] at this
        cases this

/-- The head of the FIFO is a slot of the pool. -/
theorem PoolInv.deqSlot_lt {s : State} (h : PoolInv s) {i : SlotIx} {t : State} (hd : s.deqSlot = (some i, t)) :
    i.val < s.session.poolSize.toNat ∧ t.session = s.session ∧ t.slotState i = .inuse ∧
      t.pool.depth.toNat + 1 = s.pool.depth.toNat := by
  obtain ⟨-, e⟩ | ⟨j, q, hq, e⟩ := s.deqSlot_cases
  · rw [e] at hd
    cases hd
  · rw [e] at hd
    cases hd
    have hj : s.slotState i = .queued := (h.queued_iff i).1 (hq ▸ List.mem_cons_self)
    refine ⟨h.lt_of_not_free (by simp [hj]), rfl, by simp [State.slotState_setSlot], ?_⟩
    have hlen := length_le_of_nodup _ h.nodup
    have hd := h.depth_eq
    rw [hq] at hd hlen
    simp only [List.length_cons] at hd hlen
    simp only [State.setSlot_depth, State.setFifo_depth]
    rw [BitVec.toNat_sub]
    simp
    omega

end Sys2Proof.Machine
end

