-- ==== Sys2Proof/Laws/Step.lean ====
section
/-! SUPPORT. What one step can do, said once: `Transition` lists every way a step goes from one state to
the next, and `step_transition` says that a step that answers a next state is one of them. Every
invariant of the machine is then one case analysis. -/

namespace Sys2Proof.Machine

/-- What an event of the schedule does to a state, with the guards under which it does so. -/
inductive Transition : State → State → Prop where
  /-- An agent that is not enabled, or a write that is ignored. -/
  | idle (s : State) : Transition s s
  /-- The environment record changes: a read, or an answer fixed. -/
  | look (s : State) (e : Env) : Transition s (s.withEnv e)
  /-- A model fault is raised by an access of a bad width, or by a CMD write while PEND = 1. -/
  | note (s : State) (f : ModelFault) (e : Env) : Transition s ((s.raise f).withEnv e)
  /-- IRQ_ENABLE is written. -/
  | enable (s : State) (v : BitVec 9) : Transition s { s with irqEnable := v }
  /-- An operand register of a bank that exists is written. -/
  | operand (s : State) (b : BankId) (off : Nat) (v : U32) (hb : bankExists s.cfg b = true) :
      Transition s (s.setBank b ((s.bank b).writeReg off v))
  /-- A word that is no instruction is written to CMD. -/
  | illegal (s : State) (b : BankId) (w : U32) (hb : bankExists s.cfg b = true)
      (hp : (s.bank b).pend = false) (e : Reject) (hd : decode (.cmd b w) = .error e) :
      Transition s ((s.setCmd b w).finish b .illegal)
  /-- A command is accepted. -/
  | command (s : State) (b : BankId) (w : U32) (i : Instr) (t : State) (hb : bankExists s.cfg b = true)
      (hp : (s.bank b).pend = false) (hd : decode (.cmd b w) = .ok i)
      (he : exec i (s.setCmd b w) = .next t) : Transition s t
  /-- A caller takes the next phase of its transfer. -/
  | caller (s : State) (b : BankId) (hb : bankExists s.cfg b = true) : Transition s (s.callerStep b)
  /-- A timeout or a signal arrives. -/
  | callerEvent (s : State) (b : BankId) (o : XferOutcome) (hb : bankExists s.cfg b = true) (ho : o ≠ .ok) :
      Transition s (s.callerEvent b o)
  /-- A dispatch pass begins. -/
  | dispatch (s : State) (hp : s.pc = .idle) (hl : s.irqLine = true) : Transition s s.takeInterrupt
  /-- A source of the pass is handled. -/
  | handler (s : State) (i : Instr) (t : State) (hp : s.pc = .handling)
      (hd : decode (.status s.passSet) = .ok i) (he : exec i s = .next t) : Transition s t
  /-- A phase of the field-1 sequence. -/
  | phase (s : State) (n : F1Step) (hp : s.pc = .f1 n) : Transition s (s.f1Phase n)
  /-- The field-2 step. -/
  | field2 (s : State) (hp : s.pc = .f2) : Transition s s.f2Phase
  /-- A source is raised by the environment. -/
  | raised (s : State) (e : Env) (j : Fin 9) : Transition s ((s.withEnv e).latch j)
  /-- A completion is raised. -/
  | done (s : State) (k : ChanId) : Transition s (s.raiseDone k)
  /-- A channel raises the bus error. -/
  | chanBuserr (s : State) (k : ChanId) : Transition s (s.raiseChanBuserr k)
  /-- A channel performs its moves. -/
  | move (s : State) (k : ChanId) : Transition s (s.performChain k)
  /-- A channel leaves a value in its destination range. -/
  | spoil (s : State) (k : ChanId) (a : U64) (v : Byte) : Transition s (s.spoil k a v)
  /-- The host stores a byte of its own memory. -/
  | hostStore (s : State) (a : U64) (v : Byte) : Transition s (s.storeHost a v)
  /-- A video path stores a byte of card memory. -/
  | cardStore (s : State) (a : U32) (v : Byte) : Transition s (s.storeCard a v)

theorem State.issueCommand_transition {s t : State} {b : BankId} {w : U32} (hb : bankExists s.cfg b = true)
    (h : s.issueCommand b w = .next t) : Transition s t := by
  unfold State.issueCommand at h
  split at h
  · cases h
    exact .note s _ s.env
  · rename_i hp
    split at h
    · rename_i i hd
      exact .command s b w i t hb (by simpa using hp) hd h
    · rename_i e hd
      cases h
      exact .illegal s b w hb (by simpa using hp) e hd

/-- A bank that a register name gives exists. -/
theorem regName_bank {p : Params} {off : Nat} {b : BankId} {o : Nat} (h : regName p off = .bank b o) :
    bankExists p b = true := by
  unfold regName at h
  split at h
  · cases h
  split at h
  · dsimp only at h
    split at h <;> cases h
  split at h
  · dsimp only at h
    split at h
    · rename_i hb
      cases h
      exact hb
    · cases h
  · cases h

theorem State.writeReg_transition {s t : State} {off : Nat} {v : U32} (h : s.writeReg off v = .next t) :
    Transition s t := by
  unfold State.writeReg at h
  split at h
  · cases h
    split
    · exact .enable s _
    · exact .idle s
  · cases h
    exact .idle s
  · rename_i b o hn
    split at h
    · exact State.issueCommand_transition (regName_bank hn) h
    · cases h
      exact .operand s b o v (regName_bank hn)
  · cases h
    exact .idle s

theorem State.hostRead_transition (s : State) (off width : Nat) : Transition s (s.hostRead off width) := by
  unfold State.hostRead
  split
  · exact .look s _
  · exact .note s _ _

theorem State.hostLoad_transition (s : State) (addr : U64) : Transition s (s.hostLoad addr) := by
  rw [State.hostLoad]
  obtain h | h := s.loadHost_snd none addr <;> rw [h] <;> exact .look s _

theorem State.idsStep_transition {s t : State} (h : s.idsStep = .next t) : Transition s t := by
  unfold State.idsStep at h
  split at h
  · rename_i hp
    cases h
    split
    · rename_i hl
      exact .dispatch s hp hl
    · exact .idle s
  · rename_i hp
    unfold State.handleNext at h
    split at h
    · rename_i i hd
      exact .handler s i t hp hd h
    · cases h
  · rename_i n hp
    cases h
    exact .phase s n hp
  · rename_i hp
    cases h
    exact .field2 s hp

theorem State.apply_transition {s t : State} {e : Event} (h : s.apply e = .next t) : Transition s t := by
  cases e <;> simp only [State.apply] at h
  case wr off width v =>
    unfold State.hostWrite at h
    split at h
    · exact State.writeReg_transition h
    · cases h
      exact .note s _ s.env
  case ids => exact State.idsStep_transition h
  all_goals cases h
  case rd off width => exact s.hostRead_transition off width
  case caller b =>
    split
    · rename_i hb
      exact .caller s b hb
    · exact .idle s
  case outvert inp => exact .raised s _ 5
  case done k => exact .done s k
  case buserr => exact .raised s s.env 0
  case chanBuserr k => exact .chanBuserr s k
  case invert n => exact .raised s s.env _
  case wrap => exact .raised s s.env 8
  case timeout b =>
    split
    · rename_i hb
      exact .callerEvent s b _ hb (by simp)
    · exact .idle s
  case signal b =>
    split
    · rename_i hb
      exact .callerEvent s b _ hb (by simp)
    · exact .idle s
  case move k => exact .move s k
  case spoil k a v => exact .spoil s k a v
  case answer a => exact .look s _
  case hostLoad a => exact s.hostLoad_transition a
  case hostStore a v => exact .hostStore s a v
  case cardStore a v => exact .cardStore s a v

theorem State.nextEvent_snd (s : State) : ∃ e, s.nextEvent.2 = s.withEnv e := by
  unfold State.nextEvent
  split
  · exact ⟨_, rfl⟩
  · exact ⟨_, rfl⟩

/-- A step that answers a next state takes one transition, after the next event is taken off the
schedule; the configuration is one that has runs. -/
theorem step_transition {s t : State} (h : step s = .next t) :
    s.cfg.ok = true ∧ ∃ e, Transition (s.withEnv e) t := by
  simp only [step, State.advance] at h
  split at h
  · rename_i hc
    obtain ⟨e, he⟩ := s.nextEvent_snd
    rw [he] at h
    exact ⟨hc, e, State.apply_transition h⟩
  · cases h

/-- The step of a scheduled event, in a configuration that has runs. -/
theorem step_agenda {s : State} {e : Event} {rest : List Event} (hc : s.cfg.ok = true)
    (ha : s.env.agenda = e :: rest) : step s = (s.withEnv { s.env with agenda := rest }).apply e := by
  simp [step, State.advance, hc, State.nextEvent, ha]

/-- The instruction a status word decodes to is its lowest source's handler (R326). -/
theorem decode_status {p : BitVec 9} {i : Instr} (h : decode (.status p) = .ok i) :
    ∃ j : Fin 9, lowestSource p = some j ∧ p.getLsbD j.val = true ∧ i = sourceInstr j := by
  simp only [decode] at h
  split at h
  · rename_i j hj
    cases h
    exact ⟨j, hj, by simpa using List.find?_some hj, rfl⟩
  · cases h

end Sys2Proof.Machine
end

