-- ==== Sys2Proof/Laws/Claims.lean ====
section
/-! SUPPORT. The terms of Sys2Proof/Safety.lean for the model's own updates: what a bank, a channel, a slot
or a record becomes, and what a scheduled step is. -/

namespace Sys2Proof.Machine

theorem Bank.complete_eq_ended (x : Bank) (r : ResultCode) : x.complete r = x.ended r := rfl

theorem MemorySame.refl (s : State) : MemorySame s s := fun _ => ⟨rfl, rfl⟩

theorem MemorySame.of_eq {s t : State} (hh : t.hostMem = s.hostMem) (hc : t.cardMem = s.cardMem) :
    MemorySame s t := fun a => ⟨by rw [hh], by rw [hc]⟩

/-- Bank b of a state written over another state that has the same banks as `s`. -/
theorem bankBecomes_setBank {s u : State} (h : u.banks = s.banks) (b : BankId) (x : Bank) :
    BankBecomes b x s (u.setBank b x) :=
  ⟨by simp, fun b' hb => by rw [State.bank_setBank_ne _ _ hb, State.bank, h, State.bank]⟩

theorem onlyBankBecomes_setBank (s : State) (b : BankId) (x : Bank) : OnlyBankBecomes b x s (s.setBank b x) :=
  ⟨bankBecomes_setBank rfl b x, rfl, MemorySame.refl s⟩

theorem onlyBankBecomes_finish (s : State) (b : BankId) (r : ResultCode) :
    OnlyBankBecomes b ((s.bank b).ended r) s (s.finish b r) := onlyBankBecomes_setBank ..

theorem onlyBankBecomes_hold (s : State) (b : BankId) (o : Op) :
    OnlyBankBecomes b ((s.bank b).waiting o) s (s.hold b o) := onlyBankBecomes_setBank ..

theorem onlyBankBecomes_finishRes0 (s : State) (b : BankId) (v : U64) :
    OnlyBankBecomes b { (s.bank b).ended .ok with res0 := v } s (s.finishRes0 b v) :=
  onlyBankBecomes_setBank ..

theorem bankBecomes_finish {s u : State} (h : u.banks = s.banks) (b : BankId) (r : ResultCode) :
    BankBecomes b ((s.bank b).ended r) s (u.finish b r) := by
  have hb : u.bank b = s.bank b := by rw [State.bank, h, State.bank]
  have := bankBecomes_setBank h b ((s.bank b).ended r)
  rwa [State.finish, hb]

theorem bankBecomes_finishRes0 {s u : State} (h : u.banks = s.banks) (b : BankId) (v : U64) :
    BankBecomes b { (s.bank b).ended .ok with res0 := v } s (u.finishRes0 b v) := by
  have hb : u.bank b = s.bank b := by rw [State.bank, h, State.bank]
  have := bankBecomes_setBank h b { (s.bank b).ended .ok with res0 := v }
  rwa [State.finishRes0, hb]

theorem bankBecomes_hold {s u : State} (h : u.banks = s.banks) (b : BankId) (o : Op) :
    BankBecomes b ((s.bank b).waiting o) s (u.hold b o) := by
  have hb : u.bank b = s.bank b := by rw [State.bank, h, State.bank]
  have := bankBecomes_setBank h b ((s.bank b).waiting o)
  rwa [State.hold, hb]

theorem chanBecomes_setChan {s u : State} (h : u.chans = s.chans) (k : ChanId) (c : Channel) :
    ChanBecomes k c s (u.setChan k c) :=
  ⟨by simp, fun k' hk => by rw [State.chan_setChan_ne _ _ hk, State.chan, h, State.chan]⟩

theorem slotBecomes_setSlot (s : State) (i : SlotIx) (st : SlotState) : SlotBecomes i st s (s.setSlot i st) :=
  ⟨by simp [State.slotState_setSlot], fun j hj => by simp [State.slotState_setSlot, hj]⟩

theorem metaBecomes_setMeta (s : State) (i : SlotIx) (m : Meta) : MetaBecomes i m s (s.setMeta i m) :=
  ⟨by simp [State.metaOf_setMeta], fun j hj => by simp [State.metaOf_setMeta, hj]⟩

theorem faultAdded_raise (s : State) (f : ModelFault) : FaultAdded f s (s.raise f) := fun _ => s.mem_raise f _

/-! ### A scheduled step -/

theorem step_scheduled {s : State} {e : Event} {rest : List Event} (h : Scheduled e rest s) :
    step s = (s.leaving rest).apply e := step_agenda h.1 h.2

theorem bankExists_iff (p : Params) (b : BankId) : bankExists p b = true ↔ b.val < p.numCallers := by
  simp [bankExists]

theorem step_caller {s : State} {b : BankId} {rest : List Event} (h : Scheduled (.caller b) rest s)
    (hb : b.val < s.cfg.numCallers) : step s = .next ((s.leaving rest).callerStep b) := by
  rw [step_scheduled h, State.apply, if_pos]
  exact (bankExists_iff ..).2 hb

theorem step_ids {s : State} {rest : List Event} (h : Scheduled .ids rest s) :
    step s = (s.leaving rest).idsStep := step_scheduled h

theorem step_phase {s : State} {rest : List Event} {n : F1Step} (h : Scheduled .ids rest s) (hp : s.pc = .f1 n) :
    step s = .next ((s.leaving rest).f1Phase n) := by
  rw [step_ids h, State.idsStep]
  simp [State.leaving, hp]

/-- The offset of a bank's CMD register names it (R79). -/
theorem regName_cmd {p : Params} {b : BankId} (hb : b.val < p.numCallers) : regName p (bankBase b) = .bank b 0 := by
  have h1 : ¬ bankBase b < 0x100 := by simp only [bankBase]; omega
  have h2 : ¬ (0x100 ≤ bankBase b ∧ bankBase b < 0x180) := by simp only [bankBase]; omega
  have h3 : 0x1000 ≤ bankBase b ∧ bankBase b < 0x1800 := by simp only [bankBase]; omega
  have h4 : (bankBase b - 0x1000) / 0x100 = b.val := by simp only [bankBase]; omega
  have h5 : (bankBase b - 0x1000) % 0x100 = 0 := by simp only [bankBase]; omega
  rw [regName, if_neg h1, dif_neg h2, dif_pos h3]
  simp only [h4, h5, Fin.eta]
  rw [if_pos ((bankExists_iff ..).2 hb)]

/-- A scheduled write to CMD of a bank that exists is an issue of the word (R108, R109). -/
theorem step_issue {s : State} {b : BankId} {w : U32} {rest : List Event} (h : Scheduled (issue b w) rest s)
    (hb : b.val < s.cfg.numCallers) : step s = (s.leaving rest).issueCommand b w := by
  have ha : accessOk (bankBase b) 32 = true := by
    have : bankBase b % 4 = 0 := by simp only [bankBase]; omega
    simp [accessOk, this]
  rw [step_scheduled h, issue, State.apply, State.hostWrite, if_pos ha, State.writeReg]
  have : regName (s.leaving rest).cfg (bankBase b) = .bank b 0 := regName_cmd hb
  rw [this]
  rfl

end Sys2Proof.Machine
end

