-- ==== Sys2Proof/Laws/Encoding.lean ====
section
/-! SUPPORT. The fields of the command words the encoder writes (30_encoding.md R100, R101), and what the
decoder makes of a word whose reserved fields are zero. -/

namespace Sys2Proof

@[simp] theorem opcOf_commandWord (o s : BitVec 8) (i : BitVec 16) : opcOf (commandWord o s i) = o := by
  apply BitVec.eq_of_getLsbD_eq
  intro n hn
  simp only [opcOf, commandWord, BitVec.getLsbD_extractLsb', BitVec.getLsbD_append]
  simp [hn, show ¬ 24 + n < 16 by omega, show ¬ 24 + n - 16 < 8 by omega, show 24 + n - 16 - 8 = n by omega]

@[simp] theorem subOf_commandWord (o s : BitVec 8) (i : BitVec 16) : subOf (commandWord o s i) = s := by
  apply BitVec.eq_of_getLsbD_eq
  intro n hn
  simp only [subOf, commandWord, BitVec.getLsbD_extractLsb', BitVec.getLsbD_append]
  simp [hn]

@[simp] theorem immOf_commandWord (o s : BitVec 8) (i : BitVec 16) : immOf (commandWord o s i) = i := by
  apply BitVec.eq_of_getLsbD_eq
  intro n hn
  simp only [immOf, commandWord, BitVec.getLsbD_extractLsb', BitVec.getLsbD_append]
  simp [hn]

/-- A word is its three fields. -/
theorem commandWord_fields (w : U32) : commandWord (opcOf w) (subOf w) (immOf w) = w := by
  apply BitVec.eq_of_getLsbD_eq
  intro n hn
  simp only [commandWord, opcOf, subOf, immOf, BitVec.getLsbD_append, BitVec.getLsbD_extractLsb']
  by_cases h1 : n < 16
  · simp [h1]
  · by_cases h2 : n - 16 < 8
    · simp [h1, h2, show 16 + (n - 16) = n by omega]
    · simp [h1, h2, show n - 16 - 8 < 8 by omega, show 24 + (n - 16 - 8) = n by omega]

@[simp] theorem whenReservedZero_ok (z : Bool) (i j : Instr) : whenReservedZero z i = .ok j ↔ z = true ∧ i = j := by
  cases z <;> simp [whenReservedZero]

/-- The decoder on a word given by its fields. -/
theorem noOperands_commandWord (o : BitVec 8) : noOperands (commandWord o 0 0) = true := by
  simp [noOperands]

end Sys2Proof
end

