-- ==== Sys2Proof/Laws/Moves.lean ====
section
/-! SUPPORT. What the data of a transfer can change (40_descriptor_builder.md R148, R166; 20_memory.md R88):
every store, load and move of an agent is `Touches`, said once, and the channel's own marks follow from it. -/

namespace Sys2Proof.Machine

/-- From `s` to `t` only the two memories, the marks `tampered` and the count of draws may change, and the
memories stay in canonical form. -/
structure Touches (s t : State) : Prop where
  frame : t = { s with
    hostMem := t.hostMem, cardMem := t.cardMem, chans := t.chans, env := { s.env with draws := t.env.draws } }
  chan : ∀ k, t.chan k = { s.chan k with tampered := (t.chan k).tampered }
  wf : MemoryInv s → MemoryInv t

theorem Touches.refl (s : State) : Touches s s := ⟨rfl, fun _ => rfl, id⟩

theorem Touches.trans {s t u : State} (h1 : Touches s t) (h2 : Touches t u) : Touches s u where
  frame := h2.frame.trans (by conv_lhs => rw [h1.frame])
  chan k := (h2.chan k).trans (by conv_lhs => rw [h1.chan k])
  wf := h2.wf ∘ h1.wf

theorem Touches.trace {s t : State} (h : Touches s t) : t.env.trace = s.env.trace := by rw [h.frame]
theorem Touches.agenda {s t : State} (h : Touches s t) : t.env.agenda = s.env.agenda := by rw [h.frame]
theorem Touches.cfg {s t : State} (h : Touches s t) : t.cfg = s.cfg := by rw [h.frame]
theorem Touches.go {s t : State} (h : Touches s t) (k : ChanId) : (t.chan k).go = (s.chan k).go := by rw [h.chan]
theorem Touches.moved {s t : State} (h : Touches s t) (k : ChanId) : (t.chan k).moved = (s.chan k).moved := by
  rw [h.chan]

/-- A race is a matter of the transfers alone (R88). -/
theorem Touches.raced {s t : State} (h : Touches s t) (reader : Option ChanId) (dir : Bool) (addr : U64) :
    t.raced reader dir addr = s.raced reader dir addr := by
  unfold State.raced
  congr 1
  funext j
  rw [h.chan j]
  rfl

/-! ### Stores and loads -/

theorem touches_storeHost (s : State) (addr : U64) (v : Byte) : Touches s (s.storeHost addr v) where
  frame := by obtain ⟨cs, h⟩ := s.storeHost_eq addr v; rw [h]
  chan k := by obtain ⟨w, h⟩ := s.chan_storeHost addr v k; rw [h]
  wf h := ⟨by rw [State.storeHost_hostMem]; exact Memory.wf_write h.1 .., by rw [State.storeHost_cardMem]; exact h.2⟩

theorem touches_storeCard (s : State) (addr : U32) (v : Byte) : Touches s (s.storeCard addr v) :=
  ⟨rfl, fun _ => rfl, fun h => ⟨h.1, Memory.wf_write h.2 ..⟩⟩

theorem touches_drawn (s : State) : Touches s (s.drawn s.env.ports) := ⟨rfl, fun _ => rfl, id⟩

theorem touches_loadHost (s : State) (reader : Option ChanId) (addr : U64) :
    Touches s (s.loadHost reader addr).2 := by
  obtain h | h := s.loadHost_snd reader addr <;> rw [h]
  · exact .refl s
  · exact touches_drawn s

theorem touches_loadCard (s : State) (reader : Option ChanId) (addr : U32) :
    Touches s (s.loadCard reader addr).2 := by
  obtain h | h := s.loadCard_snd reader addr <;> rw [h]
  · exact .refl s
  · exact touches_drawn s

theorem touches_storeDestination (s : State) (dir : Bool) (addr : U64) (v : Byte) :
    Touches s (s.storeDestination dir addr v) := by
  unfold State.storeDestination
  split
  · exact touches_storeHost ..
  · exact touches_storeCard ..

/-! ### Moves (R148) -/

theorem touches_copyToHost (k : ChanId) (n : Nat) (h : U64) (c : U32) (s : State) :
    Touches s (State.copyToHost k n h c s) := by
  induction n generalizing h c s with
  | zero => exact .refl s
  | succ n ih => exact ((touches_loadCard s (some k) c).trans (touches_storeHost ..)).trans (ih ..)

theorem touches_copyToCard (k : ChanId) (n : Nat) (h : U64) (c : U32) (s : State) :
    Touches s (State.copyToCard k n h c s) := by
  induction n generalizing h c s with
  | zero => exact .refl s
  | succ n ih => exact ((touches_loadHost s (some k) h).trans (touches_storeCard ..)).trans (ih ..)

theorem touches_doMove (k : ChanId) (s : State) (mv : Move) : Touches s (State.doMove k s mv) := by
  unfold State.doMove
  split
  · exact touches_copyToHost ..
  · exact touches_copyToCard ..

theorem touches_doMoves (k : ChanId) (ms : List Move) (s : State) : Touches s (ms.foldl (State.doMove k) s) := by
  induction ms generalizing s with
  | nil => exact .refl s
  | cons mv ms ih => exact (touches_doMove k s mv).trans (ih _)

theorem touches_countChain (s : State) (k : ChanId) : Touches s (s.countChain k) := by
  unfold State.countChain
  split
  · exact touches_drawn s
  · exact .refl s

/-- The bytes a copy to the host reads are in no race: the destination holds them afterwards, every other byte
of host memory and all of card memory are as before, and no draw is used (R148). -/
theorem copyToHost_spec (k : ChanId) (n : Nat) (h : U64) (c : U32) (s : State) (hwf : s.hostMem.wf = true)
    (hh : h.toNat + n ≤ 2 ^ 64) (hc : c.toNat + n ≤ 2 ^ 32)
    (hr : ∀ i, i < n → s.raced (some k) false (BitVec.ofNat 64 (c.toNat + i)) = false) :
    (State.copyToHost k n h c s).env = s.env ∧ (State.copyToHost k n h c s).cardMem = s.cardMem ∧
      ∀ a, (State.copyToHost k n h c s).hostMem.read a =
        if h.toNat ≤ a ∧ a < h.toNat + n then s.cardMem.read (c.toNat + (a - h.toNat)) else s.hostMem.read a := by
  induction n generalizing h c s with
  | zero => exact ⟨rfl, rfl, fun a => by rw [if_neg (by omega)]; rfl⟩
  | succ n ih =>
    have hc0 : c.setWidth 64 = BitVec.ofNat 64 (c.toNat + 0) := by
      apply BitVec.eq_of_toNat_eq
      simp
    have h0 : s.raced (some k) false (c.setWidth 64) = false := by
      rw [hc0]
      exact hr 0 (by omega)
    have hl := State.loadCard_of_not_raced h0
    have ht := touches_storeHost s h (s.cardMem.read c.toNat)
    rw [State.copyToHost]
    simp only [hl]
    rcases Nat.eq_zero_or_pos n with rfl | hn
    · refine ⟨by rw [State.copyToHost, ht.frame]; obtain ⟨cs, e⟩ := s.storeHost_eq h (s.cardMem.read c.toNat); rw [e],
        by rw [State.copyToHost, State.storeHost_cardMem], fun a => ?_⟩
      rw [State.copyToHost, State.storeHost_hostMem, Memory.read_write hwf]
      by_cases ha : a = h.toNat
      · subst ha
        simp
      · rw [if_neg ha, if_neg (by omega)]
    · have ah : (h + 1).toNat = h.toNat + 1 := by
        rw [BitVec.toNat_add, Nat.mod_eq_of_lt] <;> simp
        omega
      have ac : (c + 1).toNat = c.toNat + 1 := by
        rw [BitVec.toNat_add, Nat.mod_eq_of_lt] <;> simp
        omega
      obtain ⟨e1, e2, e3⟩ := ih (h + 1) (c + 1) (s.storeHost h (s.cardMem.read c.toNat))
        (by rw [State.storeHost_hostMem]; exact Memory.wf_write hwf ..) (by omega) (by omega)
        (fun i hi => by
          rw [ht.raced, ac, Nat.add_assoc, Nat.add_comm 1 i]
          exact hr (i + 1) (by omega))
      refine ⟨e1.trans ?_, e2.trans (State.storeHost_cardMem ..), fun a => ?_⟩
      · obtain ⟨cs, e⟩ := s.storeHost_eq h (s.cardMem.read c.toNat)
        rw [e]
      · rw [e3, State.storeHost_hostMem, State.storeHost_cardMem, Memory.read_write hwf, ah, ac]
        by_cases ha : a = h.toNat
        · subst ha
          rw [if_neg (by omega), if_pos rfl, if_pos (by omega), Nat.sub_self, Nat.add_zero]
        · rw [if_neg ha]
          by_cases hin : h.toNat + 1 ≤ a ∧ a < h.toNat + 1 + n
          · rw [if_pos hin, if_pos (by omega)]
            congr 1
            omega
          · rw [if_neg hin, if_neg (by omega)]

/-- The same of a copy to the card, which leaves the channels as they are too (R148). -/
theorem copyToCard_spec (k : ChanId) (n : Nat) (h : U64) (c : U32) (s : State) (hwf : s.cardMem.wf = true)
    (hh : h.toNat + n ≤ 2 ^ 64) (hc : c.toNat + n ≤ 2 ^ 32)
    (hr : ∀ i, i < n → s.raced (some k) true (BitVec.ofNat 64 (h.toNat + i)) = false) :
    (State.copyToCard k n h c s).env = s.env ∧ (State.copyToCard k n h c s).hostMem = s.hostMem ∧
      (State.copyToCard k n h c s).chans = s.chans ∧
      ∀ a, (State.copyToCard k n h c s).cardMem.read a =
        if c.toNat ≤ a ∧ a < c.toNat + n then s.hostMem.read (h.toNat + (a - c.toNat)) else s.cardMem.read a := by
  induction n generalizing h c s with
  | zero => exact ⟨rfl, rfl, rfl, fun a => by rw [if_neg (by omega)]; rfl⟩
  | succ n ih =>
    have h0 : s.raced (some k) true h = false := by
      have := hr 0 (by omega)
      rwa [Nat.add_zero, BitVec.ofNat_toNat, BitVec.setWidth_eq] at this
    have hl := State.loadHost_of_not_raced h0
    have ht := touches_storeCard s c (s.hostMem.read h.toNat)
    rw [State.copyToCard]
    simp only [hl]
    rcases Nat.eq_zero_or_pos n with rfl | hn
    · refine ⟨rfl, rfl, rfl, fun a => ?_⟩
      rw [State.copyToCard, State.storeCard_write, Memory.read_write hwf]
      by_cases ha : a = c.toNat
      · subst ha
        simp
      · rw [if_neg ha, if_neg (by omega)]
    · have ah : (h + 1).toNat = h.toNat + 1 := by
        rw [BitVec.toNat_add, Nat.mod_eq_of_lt] <;> simp
        omega
      have ac : (c + 1).toNat = c.toNat + 1 := by
        rw [BitVec.toNat_add, Nat.mod_eq_of_lt] <;> simp
        omega
      obtain ⟨e1, e2, e3, e4⟩ := ih (h + 1) (c + 1) (s.storeCard c (s.hostMem.read h.toNat))
        (Memory.wf_write hwf ..) (by omega) (by omega)
        (fun i hi => by
          rw [ht.raced, ah, Nat.add_assoc, Nat.add_comm 1 i]
          exact hr (i + 1) (by omega))
      refine ⟨e1, e2, e3, fun a => ?_⟩
      have hm : (s.storeCard c (s.hostMem.read h.toNat)).hostMem = s.hostMem := rfl
      rw [e4, State.storeCard_write, Memory.read_write hwf, ah, ac, hm]
      by_cases ha : a = c.toNat
      · subst ha
        rw [if_neg (by omega), if_pos rfl, if_pos (by omega), Nat.sub_self, Nat.add_zero]
      · rw [if_neg ha]
        by_cases hin : c.toNat + 1 ≤ a ∧ a < c.toNat + 1 + n
        · rw [if_pos hin, if_pos (by omega)]
          congr 1
          omega
        · rw [if_neg hin, if_neg (by omega)]

/-! ### The channel agents (R166) -/

/-- A channel that performs its moves touches the memories and sets its mark `moved`; otherwise it takes no
step (R166). -/
theorem performChain_spec (s : State) (k : ChanId) :
    (((s.chan k).go = false ∨ (s.chan k).moved = true) ∧ s.performChain k = s) ∨
    ((s.chan k).go = true ∧ (s.chan k).moved = false ∧
      ∃ u, Touches s u ∧ s.performChain k = u.setChan k { u.chan k with moved := true }) := by
  unfold State.performChain
  split
  · rename_i h
    simp only [Bool.and_eq_true, Bool.not_eq_true'] at h
    exact .inr ⟨h.1, h.2, _, (touches_countChain s k).trans (touches_doMoves ..), rfl⟩
  · rename_i h
    simp only [Bool.and_eq_true, Bool.not_eq_true'] at h
    refine .inl ⟨?_, rfl⟩
    cases hg : (s.chan k).go <;> cases hm : (s.chan k).moved <;> simp_all

/-- A byte of the destination takes a value, and the moves are to be done again; or nothing happens (R88). -/
theorem spoil_spec (s : State) (k : ChanId) (addr : U64) (v : Byte) :
    s.spoil k addr v = s ∨
      ∃ u, Touches s u ∧ s.spoil k addr v = u.setChan k { u.chan k with moved := false } := by
  unfold State.spoil
  split
  · exact .inr ⟨_, touches_storeDestination .., rfl⟩
  · exact .inl rfl

/-- Settling is performing the moves, if the transfer has raised its completion (log 10). -/
theorem settle_spec (s : State) (k : ChanId) :
    ((s.chan k).reported = true ∧ s.settle k = s.performChain k) ∨ ((s.chan k).reported = false ∧ s.settle k = s) := by
  unfold State.settle
  split
  · rename_i h
    exact .inl ⟨h, rfl⟩
  · rename_i h
    exact .inr ⟨by simpa using h, rfl⟩

/-- A completion sets its status bit, and for a running transfer its mark; nothing else (R115, R166, R335). -/
theorem raiseDone_spec (s : State) (k : ChanId) :
    s.raiseDone k = s.latch (doneSource k) ∨ s.raiseDone k = s ∨
      s.raiseDone k = (s.setChan k { s.chan k with reported := true }).latch (doneSource k) := by
  unfold State.raiseDone
  split
  · split
    · exact .inr (.inr rfl)
    · exact .inr (.inl rfl)
  · exact .inl rfl

end Sys2Proof.Machine
end

