-- ==== Sys2Proof/Laws/PerInstr.lean ====
section
/-! SUPPORT. The per-instruction family `TableRow`: the word the encoder writes for an instruction matches a
row of the opcode table, and carries exactly the bank the instruction carries. About syntax only. -/

namespace Sys2Proof.Laws

open Sys2Proof.Machine

/-- Masks and words of a command are taken field by field (R100). -/
theorem commandWord_and (o o' s s' : BitVec 8) (i i' : BitVec 16) :
    commandWord o s i &&& commandWord o' s' i' = commandWord (o &&& o') (s &&& s') (i &&& i') := by
  apply BitVec.eq_of_getLsbD_eq
  intro n _
  simp only [commandWord, BitVec.getLsbD_and, BitVec.getLsbD_append]
  by_cases h1 : n < 16
  · simp [h1]
  · by_cases h2 : n - 16 < 8 <;> simp [h1, h2]

/-- INIT's SUB leaves its upper five bits zero (R101). -/
theorem initSub_reserved (cap pb aud : Bool) : initSub cap pb aud &&& 0xF8 = 0 := by
  cases cap <;> cases pb <;> cases aud <;> decide

/-- XFER's SUB leaves bits 6 to 2 zero (R101). -/
theorem xferSub_reserved (dir : Bool) (hint : BitVec 2) :
    (bit1 dir ++ (0 : BitVec 5) ++ hint : BitVec 8) &&& 0x7C = 0 := by
  revert hint; cases dir <;> decide

/-- A command with no operand. -/
theorem plain (o : BitVec 8) (row : U32 × U32) (hm : row ∈ commandRows)
    (h : commandWord o 0 0 &&& row.1 = row.2) :
    ∃ row ∈ commandRows, commandWord o 0 0 &&& row.1 = row.2 := ⟨row, hm, h⟩

/-- A command whose operand is a slot index. -/
theorem slotted (o : BitVec 8) (i : BitVec 16) (hm : (commandWord 0xFF 0xFF 0, commandWord o 0 0) ∈ commandRows) :
    ∃ row ∈ commandRows, commandWord o 0 i &&& row.1 = row.2 :=
  ⟨_, hm, by
    show commandWord o 0 i &&& commandWord 0xFF 0xFF 0 = _
    rw [commandWord_and]
    congr 1
    · exact BitVec.and_allOnes
    · exact BitVec.and_zero⟩

namespace TableRow

/-- A command's word names its own bank and matches a row of the opcode table; a source's status word has
the one bit that names the source, and no bank (R101, R103, R110). -/
def Statement (i : Instr) : Prop :=
  match encode i with
  | .cmd b w => i.bank? = some b ∧ ∃ row ∈ commandRows, w &&& row.1 = row.2
  | .status p => i.bank? = none ∧ ∃ j : Fin 9, p = sourceMask j ∧ sourceInstr j = i

theorem init (b : BankId) (cap pb aud : Bool) (pool : BitVec 8) (nch src : BitVec 4) :
    Statement (.init b cap pb aud pool nch src) :=
  ⟨rfl, (0xFFF80000, 0x01000000), by decide, by
    show commandWord _ _ _ &&& commandWord 0xFF 0xF8 0x0000 = _
    rw [commandWord_and, initSub_reserved, show initImm pool nch src &&& 0x0000 = 0 from BitVec.and_zero]; rfl⟩
theorem start (b : BankId) : Statement (.start b) := ⟨rfl, plain _ (0xFFFFFFFF, 0x02000000) (by decide) (by decide)⟩
theorem stop (b : BankId) : Statement (.stop b) := ⟨rfl, plain _ (0xFFFFFFFF, 0x03000000) (by decide) (by decide)⟩
theorem close (b : BankId) : Statement (.close b) := ⟨rfl, plain _ (0xFFFFFFFF, 0x04000000) (by decide) (by decide)⟩
theorem alloc (b : BankId) : Statement (.alloc b) := ⟨rfl, plain _ (0xFFFFFFFF, 0x10000000) (by decide) (by decide)⟩
theorem free (b : BankId) (i : BitVec 16) : Statement (.free b i) := ⟨rfl, slotted _ i (by decide)⟩
theorem enq (b : BankId) (i : BitVec 16) : Statement (.enq b i) := ⟨rfl, slotted _ i (by decide)⟩
theorem deq (b : BankId) : Statement (.deq b) := ⟨rfl, plain _ (0xFFFFFFFF, 0x13000000) (by decide) (by decide)⟩
theorem depth (b : BankId) : Statement (.depth b) := ⟨rfl, plain _ (0xFFFFFFFF, 0x14000000) (by decide) (by decide)⟩
theorem mdget (b : BankId) (i : BitVec 16) : Statement (.mdget b i) := ⟨rfl, slotted _ i (by decide)⟩
theorem mdset (b : BankId) (i : BitVec 16) : Statement (.mdset b i) := ⟨rfl, slotted _ i (by decide)⟩
theorem setspeed (b : BankId) : Statement (.setspeed b) :=
  ⟨rfl, plain _ (0xFFFFFFFF, 0x20000000) (by decide) (by decide)⟩
theorem getspeed (b : BankId) : Statement (.getspeed b) :=
  ⟨rfl, plain _ (0xFFFFFFFF, 0x21000000) (by decide) (by decide)⟩
theorem settrig (b : BankId) : Statement (.settrig b) :=
  ⟨rfl, plain _ (0xFFFFFFFF, 0x22000000) (by decide) (by decide)⟩
theorem frameid (b : BankId) : Statement (.frameid b) :=
  ⟨rfl, plain _ (0xFFFFFFFF, 0x23000000) (by decide) (by decide)⟩
theorem framerec (b : BankId) : Statement (.framerec b) :=
  ⟨rfl, plain _ (0xFFFFFFFF, 0x24000000) (by decide) (by decide)⟩
theorem waitframe (b : BankId) : Statement (.waitframe b) :=
  ⟨rfl, plain _ (0xFFFFFFFF, 0x25000000) (by decide) (by decide)⟩
theorem drops (b : BankId) : Statement (.drops b) := ⟨rfl, plain _ (0xFFFFFFFF, 0x26000000) (by decide) (by decide)⟩
theorem xfer (b : BankId) (dir : Bool) (hint : BitVec 2) : Statement (.xfer b dir hint) :=
  ⟨rfl, (0xFF7CFFFF, 0x30000000), by decide, by
    show commandWord _ _ _ &&& commandWord 0xFF 0x7C 0xFFFF = _
    rw [commandWord_and, xferSub_reserved]; decide⟩
theorem genset (b : BankId) : Statement (.genset b) := ⟨rfl, plain _ (0xFFFFFFFF, 0x40000000) (by decide) (by decide)⟩
theorem genget (b : BankId) : Statement (.genget b) := ⟨rfl, plain _ (0xFFFFFFFF, 0x41000000) (by decide) (by decide)⟩
theorem genrun (b : BankId) (en : Bool) : Statement (.genrun b en) :=
  ⟨rfl, (0xFFFEFFFF, 0x42000000), by decide, by cases en <;> decide⟩
theorem tcquery (b : BankId) (src : BitVec 3) : Statement (.tcquery b src) :=
  ⟨rfl, (0xFFF8FFFF, 0x43000000), by decide, by revert src; decide⟩
theorem audarm (b : BankId) : Statement (.audarm b) := ⟨rfl, plain _ (0xFFFFFFFF, 0x50000000) (by decide) (by decide)⟩
theorem irqBuserr : Statement .irqBuserr := ⟨rfl, 0, by decide, rfl⟩
theorem irqDone0 : Statement .irqDone0 := ⟨rfl, 1, by decide, rfl⟩
theorem irqDone1 : Statement .irqDone1 := ⟨rfl, 2, by decide, rfl⟩
theorem irqDone2 : Statement .irqDone2 := ⟨rfl, 3, by decide, rfl⟩
theorem irqDone3 : Statement .irqDone3 := ⟨rfl, 4, by decide, rfl⟩
theorem irqOutvert : Statement .irqOutvert := ⟨rfl, 5, by decide, rfl⟩
theorem irqInvert0 : Statement .irqInvert0 := ⟨rfl, 6, by decide, rfl⟩
theorem irqInvert1 : Statement .irqInvert1 := ⟨rfl, 7, by decide, rfl⟩
theorem irqWrap : Statement .irqWrap := ⟨rfl, 8, by decide, rfl⟩

end TableRow

end Sys2Proof.Laws
end

