-- ==== Sys2Proof/Laws/Transfer.lean ====
section
/-! SUPPORT. What each phase of a transfer does, said once (40_descriptor_builder.md R141 to R163): the state
it leaves, as an update of the state it starts from. -/

namespace Sys2Proof.Machine

theorem State.leaving_eq (s : State) (rest : List Event) :
    s.leaving rest = { s with env := { s.env with agenda := rest } } := rfl

@[simp] theorem State.leaving_bank (s : State) (rest : List Event) (b : BankId) : (s.leaving rest).bank b = s.bank b := rfl
@[simp] theorem State.leaving_chan (s : State) (rest : List Event) (k : ChanId) : (s.leaving rest).chan k = s.chan k := rfl
@[simp] theorem State.leaving_cfg (s : State) (rest : List Event) : (s.leaving rest).cfg = s.cfg := rfl

/-- A timestamp writes one entry of the channel's `ts` and uses a draw (R163). -/
theorem State.stampTs_eq (s : State) (k : ChanId) (j : Fin 6) :
    s.stampTs k j =
      { s with
        chans := s.chans.set k.val { s.chan k with ts := (s.chan k).ts.set j.val s.inHostTs.1 }
        env := s.inHostTs.2.env } := rfl

@[simp] theorem State.stampTs_trace (s : State) (k : ChanId) (j : Fin 6) : (s.stampTs k j).env.trace = s.env.trace := rfl
@[simp] theorem State.stampTs_agenda (s : State) (k : ChanId) (j : Fin 6) :
    (s.stampTs k j).env.agenda = s.env.agenda := rfl
@[simp] theorem State.stampTs_bank (s : State) (k : ChanId) (j : Fin 6) (b : BankId) :
    (s.stampTs k j).bank b = s.bank b := rfl

theorem State.stampTs_chan_self (s : State) (k : ChanId) (j : Fin 6) :
    (s.stampTs k j).chan k = { s.chan k with ts := (s.chan k).ts.set j.val s.inHostTs.1 } :=
  State.chan_setChan_self ..

theorem State.stampTs_chan_ne (s : State) {k k' : ChanId} (j : Fin 6) (h : k' ≠ k) :
    (s.stampTs k j).chan k' = s.chan k' := State.chan_setChan_ne _ _ h

/-- The end of the wait X5: the stop is stamped, and the bank moves to X6 with the outcome (R155). -/
theorem State.xferStop_eq (s : State) (b : BankId) (k : ChanId) (r : XferReq) (o : XferOutcome) :
    s.xferStop b k r o =
      { s with
        banks := s.banks.set b.val { s.bank b with op := .xfer (.x6 o) k r }
        chans := s.chans.set k.val { s.chan k with ts := (s.chan k).ts.set 3 s.inHostTs.1 }
        env := s.inHostTs.2.env } := rfl

/-- The bank of a transfer that ends with an outcome: RES0 is the length when OK, and kept otherwise (R162). -/
def Bank.transferred (x : Bank) (r : XferReq) (o : XferOutcome) : Bank :=
  match o with
  | .ok => { x.ended .ok with res0 := r.len }
  | .timeout => x.ended .timeout
  | .interrupted => x.ended .interrupted

/-- The end of a transfer's command writes its bank only (R162). -/
theorem State.xferResult_eq (s : State) (b : BankId) (r : XferReq) (o : XferOutcome) :
    s.xferResult b r o = s.setBank b ((s.bank b).transferred r o) := by
  cases o <;> rfl

/-- A state that differs from `u` in channels and environment differs so from `s`, if `u` does. -/
theorem frame_trans {s u v : State} (h1 : u = { s with chans := u.chans, env := u.env })
    (h2 : v = { u with chans := v.chans, env := v.env }) : v = { s with chans := v.chans, env := v.env } :=
  h2.trans (by conv_lhs => rw [h1])

/-- Two timestamps and two collaborator calls of the cleanup X6, before the channel is released: what the
state in between shares with the one before (R159, R160, R163). -/
theorem State.xferCleanup_spec (s : State) (b : BankId) (k : ChanId) (r : XferReq) (o : XferOutcome) :
    ∃ u : State,
      s.xferCleanup b k r o = (u.setChan k (u.chan k).release).setBank b ((s.bank b).transferred r o) ∧
      u = { s with chans := u.chans, env := u.env } ∧
      u.env.agenda = s.env.agenda ∧
      u.env.trace = s.env.trace ++ [.hmmUnmap (s.chan k).runs, .hmmUnpin (s.chan k).pages r.dir] ∧
      ChanBecomes k { s.chan k with ts := (u.chan k).ts } s u ∧
      (∀ j : Fin 6, j ≠ 4 → j ≠ 5 → (u.chan k).ts[j] = (s.chan k).ts[j]) := by
  obtain ⟨u1, h1⟩ : ∃ u1, u1 = s.stampTs k 4 := ⟨_, rfl⟩
  obtain ⟨u2, h2⟩ : ∃ u2, u2 = (u1.emit (.hmmUnmap (s.chan k).runs)).emit (.hmmUnpin (s.chan k).pages r.dir) := ⟨_, rfl⟩
  have c1 : u1.chan k = { s.chan k with ts := (s.chan k).ts.set 4 s.inHostTs.1 } := by
    rw [h1, State.stampTs_chan_self]; rfl
  have c2 : ∀ k', u2.chan k' = u1.chan k' := fun k' => by rw [h2]; rfl
  have hb : (u2.stampTs k 5).bank b = s.bank b := by rw [State.stampTs_bank, h2, h1]; rfl
  refine ⟨u2.stampTs k 5, ?_, ?_, ?_, ?_, ⟨?_, fun k' hk => ?_⟩, fun j h4 h5 => ?_⟩
  · rw [State.xferCleanup, ← h1, State.xferResult_eq, State.setChan_bank]
    simp only [c1, ← h2, hb]
  · refine frame_trans (u := u2) (frame_trans (u := u1) ?_ ?_) ?_
    · rw [h1, State.stampTs_eq]
    · rw [h2, State.emit, State.emit, State.withEnv, State.withEnv]
    · rw [State.stampTs_eq]
  · rw [State.stampTs_agenda, h2, h1]; rfl
  · rw [State.stampTs_trace, h2, h1]; simp [State.emit, State.withEnv]
  · simp only [State.stampTs_chan_self, c2, c1]
  · rw [State.stampTs_chan_ne _ _ hk, c2, h1, State.stampTs_chan_ne _ _ hk]
  · have q4 : ¬ (4 : Nat) = j.val := fun e => h4 (Fin.ext e.symm)
    have q5 : ¬ (5 : Nat) = j.val := fun e => h5 (Fin.ext e.symm)
    simp only [State.stampTs_chan_self, c2, c1, Fin.getElem_fin]
    rw [Vector.getElem_set_ne _ _ (by exact q5), Vector.getElem_set_ne _ _ (by exact q4)]

/-! ### Which phase a caller's step is (R141) -/

theorem State.callerStep_x2 {s : State} {b : BankId} {k : ChanId} {r : XferReq} (h : (s.bank b).op = .xfer .x2 k r) :
    s.callerStep b = s.xferPin b k r := by rw [State.callerStep, h]

theorem State.callerStep_x3 {s : State} {b : BankId} {k : ChanId} {r : XferReq} (h : (s.bank b).op = .xfer .x3 k r) :
    s.callerStep b = s.xferMap b k r := by rw [State.callerStep, h]

theorem State.callerStep_x4 {s : State} {b : BankId} {k : ChanId} {r : XferReq} (h : (s.bank b).op = .xfer .x4 k r) :
    s.callerStep b = s.xferProgram b k r := by rw [State.callerStep, h]

theorem State.callerStep_x5 {s : State} {b : BankId} {k : ChanId} {r : XferReq} (h : (s.bank b).op = .xfer .x5 k r) :
    s.callerStep b = s.xferWait b k r := by rw [State.callerStep, h]

theorem State.callerStep_x6 {s : State} {b : BankId} {k : ChanId} {r : XferReq} {o : XferOutcome}
    (h : (s.bank b).op = .xfer (.x6 o) k r) : s.callerStep b = s.xferCleanup b k r o := by rw [State.callerStep, h]

end Sys2Proof.Machine
end

