-- ==== Sys2Proof/Tests/Slice0.lean ====
section
/-! SUPPORT. The model's own tests. Expected results come from spec/95_test_vectors.md (a vector's number is
in the comment) or are worked by hand from the rule named; command words are written out from R100, R101 and
R114. The theorems named `witness_…` show that the hypotheses of the statements are met. -/

namespace Sys2Proof.Tests

-- One test at a time: the evaluations are checked one after another, not each in a thread of its own.
set_option Elab.async false

open Sys2Proof.Machine

/-! ### Helpers -/

/-- `s` with the schedule `es`. -/
def given (s : State) (es : List Event) : State := { s with env := { s.env with agenda := es } }

/-- What `f` sees after one step. -/
def seen {α : Type} (f : State → α) (s : State) : Option α :=
  match step s with
  | .next t => some (f t)
  | .fault _ => none
  | .refused _ => none

/-- What `f` sees after one step on the event `e`. -/
def after {α : Type} (s : State) (e : Event) (f : State → α) : Option α := seen f (given s [e])

/-- CSTAT of bank 0 as the host reads it (R79). -/
def cstat0 (t : State) : Nat := (t.readReg 0x1004).toNat

/-- A session as `INIT pb=1, nch=1, pool=4` leaves it (V-E13). -/
def playback : State :=
  { State.reset with session := ⟨true, false, true, false, 1, 4, 0⟩ }

/-- A session as `INIT cap=1, nch=1, pool=4` leaves it (program 2). -/
def capture : State :=
  { State.reset with session := ⟨true, true, false, false, 1, 4, 0⟩ }

/-- The same state with ARG0 of bank 0 set. -/
def withArg0 (s : State) (v : U64) : State := s.setBank 0 { s.bank 0 with arg0 := v }

/-- The same state with an external generator attached. -/
def withExt (s : State) : State := { s with cfg := { s.cfg with extGen := true } }

/-- The same state with an XFER request in bank 0's operands. -/
def withRequest (s : State) (a len co : U64) : State :=
  s.setBank 0 { s.bank 0 with arg0 := a, arg1 := len, arg2 := co }

/-- The same state with the tokens of the channels in `l` held by bank 7. -/
def holding (s : State) (l : List ChanId) : State :=
  l.foldl (fun s k => s.setChan k { s.chan k with token := true, owner := some 7 }) s

/-- The request of V-B6's transfer: card to host, two pages. -/
def request : XferReq := ⟨true, 0, 0x10800, 0x1800, 0x100000⟩

/-- Bank 0's transfer on channel 0 in a phase, with the pages, scatter list and runs given. -/
def transferring (ph : XferPhase) (pages : List PageHandle) (runs : List Run) (go : Bool) : State :=
  let s := State.reset.setChan 0
    { Channel.reset with
      token := true, owner := some 0, pages := pages, sg := scatterList 4096 0x10800 0x1800 pages, runs := runs
      go := go, dir := true, len := 0x1800, card := 0x100000, head := 0x80000000 }
  s.setBank 0 { Bank.reset with pend := true, op := .xfer ph 0 request }

/-- The dispatcher in a phase of the field-1 sequence. -/
def atPhase (s : State) (n : F1Step) : State := given { s with pc := .f1 n } [.ids]

/-- The dispatcher handling a pass. -/
def handling (s : State) (p : BitVec 9) : State := given { s with pc := .handling, passSet := p } [.ids]

/-- Channel 0 going, with a chain of two moves, of four and of eight bytes, in memory (R149). -/
def moving (dir : Bool) : State :=
  let runs : List Run := [⟨0x10000, 4⟩, ⟨0x20000, 8⟩]
  let s := State.reset.setChan 0
    { Channel.reset with
      token := true, owner := some 0, runs := runs, go := true, dir := dir, len := 12, card := 0x100
      head := 0x80000000 }
  { s with
    hostMem := (buildImage s.cfg dir 0x100 runs 0x80000000).mapIdx (fun n v => (0x80000000 + n, v)) |>.filter
      (fun c => decide (c.2 ≠ 0))
    cardMem := [(0x105, 7)] }

/-- The same transfer, which has raised its completion. -/
def reporting (dir : Bool) : State := (moving dir).setChan 0 { (moving dir).chan 0 with reported := true }

/-- The phases of the clock's own steps, with RATE = 7 and RATE = 2. -/
def clockAt (pc : Phase) (rate : BitVec 3) : State :=
  { State.reset with
    pc := pc
    env := { Env.reset with agenda := [.ids], ports := { Ports.unset with rate := Port.atLevel rate } } }

/-! ### Well-formedness and decoding -/

/-- Bank 4 does not exist with NUM_CALLERS = 4 (V-M10). -/
theorem test_wf_refuses_absent_bank : Instr.wf Params.reference (.alloc 4) = false := by decide
theorem test_wf_accepts_last_bank : Instr.wf Params.reference (.alloc 3) = true := by decide
theorem test_wf_accepts_source : Instr.wf Params.reference .irqDone3 = true := by decide

/-- Every command's word, written out from R101 and R103. -/
theorem test_decode_session :
    decode (.cmd 0 0x01020104) = .ok (.init 0 false true false 4 1 0) ∧
    decode (.cmd 0 0x01030240) = .ok (.init 0 true true false 64 2 0) ∧
    decode (.cmd 1 0x01053201) = .ok (.init 1 true false true 1 2 3) ∧
    decode (.cmd 0 0x02000000) = .ok (.start 0) ∧ decode (.cmd 0 0x03000000) = .ok (.stop 0) ∧
    decode (.cmd 0 0x04000000) = .ok (.close 0) ∧ decode (.cmd 0 0x22000000) = .ok (.settrig 0) := by decide
theorem test_decode_pool :
    decode (.cmd 3 0x10000000) = .ok (.alloc 3) ∧ decode (.cmd 0 0x11000002) = .ok (.free 0 2) ∧
    decode (.cmd 0 0x1200FFFF) = .ok (.enq 0 0xFFFF) ∧ decode (.cmd 0 0x13000000) = .ok (.deq 0) ∧
    decode (.cmd 0 0x14000000) = .ok (.depth 0) ∧ decode (.cmd 0 0x15000100) = .ok (.mdget 0 256) ∧
    decode (.cmd 0 0x16000001) = .ok (.mdset 0 1) := by decide
theorem test_decode_clock :
    decode (.cmd 0 0x20000000) = .ok (.setspeed 0) ∧ decode (.cmd 0 0x21000000) = .ok (.getspeed 0) ∧
    decode (.cmd 0 0x23000000) = .ok (.frameid 0) ∧ decode (.cmd 0 0x24000000) = .ok (.framerec 0) ∧
    decode (.cmd 0 0x25000000) = .ok (.waitframe 0) ∧ decode (.cmd 0 0x26000000) = .ok (.drops 0) ∧
    decode (.cmd 0 0x50000000) = .ok (.audarm 0) := by decide
theorem test_decode_transfer :
    decode (.cmd 0 0x30800000) = .ok (.xfer 0 true 0) ∧ decode (.cmd 1 0x30010000) = .ok (.xfer 1 false 1) ∧
    decode (.cmd 0 0x30830000) = .ok (.xfer 0 true 3) := by decide
theorem test_decode_timecode :
    decode (.cmd 0 0x40000000) = .ok (.genset 0) ∧ decode (.cmd 0 0x41000000) = .ok (.genget 0) ∧
    decode (.cmd 0 0x42010000) = .ok (.genrun 0 true) ∧ decode (.cmd 0 0x42000000) = .ok (.genrun 0 false) ∧
    decode (.cmd 0 0x43070000) = .ok (.tcquery 0 7) := by decide
/-- Each status bit alone, and V-I4's word 0x023, whose lowest bit is BUSERR. -/
theorem test_decode_sources :
    decode (.status 0x001) = .ok .irqBuserr ∧ decode (.status 0x002) = .ok .irqDone0 ∧
    decode (.status 0x004) = .ok .irqDone1 ∧ decode (.status 0x008) = .ok .irqDone2 ∧
    decode (.status 0x010) = .ok .irqDone3 ∧ decode (.status 0x020) = .ok .irqOutvert ∧
    decode (.status 0x040) = .ok .irqInvert0 ∧ decode (.status 0x080) = .ok .irqInvert1 ∧
    decode (.status 0x100) = .ok .irqWrap ∧ decode (.status 0x023) = .ok .irqBuserr ∧
    decode (.status 0) = .error .noSource := by decide
/-- V-E1, V-E2. -/
theorem test_decode_illegal :
    decode (.cmd 0 0x00000000) = .error .illegalOpcode ∧
    decode (.cmd 0 0x05000000) = .error .illegalOpcode ∧
    decode (.cmd 0 0x17000000) = .error .illegalOpcode ∧
    decode (.cmd 0 0x27000000) = .error .illegalOpcode ∧
    decode (.cmd 0 0x31000000) = .error .illegalOpcode ∧
    decode (.cmd 0 0x44000000) = .error .illegalOpcode ∧
    decode (.cmd 0 0x51000000) = .error .illegalOpcode ∧
    decode (.cmd 0 0xFF000000) = .error .illegalOpcode := by decide
/-- V-E3 to V-E6, V-E8, V-E9, V-E11. -/
theorem test_decode_reserved :
    decode (.cmd 0 0x10000001) = .error .reservedField ∧
    decode (.cmd 0 0x11010000) = .error .reservedField ∧
    decode (.cmd 0 0x30040000) = .error .reservedField ∧
    decode (.cmd 0 0x30800001) = .error .reservedField ∧
    decode (.cmd 0 0x42020000) = .error .reservedField ∧
    decode (.cmd 0 0x43080000) = .error .reservedField ∧
    decode (.cmd 0 0x01080104) = .error .reservedField := by decide
theorem test_encode :
    encode (.init 0 false true false 4 1 0) = .cmd 0 0x01020104 ∧ encode (.xfer 1 false 1) = .cmd 1 0x30010000 ∧
    encode (.free 2 2) = .cmd 2 0x11000002 ∧ encode .irqWrap = .status 0x100 := by decide
/-- The opcode table's numbering of bits: a status word of 9 bits, a command word of 32. -/
theorem test_decodeTableWord :
    decodeTableWord 16 0x100 = some .irqWrap ∧ decodeTableWord 8 0x001 = some .irqBuserr ∧
    decodeTableWord 32 0x30800000 = some (.xfer 0 true 0) ∧ decodeTableWord 32 0x10000001 = none := by decide

/-! ### The first instruction after reset -/

theorem test_fetch_getspeed :
    seen (fun t => ((t.bank 0).res0, cstat0 t)) (State.reset.withFetchWord 32 0x21000000) = some (1000000, 0) := by
  decide +kernel
theorem test_fetch_wrap :
    seen (fun t => (t.counters.wrap, t.pc)) (State.reset.withFetchWord 16 0x100) = some (1, .idle) := by
  decide +kernel

/-! ### Session commands -/

/-- V-E13. -/
theorem test_init_ok :
    after State.reset (issue 0 0x01020104) (fun t => (t.session, cstat0 t)) =
      some (⟨true, false, true, false, 1, 4, 0⟩, 0) := by decide +kernel
/-- V-E14 to V-E17, V-E19: NCH = 3, NCH = 0, POOL = 0, POOL = 65, SRC = 4. -/
theorem test_init_invalid :
    after State.reset (issue 0 0x01020304) (fun t => (t.session.valid, cstat0 t)) = some (false, 0x30) ∧
    after State.reset (issue 0 0x01020004) cstat0 = some 0x30 ∧
    after State.reset (issue 0 0x01020100) cstat0 = some 0x30 ∧
    after State.reset (issue 0 0x01020141) cstat0 = some 0x30 ∧
    after State.reset (issue 0 0x01024104) cstat0 = some 0x30 := by decide +kernel
/-- V-F11: START waits. -/
theorem test_start_waits :
    after playback (issue 0 0x02000000) (fun t => (t.run.req, cstat0 t)) = some (.run, 1) := by decide +kernel
theorem test_start_without_session :
    after State.reset (issue 0 0x02000000) (fun t => (t.run.req, cstat0 t)) = some (.none, 0x30) := by decide +kernel
/-- Program 5: STOP waits. -/
theorem test_stop_waits :
    after playback (issue 0 0x03000000) (fun t => (t.run.req, cstat0 t)) = some (.stop, 1) := by decide +kernel
/-- Program 5: CLOSE completes at once. -/
theorem test_close_at_once :
    after playback (issue 0 0x04000000) (fun t => (t.run.closePending, t.session.valid, cstat0 t)) =
      some (true, true, 0) := by decide +kernel
/-- V-F9: `frame_id = 10`; ARG0 = 10 is INVALID, ARG0 = 12 arms the trigger. -/
theorem test_settrig_past :
    after (withArg0 { playback with frameId := 10 } 10) (issue 0 0x22000000)
      (fun t => (t.run.trigArmed, cstat0 t)) = some (false, 0x30) := by decide +kernel
theorem test_settrig_ahead :
    after (withArg0 { playback with frameId := 10 } 12) (issue 0 0x22000000)
      (fun t => (t.run.trigArmed, t.run.trigId, cstat0 t)) = some (true, 12, 0) := by decide +kernel

/-! ### Pool commands -/

/-- V-P2: the lowest free slot. -/
theorem test_alloc_lowest :
    after (playback.setSlot 0 .inuse) (issue 0 0x10000000)
      (fun t => ((t.bank 0).res0, t.slotState 1, cstat0 t)) = some (1, .inuse, 0) := by decide +kernel
/-- V-P10: the empty pool. -/
theorem test_alloc_busy :
    after State.reset (issue 0 0x10000000) cstat0 = some 0x10 := by decide +kernel
/-- V-P3. -/
theorem test_free_ok :
    after (playback.setSlot 0 .inuse) (issue 0 0x11000000) (fun t => (t.slotState 0, cstat0 t)) =
      some (.free, 0) := by decide +kernel
/-- V-P7: a queued slot stays queued, with U2. -/
theorem test_free_queued :
    after ((playback.setSlot 0 .queued).setFifo [0] 1) (issue 0 0x11000000)
      (fun t => (t.slotState 0, t.faults, cstat0 t)) = some (.queued, [.u2 0], 0) := by decide +kernel
/-- V-P6: at the tail. -/
theorem test_enq_tail :
    after (((playback.setSlot 0 .queued).setSlot 1 .inuse).setFifo [0] 1) (issue 0 0x12000001)
      (fun t => (t.pool.fifo, t.pool.depth, t.slotState 1)) = some ([0, 1], 2, .queued) := by decide +kernel
/-- V-P8: a free slot is not queued, with U3. -/
theorem test_enq_free :
    after playback (issue 0 0x12000003) (fun t => (t.pool.fifo, t.faults)) = some ([], [.u3 3 .free]) := by
  decide +kernel
/-- V-P5: the head first. -/
theorem test_deq_head :
    after (((playback.setSlot 2 .queued).setSlot 0 .queued).setFifo [2, 0] 2) (issue 0 0x13000000)
      (fun t => ((t.bank 0).res0, t.pool.fifo, t.pool.depth, t.slotState 2)) = some (2, [0], 1, .inuse) := by
  decide +kernel
theorem test_deq_empty : after playback (issue 0 0x13000000) cstat0 = some 0x20 := by decide +kernel
/-- V-P6. -/
theorem test_depth :
    after (playback.setFifo [0, 1, 2] 3) (issue 0 0x14000000) (fun t => (t.bank 0).res0) = some 3 := by decide +kernel
/-- V-P11: the record in bank 1's MDBUF, at 0x1158. -/
theorem test_mdget :
    after (playback.setMeta 0 { Meta.zero with chtag := 1 }) (issue 1 0x15000000) (fun t => t.readReg 0x1158) =
      some 1 := by decide +kernel
/-- V-P4: MDGET of slot 4 of a pool of four. -/
theorem test_mdget_outside : after playback (issue 0 0x15000004) cstat0 = some 0x30 := by decide +kernel
/-- V-P11. -/
theorem test_mdset :
    after (playback.setBank 0 { Bank.reset with mdbuf := { Meta.zero with chtag := 1 } }) (issue 0 0x16000000)
      (fun t => ((t.metaOf 0).chtag, cstat0 t)) = some (1, 0) := by decide +kernel
theorem test_mdset_outside : after playback (issue 0 0x1600FFFF) cstat0 = some 0x30 := by decide +kernel

/-! ### Pacing and frame-clock commands -/

/-- V-A12. -/
theorem test_setspeed_zero :
    after (withArg0 playback 0) (issue 0 0x20000000) (fun t => (t.pacing.speed, cstat0 t)) = some (0, 0) := by
  decide +kernel
theorem test_setspeed_above_max :
    after (withArg0 playback 0x8000000000000000) (issue 0 0x20000000)
      (fun t => (t.pacing.speed, cstat0 t)) = some (1000000, 0x30) := by decide +kernel
/-- V-A13. -/
theorem test_getspeed :
    after playback (issue 0 0x21000000) (fun t => (t.bank 0).res0) = some 0xF4240 := by decide +kernel
/-- V-F8. -/
theorem test_frameid :
    after { State.reset with frameId := 3 } (issue 0 0x23000000) (fun t => (t.bank 0).res0) = some 3 := by
  decide +kernel
/-- V-F7. -/
theorem test_framerec :
    after { State.reset with curFrame := ⟨0, false, 100, 5000⟩ } (issue 0 0x24000000)
      (fun t => ((t.bank 0).res0, (t.bank 0).res1, (t.bank 0).res2, (t.bank 0).res3)) =
      some (0, 0, 100, 5000) := by decide +kernel
/-- Program 5. -/
theorem test_waitframe :
    after State.reset (issue 1 0x25000000) (fun t => (t.readReg 0x1104, (t.bank 1).op)) = some (1, .waitFrame) := by
  decide +kernel
/-- Program 1's last command. -/
theorem test_drops :
    after { State.reset with drops := ⟨1, 4, 0⟩ } (issue 0 0x26000000)
      (fun t => (t.readReg 0x1020, t.readReg 0x1028, t.readReg 0x1030)) = some (1, 4, 0) := by decide +kernel
/-- V-F14, V-F16. -/
theorem test_audarm :
    after (withArg0 State.reset 3) (issue 0 0x50000000) (fun t => (t.audio.count, t.audio.armed, cstat0 t)) =
      some (3, true, 0) := by decide +kernel
theorem test_audarm_too_long :
    after (withArg0 State.reset 0x100000000) (issue 0 0x50000000) (fun t => (t.audio.armed, cstat0 t)) =
      some (false, 0x30) := by decide +kernel

/-! ### Timecode commands and arithmetic -/

/-- V-G8: F2 and VALID cleared, both wires written. -/
theorem test_genset :
    after (withArg0 State.reset 0x06040000) (issue 0 0x40000000) (fun t => (t.gen, t.env.trace, cstat0 t)) =
      some (0x40000, [.wireW1 0x40000, .wireW2 0x40000], 0) := by decide +kernel
/-- V-G10: a dropped label at 29.97. -/
theorem test_genset_dropped_label :
    after (withArg0 { State.reset with tickRate := 3 } 0x01001000) (issue 0 0x40000000)
      (fun t => (t.gen, cstat0 t)) = some (0, 0x30) := by decide +kernel
/-- Program 4: GENGET returns F2 as it stands. -/
theorem test_genget :
    after { State.reset with gen := 0x03001002 } (issue 0 0x41000000) (fun t => (t.bank 0).res0) =
      some 0x03001002 := by decide +kernel
/-- V-F18. -/
theorem test_genrun :
    after (withExt State.reset) (issue 0 0x42010000) (fun t => (t.genRunning, t.env.trace)) =
      some (true, [.extRun true]) := by decide +kernel
theorem test_genrun_off :
    after { State.reset with genRunning := true } (issue 0 0x42000000) (fun t => (t.genRunning, t.env.trace)) =
      some (false, []) := by decide +kernel
/-- V-F17: wire reader 1, cached with VALID set. -/
theorem test_tcquery_wire :
    seen (fun t => ((t.bank 0).res0, t.tcCache.wire1))
      { given State.reset [issue 0 0x43010000] with
        env := { Env.reset with
          agenda := [issue 0 0x43010000], ports := { Ports.unset with wire1 := Port.atLevel 0x00280000 } } } =
      some (0x04280000, 0x04280000) := by decide +kernel
/-- V-F17: an error of the external generator. -/
theorem test_tcquery_deverr :
    seen cstat0
      { withExt State.reset with
        env := { Env.reset with
          agenda := [issue 0 0x43040000], ports := { Ports.unset with extGen := Port.atLevel none } } } =
      some 0x70 := by decide +kernel
/-- V-T1, V-T5, V-T7, V-T8, V-T13, V-T16. -/
theorem test_tcInc :
    tcInc 0x17 0 = 0x40 ∧ tcInc 0x5FBEDD 2 = 0 ∧ tcInc 0x01000EDD 3 = 0x01001002 ∧
    tcInc 0x01009EDD 3 = 0x0100A000 ∧ tcInc 0x01013EDD 6 = 0x01014000 ∧
    tcInc 0xDEADBEEF010420D7 4 = 0xDEADBEEF01042100 := by decide +kernel
/-- V-T6, V-T9, V-T10, V-T15. -/
theorem test_tcDec :
    tcDec 0 0 = 0x5FBED7 ∧ tcDec 0x01001002 3 = 0x01000EDD ∧ tcDec 0x0100A000 3 = 0x01009EDD ∧
    tcDec 0x1D 0 = 0x17 := by decide +kernel
/-- V-G1 to V-G7, V-G11 to V-G14. -/
theorem test_tcLegal :
    tcLegal 0x17 0 = true ∧ tcLegal 0x18 0 = false ∧ tcLegal 0x18 2 = true ∧ tcLegal 0xF00 0 = false ∧
    tcLegal 0x600000 0 = false ∧ tcLegal 0x800000 0 = false ∧ tcLegal 0x08000000 0 = false ∧
    tcLegal 0x01001001 3 = false ∧ tcLegal 0x01001002 3 = true ∧ tcLegal 0x0100A000 3 = true ∧
    tcLegal 0x01001000 2 = true := by decide +kernel

/-! ### Transfers -/

/-- V-X14: the hint is held, so channel 0 is taken. -/
theorem test_xfer_hint_held :
    after (holding (withRequest State.reset 0x10000 8 0) [1]) (issue 0 0x30810000)
      (fun t => ((t.chan 0).token, (t.chan 0).owner, cstat0 t)) = some (true, some 0, 1) := by decide +kernel
/-- V-X2, V-X3, V-X5, V-X8, V-X9, V-X11 and V-X16 as results. -/
theorem test_xfer_results :
    after (withRequest State.reset 0x10000 4 0) (issue 0 0x30800000) cstat0 = some 0x30 ∧
    after (withRequest State.reset 0xFFFFFFFFFFFFFFF8 8 0) (issue 0 0x30800000) cstat0 = some 0x30 ∧
    after (withRequest State.reset 0x10000 0x10008 0) (issue 0 0x30800000) cstat0 = some 0x30 ∧
    after (withRequest State.reset 0x10000 8 0) (issue 0 0x30030000) cstat0 = some 0x30 ∧
    after (withRequest State.reset 0x10000 0x100 0xFFFFFF80) (issue 0 0x30800000) cstat0 = some 0x30 ∧
    after (withRequest State.reset 0x10002 8 0) (issue 0 0x30800000) (fun t => (t.faults, cstat0 t)) =
      some ([.u4 0 0x10002 8], 0x30) ∧
    after (holding (withRequest State.reset 0x10000 8 0) [0, 1, 2]) (issue 0 0x30800000) cstat0 = some 0x10 := by
  decide +kernel
/-- V-X18. -/
theorem test_scatterList :
    pageCount 4096 0x10800 0x1800 = 2 ∧
    scatterList 4096 0x10800 0x1800 [1, 2] = [⟨1, 0x800, 0x800⟩, ⟨2, 0, 0x1000⟩] := by decide +kernel
/-- V-B6: the first two runs merge. -/
theorem test_mergeRuns :
    mergeRuns Params.reference [⟨0x12345800, 0x800⟩, ⟨0x12346000, 0x1000⟩, ⟨0x20000000, 0x10⟩] =
      [⟨0x12345800, 0x1800⟩, ⟨0x20000000, 0x10⟩] := by decide +kernel
/-- V-B5: not across 4 GiB, and A64 in the second record. -/
theorem test_buildChain :
    (buildChain Params.reference true 0x1000 [⟨0xFFFFF000, 0x1000⟩, ⟨0x100000000, 0x1000⟩] 0x80000000).map
      Descriptor.words =
      [[0xFFFFF000, 0, 0x1000, 0x80000400, 0x80000020, 0, 0, 0], [0, 1, 0x2000, 0xC0000400, 0, 0, 0, 0]] := by
  decide +kernel
/-- V-B2: the byte image. -/
theorem test_buildImage :
    (buildImage Params.reference true 0 [⟨0x80000, 0x1000⟩, ⟨0x81000, 0x1000⟩] 0x80000000).take 16 =
      [0, 0, 8, 0, 0, 0, 0, 0, 0, 0, 0, 0, 0, 8, 0, 0x80] := by decide +kernel
/-- V-X21: the channel after X4. -/
theorem test_program :
    seen (fun t => (t.readReg 0x100, t.readReg 0x108, t.readReg 0x10C, t.readReg 0x114))
      (given (transferring .x4 [1, 2] [⟨0x12345800, 0x800⟩, ⟨0x12346000, 0x1000⟩] false) [.caller 0]) =
      some (0x80000000, 0x100000, 0x1800, 3) := by decide +kernel
/-- V-X24: pin fails. -/
theorem test_pin_fails :
    seen (fun t => ((t.chan 0).token, cstat0 t))
      { transferring .x2 [] [] false with
        env := { Env.reset with agenda := [.caller 0], ports := { Ports.unset with pin := Port.atLevel none } } } =
      some (false, 0x30) := by decide +kernel
/-- V-X23: the timeout forces GO off. -/
theorem test_timeout :
    seen (fun t => ((t.chan 0).go, (t.bank 0).op)) (given (transferring .x5 [] [] true) [.timeout 0]) =
      some (false, .xfer (.x6 .timeout) 0 request) := by decide +kernel
/-- V-X22: the completion of a transfer that went well. -/
theorem test_cleanup :
    seen (fun t => ((t.bank 0).res0, (t.chan 0).token, cstat0 t))
      (given (transferring (.x6 .ok) [1, 2] [] false) [.caller 0]) = some (0x1800, false, 0) := by decide +kernel

/-! ### Interrupts -/

/-- V-I4's dispatch step. -/
theorem test_dispatch :
    after { State.reset with irqStatus := 0x123, irqEnable := 0x0FF } .ids
      (fun t => (t.irqStatus, t.passSet, t.pc)) = some (0x100, 0x023, .handling) := by decide +kernel
/-- V-I11: the counter wraps. -/
theorem test_buserr_wraps :
    seen (fun t => (t.counters.buserr, t.passSet, t.pc))
      (handling { State.reset with counters := ⟨0xFFFFFFFF, 0, 0, 0, 0, 0, 0⟩ } 0x021) =
      some (0, 0x020, .handling) := by decide +kernel
/-- V-I4: DONE0 clears GO. -/
theorem test_done0 :
    seen (fun t => ((t.chan 0).go, t.counters.spuriousDone, t.pc)) (handling (transferring .x5 [] [] true) 0x002) =
      some (false, 0, .idle) := by decide +kernel
/-- V-I8: a completion with GO = 0 is spurious. -/
theorem test_done1_done2_spurious :
    seen (fun t => t.counters.spuriousDone) (handling State.reset 0x004) = some 1 ∧
    seen (fun t => t.counters.spuriousDone) (handling State.reset 0x008) = some 1 := by decide +kernel
/-- V-I7: channel 3 does not exist. -/
theorem test_done3_absent :
    seen (fun t => t.counters.spuriousDone) (handling State.reset 0x010) = some 1 := by decide +kernel
/-- V-I9. -/
theorem test_inverts :
    seen (fun t => (t.counters.invert0, t.passSet)) (handling State.reset 0x0C0) = some (1, 0x080) ∧
    seen (fun t => (t.counters.invert1, t.pc)) (handling State.reset 0x080) = some (1, .idle) := by decide +kernel
/-- V-I6. -/
theorem test_wrap : seen (fun t => (t.counters.wrap, t.pc)) (handling State.reset 0x100) = some (1, .idle) := by
  decide +kernel
/-- R217: FIELD = 0 enters the field-1 sequence, FIELD = 1 the field-2 step. -/
theorem test_outvert :
    seen (fun t => t.pc)
      { handling State.reset 0x020 with
        env := { Env.reset with agenda := [.ids], ports := { Ports.unset with field := Port.atLevel false } } } =
      some (.f1 .frameId) ∧
    seen (fun t => t.pc)
      { handling State.reset 0x020 with
        env := { Env.reset with agenda := [.ids], ports := { Ports.unset with field := Port.atLevel true } } } =
      some .f2 := by decide +kernel
/-- R148, R329: a host-to-card transfer that has raised its completion has moved its data when GO is cleared;
a late completion of an earlier transfer clears GO without that (R167). -/
theorem test_done_lands_moves :
    seen (fun t => ((t.chan 0).go, t.cardMem.read 0x105, t.cardMem.read 0x104)) (handling (reporting false) 0x002) =
      some (false, 0, 0) ∧
    seen (fun t => ((t.chan 0).go, t.cardMem.read 0x105)) (handling (moving false) 0x002) = some (false, 7) := by
  decide +kernel
/-- R166: the moves of a card-to-host chain; the byte at card address 0x105 is the second of the second run. -/
theorem test_move :
    after (moving true) (.move 0) (fun t => (t.hostMem.read 0x20001, (t.chan 0).moved, t.cardMem)) =
      some (7, true, [(0x105, 7)]) := by decide +kernel
/-- R88: a byte of the destination takes another value though the moves were done, and they are to be done
again; a byte outside does not. -/
theorem test_spoil :
    after ((moving true).setChan 0 { (moving true).chan 0 with moved := true }) (.spoil 0 0x20001 9)
      (fun t => (t.hostMem.read 0x20001, (t.chan 0).moved)) = some (9, false) ∧
    after (moving true) (.spoil 0 0x20008 9) (fun t => t.hostMem.read 0x20008) = some 0 := by decide +kernel
/-- R88: the range is raced for the host while GO = 1, and not for the channel itself. -/
theorem test_raced :
    (moving true).raced none true 0x20001 = true ∧ (moving true).raced (some 0) true 0x20001 = false ∧
    ((moving true).forceOff 0).raced none true 0x20001 = false := by decide +kernel
/-- R327, R335: an OUTVERT raised during a tick is latched and leaves the tick's inputs as they are. -/
theorem test_outvert_during_tick :
    after (clockAt (.f1 .frameId) 2) (.outvert { rate := 5 }) (fun t => (t.inRate.1, t.irqStatus)) =
      some (2, 0x020) := by decide +kernel
/-- V-I1. -/
theorem test_latch :
    after State.reset (.outvert {}) (fun t => (t.irqStatus, t.irqLine)) = some (0x020, false) := by decide +kernel

/-! ### The tick -/

/-- V-F10: the trigger fires, then STOP is applied. -/
theorem test_boundary_trigger_then_stop :
    seen (fun t => (t.run.running, t.run.trigArmed, t.run.req, (t.bank 0).pend))
      (atPhase
        { (playback.setBank 0 { Bank.reset with pend := true, op := .waitBoundary }) with
          frameId := 12, run := ⟨false, .stop, false, true, 12⟩ } .boundary) =
      some (false, false, .none, false) := by decide +kernel
/-- V-F4: F2 is cleared though the generator does not run. -/
theorem test_generator_clears_f2 :
    seen (fun t => t.gen) (atPhase { State.reset with gen := 0x02000040 } .generator) = some 0x40 := by decide +kernel
/-- V-S1: a drop. -/
theorem test_service_drop :
    seen (fun t => (t.drops, t.pacing.acc))
      (atPhase { playback with frameId := 7, gen := 0x40005, run := ⟨true, .none, false, false, 0⟩ } .service) =
      some (⟨1, 7, 0x40005⟩, 0) := by decide +kernel
/-- V-S3: two slots discarded, slot 2 shown. -/
theorem test_service_discards :
    seen (fun t => (t.pool.fifo, t.outsel[0], t.lastPb[0], t.slotState 0))
      (atPhase
        { (([0, 1, 2, 3, 4] : List SlotIx).foldl (fun s i => s.setSlot i .queued) playback).setFifo
            [0, 1, 2, 3, 4] 5 with
          session := ⟨true, false, true, false, 1, 5, 0⟩
          pacing := ⟨3000000, 0, false, 0⟩
          run := ⟨true, .none, false, false, 0⟩ } .service) =
      some ([3, 4], 2, some 2, .free) := by decide +kernel
/-- V-S7: a tag mismatch on channel 1. -/
theorem test_service_tag :
    seen (fun t => (t.outsel[0], t.outsel[1], t.counters.tagerr, t.slotState 1))
      (atPhase
        { ((playback.setSlot 0 .queued).setSlot 1 .queued).setFifo [0, 1] 2 with
          session := ⟨true, false, true, false, 2, 4, 0⟩
          outsel := #v[9, 9]
          run := ⟨true, .none, false, false, 0⟩ } .service) =
      some (0, 9, 1, .free) := by decide +kernel
/-- V-S14: capture at N = 0 steps the generator back. -/
theorem test_service_capture :
    seen (fun t => (t.gen, t.lastCap[0], (t.metaOf 0).incr, (t.metaOf 0).tc0))
      (atPhase
        { capture with
          pacing := ⟨500000, 0, false, 0⟩, gen := 0x40002, genRunning := true, tickRate := 1
          run := ⟨true, .none, false, false, 0⟩ } .service) =
      some (0x40001, some 0, 0, 0x40001) := by decide +kernel
/-- V-S19: a captured slot is stamped and queued. -/
theorem test_freeing :
    seen (fun t => (t.pool.fifo, t.lastCap[0], (t.metaOf 1).audpos, (t.metaOf 1).tc1, (t.metaOf 1).tc3))
      { ((capture.setSlot 0 .queued).setSlot 1 .inuse).setFifo [0] 1 with
        pc := .f1 .freeing
        lastCap := #v[some 1, none]
        env := { Env.reset with
          agenda := [.ids]
          ports := { Ports.unset with
            audpos := Port.atLevel 0x2000, wire1 := Port.atLevel 0x00280000
            wire2 := Port.atLevel 0x00280001 } } } =
      some ([0, 1], none, 0x2000, 0x04280000, 0) := by decide +kernel
/-- V-F1's wire push, with the generator at 00:00:01:00. -/
theorem test_wire_push :
    seen (fun t => (t.env.trace, t.gen))
      (atPhase { State.reset with gen := 0x40, genRunning := true, tickRate := 2 } .wirePush) =
      some ([.wireW1 0x41, .wireW2 0x41], 0x40) := by decide +kernel
/-- V-F15: the countdown of one frame. -/
theorem test_audio_stop :
    seen (fun t => (t.audio, t.env.trace, t.pc))
      (atPhase { State.reset with audio := ⟨false, false, true, 1⟩ } .audio) =
      some (⟨false, false, false, 0⟩, [.audioStop], .idle) := by decide +kernel
/-- V-F3: the field-2 step. -/
theorem test_field2 :
    seen (fun t => (t.gen, t.frameId, t.pc))
      { State.reset with
        pc := .f2, gen := 0x40, genRunning := true
        env := { Env.reset with agenda := [.ids], ports := { Ports.unset with rate := Port.atLevel 2 } } } =
      some (0x02000040, 0, .idle) := by decide +kernel
/-- V-A4: 1.5x. -/
theorem test_advance :
    (Pacing.advance ⟨1500000, 500000, false, 0⟩).stepCache = 2 ∧
      (Pacing.advance ⟨1500000, 500000, false, 0⟩).acc = 0 := by decide +kernel

/-! ### Registers -/

/-- V-M1, V-M2. -/
theorem test_irq_enable :
    after State.reset (.wr 4 32 0xFFFFFFFF) (fun t => t.readReg 4) = some 0x1FF ∧
    after State.reset (.wr 0 32 0x1FF) (fun t => t.readReg 0) = some 0 := by decide +kernel
/-- V-M3, V-M9, V-M10. -/
theorem test_read_config :
    ({ State.reset with cfg := { Params.reference with hasAudio := false } } : State).readReg 0x40 = 0x00094023 ∧
    State.reset.readReg 0x160 = 0 ∧ State.reset.readReg 0x1404 = 0 := by decide +kernel
/-- V-M5. -/
theorem test_bad_access :
    after State.reset (.wr 2 32 1) (fun t => t.faults) = some [.u9 2 32] ∧
    after State.reset (.rd 0 16) (fun t => t.faults) = some [.u9 0 16] := by decide +kernel
/-- V-M7, V-M8. -/
theorem test_read_halves :
    (State.reset.setBank 0 { Bank.reset with res0 := 0x0000000200000001 }).readReg 0x1024 = 2 ∧
    (State.reset.setBank 0 { Bank.reset with mdbuf := { Meta.zero with tick := 0x1122334455667788 } }).readReg 0x1048 =
      0x55667788 := by decide +kernel
/-- V-M6. -/
theorem test_ldarg :
    ldarg 0 0 0x0000000100000008 = [.wr 0x1008 32 0x00000008, .wr 0x100C 32 0x00000001] := by decide +kernel
/-- V-E23. -/
theorem test_pending_write :
    after (playback.setBank 0 { Bank.reset with pend := true, op := .waitBoundary }) (issue 0 0x10000000)
      (fun t => (t.faults, cstat0 t)) = some ([.u1 0 0x10000000], 1) := by decide +kernel

/-! ### Witnesses: the hypotheses of the statements are met

One theorem per statement with hypotheses; each clause of a statement has its own state. -/

theorem reset_ok : State.reset.cfg.ok = true := by decide +kernel

theorem scheduled_given {s : State} (h : s.cfg.ok = true) (e : Event) (rest : List Event) :
    Scheduled e rest (given s (e :: rest)) := ⟨h, rfl⟩

/-- A step that only latches WRAP. -/
theorem step_wrap {s : State} (h : s.cfg.ok = true) : step (given s [.wrap]) = .next ((given s []).latch 8) :=
  step_scheduled (scheduled_given h .wrap [])

/-- A step of a tick. -/
theorem step_at {s : State} (h : s.cfg.ok = true) (n : F1Step) :
    step (atPhase s n) = .next (((atPhase s n).leaving []).f1Phase n) :=
  step_phase (scheduled_given h .ids []) rfl

theorem witness_DecodesExactlyTableRows : decode (.cmd 7 0xFF7F0000) = .error .illegalOpcode ∧
    decode (.cmd 7 0x1100FFFF) = .ok (.free 7 0xFFFF) := by decide

theorem witness_StepRunsIssuedCommand :
    Scheduled (issue 3 0x10000000) [] (given State.reset [issue 3 0x10000000]) ∧
    (3 : BankId).val < (given State.reset [issue 3 0x10000000]).cfg.numCallers ∧
    ((given State.reset [issue 3 0x10000000]).bank 3).pend = false ∧
    decode (.cmd 3 0x10000000) = .ok (.alloc 3) :=
  ⟨scheduled_given reset_ok _ _, by decide +kernel, by decide +kernel, by decide⟩

theorem witness_StepRunsLowestSource :
    Scheduled .ids [] (handling State.reset 0x120) ∧ (handling State.reset 0x120).pc = .handling ∧
    (handling State.reset 0x120).passSet.getLsbD 5 = true ∧
    ∀ j' : Fin 9, j' < 5 → (handling State.reset 0x120).passSet.getLsbD j'.val = false :=
  ⟨⟨reset_ok, rfl⟩, rfl, by decide +kernel, by decide +kernel⟩

/-- The first clause at OPC 0x00 and at a reserved bit of an assigned opcode (V-E1, V-E5). -/
theorem witness_IllegalWordCompletesIllegal_word :
    Scheduled (issue 0 0x30040000) [] (given State.reset [issue 0 0x30040000]) ∧
    ((given State.reset [issue 0 0x30040000]).bank 0).pend = false ∧
    (commandRows.all fun row => decide (0x30040000 &&& row.1 ≠ row.2)) = true ∧
    (commandRows.all fun row => decide (0x00000000 &&& row.1 ≠ row.2)) = true :=
  ⟨scheduled_given reset_ok _ _, by decide +kernel, by decide +kernel, by decide +kernel⟩

/-- The second clause: XFER with ARG2 = 0x1_0000_0000 (V-E7). -/
theorem witness_IllegalWordCompletesIllegal_arg2 :
    Scheduled (issue 0 0x30800000) [] (given (withRequest State.reset 8 8 0x100000000) [issue 0 0x30800000]) ∧
    ((given (withRequest State.reset 8 8 0x100000000) [issue 0 0x30800000]).bank 0).pend = false ∧
    (0x30800000 : U32) &&& 0xFF7CFFFF = 0x30000000 ∧
    ((given (withRequest State.reset 8 8 0x100000000) [issue 0 0x30800000]).bank 0).arg2.extractLsb' 32 32 ≠ 0 :=
  ⟨scheduled_given reset_ok _ _, by decide +kernel, by decide, by decide +kernel⟩

/-- A bank whose START waits (V-E23). -/
def startWaiting : State := playback.setBank 0 { Bank.reset with pend := true, op := .waitBoundary }

theorem witness_PendingWriteIgnored :
    Scheduled (issue 0 0x10000000) [] (given startWaiting [issue 0 0x10000000]) ∧
    (0 : BankId).val < (given startWaiting [issue 0 0x10000000]).cfg.numCallers ∧
    ((given startWaiting [issue 0 0x10000000]).bank 0).pend = true :=
  ⟨scheduled_given reset_ok _ _, by decide +kernel, by decide +kernel⟩

theorem reference_valid : ConfigValid Params.reference where
  channels := by decide +kernel
  pool := by decide +kernel
  speed := by decide +kernel
  pages := by decide +kernel
  page_pow := ⟨12, by decide +kernel⟩
  page_words := by decide +kernel
  merge := by decide +kernel
  storage := by decide +kernel
  callers := by decide +kernel
  window := by decide +kernel
  aligned := by decide +kernel
  reach := by decide +kernel

/-- Both clauses: nine callers have no runs, the reference configuration has. -/
theorem witness_BadConfigurationRefused :
    ¬ ConfigValid { Params.reference with numCallers := 9 } ∧ ConfigValid State.reset.cfg :=
  ⟨fun h => absurd h.callers.2 (by decide), reference_valid⟩

/-- A tick's inputs, fixed with its OUTVERT. -/
def someInputs : TickInputs := { rate := 2, audpos := 0x2000 }

/-- WRAP dispatched without OUTVERT, OUTVERT with no inputs and with inputs chosen, and no enabled source
(V-I5, V-I1). -/
theorem witness_DispatchStep :
    Scheduled .ids [] (given { State.reset with irqStatus := 0x101, irqEnable := 0x001 } [.ids]) ∧
    (given { State.reset with irqStatus := 0x101, irqEnable := 0x001 } [.ids]).pc = .idle ∧
    (0x101 : BitVec 9) &&& 0x001 ≠ 0 ∧ ((0x101 : BitVec 9) &&& 0x001).getLsbD 5 = false ∧
    ((0x020 : BitVec 9) &&& 0x020).getLsbD 5 = true ∧ State.reset.env.tick = none ∧
    ({ State.reset with env := { Env.reset with tick := some someInputs } } : State).env.tick = some someInputs ∧
    Scheduled .ids [] (given { State.reset with irqStatus := 0x020 } [.ids]) ∧
    (given { State.reset with irqStatus := 0x020 } [.ids]).pc = .idle ∧ (0x020 : BitVec 9) &&& 0 = 0 :=
  ⟨⟨reset_ok, rfl⟩, rfl, by decide, by decide, by decide, rfl, rfl, ⟨reset_ok, rfl⟩, rfl, by decide⟩

/-- One event of each kind; channel 0 going, channel 2 with GO = 0, channel 3 absent. -/
theorem witness_EventsLatch :
    Scheduled (.outvert someInputs) [] (given State.reset [.outvert someInputs]) ∧
    Scheduled .buserr [] (given State.reset [.buserr]) ∧ Scheduled (.invert 0) [] (given State.reset [.invert 0]) ∧
    Scheduled (.invert 1) [] (given State.reset [.invert 1]) ∧ Scheduled .wrap [] (given State.reset [.wrap]) ∧
    Scheduled (.chanBuserr 0) [] (given (transferring .x5 [] [] true) [.chanBuserr 0]) ∧
    Scheduled (.done 0) [] (given (transferring .x5 [] [] true) [.done 0]) ∧
    ((0 : ChanId).val < State.reset.cfg.numXferCh ∧ ((transferring .x5 [] [] true).chan 0).go = true) ∧
    ((2 : ChanId).val < State.reset.cfg.numXferCh ∧ (State.reset.chan 2).go = false) ∧
    State.reset.cfg.numXferCh ≤ (3 : ChanId).val :=
  ⟨scheduled_given reset_ok _ _, scheduled_given reset_ok _ _, scheduled_given reset_ok _ _,
    scheduled_given reset_ok _ _, scheduled_given reset_ok _ _, scheduled_given reset_ok _ _,
    scheduled_given reset_ok _ _, by decide +kernel, by decide +kernel, by decide +kernel⟩

theorem witness_EnableWrite :
    Scheduled (.wr 0x004 32 0xFFFFFFFF) [] (given State.reset [.wr 0x004 32 0xFFFFFFFF]) :=
  scheduled_given reset_ok _ _

/-- The access clauses: an aligned read at 0x040, reads and a write that are not aligned 32-bit accesses
(V-M5). -/
theorem witness_RegisterAccessEffects :
    Scheduled (.rd 0x040 32) [] (given State.reset [.rd 0x040 32]) ∧ 0x040 % 4 = 0 ∧
    Scheduled (.rd 0 16) [] (given State.reset [.rd 0 16]) ∧ ¬ (16 = 32 ∧ 0 % 4 = 0) ∧
    Scheduled (.wr 2 32 1) [] (given State.reset [.wr 2 32 1]) ∧ ¬ (32 = 32 ∧ 2 % 4 = 0) :=
  ⟨scheduled_given reset_ok _ _, by decide, scheduled_given reset_ok _ _, by decide,
    scheduled_given reset_ok _ _, by decide⟩

/-- The write clauses at the last bank's first and last operand words, and at offsets on every side of them
that store nothing: CSTAT, RES0, past MDBUF, bank 4, IRQ_STATUS and the end of the window. -/
theorem witness_RegisterAccessEffects_writes :
    (3 : BankId).val < State.reset.cfg.numCallers ∧
    Scheduled (.wr 0x1308 32 7) [] (given State.reset [.wr 0x1308 32 7]) ∧
    0x1308 = 0x1008 + 0x100 * (3 : BankId).val ∧ 0x131C = 0x101C + 0x100 * (3 : BankId).val ∧
    0x1340 = 0x1040 + 0x100 * (3 : BankId).val + 4 * (0 : Fin 20).val ∧
    0x138C = 0x1040 + 0x100 * (3 : BankId).val + 4 * (19 : Fin 20).val ∧
    ∀ off ∈ [0x000, 0x1304, 0x1320, 0x1390, 0x1404, 0x1408, 0x1800], off % 4 = 0 ∧ off ≠ 0x004 ∧
      ∀ b : BankId, b.val < State.reset.cfg.numCallers →
        ¬ (off = 0x1000 + 0x100 * b.val ∨ (0x1008 + 0x100 * b.val ≤ off ∧ off < 0x1020 + 0x100 * b.val) ∨
          (0x1040 + 0x100 * b.val ≤ off ∧ off < 0x1090 + 0x100 * b.val)) :=
  ⟨by decide +kernel, scheduled_given reset_ok _ _, by decide, by decide, by decide, by decide, by decide +kernel⟩

/-- Channels 2 and 3 are the last that exists and the first that does not; so are banks 3 and 4. The offsets
are the first and last of each range that names no register. -/
theorem witness_RegisterContents :
    State.reset.cfg.ok = true ∧ (2 : ChanId).val < State.reset.cfg.numXferCh ∧
    State.reset.cfg.numXferCh ≤ (3 : ChanId).val ∧ (3 : BankId).val < State.reset.cfg.numCallers ∧
    State.reset.cfg.numCallers ≤ (4 : BankId).val ∧
    (∀ off ∈ [0x00C, 0x03C, 0x044, 0x0FF, 0x180, 0xFFF, 0x1800],
      off ∈ [0x00C, 0x03C] ∨ (0x044 ≤ off ∧ off < 0x100) ∨ (0x180 ≤ off ∧ off < 0x1000) ∨ 0x1800 ≤ off) ∧
    (0x90 ≤ 0x90 ∧ 0xFF < 0x100) := by decide +kernel

/-- A slot of the pool in each of the three states, with the queued one in the ready-FIFO. -/
def threeSlots : State := ((playback.setSlot 1 .inuse).setSlot 3 .queued).setFifo [3] 1

/-- Slot 3 is the last of a pool of four; the pool of no session has no free slot; an empty FIFO and one with
a slot in it. -/
theorem witness_AllocAndDeqTakeSlots :
    (∀ i : SlotIx, i.val < State.reset.session.poolSize.toNat → State.reset.slotState i ≠ .free) ∧
    (3 : SlotIx).val < playback.session.poolSize.toNat ∧ playback.slotState 3 = .free ∧
    playback.pool.fifo = [] ∧ threeSlots.pool.fifo = 3 :: [] := by decide +kernel

theorem witness_FreeAndEnqSlots :
    (3 : SlotIx).val < threeSlots.session.poolSize.toNat ∧ threeSlots.slotState 3 = .queued ∧
    (1 : SlotIx).val < threeSlots.session.poolSize.toNat ∧ threeSlots.slotState 1 = .inuse ∧
    (0 : SlotIx).val < threeSlots.session.poolSize.toNat ∧ threeSlots.slotState 0 = .free := by decide +kernel

/-- Slots 0 and 3 of a pool of four; index 4, index 65535, and any index of an empty pool (V-P4, V-P10). -/
theorem witness_IndexedCommands :
    (0 : SlotIx).val < playback.session.poolSize.toNat ∧ (3 : SlotIx).val < playback.session.poolSize.toNat ∧
    playback.session.poolSize.toNat ≤ (4 : BitVec 16).toNat ∧
    playback.session.poolSize.toNat ≤ (0xFFFF : BitVec 16).toNat ∧
    State.reset.session.poolSize.toNat ≤ (0 : BitVec 16).toNat ∧
    Instr.mdset 0 4 ∈ [Instr.free 0 4, .enq 0 4, .mdget 0 4, .mdset 0 4] := by decide +kernel

/-- POOL = POOL_MAX is accepted, POOL = 65 is not (V-E18, V-E17). -/
theorem witness_InitConfiguresSession :
    (State.reset.run.running = false ∧ State.reset.run.req = .none ∧ ((2 : BitVec 4) = 1 ∨ (2 : BitVec 4) = 2) ∧
      (1 ≤ (64 : BitVec 8).toNat ∧ (64 : BitVec 8).toNat ≤ State.reset.cfg.poolMax) ∧ (3 : BitVec 4).toNat ≤ 3 ∧
      (true = true → State.reset.cfg.hasAudio = true)) ∧
    ¬ (65 : BitVec 8).toNat ≤ State.reset.cfg.poolMax := by decide +kernel

/-- A session, no session, and a session that is closing. -/
theorem witness_RunAndWaitCommands :
    (playback.session.valid = true ∧ playback.run.closePending = false) ∧ State.reset.session.valid = false ∧
    ({ playback with run := ⟨false, .stop, true, false, 0⟩ } : State).run.closePending = true := by decide +kernel

/-- Each operand at the last accepted and the first refused value (V-F9, V-A12, V-F16). -/
theorem witness_RegisterWritingCommands :
    (({ playback with frameId := 10 } : State).frameId.toNat < (11 : U64).toNat) ∧
    ¬ (({ playback with frameId := 10 } : State).frameId.toNat < (10 : U64).toNat) ∧
    (0x7FFFFFFFFFFFFFFF : U64).toNat ≤ playback.cfg.maxSpeed ∧
    ¬ (0x8000000000000000 : U64).toNat ≤ playback.cfg.maxSpeed ∧
    (playback.cfg.hasAudio = true ∧ 1 ≤ (0xFFFFFFFF : U64).toNat ∧ (0xFFFFFFFF : U64).toNat < 2 ^ 32) ∧
    ¬ (0x100000000 : U64).toNat < 2 ^ 32 ∧ ¬ 1 ≤ (0 : U64).toNat := by decide +kernel

/-- The external generator's answer to the next read-back. -/
def answering (s : State) (a : Option TC64) : State :=
  { withExt s with env := { s.env with ports := { s.env.ports with extGen := Port.atLevel a, extLtc := Port.atLevel a } } }

/-- Legal and illegal values at rate 0; no external generator; one that reads the value back with F2 and VALID
set (V-G18), one that differs by a frame (V-G17), and one that errs (V-G19). -/
theorem witness_GensetWritesGenerator :
    tcLegal ((withArg0 State.reset 0x17).bank 0).arg0 (withArg0 State.reset 0x17).tickRate = true ∧
    tcLegal ((withArg0 State.reset 0x18).bank 0).arg0 (withArg0 State.reset 0x18).tickRate = false ∧
    (withArg0 State.reset 0x17).cfg.extGen = false ∧ (answering State.reset none).cfg.extGen = true ∧
    (answering State.reset (some 0x06000017)).callReadGenerator.1 = some 0x06000017 ∧
    (0x06000017 : U64).extractLsb' 0 23 = (0x17 : U64).extractLsb' 0 23 ∧
    (0x06000017 : U64).getLsbD 24 = (0x17 : U64).getLsbD 24 ∧
    (0x06000017 : U64).extractLsb' 32 32 = (0x17 : U64).extractLsb' 32 32 ∧
    (answering State.reset (some 0x16)).callReadGenerator.1 = some 0x16 ∧
    ¬ (0x16 : U64).extractLsb' 0 23 = (0x17 : U64).extractLsb' 0 23 ∧
    (answering State.reset none).callReadGenerator.1 = none := by decide +kernel

theorem witness_TcqueryReadsSource :
    State.reset.cfg.extGen = false ∧ (answering State.reset none).cfg.extGen = true ∧
    (answering State.reset none).callReadExternal.1 = none ∧
    (answering State.reset (some 0x00280002)).callReadExternal.1 = some 0x00280002 ∧
    (answering State.reset none).callReadGenerator.1 = none ∧ 5 ≤ (5 : BitVec 3).toNat ∧
    5 ≤ (7 : BitVec 3).toNat := by decide +kernel

/-- The last length, address and card offset accepted (V-X4, V-X7, V-X10), with the hinted channel free and
with it held (V-X14). -/
theorem witness_XferAcquiresChannel :
    (((withRequest State.reset 0xFFFFFFFFFFFFFFF0 8 0xFFFFFFF8).bank 0).arg2 =
      BitVec.ofNat 64 (0xFFFFFFF8 : U32).toNat) ∧
    (0xFFFFFFFFFFFFFFF0 : U64) ≠ 0 ∧ 8 ≤ (8 : U64).toNat ∧
    (0xFFFFFFFFFFFFFFF0 : U64).toNat + (8 : U64).toNat < 2 ^ 64 ∧
    ((0x10000 : U64).toNat + (0x10000 : U64).toNat - 1) / State.reset.cfg.pageSize -
      (0x10000 : U64).toNat / State.reset.cfg.pageSize + 1 ≤ State.reset.cfg.maxPages ∧
    (2 : BitVec 2).toNat < State.reset.cfg.numXferCh ∧
    (0xFFFFFFF8 : U32).toNat + (8 : U64).toNat ≤ 2 ^ 32 ∧ (0xFFFFFFFFFFFFFFF0 : U64).toNat % 4 = 0 ∧
    (8 : U64).toNat % 4 = 0 ∧
    ((0 : ChanId).val < (holding State.reset [1]).cfg.numXferCh ∧ ((holding State.reset [1]).chan 0).token = false) ∧
    ((holding State.reset [1]).chan (1 : BitVec 2).toFin).token = true ∧
    ((holding State.reset [1]).chan (2 : BitVec 2).toFin).token = false := by decide +kernel

/-- Each rejection at its boundary (V-E7, V-X1 to V-X3, V-X5, V-X8, V-X9, V-X11, V-X12, V-X16). -/
theorem witness_XferRejectsRequest :
    ((withRequest State.reset 8 8 0x100000000).bank 0).arg2.extractLsb' 32 32 ≠ 0 ∧
    (7 : U64).toNat < 8 ∧ 2 ^ 64 ≤ (0xFFFFFFFFFFFFFFF8 : U64).toNat + (8 : U64).toNat ∧
    State.reset.cfg.maxPages <
      ((0x10000 : U64).toNat + (0x10008 : U64).toNat - 1) / State.reset.cfg.pageSize -
        (0x10000 : U64).toNat / State.reset.cfg.pageSize + 1 ∧
    State.reset.cfg.numXferCh ≤ (3 : BitVec 2).toNat ∧
    2 ^ 32 < (0xFFFFFF80 : U32).toNat + (0x84 : U64).toNat ∧
    (0x10002 : U64).toNat % 4 ≠ 0 ∧ (10 : U64).toNat % 4 ≠ 0 ∧
    ∀ k : ChanId, k.val < (holding State.reset [0, 1, 2]).cfg.numXferCh →
      ((holding State.reset [0, 1, 2]).chan k).token = true := by decide +kernel

/-- A transfer in X2 whose pin fails, and one whose pin succeeds. -/
def pinning (a : Option (List PageHandle)) : State :=
  { transferring .x2 [] [] false with
    env := { Env.reset with agenda := [.caller 0], ports := { Ports.unset with pin := Port.atLevel a } } }

theorem witness_TransferPins :
    Scheduled (.caller 0) [] (pinning none) ∧ (0 : BankId).val < (pinning none).cfg.numCallers ∧
    ((pinning none).bank 0).op = .xfer .x2 0 request ∧
    2 = (request.addr.toNat + request.len.toNat - 1) / (pinning none).cfg.pageSize -
      request.addr.toNat / (pinning none).cfg.pageSize + 1 ∧
    ((pinning none).callPin request.addr 0x10 2).1 = none ∧
    ((pinning (some [1, 2])).callPin request.addr 0x10 2).1 = some [1, 2] :=
  ⟨⟨reset_ok, rfl⟩, by decide +kernel, by decide +kernel, by decide +kernel, by decide +kernel, by decide +kernel⟩

/-- V-X18 and a buffer of one byte at the end of a page. -/
theorem witness_ScatterListCoversBuffer :
    1 ≤ (0x1800 : U64).toNat ∧
    [1, 2].length = ((0x10800 : U64).toNat + (0x1800 : U64).toNat - 1) / 2 ^ 12 - (0x10800 : U64).toNat / 2 ^ 12 + 1 ∧
    1 ≤ (1 : U64).toNat ∧
    [1].length = ((0xFFF : U64).toNat + (1 : U64).toNat - 1) / 2 ^ 12 - (0xFFF : U64).toNat / 2 ^ 12 + 1 := by
  decide +kernel

/-- A transfer in X3 whose mapping is `runs`. -/
def mapping (runs : List Run) : State :=
  { transferring .x3 [1, 2] [] false with
    env := { Env.reset with agenda := [.caller 0], ports := { Ports.unset with map := Port.atLevel runs } } }

/-- No run (V-X25), runs that keep the contract, and runs that are eight bytes short (V-X26). -/
theorem witness_TransferMaps :
    Scheduled (.caller 0) [] (mapping []) ∧ (0 : BankId).val < (mapping []).cfg.numCallers ∧
    ((mapping []).bank 0).op = .xfer .x3 0 request ∧
    2 = (request.addr.toNat + request.len.toNat - 1) / (mapping []).cfg.pageSize -
      request.addr.toNat / (mapping []).cfg.pageSize + 1 ∧
    ((mapping []).callMap ((mapping []).chan 0).sg request.dir).1 = [] ∧
    ((mapping [⟨0x5000, 0x1800⟩]).callMap ((mapping []).chan 0).sg request.dir).1 = [⟨0x5000, 0x1800⟩] ∧
    (([⟨0x5000, 0x1800⟩] : List Run).map (·.len.toNat)).sum = request.len.toNat ∧
    (([⟨0x5000, 0x17F8⟩] : List Run).map (·.len.toNat)).sum ≠ request.len.toNat :=
  ⟨⟨reset_ok, rfl⟩, by decide +kernel, by decide +kernel, by decide +kernel, by decide +kernel, by decide +kernel,
    by decide +kernel, by decide +kernel⟩

/-- Two runs that do not merge across 4 GiB (V-B5), two that do (V-B6), and merging switched off. -/
theorem witness_MergeIsExact :
    (([⟨0xFFFFF000, 0x1000⟩, ⟨0x100000000, 0x1000⟩] : List Run).map (·.len.toNat)).sum < 2 ^ 64 ∧
    (Params.reference.mergeEnable = true ∧
      ∀ r ∈ ([⟨0xFFFFF000, 0x1000⟩, ⟨0x100000000, 0x1000⟩] : List Run),
        0 < r.len.toNat ∧ r.bus.toNat + r.len.toNat < 2 ^ 64) ∧
    (mergeRuns Params.reference [⟨0xFFFFF000, 0x1000⟩, ⟨0x100000000, 0x1000⟩])[0 + 1]? =
      some ⟨0x100000000, 0x1000⟩ ∧
    (⟨0x12345800, 0x1800⟩ : Run) ∈ mergeRuns Params.reference [⟨0x12345800, 0x800⟩, ⟨0x12346000, 0x1000⟩] ∧
    ({ Params.reference with mergeEnable := false } : Params).mergeEnable = false := by
  decide +kernel

/-- A transfer in X4 with V-B6's first two runs. -/
def programming : State :=
  given (transferring .x4 [1, 2] [⟨0x12345800, 0x800⟩, ⟨0x12346000, 0x1000⟩] false) [.caller 0]

theorem witness_TransferPrograms :
    Scheduled (.caller 0) [] programming ∧ (0 : BankId).val < programming.cfg.numCallers ∧
    (programming.bank 0).op = .xfer .x4 0 request ∧ (0 : ChanId).val < programming.cfg.numXferCh ∧
    MemoryInv programming ∧ 0x80000000 = programming.cfg.descBase[(0 : ChanId)] ∧
    [⟨0x12345800, 0x1800⟩] = mergeRuns programming.cfg (programming.chan 0).runs ∧
    [(⟨0x12345800, 0x1800⟩ : Run)].length ≤ programming.cfg.descCap :=
  ⟨⟨reset_ok, rfl⟩, by decide +kernel, by decide +kernel, by decide +kernel, ⟨rfl, rfl⟩, by decide +kernel,
    by decide +kernel, by decide +kernel⟩

theorem witness_ChainDenotesMergedRuns :
    [(⟨0x12345800, 0x1800⟩ : Run)] ≠ [] ∧
    (∀ x ∈ [(⟨0x12345800, 0x1800⟩ : Run)], x.len.toNat % 4 = 0 ∧ x.len.toNat < 2 ^ 32) ∧
    ∀ a : U64, ¬ Raced programming (some 0) true a := by
  have h : ∀ j, (programming.chan j).go = false := by decide +kernel
  refine ⟨by decide, by decide +kernel, ?_⟩
  rintro a ⟨j, _, hg, _⟩
  rw [h j] at hg
  cases hg

/-- The moves of that chain (R148). -/
def movingMoves (dir : Bool) : List Move := [⟨0x10000, 0x100, 4, dir⟩, ⟨0x20000, 0x104, 8, dir⟩]

theorem moving_alone (d dir : Bool) (a : U64) : ¬ Raced (moving d) (some 0) dir a := by
  have h : ∀ (d : Bool) (j : ChanId), j ≠ 0 → ((moving d).chan j).go = false := by decide +kernel
  rintro ⟨j, hj, hg, _⟩
  rw [h d j fun e => hj (by rw [e])] at hg
  cases hg

/-- Both directions; GO clear; and moves done already. -/
theorem witness_ChannelMovesData (d : Bool) :
    Scheduled (.move 0) [] (given (moving d) [.move 0]) ∧ ((moving d).chan 0).go = true ∧
    ((moving d).chan 0).moved = false ∧ (moving d).chainFree 0 = false ∧ movingMoves d = (moving d).chainOf 0 ∧
    MemoryInv (moving d) ∧
    (∀ mv ∈ movingMoves d, mv.dir = d ∧ mv.host.toNat + mv.bytes ≤ 2 ^ 64 ∧ mv.card.toNat + mv.bytes ≤ 2 ^ 32) ∧
    (movingMoves d).Pairwise Move.hostApart ∧ (movingMoves d).Pairwise Move.cardApart ∧
    (∀ dir a, ¬ Raced (moving d) (some 0) dir a) ∧ (State.reset.chan 0).go = false := by
  refine ⟨⟨reset_ok, rfl⟩, ?_, ?_, ?_, ?_, ⟨?_, ?_⟩, ?_, ?_, ?_, moving_alone d, by decide +kernel⟩
  case refine_8 => simp [movingMoves, Move.hostApart]
  case refine_9 => simp [movingMoves, Move.cardApart]
  all_goals revert d; decide +kernel

/-- The first and last bytes of the destination, and the bytes beside it. -/
theorem witness_DestinationIsRaced :
    Scheduled (.hostLoad 0x10000) [] (given (moving true) [.hostLoad 0x10000]) ∧
    Scheduled (.spoil 0 0x20007 9) [] (given (moving true) [.spoil 0 0x20007 9]) ∧
    Scheduled (.spoil 0 0x10B 9) [] (given (moving false) [.spoil 0 0x10B 9]) ∧
    Raced (moving true) none true 0x10000 ∧ Raced (moving true) (some 1) true 0x20007 ∧
    ¬ Raced (moving true) none true 0x10004 ∧ ¬ Raced (moving true) none true 0x20008 ∧
    Raced (moving false) (some 1) false 0x100 ∧ Raced (moving false) none false 0x10B ∧
    ¬ Raced (moving false) none false 0x10C ∧ MemoryInv (moving true) ∧ MemoryInv (moving false) := by
  refine ⟨⟨reset_ok, rfl⟩, ⟨reset_ok, rfl⟩, ⟨reset_ok, rfl⟩, ⟨0, ?_⟩, ⟨0, ?_⟩, ?_, ?_, ⟨0, ?_⟩, ⟨0, ?_⟩, ?_, ⟨?_, ?_⟩,
    ⟨?_, ?_⟩⟩ <;> first | decide +kernel | (unfold Raced; decide +kernel)

/-- X5 with GO = 1 and with GO = 0, and X6. -/
theorem witness_TransferWaitsAndCompletes :
    Scheduled (.caller 0) [] (given (transferring .x5 [] [] true) [.caller 0]) ∧
    (0 : BankId).val < (given (transferring .x5 [] [] true) [.caller 0]).cfg.numCallers ∧
    ((transferring .x5 [] [] true).bank 0).op = .xfer .x5 0 request ∧
    ((transferring .x5 [] [] true).chan 0).go = true ∧ ((transferring .x5 [] [] false).chan 0).go = false ∧
    ((transferring (.x6 .timeout) [1] [] false).bank 0).op = .xfer (.x6 .timeout) 0 request :=
  ⟨⟨reset_ok, rfl⟩, by decide +kernel, by decide +kernel, by decide +kernel, by decide +kernel, by decide +kernel⟩

/-- A frame wait, a transfer wait that GO holds, and one that it does not hold any more. -/
theorem witness_CallerEvents :
    Scheduled (.signal 0) [] (given (transferring .x5 [] [] true) [.signal 0]) ∧
    (Event.signal 0, XferOutcome.interrupted, ResultCode.interrupted) ∈
      [(Event.timeout 0, XferOutcome.timeout, ResultCode.timeout), (.signal 0, .interrupted, .interrupted)] ∧
    ((State.reset.setBank 0 { Bank.reset with pend := true, op := .waitFrame }).bank 0).op = .waitFrame ∧
    ((transferring .x5 [] [] true).bank 0).op = .xfer .x5 0 request ∧
    ((transferring .x5 [] [] true).chan 0).go = true ∧
    ((transferring .x5 [] [] false).bank 0).op ≠ .waitFrame ∧ ((transferring .x5 [] [] false).chan 0).go = false :=
  ⟨⟨reset_ok, rfl⟩, by decide, by decide +kernel, by decide +kernel, by decide +kernel, by decide +kernel,
    by decide +kernel⟩

/-- Channel 0 going, with its completion raised or not; channel 3, which does not exist, and channel 2 with
GO = 0 (V-I7, V-I8). -/
theorem witness_DoneHandlers :
    ((0 : ChanId).val < State.reset.cfg.numXferCh ∧ ((moving false).chan 0).go = true) ∧
    ((moving false).chan 0).reported = false ∧ ((moving false).chan 0).moved = false ∧
    ((reporting false).chan 0).reported = true ∧ ((reporting false).chan 0).moved = false ∧
    ¬ ((3 : ChanId).val < State.reset.cfg.numXferCh ∧ (State.reset.chan 3).go = true) ∧
    ¬ ((2 : ChanId).val < State.reset.cfg.numXferCh ∧ (State.reset.chan 2).go = true) := by decide +kernel

/-- ALLOC on an empty pool is turned away (V-P10). -/
theorem witness_RejectionBeforeMutation :
    (Instr.alloc 0).bank? = some 0 ∧ exec (.alloc 0) State.reset = .next (State.reset.finish 0 .busy) ∧
    ((State.reset.finish 0 .busy).bank 0).pend = false ∧
    ((State.reset.finish 0 .busy).bank 0).result ∈ [ResultCode.illegal, .invalid, .busy, .empty] := by
  refine ⟨rfl, ?_, by decide +kernel, by decide +kernel⟩
  have h : State.reset.allocSlot = (none, State.reset) := by
    have hf : State.reset.freeSlots = [] := by decide +kernel
    simp only [State.allocSlot, hf]
  simp only [exec, execAlloc, h]

/-- The trigger of frame 12 fires at frame 12 and at no other (V-F9). -/
def atBoundary (frame : U64) : State :=
  atPhase { playback with frameId := frame, run := ⟨false, .none, false, true, 12⟩ } .boundary

theorem witness_FieldOneBoundary :
    Scheduled .ids [] (atBoundary 12) ∧ (atBoundary 12).pc = .f1 .boundary ∧
    ((atBoundary 12).run.trigArmed = true ∧ (atBoundary 12).run.trigId = (atBoundary 12).frameId) ∧
    ¬ ((atBoundary 11).run.trigArmed = true ∧ (atBoundary 11).run.trigId = (atBoundary 11).frameId) :=
  ⟨⟨reset_ok, rfl⟩, rfl, by decide +kernel, by decide +kernel⟩

/-- F1(1) changes the frame id. -/
theorem witness_ClockRegisterWriters :
    step (atPhase State.reset .frameId) =
      .next (((atPhase State.reset .frameId).leaving []).f1Phase .frameId) ∧
    (((atPhase State.reset .frameId).leaving []).f1Phase .frameId).frameId ≠ (atPhase State.reset .frameId).frameId := by
  refine ⟨step_at reset_ok _, ?_⟩
  have h : (((atPhase State.reset .frameId).leaving []).f1Phase .frameId).frameId = 1 := by
    simp only [State.f1Phase, State.stepFrameId, State.sampleRate, State.goto]
    split <;> rfl
  rw [h]
  decide

/-- A phase of a tick, and the handling of WRAP. -/
theorem witness_TickLeavesChannels :
    Scheduled .ids [] (atPhase playback .wirePush) ∧
    step (atPhase playback .wirePush) = .next (((atPhase playback .wirePush).leaving []).f1Phase .wirePush) ∧
    (atPhase playback .wirePush).pc ≠ .handling ∧ (handling State.reset 0x100).pc = .handling ∧
    (¬ (1 ≤ (8 : Fin 9).val ∧ (8 : Fin 9).val ≤ 4) ∧ (handling State.reset 0x100).passSet.getLsbD 8 = true ∧
      ∀ j' : Fin 9, j' < 8 → (handling State.reset 0x100).passSet.getLsbD j'.val = false) :=
  ⟨⟨reset_ok, rfl⟩, step_at (s := playback) reset_ok _, by decide, rfl, by decide +kernel⟩

theorem witness_ClockSteps :
    Scheduled .ids [] (clockAt (.f1 .frameId) 7) ∧ (clockAt (.f1 .frameId) 7).pc = .f1 .frameId ∧
    ((clockAt (.f1 .frameId) 7).leaving []).inRate.1 = 7 ∧ ((clockAt (.f1 .frameId) 2).leaving []).inRate.1 ≠ 7 ∧
    Scheduled .ids [] (clockAt (.f1 .generator) 2) ∧ Scheduled .ids [] (clockAt (.f1 .snapshot) 2) ∧
    Scheduled .ids [] (clockAt .f2 7) ∧ ((clockAt .f2 7).leaving []).inRate.1 = 7 ∧
    ((clockAt .f2 2).leaving []).inRate.1 ≠ 7 :=
  ⟨⟨reset_ok, rfl⟩, rfl, by decide +kernel, by decide +kernel, ⟨reset_ok, rfl⟩, ⟨reset_ok, rfl⟩, ⟨reset_ok, rfl⟩,
    by decide +kernel, by decide +kernel⟩

/-- Slots 1 and 3 of `threeSlots`, INUSE and QUEUED, as the slots played or captured. -/
def recorded (i : SlotIx) : State := { threeSlots with lastPb := #v[some i, none], lastCap := #v[some i, none] }

theorem witness_FreeingStep :
    Scheduled .ids [] (atPhase (recorded 1) .freeing) ∧ (atPhase (recorded 1) .freeing).pc = .f1 .freeing ∧
    (recorded 1).lastPb[(0 : VidChan)] = some 1 ∧ (recorded 1).lastCap[(0 : VidChan)] = some 1 ∧
    (recorded 1).slotState 1 = .inuse ∧ (recorded 3).lastPb[(0 : VidChan)] = some 3 ∧
    (recorded 3).slotState 3 = .queued ∧ (recorded 3).lastPb[(1 : VidChan)] = none ∧
    (recorded 3).lastCap[(1 : VidChan)] = none :=
  ⟨⟨reset_ok, rfl⟩, rfl, by decide +kernel, by decide +kernel, by decide +kernel, by decide +kernel,
    by decide +kernel, by decide +kernel, by decide +kernel⟩

/-- Every phase named, and a countdown at 0, 1 and 2. -/
theorem witness_TickOutputSteps :
    (∀ n, Scheduled .ids [] (atPhase playback n) ∧ (atPhase playback n).pc = .f1 n) ∧
    (0 : U32) = (if (0 : U32) = 0 then 0 else 0 - 1) ∧ (0 : U32) = (if (1 : U32) = 0 then 0 else 1 - 1) ∧
    (1 : U32) = (if (2 : U32) = 0 then 0 else 2 - 1) := ⟨fun _ => ⟨⟨reset_ok, rfl⟩, rfl⟩, by decide⟩

/-- V-S1 and V-S10. -/
theorem witness_DropAccounting :
    Scheduled .ids [] (atPhase { playback with run := ⟨true, .none, false, false, 0⟩ } .service) ∧
    (playback.session.valid = true ∧ playback.pool.depth.toNat < playback.session.nch.toNat) ∧
    (capture.session.flagCap = true ∧
      (capture.setFifo [0, 1, 2] 3).session.poolSize.toNat - (capture.setFifo [0, 1, 2] 3).pool.depth.toNat ≤
        (capture.setFifo [0, 1, 2] 3).session.nch.toNat) :=
  ⟨⟨reset_ok, rfl⟩, by decide +kernel, by decide +kernel⟩

/-- Two queued slots at 3x: V-S4. -/
def twoQueued : State :=
  { ((playback.setSlot 0 .queued).setSlot 1 .queued).setFifo [0, 1] 2 with pacing := ⟨3000000, 0, false, 0⟩ }

theorem twoQueued_inv : PoolInv twoQueued where
  depth_eq := by decide +kernel
  nodup := by decide +kernel
  queued_iff := by decide +kernel
  outside_free := by decide +kernel
  lastPb_lt := by decide +kernel
  lastCap_lt := by decide +kernel

/-- One channel at 3x; hold at speed 0; a tick that has paced; no flag and too few slots (V-S1, V-S4). -/
theorem witness_PlaybackTick_one :
    PoolInv twoQueued ∧ twoQueued.session.flagPb = true ∧ 1 = twoQueued.session.nch.toNat ∧
    1 ≤ twoQueued.pool.fifo.length ∧ PaceGives twoQueued 3 ⟨3000000, 0, true, 3⟩ ∧
    twoQueued.pool.fifo.drop (min (3 - 1) (twoQueued.pool.fifo.length - 1)) = 1 :: [] ∧
    (twoQueued.metaOf 1).chtag = 0 ∧
    PaceGives { twoQueued with pacing := ⟨0, 0, false, 0⟩ } 0 ⟨0, 0, true, 0⟩ ∧
    PaceGives { twoQueued with pacing := ⟨7, 5, true, 4⟩ } 4 ⟨7, 5, true, 4⟩ ∧
    State.reset.session.flagPb = false ∧ playback.pool.depth.toNat < playback.session.nch.toNat :=
  ⟨twoQueued_inv, by decide +kernel, by decide +kernel, by decide +kernel, ⟨rfl, rfl⟩, by decide +kernel,
    by decide +kernel, ⟨rfl, rfl⟩, ⟨rfl, rfl⟩, by decide +kernel, by decide +kernel⟩

/-- Two channels at 1x: both tags match, the second does not, the first does not (V-S7). -/
def twoChannels (t0 t1 : U32) : State :=
  (({ twoQueued with session := ⟨true, false, true, false, 2, 4, 0⟩, pacing := ⟨1000000, 0, false, 0⟩ } : State).setMeta
    0 { Meta.zero with chtag := t0 }).setMeta 1 { Meta.zero with chtag := t1 }

theorem witness_PlaybackTick_two :
    PoolInv (twoChannels 0 1) ∧ (twoChannels 0 1).session.flagPb = true ∧
    2 = (twoChannels 0 1).session.nch.toNat ∧ 2 ≤ (twoChannels 0 1).pool.fifo.length ∧
    PaceGives (twoChannels 0 1) 1 ⟨1000000, 0, true, 1⟩ ∧
    (twoChannels 0 1).pool.fifo.drop (min (1 - 1) ((twoChannels 0 1).pool.fifo.length - 2)) = 0 :: 1 :: [] ∧
    ((twoChannels 0 1).metaOf 0).chtag = 0 ∧ ((twoChannels 0 1).metaOf 1).chtag = 1 ∧
    ((twoChannels 0 0).metaOf 1).chtag ≠ 1 ∧ ((twoChannels 1 0).metaOf 0).chtag ≠ 0 ∧
    Scheduled .ids [] (atPhase (twoChannels 0 1) .service) :=
  ⟨⟨by decide +kernel, by decide +kernel, by decide +kernel, by decide +kernel, by decide +kernel,
      by decide +kernel⟩, by decide +kernel, by decide +kernel, by decide +kernel, ⟨rfl, rfl⟩, by decide +kernel,
    by decide +kernel, by decide +kernel, by decide +kernel, by decide +kernel, ⟨reset_ok, rfl⟩⟩

/-- A capture session of four slots with the slots `l` INUSE, at half speed (V-S14). -/
def capturing (nch : BitVec 2) (l : List SlotIx) : State :=
  l.foldl (fun s i => s.setSlot i .inuse)
    { capture with session := ⟨true, true, false, false, nch, 4, 0⟩, pacing := ⟨500000, 0, false, 0⟩ }

/-- All slots free, one free, and none free, for one and for two channels; the guard at its boundary. -/
theorem witness_CaptureTick :
    (capturing 1 []).session.flagCap = true ∧ 1 = (capturing 1 []).session.nch.toNat ∧
    2 = (capturing 2 []).session.nch.toNat ∧
    2 < (capturing 2 []).session.poolSize.toNat - (capturing 2 []).pool.depth.toNat ∧
    PaceGives (capturing 1 []) 0 ⟨500000, 500000, true, 0⟩ ∧ (capturing 1 []).cfg.allocPolicy = .lowest ∧
    Allocatable (capturing 2 []) [] 0 ∧ Allocatable (capturing 2 []) [0] 1 ∧
    Allocatable (capturing 2 [0, 1, 2]) [] 3 ∧ (∀ j, ¬ Allocatable (capturing 2 [0, 1, 2]) [3] j) ∧
    (∀ i, ¬ Allocatable (capturing 2 [0, 1, 2, 3]) [] i) ∧ State.reset.session.flagCap = false ∧
    ((capturing 1 []).setFifo [0, 1, 2] 3).session.poolSize.toNat -
      ((capturing 1 []).setFifo [0, 1, 2] 3).pool.depth.toNat ≤ 1 := by
  unfold Allocatable
  refine ⟨?_, ?_, ?_, ?_, ⟨rfl, rfl⟩, ?_, ?_, ?_, ?_, ?_, ?_, ?_, ?_⟩ <;> decide +kernel

/-- The remainder at both ends, and 1x. -/
theorem witness_PacingSum :
    (⟨1000000, 999999, false, 0⟩ : Pacing).acc.toNat < 1000000 ∧ (⟨1000000, 0, false, 0⟩ : Pacing).speed = 1000000 := by
  decide +kernel

/-- V-T7's, V-T9's and V-T11's labels, and the first of the day; frames 22 and 23, seconds 58 and 59, minutes
58 and 59 on the two sides of each carry, and frame label 63. -/
theorem witness_TimecodeSteps :
    tcLegal 0x01000EDD 3 = true ∧ tcLegal 0x01001002 3 = true ∧ tcLegal 0x015FBEDD 3 = true ∧ tcLegal 0 0 = true ∧
    ((0x16 : TC64).extractLsb' 0 6).toNat + 1 < 24 ∧ 24 ≤ ((0x17 : TC64).extractLsb' 0 6).toNat + 1 ∧
    ((0xE97 : TC64).extractLsb' 6 6).toNat + 1 < 60 ∧ 60 ≤ ((0xED7 : TC64).extractLsb' 6 6).toNat + 1 ∧
    ((0x3AED7 : TC64).extractLsb' 12 6).toNat + 1 < 60 ∧ 60 ≤ ((0x3BED7 : TC64).extractLsb' 12 6).toNat + 1 ∧
    24 ≤ ((0x3F : TC64).extractLsb' 0 6).toNat + 1 := by
  decide +kernel

theorem witness_StepKeepsTimecodeFlags :
    step (given { State.reset with gen := 0x40000 } [.wrap]) =
      .next ((given { State.reset with gen := 0x40000 } []).latch 8) ∧
    (0x40000 : TC64).getLsbD 26 = false ∧
    ∀ o ∈ (State.reset.emit (.wireW1 0x40000)).env.trace, o.clean = true :=
  ⟨step_wrap reset_ok, by decide, by decide +kernel⟩

theorem witness_NoNesting :
    step (given (handling State.reset 0x101) [.wrap]) = .next ((given (handling State.reset 0x101) []).latch 8) ∧
    (given (handling State.reset 0x101) [.wrap]).pc ≠ .idle ∧ (0x101 : BitVec 9).getLsbD 8 = true :=
  ⟨step_wrap reset_ok, by decide, by decide⟩

theorem witness_FaultsAreSticky :
    step (given (State.reset.raise (.u9 2 32)) [.wrap]) = .next ((given (State.reset.raise (.u9 2 32)) []).latch 8) ∧
    ModelFault.u9 2 32 ∈ (given (State.reset.raise (.u9 2 32)) [.wrap]).faults :=
  ⟨step_wrap reset_ok, by decide +kernel⟩

theorem witness_StepKeepsMemoryForm :
    MemoryInv (given (State.reset.storeCard 5 1) [.wrap]) ∧
    step (given (State.reset.storeCard 5 1) [.wrap]) = .next ((given (State.reset.storeCard 5 1) []).latch 8) :=
  ⟨⟨by decide +kernel, by decide +kernel⟩, step_wrap reset_ok⟩

theorem witness_StepKeepsPoolInvariant :
    PoolInv (given twoQueued [.wrap]) ∧ step (given twoQueued [.wrap]) = .next ((given twoQueued []).latch 8) :=
  ⟨⟨twoQueued_inv.depth_eq, twoQueued_inv.nodup, twoQueued_inv.queued_iff, twoQueued_inv.outside_free,
    twoQueued_inv.lastPb_lt, twoQueued_inv.lastCap_lt⟩, step_wrap reset_ok⟩

/-- Bank 0's transfer waits on channel 0. -/
theorem waiting_inv : TransferInv (given (transferring .x5 [] [] true) [.wrap]) := by
  have hop : ∀ b : BankId, ((given (transferring .x5 [] [] true) [.wrap]).bank b).op =
      if b = 0 then .xfer .x5 0 request else .none := by decide +kernel
  have how : ∀ k : ChanId, ((given (transferring .x5 [] [] true) [.wrap]).chan k).owner =
      if k = 0 then some 0 else none := by decide +kernel
  refine ⟨by decide +kernel, by decide +kernel, fun k b => ?_, fun k hk => ⟨0, request, ?_⟩, by decide +kernel,
    by decide +kernel⟩
  · rw [hop, how]
    by_cases hk : k = 0 <;> by_cases hb : b = 0 <;> simp [hk, hb, eq_comm]
  · have : k = 0 := by revert k; decide +kernel
    rw [hop, this]
    rfl

theorem witness_StepKeepsTransferInvariant :
    TransferInv (given (transferring .x5 [] [] true) [.wrap]) ∧
    step (given (transferring .x5 [] [] true) [.wrap]) =
      .next ((given (transferring .x5 [] [] true) []).latch 8) := ⟨waiting_inv, step_wrap reset_ok⟩

theorem witness_StepKeepsSessionInvariant :
    SessionInv (given playback [.wrap]) ∧ step (given playback [.wrap]) = .next ((given playback []).latch 8) :=
  ⟨⟨by decide +kernel, by decide +kernel, by decide +kernel, by decide +kernel, by decide +kernel,
    by decide +kernel, by decide +kernel⟩, step_wrap reset_ok⟩

/-- The remainder at its greatest value. -/
theorem witness_StepKeepsPacingInvariant :
    PacingInv (given { playback with pacing := ⟨999999, 999999, false, 0⟩ } [.wrap]) ∧
    step (given { playback with pacing := ⟨999999, 999999, false, 0⟩ } [.wrap]) =
      .next ((given { playback with pacing := ⟨999999, 999999, false, 0⟩ } []).latch 8) :=
  ⟨⟨by decide +kernel, by decide +kernel, by decide +kernel⟩, step_wrap reset_ok⟩

theorem witness_StepKeepsSequencerInvariant : SequencerInv (handling State.reset 0x100) :=
  ⟨by decide +kernel, by decide +kernel⟩

theorem witness_ResetMeetsInvariants : ConfigValid Params.reference ∧ State.reset = State.resetWith Params.reference :=
  ⟨reference_valid, rfl⟩

end Sys2Proof.Tests
end

/-! SUPPORT. Which steps are refused (00_scope.md R8): the configuration check is `ConfigValid`, and in a
configuration that passes it a step answers a next state unless the dispatcher is handling an empty pass. -/

namespace Sys2Proof

/-! ### The configuration check -/

/-- A channel's storage check, in the terms of R7 and R149. -/
theorem Params.storageOk_iff (p : Params) (k : ChanId) :
    p.storageOk k = true ↔
      p.descBase[k].toNat % 32 = 0 ∧ p.descBase[k].toNat + p.descCap * 32 ≤ 2 ^ 64 := by
  simp only [Params.storageOk, Bool.and_eq_true, decide_eq_true_eq]

/-- The check over all channel numbers, restricted to the channels that exist. -/
theorem Params.all_storageOk_iff (p : Params) :
    (List.finRange 4).all (fun k => decide (p.numXferCh ≤ k.val) || p.storageOk k) = true ↔
      ∀ k : ChanId, k.val < p.numXferCh → p.storageOk k = true := by
  simp only [List.all_eq_true, List.mem_finRange, true_imp_iff, Bool.or_eq_true, decide_eq_true_eq,
    or_iff_not_imp_left, Nat.not_le]

/-- The model tests a power of two by its logarithm. -/
theorem eq_two_pow_log2_iff (n : Nat) : n = 2 ^ n.log2 ↔ ∃ m, n = 2 ^ m :=
  ⟨fun h => ⟨_, h⟩, fun ⟨m, h⟩ => by rw [h, Nat.log2_two_pow]⟩

/-- The executable check of R8 is the conjunction of the constraints. -/
theorem Params.ok_iff_configValid (p : Params) : p.ok = true ↔ Machine.ConfigValid p := by
  simp only [Params.ok, Bool.and_eq_true, decide_eq_true_eq, p.all_storageOk_iff, p.storageOk_iff,
    eq_two_pow_log2_iff]
  constructor
  · rintro ⟨⟨⟨⟨⟨⟨⟨⟨⟨channels, pool⟩, speed⟩, pages⟩, pow, words⟩, merge⟩, storage⟩, callers⟩, window⟩, chans⟩
    exact ⟨channels, pool, speed, pages, pow, words, merge, storage, callers, window,
      fun k hk => (chans k hk).1, fun k hk => (chans k hk).2⟩
  · intro h
    exact ⟨⟨⟨⟨⟨⟨⟨⟨⟨h.channels, h.pool⟩, h.speed⟩, h.pages⟩, h.page_pow, h.page_words⟩, h.merge⟩, h.storage⟩,
      h.callers⟩, h.window⟩, fun k hk => ⟨h.aligned k hk, h.reach k hk⟩⟩

end Sys2Proof

namespace Sys2Proof.Machine

/-! ### Every instruction has a meaning -/

/-- The step answers a next state: it is neither a fault nor a refusal. -/
def Answers (o : Answered) : Prop := ∃ t, o = .next t

theorem answers_next (t : State) : Answers (.next t) := ⟨t, rfl⟩

theorem answers_ite {c : Prop} [Decidable c] {x y : Answered} (hx : Answers x) (hy : Answers y) :
    Answers (if c then x else y) := by
  split
  · exact hx
  · exact hy

/-- Most commands check their operands and then complete one way or the other. -/
theorem answers_checked (c : Prop) [Decidable c] (t u : State) : Answers (if c then .next t else .next u) :=
  answers_ite (answers_next t) (answers_next u)

theorem execAlloc_answers (b : BankId) (s : State) : Answers (execAlloc b s) := by
  unfold execAlloc
  split
  · exact answers_next _
  · exact answers_next _

theorem execDeq_answers (b : BankId) (s : State) : Answers (execDeq b s) := by
  unfold execDeq
  split
  · exact answers_next _
  · exact answers_next _

theorem execXfer_answers (b : BankId) (dir : Bool) (hint : BitVec 2) (s : State) :
    Answers (execXfer b dir hint s) := by
  refine answers_ite (answers_next _) ?_
  dsimp only
  cases checkXfer s.cfg (s.xferReq b dir hint) with
  | pass => exact answers_next _
  | invalid => exact answers_next _
  | unaligned => exact answers_next _

theorem execTcquery_answers (b : BankId) (src : BitVec 3) (s : State) : Answers (execTcquery b src s) := by
  unfold execTcquery
  split <;> exact answers_next _

/-- No arm of `exec` faults or is refused. -/
theorem exec_answers (i : Instr) (s : State) : Answers (exec i s) := by
  cases i with
  | alloc b => exact execAlloc_answers b s
  | deq b => exact execDeq_answers b s
  | xfer b dir hint => exact execXfer_answers b dir hint s
  | tcquery b src => exact execTcquery_answers b src s
  | init | start | stop | close | free | enq | mdget | mdset | setspeed | settrig | genset | audarm =>
    exact answers_checked _ _ _
  | depth | getspeed | frameid | framerec | waitframe | drops | genget | genrun => exact answers_next _
  | irqBuserr | irqDone0 | irqDone1 | irqDone2 | irqDone3 | irqOutvert | irqInvert0 | irqInvert1 | irqWrap =>
    exact answers_next _

/-! ### What an event can answer -/

theorem State.issueCommand_answers (s : State) (b : BankId) (w : U32) : Answers (s.issueCommand b w) := by
  refine answers_ite (answers_next _) ?_
  split
  · exact exec_answers _ _
  · exact answers_next _

theorem State.writeReg_answers (s : State) (off : Nat) (v : U32) : Answers (s.writeReg off v) := by
  unfold State.writeReg
  cases regName s.cfg off with
  | global o => exact answers_next _
  | chan k o => exact answers_next _
  | bank b o => exact answers_ite (s.issueCommand_answers b v) (answers_next _)
  | unnamed => exact answers_next _

theorem State.hostWrite_answers (s : State) (off width : Nat) (v : U32) : Answers (s.hostWrite off width v) :=
  answers_ite (s.writeReg_answers off v) (answers_next _)

/-- A pass in which the decoder finds no source is empty (R326). -/
theorem eq_zero_of_lowestSource_none {p : BitVec 9} (h : lowestSource p = none) : p = 0 := by
  apply BitVec.eq_of_getLsbD_eq
  intro j hj
  simpa using List.find?_eq_none.1 h ⟨j, hj⟩ (List.mem_finRange _)

/-- The only step that answers no next state: the dispatcher handling an empty pass. -/
def FaultsOnEmptyPass (s : State) (o : Answered) : Prop :=
  s.pc = .handling ∧ s.passSet = 0 ∧ o = .fault .emptyPass

theorem State.handleNext_outcome (s : State) :
    Answers s.handleNext ∨ s.passSet = 0 ∧ s.handleNext = .fault .emptyPass := by
  cases h : lowestSource s.passSet with
  | none => exact .inr ⟨eq_zero_of_lowestSource_none h, by simp only [State.handleNext, decode, h]⟩
  | some j =>
    left
    simp only [State.handleNext, decode, h]
    exact exec_answers _ s

theorem State.idsStep_outcome (s : State) : Answers s.idsStep ∨ FaultsOnEmptyPass s s.idsStep := by
  unfold State.idsStep
  split
  next => exact .inl (answers_next _)
  next hpc => exact s.handleNext_outcome.imp_right fun ⟨hpass, hfault⟩ => ⟨hpc, hpass, hfault⟩
  next => exact .inl (answers_next _)
  next => exact .inl (answers_next _)

/-- Every event but a write and the dispatcher's step answers a next state by its definition. -/
theorem State.apply_outcome (s : State) (e : Event) : Answers (s.apply e) ∨ FaultsOnEmptyPass s (s.apply e) := by
  cases e with
  | wr off width v => exact .inl (s.hostWrite_answers off width v)
  | ids => exact s.idsStep_outcome
  | _ => exact .inl (answers_next _)

/-- In a configuration that has runs, a step answers a next state or the dispatcher is handling an empty pass. -/
theorem step_outcome {s : State} (hc : s.cfg.ok = true) : Answers (step s) ∨ FaultsOnEmptyPass s (step s) := by
  obtain ⟨e, he⟩ := s.nextEvent_snd
  have hstep : step s = (s.withEnv e).apply s.nextEvent.1 := by rw [step, State.advance, if_pos hc, he]
  rw [hstep]
  exact (s.withEnv e).apply_outcome _

theorem step_refused_of_not_ok {s : State} (hc : ¬ s.cfg.ok = true) : step s = .refused .badConfiguration := by
  rw [step, State.advance, if_neg hc]

theorem step_ne_refused {s : State} (hc : s.cfg.ok = true) (r : Refusal) : step s ≠ .refused r := by
  obtain ⟨t, ht⟩ | ⟨_, _, hfault⟩ := step_outcome hc
  · simp [ht]
  · simp [hfault]

/-- Settles O8: the executable check is exactly `ConfigValid`, and `step` refuses only when it fails. -/
theorem badConfigurationRefused : Obligations.BadConfigurationRefused := by
  intro s
  rw [← s.cfg.ok_iff_configValid]
  exact ⟨step_refused_of_not_ok, step_ne_refused⟩

end Sys2Proof.Machine

/-! SUPPORT. Which pieces of state each operation may write, said once: `Writes` bounds what differs between two
states, one lemma per operation gives its bound, and `commandWrites` and `phaseWrites` are the tables of the
instructions and of the phases of a tick. An invariant that reads none of the pieces an operation writes is
kept by it (`Reads.keep`), so each invariant is argued for the operations that write what it reads. -/

namespace Sys2Proof.Machine

/-! ### What an operation writes -/

/-- The pieces of state the invariants read (10_state.md); the parameters and the fault set stand apart. -/
inductive Part where
  | banks
  | pc
  | passSet
  | frameId
  | curFrame
  | session
  | pacing
  | run
  | lastPb
  | lastCap
  | pool
  | outsel
  | insel
  | chans
  deriving DecidableEq

/-- The piece is the same in both states. -/
def Part.Same (p : Part) (s t : State) : Prop :=
  match p with
  | .banks => t.banks = s.banks
  | .pc => t.pc = s.pc
  | .passSet => t.passSet = s.passSet
  | .frameId => t.frameId = s.frameId
  | .curFrame => t.curFrame = s.curFrame
  | .session => t.session = s.session
  | .pacing => t.pacing = s.pacing
  | .run => t.run = s.run
  | .lastPb => t.lastPb = s.lastPb
  | .lastCap => t.lastCap = s.lastCap
  | .pool => t.pool = s.pool
  | .outsel => t.outsel = s.outsel
  | .insel => t.insel = s.insel
  | .chans => t.chans = s.chans

theorem Part.Same.refl (p : Part) (s : State) : p.Same s s := by cases p <;> rfl

theorem Part.Same.trans {p : Part} {s t u : State} (h1 : p.Same s t) (h2 : p.Same t u) : p.Same s u := by
  cases p <;> exact Eq.trans h2 h1

/-- From `s` to `t` only the listed pieces may change, and faults may join the fault set; the parameters never
change (R380). -/
structure Writes (ps : List Part) (s t : State) : Prop where
  cfg : t.cfg = s.cfg
  faults : s.faults ⊆ t.faults
  same : ∀ p, p ∉ ps → p.Same s t

theorem Writes.refl (ps : List Part) (s : State) : Writes ps s s :=
  ⟨rfl, List.Subset.refl _, fun p _ => .refl p s⟩

theorem Writes.mono {ps qs : List Part} {s t : State} (h : Writes ps s t) (hs : ps ⊆ qs) : Writes qs s t :=
  ⟨h.cfg, h.faults, fun p hp => h.same p fun hm => hp (hs hm)⟩

theorem Writes.trans {ps : List Part} {s t u : State} (h1 : Writes ps s t) (h2 : Writes ps t u) : Writes ps s u :=
  ⟨h2.cfg.trans h1.cfg, List.Subset.trans h1.faults h2.faults, fun p hp => (h1.same p hp).trans (h2.same p hp)⟩

theorem Writes.andThen {ps qs : List Part} {s t u : State} (h1 : Writes ps s t) (h2 : Writes qs t u) :
    Writes (ps ++ qs) s u := (h1.mono (by simp)).trans (h2.mono (by simp))

/-- The predicate reads the listed pieces and the parameters only. -/
def Reads (rs : List Part) (P : State → Prop) : Prop :=
  ∀ s t : State, t.cfg = s.cfg → (∀ p ∈ rs, p.Same s t) → P s → P t

/-- What writes none of the pieces a predicate reads keeps it. -/
theorem Reads.keep {rs ps : List Part} {P : State → Prop} {s t : State} (hr : Reads rs P) (hw : Writes ps s t)
    (hd : ∀ p ∈ rs, p ∉ ps) (h : P s) : P t := hr s t hw.cfg (fun p hp => hw.same p (hd p hp)) h

/-! ### The updates of a state -/

theorem writes_withEnv (s : State) (e : Env) : Writes [] s (s.withEnv e) :=
  ⟨rfl, List.Subset.refl _, by rintro ⟨⟩ - <;> rfl⟩

theorem writes_raise (s : State) (f : ModelFault) : Writes [] s (s.raise f) :=
  ⟨rfl, fun g hg => (s.mem_raise f g).2 (.inl hg), by rintro ⟨⟩ - <;> rfl⟩

theorem writes_setBank (s : State) (b : BankId) (x : Bank) : Writes [.banks] s (s.setBank b x) :=
  ⟨rfl, List.Subset.refl _, by rintro ⟨⟩ h <;> simp [Part.Same] at h ⊢⟩

theorem writes_setChan (s : State) (k : ChanId) (c : Channel) : Writes [.chans] s (s.setChan k c) :=
  ⟨rfl, List.Subset.refl _, by rintro ⟨⟩ h <;> simp [Part.Same] at h ⊢⟩

theorem writes_setSlot (s : State) (i : SlotIx) (st : SlotState) : Writes [.pool] s (s.setSlot i st) :=
  ⟨rfl, List.Subset.refl _, by rintro ⟨⟩ h <;> simp [Part.Same] at h ⊢⟩

theorem writes_setMeta (s : State) (i : SlotIx) (m : Meta) : Writes [.pool] s (s.setMeta i m) :=
  ⟨rfl, List.Subset.refl _, by rintro ⟨⟩ h <;> simp [Part.Same] at h ⊢⟩

theorem writes_setFifo (s : State) (q : List SlotIx) (d : BitVec 7) : Writes [.pool] s (s.setFifo q d) :=
  ⟨rfl, List.Subset.refl _, by rintro ⟨⟩ h <;> simp [Part.Same] at h ⊢⟩

theorem writes_wakeAll (s : State) (o : Op) : Writes [.banks] s (s.wakeAll o) :=
  ⟨rfl, List.Subset.refl _, by rintro ⟨⟩ h <;> simp [Part.Same] at h ⊢⟩

theorem writes_ask (s : State) (q : RunReq) : Writes [.run] s (s.ask q) :=
  ⟨rfl, List.Subset.refl _, by rintro ⟨⟩ h <;> simp [Part.Same, State.ask] at h ⊢⟩

theorem writes_goto (s : State) (n : F1Step) : Writes [.pc] s (s.goto n) :=
  ⟨rfl, List.Subset.refl _, by rintro ⟨⟩ h <;> simp [Part.Same] at h ⊢⟩

theorem writes_passEnd (s : State) : Writes [.pc] s s.passEnd :=
  ⟨rfl, List.Subset.refl _, by rintro ⟨⟩ h <;> simp [Part.Same] at h ⊢⟩

theorem writes_takeSource (s : State) (j : Fin 9) : Writes [.passSet] s (s.takeSource j) :=
  ⟨rfl, List.Subset.refl _, by rintro ⟨⟩ h <;> simp [Part.Same] at h ⊢⟩

theorem writes_takeInterrupt (s : State) : Writes [.pc, .passSet] s s.takeInterrupt :=
  ⟨rfl, List.Subset.refl _, by rintro ⟨⟩ h <;> simp [Part.Same] at h ⊢⟩

theorem writes_display (s : State) (c : VidChan) (i : SlotIx) : Writes [.outsel, .lastPb] s (s.display c i) :=
  ⟨rfl, List.Subset.refl _, by rintro ⟨⟩ h <;> simp [Part.Same] at h ⊢⟩

theorem writes_lastPb (s : State) (v : Vector (Option SlotIx) 2) : Writes [.lastPb] s { s with lastPb := v } :=
  ⟨rfl, List.Subset.refl _, by rintro ⟨⟩ h <;> simp [Part.Same] at h ⊢⟩

theorem writes_lastCap (s : State) (v : Vector (Option SlotIx) 2) : Writes [.lastCap] s { s with lastCap := v } :=
  ⟨rfl, List.Subset.refl _, by rintro ⟨⟩ h <;> simp [Part.Same] at h ⊢⟩

theorem writes_outsel (s : State) (v : Vector (BitVec 16) 2) : Writes [.outsel] s { s with outsel := v } :=
  ⟨rfl, List.Subset.refl _, by rintro ⟨⟩ h <;> simp [Part.Same] at h ⊢⟩

theorem writes_insel (s : State) (v : Vector (BitVec 16) 2) : Writes [.insel] s { s with insel := v } :=
  ⟨rfl, List.Subset.refl _, by rintro ⟨⟩ h <;> simp [Part.Same] at h ⊢⟩

theorem writes_pacing (s : State) (p : Pacing) : Writes [.pacing] s { s with pacing := p } :=
  ⟨rfl, List.Subset.refl _, by rintro ⟨⟩ h <;> simp [Part.Same] at h ⊢⟩

theorem writes_frameId (s : State) (n : U64) : Writes [.frameId] s { s with frameId := n } :=
  ⟨rfl, List.Subset.refl _, by rintro ⟨⟩ h <;> simp [Part.Same] at h ⊢⟩

theorem writes_curFrame (s : State) (f : FrameRec) : Writes [.curFrame] s { s with curFrame := f } :=
  ⟨rfl, List.Subset.refl _, by rintro ⟨⟩ h <;> simp [Part.Same] at h ⊢⟩

theorem writes_runSession (s : State) (r : RunCtl) (x : Session) :
    Writes [.run, .session] s { s with run := r, session := x } :=
  ⟨rfl, List.Subset.refl _, by rintro ⟨⟩ h <;> simp [Part.Same] at h ⊢⟩

theorem writes_run (s : State) (r : RunCtl) : Writes [.run] s { s with run := r } :=
  ⟨rfl, List.Subset.refl _, by rintro ⟨⟩ h <;> simp [Part.Same] at h ⊢⟩

/-- An update of pieces no invariant reads: the interrupt registers, the counters, the generator, the caches,
the rate, the audio state, the drop record, the memories and the environment record. -/
theorem writes_unread (s : State) (st en : BitVec 9) (c : Counters) (g : TC64) (gr : Bool) (tc : TcCache)
    (r : BitVec 3) (a : Audio) (d : DropRec) (hm cm : Memory) (e : Env) :
    Writes [] s { s with
      irqStatus := st, irqEnable := en, counters := c, gen := g, genRunning := gr, tcCache := tc, tickRate := r,
      audio := a, drops := d, hostMem := hm, cardMem := cm, env := e } :=
  ⟨rfl, List.Subset.refl _, by rintro ⟨⟩ - <;> rfl⟩

/-! ### The pool and the stream service -/

theorem writes_allocSlot (s : State) : Writes [.pool] s s.allocSlot.2 := by
  obtain ⟨h, -⟩ | ⟨i, e, h, -⟩ := s.allocSlot_cases <;> rw [h]
  · exact .refl _ s
  · exact (writes_withEnv s e).andThen (writes_setSlot ..)

theorem writes_freeSlot (s : State) (i : SlotIx) : Writes [.pool] s (s.freeSlot i) := by
  obtain ⟨-, h⟩ | ⟨-, h⟩ := s.freeSlot_cases i <;> rw [h]
  · exact (writes_raise ..).mono (by simp)
  · exact writes_setSlot ..

theorem writes_enqSlot (s : State) (i : SlotIx) : Writes [.pool] s (s.enqSlot i) := by
  obtain ⟨-, h⟩ | ⟨-, h⟩ := s.enqSlot_cases i <;> rw [h]
  · exact (writes_setSlot ..).trans (writes_setFifo ..)
  · exact (writes_raise ..).mono (by simp)

theorem writes_deqSlot (s : State) : Writes [.pool] s s.deqSlot.2 := by
  obtain ⟨-, h⟩ | ⟨i, q, -, h⟩ := s.deqSlot_cases <;> rw [h]
  · exact .refl _ s
  · exact (writes_setFifo ..).trans (writes_setSlot ..)

/-- The three timecode readings of a capture's stamp change the environment record only (R254). -/
theorem State.stampAndQueue_eq (s : State) (i : SlotIx) (ap : U64) :
    ∃ e m, s.stampAndQueue i ap = ((s.withEnv e).setMeta i m).enqSlot i := by
  unfold State.stampAndQueue
  dsimp only
  obtain ⟨e1, h1⟩ := s.readWire1_snd
  rw [h1]
  obtain ⟨e2, h2⟩ := (s.withEnv e1).readWire2_snd
  rw [h2]
  obtain ⟨e3, h3⟩ := ((s.withEnv e1).withEnv e2).readExternal_snd
  rw [h3]
  exact ⟨e3, _, rfl⟩

theorem writes_stampAndQueue (s : State) (i : SlotIx) (ap : U64) : Writes [.pool] s (s.stampAndQueue i ap) := by
  obtain ⟨e, m, h⟩ := s.stampAndQueue_eq i ap
  rw [h]
  exact ((writes_withEnv s e).andThen (writes_setMeta ..)).trans (writes_enqSlot ..)

theorem writes_freePlayed (s : State) (c : VidChan) : Writes [.pool, .lastPb] s (s.freePlayed c) := by
  unfold State.freePlayed
  split
  · exact .refl _ s
  · exact (writes_freeSlot ..).andThen (writes_lastPb ..)

theorem writes_queueCaptured (s : State) (ap : U64) (c : VidChan) :
    Writes [.pool, .lastCap] s (s.queueCaptured ap c) := by
  unfold State.queueCaptured
  split
  · exact .refl _ s
  · exact (writes_stampAndQueue ..).andThen (writes_lastCap ..)

theorem writes_freeing (s : State) : Writes [.pool, .lastPb, .lastCap] s s.freeing := by
  unfold State.freeing
  refine .trans ((writes_withEnv ..).mono (by simp)) (List.foldlRecOn _ _ (.refl _ _) fun u hu c _ => ?_)
  exact hu.trans (((writes_freePlayed ..).andThen (writes_queueCaptured ..)).mono (by simp))

theorem writes_discard (n : Nat) (s : State) : Writes [.pool] s (State.discard n s) := by
  induction n generalizing s with
  | zero => exact .refl _ s
  | succ n ih =>
    have hd := writes_deqSlot s
    unfold State.discard
    split
    · rename_i h
      rwa [h] at hd
    · rename_i h
      rw [h] at hd
      exact (hd.trans (writes_freeSlot ..)).trans (ih _)

theorem writes_pace (s : State) : Writes [.pacing] s s.pace.2 := by
  unfold State.pace
  split
  · exact .refl _ s
  · exact writes_pacing ..

theorem writes_override (s : State) (i : SlotIx) : Writes [.pool] s (s.override i) := by
  unfold State.override
  dsimp only
  split
  · exact (writes_unread s ..).andThen (writes_setMeta ..)
  · exact .refl _ s

theorem writes_tagMismatch (s : State) (i : SlotIx) : Writes [.pool] s (s.tagMismatch i) :=
  (writes_unread s ..).andThen (writes_freeSlot ..)

theorem writes_servicePlayback (cs : List VidChan) (i0 : Option SlotIx) (s : State) :
    Writes [.pool, .outsel, .lastPb] s (State.servicePlayback cs i0 s) := by
  induction cs generalizing i0 s with
  | nil =>
    cases i0 with
    | none => exact .refl _ s
    | some i => exact (writes_override s i).mono (by simp)
  | cons c cs ih =>
    have hd : Writes [.pool, .outsel, .lastPb] s s.deqSlot.2 := (writes_deqSlot s).mono (by simp)
    unfold State.servicePlayback
    split
    · rename_i h
      rwa [h] at hd
    · rename_i h
      rw [h] at hd
      split
      · exact (hd.trans ((writes_display ..).mono (by simp))).trans (ih ..)
      · exact hd.trans ((writes_tagMismatch ..).mono (by simp))

theorem writes_playbackTick (s : State) : Writes [.pool, .pacing, .outsel, .lastPb] s s.playbackTick := by
  have hp : Writes [.pool, .pacing, .outsel, .lastPb] s s.pace.2 := (writes_pace s).mono (by simp)
  unfold State.playbackTick
  split
  · exact .refl _ s
  split
  · exact (writes_unread s ..).mono (by simp)
  dsimp only
  split
  · exact hp
  · exact hp.trans (((writes_discard ..).andThen (writes_servicePlayback ..)).mono (by simp))

theorem writes_adjustGenerator (s : State) (n : U64) : Writes [] s (s.adjustGenerator n) := by
  unfold State.adjustGenerator
  split
  · split <;> exact writes_unread s ..
  · exact .refl _ s

theorem writes_captureInto (s : State) (c : VidChan) (i : SlotIx) (n : U64) :
    Writes [.pool, .insel, .lastCap] s (s.captureInto c i n) := by
  have hi := writes_insel s (s.insel.set c.val (slotSelect i))
  exact ((hi.andThen (writes_lastCap ..)).andThen (writes_setMeta ..)).mono (by simp)

theorem writes_serviceCapture (cs : List VidChan) (n : U64) (s : State) :
    Writes [.pool, .insel, .lastCap] s (State.serviceCapture cs n s) := by
  induction cs generalizing s with
  | nil => exact .refl _ s
  | cons c cs ih =>
    have ha : Writes [.pool, .insel, .lastCap] s s.allocSlot.2 := (writes_allocSlot s).mono (by simp)
    unfold State.serviceCapture
    split
    · rename_i h
      rw [h] at ha
      exact ha.trans ((writes_unread _ ..).mono (by simp))
    · rename_i h
      rw [h] at ha
      exact (ha.trans (writes_captureInto ..)).trans (ih _)

theorem writes_captureTick (s : State) : Writes [.pool, .pacing, .insel, .lastCap] s s.captureTick := by
  unfold State.captureTick
  split
  · exact .refl _ s
  split
  · exact (writes_unread s ..).mono (by simp)
  · exact (((writes_pace s).andThen (writes_adjustGenerator ..)).andThen (writes_serviceCapture ..)).mono (by simp)

theorem writes_audioTrigger (s : State) : Writes [] s s.audioTrigger := by
  unfold State.audioTrigger
  split
  · exact writes_unread s ..
  · exact .refl _ s

theorem writes_stepService (s : State) :
    Writes [.pool, .pacing, .outsel, .insel, .lastPb, .lastCap] s s.stepService := by
  unfold State.stepService
  split
  · exact (((writes_audioTrigger s).andThen (writes_playbackTick ..)).andThen (writes_captureTick ..)).mono (by simp)
  · exact .refl _ s

/-! ### The phases of a tick -/

theorem writes_sampleRate (s : State) : Writes [] s s.sampleRate := by
  unfold State.sampleRate
  dsimp only
  split
  · exact (writes_unread s ..).trans (writes_raise ..)
  · exact writes_unread s ..

theorem writes_stepExtSync (s : State) : Writes [] s s.stepExtSync := by
  unfold State.stepExtSync
  split
  · exact writes_withEnv s _
  · exact .refl _ s

theorem writes_stepAudio (s : State) : Writes [] s s.stepAudio := by
  unfold State.stepAudio
  extract_lets n
  split
  · split
    · exact writes_unread s ..
    · split <;> exact writes_unread s ..
  · exact .refl _ s

/-- The pieces each phase of the field-1 sequence writes (R218 to R229). -/
def phaseWrites : F1Step → List Part
  | .frameId => [.pc, .frameId]
  | .generator => [.pc]
  | .boundary => [.pc, .run, .session, .banks]
  | .snapshot => [.pc, .curFrame]
  | .freeing => [.pc, .pool, .lastPb, .lastCap]
  | .service => [.pc, .pool, .pacing, .outsel, .insel, .lastPb, .lastCap]
  | .wirePush => [.pc]
  | .extSync => [.pc]
  | .serial => [.pc]
  | .wake => [.pc, .banks]
  | .audio => [.pc, .pacing]

/-- A phase that ends in a `goto` writes `pc` and what its body writes. -/
theorem Writes.goto {ps : List Part} {s t : State} (h : Writes ps s t) (n : F1Step) :
    Writes (.pc :: ps) s (t.goto n) := (h.andThen (writes_goto t n)).mono (by simp)

theorem Writes.passEnd {ps : List Part} {s t : State} (h : Writes ps s t) : Writes (.pc :: ps) s t.passEnd :=
  (h.andThen (writes_passEnd t)).mono (by simp)

theorem writes_f1Phase (n : F1Step) (s : State) : Writes (phaseWrites n) s (s.f1Phase n) := by
  cases n with
  | frameId => exact ((writes_frameId s _).andThen (writes_sampleRate _)).goto _
  | generator => exact (writes_unread s ..).goto _
  | boundary => exact ((writes_runSession s ..).andThen (writes_wakeAll ..)).goto _
  | snapshot => exact ((writes_withEnv s _).andThen (writes_curFrame ..)).goto _
  | freeing => exact (writes_freeing s).goto _
  | service => exact (writes_stepService s).goto _
  | wirePush => exact (writes_withEnv s _).goto _
  | extSync => exact (writes_stepExtSync s).goto _
  | serial => exact (writes_withEnv s _).goto _
  | wake => exact (writes_wakeAll s _).goto _
  | audio => exact ((writes_stepAudio s).andThen (writes_pacing ..)).passEnd

theorem writes_f2Phase (s : State) : Writes [.pc] s s.f2Phase := by
  refine Writes.passEnd (ps := []) ((writes_sampleRate s).trans ?_)
  split
  · exact writes_unread _ ..
  · exact .refl _ _


/-! ### Commands (R107, R108) -/

/-- The operation is no transfer. -/
def Op.NotXfer (o : Op) : Prop := ∀ ph k r, o ≠ .xfer ph k r

/-- A bank whose command has ended, or waits for a boundary or a frame: PEND agrees with `op[b]`, and no
transfer runs. -/
def Bank.Settled (x : Bank) : Prop := (x.pend = true ↔ x.op ≠ .none) ∧ x.op.NotXfer

theorem settled_complete (x : Bank) (r : ResultCode) : (x.complete r).Settled :=
  ⟨by simp [Bank.complete], nofun⟩

theorem settled_waiting (x : Bank) {o : Op} (h0 : o ≠ .none) (hx : o.NotXfer) :
    Bank.Settled { x with pend := true, op := o } := ⟨by simp [h0], hx⟩

/-- The answer writes the listed pieces, and then ends or holds the command of bank b. -/
def Completes (ps : List Part) (b : BankId) (s : State) (a : Answered) : Prop :=
  ∃ u x, a = .next (u.setBank b x) ∧ x.Settled ∧ Writes ps s u

theorem Writes.finish {ps : List Part} {s u : State} (h : Writes ps s u) (b : BankId) (r : ResultCode) :
    Completes ps b s (.next (u.finish b r)) := ⟨u, _, rfl, settled_complete .., h⟩

theorem Writes.finishRes0 {ps : List Part} {s u : State} (h : Writes ps s u) (b : BankId) (v : U64) :
    Completes ps b s (.next (u.finishRes0 b v)) := ⟨u, _, rfl, settled_complete .., h⟩

theorem Writes.hold {ps : List Part} {s u : State} (h : Writes ps s u) (b : BankId) {o : Op} (h0 : o ≠ .none)
    (hx : o.NotXfer) : Completes ps b s (.next (u.hold b o)) := ⟨u, _, rfl, settled_waiting _ h0 hx, h⟩

/-- A command that only writes its own bank. -/
theorem completes_setBank (ps : List Part) (b : BankId) (s : State) (x : Bank) (r : ResultCode) :
    Completes ps b s (.next (s.setBank b (x.complete r))) := ⟨s, _, rfl, settled_complete .., .refl _ s⟩

theorem completes_finish (ps : List Part) (b : BankId) (s : State) (r : ResultCode) :
    Completes ps b s (.next (s.finish b r)) := (Writes.refl ps s).finish b r

theorem completes_ite {ps : List Part} {b : BankId} {s : State} {c : Prop} [Decidable c] {x y : Answered}
    (hx : Completes ps b s x) (hy : Completes ps b s y) : Completes ps b s (if c then x else y) := by
  split
  · exact hx
  · exact hy

theorem execAlloc_completes (b : BankId) (s : State) : Completes [.pool] b s (execAlloc b s) := by
  have hw := writes_allocSlot s
  unfold execAlloc
  split
  · rename_i h
    rw [h] at hw
    exact hw.finish ..
  · rename_i h
    rw [h] at hw
    exact hw.finishRes0 ..

theorem execDeq_completes (b : BankId) (s : State) : Completes [.pool] b s (execDeq b s) := by
  have hw := writes_deqSlot s
  unfold execDeq
  split
  · rename_i h
    rw [h] at hw
    exact hw.finish ..
  · rename_i h
    rw [h] at hw
    exact hw.finishRes0 ..

theorem writes_pushExternal (s : State) (g : TC64) : Writes [] s (s.pushExternal g) := by
  unfold State.pushExternal
  dsimp only
  split
  · split
    · exact writes_withEnv s _
    · split <;> exact writes_withEnv s _
  · exact .refl _ s

theorem execGenset_completes (b : BankId) (s : State) : Completes [] b s (execGenset b s) :=
  completes_ite (((writes_unread s ..).trans (writes_pushExternal ..)).finish ..) (completes_finish ..)

theorem execGenrun_completes (b : BankId) (en : Bool) (s : State) : Completes [] b s (execGenrun b en s) := by
  refine Writes.finish ?_ b .ok
  split <;> exact writes_unread s ..

theorem queryExternal_completes (b : BankId) (s : State) : Completes [] b s (.next (s.queryExternal b)) := by
  obtain ⟨e, he⟩ := s.readExternal_snd
  have hw : Writes [] s s.readExternal.2 := he ▸ writes_withEnv s e
  unfold State.queryExternal
  dsimp only
  split
  · exact hw.finish ..
  · exact hw.finish ..
  · exact hw.finishRes0 ..

theorem queryGenerator_completes (b : BankId) (s : State) : Completes [] b s (.next (s.queryGenerator b)) := by
  obtain ⟨e, he⟩ := s.readGenerator_snd
  have hw : Writes [] s s.readGenerator.2 := he ▸ writes_withEnv s e
  unfold State.queryGenerator
  dsimp only
  split
  · exact hw.finish ..
  · exact hw.finish ..
  · exact (hw.trans (writes_unread _ ..)).finishRes0 ..

theorem execTcquery_completes (b : BankId) (src : BitVec 3) (s : State) :
    Completes [] b s (execTcquery b src s) := by
  unfold execTcquery
  split
  · exact completes_setBank ..
  · exact (writes_unread s ..).finishRes0 ..
  · exact (writes_unread s ..).finishRes0 ..
  · exact queryExternal_completes b s
  · exact queryGenerator_completes b s
  · exact completes_finish ..

/-- The pieces a command writes beside its own bank and, in the case of XFER, the channel it takes. -/
def commandWrites : Instr → List Part
  | .init .. => [.session, .pacing, .run, .lastPb, .lastCap, .pool]
  | .start _ => [.run]
  | .stop _ => [.run]
  | .close _ => [.run]
  | .settrig _ => [.run]
  | .alloc _ => [.pool]
  | .free _ _ => [.pool]
  | .enq _ _ => [.pool]
  | .deq _ => [.pool]
  | .mdset _ _ => [.pool]
  | .setspeed _ => [.pacing]
  | _ => []

theorem writes_initSession (s : State) (cap pb aud : Bool) (pool : BitVec 8) (nch src : BitVec 4) :
    Writes [.session, .pacing, .run, .lastPb, .lastCap, .pool] s (s.initSession cap pb aud pool nch src) :=
  ⟨rfl, List.Subset.refl _, by rintro ⟨⟩ h <;> simp [Part.Same, State.initSession] at h ⊢⟩

/-- Every command but XFER ends or waits in its acceptance step, after writing the pieces of its table row. -/
theorem exec_completes {i : Instr} {b : BankId} (hb : i.bank? = some b) (hx : ∀ dir hint, i ≠ .xfer b dir hint)
    (s : State) : Completes (commandWrites i) b s (exec i s) := by
  cases i <;> cases hb
  case init => exact completes_ite ((writes_initSession ..).finish ..) (completes_finish ..)
  case start => exact completes_ite (completes_finish ..) ((writes_ask ..).hold _ nofun nofun)
  case stop => exact completes_ite (completes_finish ..) ((writes_ask ..).hold _ nofun nofun)
  case close => exact completes_ite ((writes_run ..).finish ..) (completes_finish ..)
  case settrig => exact completes_ite (completes_finish ..) ((writes_run ..).finish ..)
  case alloc => exact execAlloc_completes b s
  case free => exact completes_ite ((writes_freeSlot ..).finish ..) (completes_finish ..)
  case enq => exact completes_ite ((writes_enqSlot ..).finish ..) (completes_finish ..)
  case deq => exact execDeq_completes b s
  case mdset => exact completes_ite ((writes_setMeta ..).finish ..) (completes_finish ..)
  case mdget => exact completes_ite (completes_setBank ..) (completes_finish ..)
  case setspeed => exact completes_ite (completes_finish ..) ((writes_pacing ..).finish ..)
  case waitframe => exact (Writes.refl _ s).hold _ nofun nofun
  case xfer => exact absurd rfl (hx _ _)
  case genset => exact execGenset_completes b s
  case genrun => exact execGenrun_completes b _ s
  case tcquery => exact execTcquery_completes b _ s
  case audarm => exact completes_ite (completes_finish ..) ((writes_unread s ..).finish ..)
  all_goals exact completes_setBank ..


/-- Validation passes only hints that name a channel (R142). -/
theorem checkXfer_hint {p : Params} {r : XferReq} (h : checkXfer p r = .pass) : r.hint.toNat < p.numXferCh := by
  by_contra hn
  unfold checkXfer at h
  rw [if_pos (Nat.not_lt.1 hn)] at h
  split_ifs at h

/-- The channel found exists, if the hint names one that does, and its token is free (R143). -/
theorem findChannel_spec {s : State} {h : BitVec 2} {k : ChanId} (hh : h.toNat < s.cfg.numXferCh)
    (hk : s.findChannel (hintChannel h) = some k) : (s.chan k).token = false ∧ k.val < s.cfg.numXferCh := by
  refine ⟨by simpa using List.find?_some hk, ?_⟩
  have hm := List.mem_of_find?_eq_some hk
  simp only [channelOrder, List.mem_cons, List.mem_filter, Bool.and_eq_true, decide_eq_true_eq] at hm
  obtain rfl | ⟨-, hlt, -⟩ := hm
  · exact hh
  · exact hlt

/-- XFER ends with the state as it was but for a fault, or takes a channel that exists and whose token is free
(R142, R143). -/
theorem execXfer_cases (b : BankId) (dir : Bool) (hint : BitVec 2) (s : State) :
    Completes [] b s (execXfer b dir hint s) ∨
      ∃ k r, (s.chan k).token = false ∧ k.val < s.cfg.numXferCh ∧
        execXfer b dir hint s = .next (((s.acquire k b).stampTs k 0).hold b (.xfer .x2 k r)) := by
  unfold execXfer
  dsimp only
  split
  · exact .inl (completes_finish ..)
  split
  · rename_i hpass
    unfold State.xferStart
    split
    · exact .inl (completes_finish ..)
    · rename_i k hk
      obtain ⟨hfree, hlt⟩ := findChannel_spec (checkXfer_hint hpass) hk
      exact .inr ⟨k, _, hfree, hlt, rfl⟩
  · exact .inl (completes_finish ..)
  · exact .inl ((writes_raise ..).finish ..)

theorem writes_stampTs (s : State) (k : ChanId) (j : Fin 6) : Writes [.chans] s (s.stampTs k j) :=
  (writes_withEnv s _).andThen (writes_setChan ..)

theorem Completes.writes {ps : List Part} {b : BankId} {s t : State} (h : Completes ps b s (.next t)) :
    Writes (.banks :: .chans :: ps) s t := by
  obtain ⟨u, x, ht, -, hw⟩ := h
  cases ht
  exact (hw.andThen (writes_setBank ..)).mono (by simp)

/-- A command writes its bank, a channel in the case of XFER, and the pieces of its table row. -/
theorem writes_command {i : Instr} {b : BankId} (hb : i.bank? = some b) {s t : State} (h : exec i s = .next t) :
    Writes (.banks :: .chans :: commandWrites i) s t := by
  by_cases hx : ∃ dir hint, i = .xfer b dir hint
  · obtain ⟨dir, hint, rfl⟩ := hx
    replace h : execXfer b dir hint s = .next t := h
    obtain hc | ⟨k, r, -, -, he⟩ := execXfer_cases b dir hint s
    · rw [h] at hc
      exact hc.writes
    · rw [h] at he
      cases he
      exact (((writes_setChan s k _).trans (writes_stampTs ..)).andThen (writes_setBank ..)).mono (by simp)
  · have hc := exec_completes hb (fun dir hint e => hx ⟨dir, hint, e⟩) s
    rw [h] at hc
    exact hc.writes

/-- The decoder gives a command to the bank the word was written to (R114). -/
theorem bank?_of_decode {b : BankId} {w : U32} {i : Instr} (h : decode (.cmd b w) = .ok i) : i.bank? = some b := by
  have hz : ∀ {z : Bool} {j : Instr}, whenReservedZero z j = .ok i → j.bank? = some b → i.bank? = some b := by
    intro z j hj hbj
    unfold whenReservedZero at hj
    split at hj <;> cases hj
    exact hbj
  simp only [decode, decodeCommand] at h
  split at h
  case h_25 => cases h
  all_goals exact hz h rfl

/-! ### Transfers and channels (R141 to R167) -/

theorem Touches.writes {s t : State} (h : Touches s t) : Writes [.chans] s t := by
  rw [h.frame]
  exact ⟨rfl, List.Subset.refl _, by rintro ⟨⟩ hp <;> simp [Part.Same] at hp ⊢⟩

theorem writes_performChain (s : State) (k : ChanId) : Writes [.chans] s (s.performChain k) := by
  obtain ⟨-, h⟩ | ⟨-, -, u, hu, h⟩ := performChain_spec s k <;> rw [h]
  · exact .refl _ s
  · exact hu.writes.trans (writes_setChan ..)

theorem writes_spoil (s : State) (k : ChanId) (a : U64) (v : Byte) : Writes [.chans] s (s.spoil k a v) := by
  obtain h | ⟨u, hu, h⟩ := spoil_spec s k a v <;> rw [h]
  · exact .refl _ s
  · exact hu.writes.trans (writes_setChan ..)

theorem writes_latch (s : State) (j : Fin 9) : Writes [] s (s.latch j) := writes_unread s ..

theorem writes_raiseDone (s : State) (k : ChanId) : Writes [.chans] s (s.raiseDone k) := by
  obtain h | h | h := raiseDone_spec s k <;> rw [h]
  · exact (writes_latch ..).mono (by simp)
  · exact .refl _ s
  · exact (writes_setChan ..).andThen (writes_latch ..)

theorem writes_raiseChanBuserr (s : State) (k : ChanId) : Writes [] s (s.raiseChanBuserr k) := by
  unfold State.raiseChanBuserr
  split
  · exact writes_latch ..
  · exact .refl _ s

theorem writes_raiseAll (s : State) (fs : List ModelFault) : Writes [] s (s.raiseAll fs) :=
  List.foldlRecOn _ _ (.refl _ s) fun _ hu f _ => hu.trans (writes_raise _ f)

theorem writes_storeBytes (s : State) (a : U64) (bs : List Byte) : Writes [.chans] s (s.storeBytes a bs) := by
  obtain ⟨⟨m, cs, h⟩, -⟩ := State.storeBytes_eq bs s a
  rw [h]
  exact ⟨rfl, List.Subset.refl _, by rintro ⟨⟩ hp <;> simp [Part.Same] at hp ⊢⟩

theorem writes_setXferPhase (s : State) (b : BankId) (ph : XferPhase) (k : ChanId) (r : XferReq) :
    Writes [.banks] s (s.setXferPhase b ph k r) := writes_setBank ..

/-- A channel and then the bank of its transfer are written: the end of every phase of a transfer. -/
theorem writes_chan_bank (s : State) (k : ChanId) (c : Channel) (b : BankId) (x : Bank) :
    Writes [.banks, .chans] s ((s.setChan k c).setBank b x) :=
  ((writes_setChan ..).andThen (writes_setBank ..)).mono (by simp)

theorem writes_xferPin (s : State) (b : BankId) (k : ChanId) (r : XferReq) :
    Writes [.banks, .chans] s (s.xferPin b k r) := by
  unfold State.xferPin
  dsimp only
  split
  · exact (writes_withEnv s _).andThen (writes_chan_bank ..)
  · exact (writes_withEnv s _).andThen (writes_chan_bank ..)

theorem writes_xferMap (s : State) (b : BankId) (k : ChanId) (r : XferReq) :
    Writes [.banks, .chans] s (s.xferMap b k r) := by
  unfold State.xferMap
  dsimp only
  split
  · exact (writes_withEnv s _).andThen (writes_chan_bank ..)
  · refine Writes.andThen (ps := []) ?_ (writes_chan_bank ..)
    split
    · exact (writes_withEnv s _).trans (writes_raise ..)
    · exact writes_withEnv s _

theorem writes_xferProgram (s : State) (b : BankId) (k : ChanId) (r : XferReq) :
    Writes [.banks, .chans] s (s.xferProgram b k r) := by
  unfold State.xferProgram
  extract_lets s1 s2 s3
  have h2 : Writes [.chans] s s2 := (writes_raiseAll ..).andThen (writes_storeBytes ..)
  have h3 : Writes [.chans] s s3 :=
    ((h2.trans (writes_setChan ..)).trans (writes_stampTs ..)).trans (writes_stampTs ..)
  exact (h3.andThen (writes_chan_bank ..)).mono (by simp)

theorem writes_xferStop (s : State) (b : BankId) (k : ChanId) (r : XferReq) (o : XferOutcome) :
    Writes [.banks, .chans] s (s.xferStop b k r o) :=
  ((writes_stampTs ..).andThen (writes_setXferPhase ..)).mono (by simp)

theorem writes_xferCleanup (s : State) (b : BankId) (k : ChanId) (r : XferReq) (o : XferOutcome) :
    Writes [.banks, .chans] s (s.xferCleanup b k r o) := by
  obtain ⟨u, h, hu, -⟩ := s.xferCleanup_spec b k r o
  rw [h]
  refine .trans ?_ (writes_chan_bank ..)
  rw [hu]
  exact ⟨rfl, List.Subset.refl _, by rintro ⟨⟩ hp <;> simp [Part.Same] at hp ⊢⟩

theorem writes_callerStep (s : State) (b : BankId) : Writes [.banks, .chans] s (s.callerStep b) := by
  unfold State.callerStep
  split
  · exact .refl _ s
  · exact .refl _ s
  · exact .refl _ s
  · exact writes_xferPin ..
  · exact writes_xferMap ..
  · exact writes_xferProgram ..
  · unfold State.xferWait
    split
    · exact .refl _ s
    · exact writes_xferStop ..
  · exact writes_xferCleanup ..

theorem writes_callerEvent (s : State) (b : BankId) (o : XferOutcome) :
    Writes [.banks, .chans] s (s.callerEvent b o) := by
  unfold State.callerEvent
  split
  case h_3 => exact (writes_setBank ..).mono (by simp)
  case h_7 =>
    unfold State.xferBreak
    split
    · exact ((writes_setChan s _ _).andThen (writes_xferStop ..)).mono (by simp)
    · exact .refl _ s
  all_goals exact .refl _ s

/-! ### Interrupt sources (R326, R328 to R334) -/

theorem writes_handleDone (s : State) (k : ChanId) : Writes [.chans] s (s.handleDone k) := by
  unfold State.handleDone
  split
  · refine .trans ?_ (writes_setChan ..)
    obtain ⟨-, h⟩ | ⟨-, h⟩ := settle_spec s k <;> rw [h]
    · exact writes_performChain ..
    · exact .refl _ s
  · exact (writes_unread s ..).mono (by simp)

/-- A source other than OUTVERT's is taken out of the pass and counted or handled as a completion, and the pass
goes on or ends (R328 to R330, R332 to R334). -/
def Handles (j : Fin 9) (s t : State) : Prop :=
  ∃ u, ((∃ c, u = (s.takeSource j).count c) ∨ ∃ k, u = (s.takeSource j).handleDone k) ∧ t = u.passEnd

/-- A handler's step: OUTVERT hands over to a tick, every other source is handled within the pass (R326,
R331). -/
theorem exec_source {j : Fin 9} {s t : State} (h : exec (sourceInstr j) s = .next t) :
    Handles j s t ∨
      ∃ e ph, (ph = .f2 ∨ ph = .f1 .frameId) ∧ t = { (s.takeSource j).withEnv e with pc := ph } := by
  have hcount : ∀ j c, Handles j s ((s.takeSource j).count c).passEnd := fun j c =>
    ⟨_, .inl ⟨c, rfl⟩, rfl⟩
  have hdone : ∀ j k, Handles j s ((s.takeSource j).handleDone k).passEnd := fun j k =>
    ⟨_, .inr ⟨k, rfl⟩, rfl⟩
  fin_cases j <;> cases h
  · exact .inl (hcount 0 _)
  · exact .inl (hdone 1 0)
  · exact .inl (hdone 2 1)
  · exact .inl (hdone 3 2)
  · exact .inl (hdone 4 3)
  · refine .inr ⟨_, _, ?_, rfl⟩
    split
    · exact .inl rfl
    · exact .inr rfl
  · exact .inl (hcount 6 _)
  · exact .inl (hcount 7 _)
  · exact .inl (hcount 8 _)

theorem Handles.writes {j : Fin 9} {s t : State} (h : Handles j s t) : Writes [.pc, .passSet, .chans] s t := by
  obtain ⟨u, hu, rfl⟩ := h
  have hw : Writes [.chans] (s.takeSource j) u := by
    obtain ⟨c, rfl⟩ | ⟨k, rfl⟩ := hu
    · exact (writes_unread (s.takeSource j) ..).mono (by simp)
    · exact writes_handleDone ..
  exact (((writes_takeSource s j).andThen hw).andThen (writes_passEnd u)).mono (by simp)

theorem writes_source {j : Fin 9} {s t : State} (h : exec (sourceInstr j) s = .next t) :
    Writes [.pc, .passSet, .chans] s t := by
  obtain hh | ⟨e, ph, -, rfl⟩ := exec_source h
  · exact hh.writes
  · exact ⟨rfl, List.Subset.refl _, by rintro ⟨⟩ hp <;> simp [Part.Same] at hp ⊢⟩

/-! ### One step -/

/-- What a step does to the pieces the invariants read: an agent beside the commands and the dispatcher writes
banks and channels at most; the other steps are a command, a dispatch, a handler and the phases of a tick. -/
inductive Outline : State → State → Prop where
  | agent {s t : State} (h : Writes [.banks, .chans] s t) : Outline s t
  | command {s t : State} (b : BankId) (w : U32) (i : Instr) (hb : i.bank? = some b)
      (h : exec i (s.setCmd b w) = .next t) : Outline s t
  | dispatch {s : State} (hp : s.pc = .idle) (hl : s.irqLine = true) : Outline s s.takeInterrupt
  | source {s t : State} (j : Fin 9) (hp : s.pc = .handling) (h : exec (sourceInstr j) s = .next t) : Outline s t
  | phase {s : State} (n : F1Step) (hp : s.pc = .f1 n) : Outline s (s.f1Phase n)
  | field2 {s : State} (hp : s.pc = .f2) : Outline s s.f2Phase

theorem Transition.outline {s t : State} (h : Transition s t) : Outline s t := by
  cases h with
  | idle => exact .agent (.refl _ _)
  | look e => exact .agent ((writes_withEnv ..).mono (by simp))
  | note f e => exact .agent (((writes_raise ..).trans (writes_withEnv ..)).mono (by simp))
  | enable v => exact .agent ((writes_unread s ..).mono (by simp))
  | operand b off v => exact .agent ((writes_setBank ..).mono (by simp))
  | illegal b w => exact .agent (((writes_setBank s b _).trans (writes_setBank ..)).mono (by simp))
  | command b w i t _ _ hd he => exact .command b w i (bank?_of_decode hd) he
  | caller b => exact .agent (writes_callerStep ..)
  | callerEvent b o => exact .agent (writes_callerEvent ..)
  | dispatch hp hl => exact .dispatch hp hl
  | handler i t hp hd he =>
    obtain ⟨j, -, -, rfl⟩ := decode_status hd
    exact .source j hp he
  | phase n hp => exact .phase n hp
  | field2 hp => exact .field2 hp
  | raised e j => exact .agent (((writes_withEnv s e).trans (writes_latch ..)).mono (by simp))
  | done k => exact .agent ((writes_raiseDone ..).mono (by simp))
  | chanBuserr k => exact .agent ((writes_raiseChanBuserr ..).mono (by simp))
  | move k => exact .agent ((writes_performChain ..).mono (by simp))
  | spoil k a v => exact .agent ((writes_spoil ..).mono (by simp))
  | hostStore a v => exact .agent ((touches_storeHost ..).writes.mono (by simp))
  | cardStore a v => exact .agent ((writes_unread s ..).mono (by simp))

/-- A step in a configuration that has runs takes the next event off the schedule and then is one of these. -/
theorem step_outline {s t : State} (h : step s = .next t) : s.cfg.ok = true ∧ ∃ e, Outline (s.withEnv e) t := by
  obtain ⟨hc, e, ht⟩ := step_transition h
  exact ⟨hc, e, ht.outline⟩

/-- No step removes a fault or changes a parameter: every step writes some list of pieces. -/
theorem Outline.writes {s t : State} (h : Outline s t) : ∃ ps, Writes ps s t := by
  cases h with
  | agent h => exact ⟨_, h⟩
  | command b w i hb h =>
    have hw := writes_command hb h
    exact ⟨_, (writes_setBank s b _).andThen hw⟩
  | dispatch => exact ⟨_, writes_takeInterrupt s⟩
  | source j _ h => exact ⟨_, writes_source h⟩
  | phase n => exact ⟨_, writes_f1Phase n s⟩
  | field2 => exact ⟨_, writes_f2Phase s⟩

/-! ### The fault set (R47, R357) -/

/-- Settles O52: whatever a step writes, it writes no fault out of the fault set. -/
theorem faultsAreSticky : Obligations.FaultsAreSticky := by
  intro s t h
  obtain ⟨-, e, ho⟩ := step_outline h
  obtain ⟨ps, hw⟩ := ho.writes
  exact fun f hf => hw.faults hf


/-! ### Invariants that read neither banks nor channels -/

/-- An invariant that reads neither banks nor channels is kept by every step, if the commands, the dispatch, the
handlers and the phases of a tick keep it. -/
theorem step_keeps {rs : List Part} {P : State → Prop} (hr : Reads rs P) (hb : .banks ∉ rs) (hc : .chans ∉ rs)
    (command : ∀ {i b s t}, i.bank? = some b → s.cfg.ok = true → exec i s = .next t → P s → P t)
    (dispatch : ∀ {s}, s.pc = .idle → s.irqLine = true → P s → P s.takeInterrupt)
    (source : ∀ {j s t}, s.pc = .handling → exec (sourceInstr j) s = .next t → P s → P t)
    (phase : ∀ {s} n, s.pc = .f1 n → P s → P (s.f1Phase n))
    (field2 : ∀ {s}, s.pc = .f2 → P s → P s.f2Phase) {s t : State} (h : step s = .next t) (hs : P s) : P t := by
  obtain ⟨hok, e, ho⟩ := step_outline h
  have he : P (s.withEnv e) := hr.keep (writes_withEnv s e) (fun _ _ => by simp) hs
  have hd : ∀ p ∈ rs, p ∉ [Part.banks, .chans] := by
    rintro p hp hm
    obtain rfl | rfl : p = .banks ∨ p = .chans := by simpa using hm
    · exact hb hp
    · exact hc hp
  cases ho with
  | agent hw => exact hr.keep hw hd he
  | command b w i hi hx =>
    have hw : Writes [.banks, .chans] (s.withEnv e) ((s.withEnv e).setCmd b w) :=
      (writes_setBank ..).mono (by simp)
    exact command (s := (s.withEnv e).setCmd b w) hi hok hx (hr.keep hw hd he)
  | dispatch hp hl => exact dispatch hp hl he
  | source j hp hx => exact source hp hx he
  | phase n hp => exact phase n hp he
  | field2 hp => exact field2 hp he

/-- A command keeps what reads none of the pieces of its table row. -/
theorem Reads.keep_command {rs : List Part} {P : State → Prop} (hr : Reads rs P) {i : Instr} {b : BankId}
    (hi : i.bank? = some b) {s t : State} (h : exec i s = .next t)
    (hd : ∀ p ∈ rs, p ∉ Part.banks :: .chans :: commandWrites i) (hs : P s) : P t :=
  hr.keep (writes_command hi h) hd hs

/-! ### The pool (R42, R193) -/

theorem reads_poolInv : Reads [.session, .pool, .lastPb, .lastCap] PoolInv := by
  intro s t _ hsame h
  have hpool : t.pool = s.pool := hsame .pool (by simp)
  have hsess : t.session = s.session := hsame .session (by simp)
  exact h.congr (fun i => by rw [State.slotState, hpool, State.slotState]) (by rw [hpool]) (by rw [hpool])
    (by rw [hsess]) (hsame .lastPb (by simp)) (hsame .lastCap (by simp))

theorem PoolInv.setBank {s : State} (h : PoolInv s) (b : BankId) (x : Bank) : PoolInv (s.setBank b x) :=
  reads_poolInv.keep (writes_setBank ..) (by decide) h

/-- A last-assigned record may be cleared, or name a slot of the pool. -/
theorem PoolInv.setLastPb {s : State} (h : PoolInv s) (c : VidChan) (o : Option SlotIx)
    (ho : ∀ i ∈ o, i.val < s.session.poolSize.toNat) : PoolInv { s with lastPb := s.lastPb.set c.val o } :=
  { h with
    lastPb_lt := fun c' i hi => by
      simp only [Fin.getElem_fin, Vector.getElem_set] at hi
      split at hi
      · exact ho i hi
      · exact h.lastPb_lt c' i hi }

theorem PoolInv.setLastCap {s : State} (h : PoolInv s) (c : VidChan) (o : Option SlotIx)
    (ho : ∀ i ∈ o, i.val < s.session.poolSize.toNat) : PoolInv { s with lastCap := s.lastCap.set c.val o } :=
  { h with
    lastCap_lt := fun c' i hi => by
      simp only [Fin.getElem_fin, Vector.getElem_set] at hi
      split at hi
      · exact ho i hi
      · exact h.lastCap_lt c' i hi }

/-- A slot index that passes the check names a slot of the pool (R185). -/
theorem slotOperand_lt {s : State} {slot : BitVec 16} (h : slotValid s slot = true) :
    (slotOperand slot).val < s.session.poolSize.toNat :=
  (Nat.mod_le ..).trans_lt (of_decide_eq_true h)

/-- A fresh session's pool: every slot is FREE, and nothing is queued or assigned (R194, R280). -/
theorem poolInv_of_clear {s : State} (hp : s.pool = Pool.clear) (hb : s.lastPb = Vector.replicate 2 none)
    (hc : s.lastCap = Vector.replicate 2 none) : PoolInv s := by
  have hfree : ∀ i, s.slotState i = .free := fun i => by simp [State.slotState, hp, Pool.clear]
  exact {
    depth_eq := by simp [hp, Pool.clear]
    nodup := by simp [hp, Pool.clear]
    queued_iff := fun i => by simp [hp, Pool.clear, hfree]
    outside_free := fun i _ => hfree i
    lastPb_lt := fun c i hi => by simp [hb] at hi
    lastCap_lt := fun c i hi => by simp [hc] at hi }

theorem PoolInv.execInit {b : BankId} {cap pb aud : Bool} {pool : BitVec 8} {nch src : BitVec 4} {s t : State}
    (h : PoolInv s) (he : execInit b cap pb aud pool nch src s = .next t) : PoolInv t := by
  unfold Machine.execInit at he
  split at he <;> cases he
  · exact (poolInv_of_clear rfl rfl rfl).setBank ..
  · exact h.setBank ..

theorem PoolInv.execAlloc {b : BankId} {s t : State} (h : PoolInv s) (he : execAlloc b s = .next t) :
    PoolInv t := by
  have ha := h.allocSlot
  unfold Machine.execAlloc at he
  split at he <;> rename_i hs <;> rw [hs] at ha <;> cases he <;> exact ha.setBank ..

theorem PoolInv.execDeq {b : BankId} {s t : State} (h : PoolInv s) (he : execDeq b s = .next t) : PoolInv t := by
  have ha := h.deqSlot
  unfold Machine.execDeq at he
  split at he <;> rename_i hs <;> rw [hs] at ha <;> cases he <;> exact ha.setBank ..

theorem PoolInv.execFree {b : BankId} {slot : BitVec 16} {s t : State} (h : PoolInv s)
    (he : execFree b slot s = .next t) : PoolInv t := by
  unfold Machine.execFree at he
  split at he <;> cases he
  · rename_i hv
    exact (h.freeSlot (slotOperand_lt hv)).setBank ..
  · exact h.setBank ..

theorem PoolInv.execEnq {b : BankId} {slot : BitVec 16} {s t : State} (h : PoolInv s)
    (he : execEnq b slot s = .next t) : PoolInv t := by
  unfold Machine.execEnq at he
  split at he <;> cases he
  · exact (h.enqSlot _).setBank ..
  · exact h.setBank ..

theorem PoolInv.execMdset {b : BankId} {slot : BitVec 16} {s t : State} (h : PoolInv s)
    (he : execMdset b slot s = .next t) : PoolInv t := by
  unfold Machine.execMdset at he
  split at he <;> cases he
  · exact (h.setMeta ..).setBank ..
  · exact h.setBank ..

/-- Only the pool commands and INIT write the pool; each keeps its invariants (R186 to R192, R280). -/
theorem PoolInv.command {i : Instr} {b : BankId} {s t : State} (hi : i.bank? = some b) (he : exec i s = .next t)
    (h : PoolInv s) : PoolInv t := by
  cases i with
  | init => exact h.execInit he
  | alloc => exact h.execAlloc he
  | free => exact h.execFree he
  | enq => exact h.execEnq he
  | deq => exact h.execDeq he
  | mdset => exact h.execMdset he
  | _ => exact reads_poolInv.keep_command hi he (by simp [commandWrites]) h

/-! ### The freeing step (R253, R254) -/

theorem PoolInv.freePlayed {s : State} (h : PoolInv s) (c : VidChan) : PoolInv (s.freePlayed c) := by
  unfold State.freePlayed
  split
  · exact h
  · rename_i i hi
    exact (h.freeSlot (h.lastPb_lt c i hi)).setLastPb c none (by simp)

theorem PoolInv.queueCaptured {s : State} (h : PoolInv s) (ap : U64) (c : VidChan) :
    PoolInv (s.queueCaptured ap c) := by
  unfold State.queueCaptured
  split
  · exact h
  · rename_i i hi
    obtain ⟨e, m, hq⟩ := s.stampAndQueue_eq i ap
    rw [hq]
    exact (((h.withEnv e).setMeta i m).enqSlot i).setLastCap c none (by simp)

theorem PoolInv.freeing {s : State} (h : PoolInv s) : PoolInv s.freeing := by
  unfold State.freeing
  exact List.foldlRecOn _ _ (h.withEnv _) fun _ hu c _ => (hu.freePlayed c).queueCaptured _ c

/-! ### The stream service (R255 to R263) -/

theorem PoolInv.discard {s : State} (h : PoolInv s) (n : Nat) : PoolInv (State.discard n s) := by
  induction n generalizing s with
  | zero => exact h
  | succ n ih =>
    have hd := h.deqSlot
    unfold State.discard
    split
    · rename_i hs
      rwa [hs] at hd
    · rename_i i s1 hs
      rw [hs] at hd
      obtain ⟨hlt, hsess, -⟩ := h.deqSlot_lt hs
      exact ih (hd.freeSlot (hsess ▸ hlt))

theorem PoolInv.override {s : State} (h : PoolInv s) (i : SlotIx) : PoolInv (s.override i) := by
  unfold State.override
  dsimp only
  split
  · exact (reads_poolInv.keep (writes_unread s ..) (by decide) h).setMeta ..
  · exact h

/-- Displaying a slot of the pool keeps the invariants (R258). -/
theorem PoolInv.display {s : State} (h : PoolInv s) (c : VidChan) {i : SlotIx}
    (hi : i.val < s.session.poolSize.toNat) : PoolInv (s.display c i) :=
  (reads_poolInv.keep (writes_outsel s (s.outsel.set c.val (slotSelect i))) (by decide) h).setLastPb c (some i)
    (by simpa using hi)

theorem PoolInv.tagMismatch {s : State} (h : PoolInv s) {i : SlotIx}
    (hi : i.val < s.session.poolSize.toNat) : PoolInv (s.tagMismatch i) :=
  (reads_poolInv.keep (writes_unread s ..) (by decide) h).freeSlot hi

theorem PoolInv.servicePlayback {s : State} (h : PoolInv s) (cs : List VidChan) (i0 : Option SlotIx) :
    PoolInv (State.servicePlayback cs i0 s) := by
  induction cs generalizing i0 s with
  | nil =>
    cases i0 with
    | none => exact h
    | some i => exact h.override i
  | cons c cs ih =>
    have hd := h.deqSlot
    unfold State.servicePlayback
    split
    · rename_i hs
      rwa [hs] at hd
    · rename_i i s1 hs
      rw [hs] at hd
      obtain ⟨hlt, hsess, -⟩ := h.deqSlot_lt hs
      rw [← hsess] at hlt
      split
      · exact ih (hd.display c hlt) _
      · exact hd.tagMismatch hlt

theorem PoolInv.pace {s : State} (h : PoolInv s) : PoolInv s.pace.2 :=
  reads_poolInv.keep (writes_pace s) (by decide) h

theorem PoolInv.recordDrop {s : State} (h : PoolInv s) : PoolInv s.recordDrop :=
  reads_poolInv.keep (writes_unread s ..) (by decide) h

theorem PoolInv.playbackTick {s : State} (h : PoolInv s) : PoolInv s.playbackTick := by
  unfold State.playbackTick
  split
  · exact h
  split
  · exact h.recordDrop
  dsimp only
  split
  · exact h.pace
  · exact (h.pace.discard _).servicePlayback ..

/-- Capturing into a slot of the pool keeps the invariants (R262). -/
theorem PoolInv.captureInto {s : State} (h : PoolInv s) (c : VidChan) {i : SlotIx} (n : U64)
    (hi : i.val < s.session.poolSize.toNat) : PoolInv (s.captureInto c i n) :=
  ((reads_poolInv.keep (writes_insel s (s.insel.set c.val (slotSelect i))) (by decide) h).setLastCap c (some i)
    (by simpa using hi)).setMeta ..

theorem PoolInv.serviceCapture {s : State} (h : PoolInv s) (cs : List VidChan) (n : U64) :
    PoolInv (State.serviceCapture cs n s) := by
  induction cs generalizing s with
  | nil => exact h
  | cons c cs ih =>
    have ha := h.allocSlot
    unfold State.serviceCapture
    obtain ⟨hs, -⟩ | ⟨i, e, hs, hi, -, -⟩ := s.allocSlot_cases <;> rw [hs] at ha ⊢
    · exact reads_poolInv.keep (writes_unread s ..) (by decide) h
    · exact ih (ha.captureInto c n hi)

theorem PoolInv.captureTick {s : State} (h : PoolInv s) : PoolInv s.captureTick := by
  unfold State.captureTick
  split
  · exact h
  split
  · exact h.recordDrop
  · exact (reads_poolInv.keep (writes_adjustGenerator ..) (by decide) h.pace).serviceCapture ..

theorem PoolInv.stepService {s : State} (h : PoolInv s) : PoolInv s.stepService := by
  unfold State.stepService
  split
  · exact (reads_poolInv.keep (writes_audioTrigger s) (by decide) h).playbackTick.captureTick
  · exact h

/-- The boundary writes the session's valid flag, and leaves the pool size (R220). -/
theorem PoolInv.stepBoundary {s : State} (h : PoolInv s) : PoolInv s.stepBoundary :=
  h.congr (fun _ => rfl) rfl rfl rfl rfl rfl

theorem PoolInv.goto {s : State} (h : PoolInv s) (n : F1Step) : PoolInv (s.goto n) :=
  reads_poolInv.keep (writes_goto s n) (by decide) h

/-- Of the phases of a tick only the boundary, the freeing step and the service write what the invariants
read. -/
theorem PoolInv.f1Phase {s : State} (h : PoolInv s) (n : F1Step) : PoolInv (s.f1Phase n) := by
  cases n with
  | boundary => exact h.stepBoundary.goto _
  | freeing => exact h.freeing.goto _
  | service => exact h.stepService.goto _
  | _ => exact reads_poolInv.keep (writes_f1Phase _ s) (by decide) h

/-- Settles O54: beside the pool commands and INIT, only the freeing step and the stream service write the pool,
and they do so by the pool primitives, each of which keeps the invariants. -/
theorem stepKeepsPoolInvariant : Obligations.StepKeepsPoolInvariant := fun _ _ =>
  step_keeps reads_poolInv (by decide) (by decide)
    (command := fun hi _ he h => h.command hi he)
    (dispatch := fun _ _ => reads_poolInv.keep (writes_takeInterrupt _) (by decide))
    (source := fun _ he => reads_poolInv.keep (writes_source he) (by decide))
    (phase := fun n _ h => h.f1Phase n)
    (field2 := fun _ => reads_poolInv.keep (writes_f2Phase _) (by decide))

end Sys2Proof.Machine

/-! SUPPORT. The invariants of the session, of the pacing state and of the sequencer, and who writes the frame
clock's registers: each by the pieces it reads and the few operations that write them. -/

namespace Sys2Proof.Machine

/-! ### The session and the run control (R36, R38, R223) -/

theorem reads_sessionInv : Reads [.session, .run] SessionInv := by
  intro s t hcfg hsame h
  have hsess : t.session = s.session := hsame .session (by simp)
  have hrun : t.run = s.run := hsame .run (by simp)
  constructor <;> simp only [hsess, hrun, hcfg]
  · exact h.channels
  · exact h.pool_pos
  · exact h.pool_le
  · exact h.running_valid
  · exact h.trigger_valid
  · exact h.request_valid
  · exact h.close_stops

theorem SessionInv.setBank {s : State} (h : SessionInv s) (b : BankId) (x : Bank) : SessionInv (s.setBank b x) :=
  reads_sessionInv.keep (writes_setBank ..) (by decide) h

/-- INIT's checks, one by one (R280). -/
theorem initAccepted_iff (s : State) (aud : Bool) (pool : BitVec 8) (nch src : BitVec 4) :
    initAccepted s aud pool nch src = true ↔
      s.run.running = false ∧ s.run.req = .none ∧ (nch = 1 ∨ nch = 2) ∧ 1 ≤ pool.toNat ∧
        pool.toNat ≤ s.cfg.poolMax ∧ src.toNat ≤ 3 ∧ (aud = false ∨ s.cfg.hasAudio = true) := by
  simp [initAccepted, and_assoc]

/-- A session that INIT accepts fits, and nothing is running, armed or pending in it (R280). -/
theorem SessionInv.initSession {s : State} (h : SessionInv s) (hcfg : s.cfg.poolMax ≤ 64) {aud : Bool}
    {pool : BitVec 8} {nch src : BitVec 4} (ha : initAccepted s aud pool nch src = true) (cap pb : Bool) :
    SessionInv (s.initSession cap pb aud pool nch src) := by
  obtain ⟨hrun, hreq, hnch, hpos, hle, -, -⟩ := (initAccepted_iff ..).1 ha
  have hpool : (pool.setWidth 7).toNat = pool.toNat := by
    rw [BitVec.toNat_setWidth, Nat.mod_eq_of_lt (by omega)]
  have hclose : s.run.closePending = false := by
    by_contra hc
    simpa [hreq] using h.close_stops (by simpa using hc)
  exact {
    channels := fun _ => by
      obtain rfl | rfl := hnch
      · exact .inl rfl
      · exact .inr rfl
    pool_pos := fun _ => hpool.symm ▸ hpos
    pool_le := hpool.symm ▸ hle
    running_valid := fun _ => rfl
    trigger_valid := fun _ => rfl
    request_valid := fun _ => rfl
    close_stops := fun hc => by simp [State.initSession, hclose] at hc }

/-- In a valid session the run control may be written, if a pending CLOSE stays with STOP. -/
theorem SessionInv.setRun {s : State} (h : SessionInv s) (hv : s.session.valid = true) (r : RunCtl)
    (hc : r.closePending = true → r.req = .stop) : SessionInv { s with run := r } :=
  ⟨h.channels, h.pool_pos, h.pool_le, fun _ => hv, fun _ => hv, fun _ => hv, hc⟩

theorem SessionInv.execInit {b : BankId} {cap pb aud : Bool} {pool : BitVec 8} {nch src : BitVec 4} {s t : State}
    (h : SessionInv s) (hcfg : s.cfg.poolMax ≤ 64) (he : execInit b cap pb aud pool nch src s = .next t) :
    SessionInv t := by
  unfold Machine.execInit at he
  split at he <;> cases he
  · rename_i ha
    exact (h.initSession hcfg ha cap pb).setBank ..
  · exact h.setBank ..

theorem SessionInv.execStart {b : BankId} {s t : State} (h : SessionInv s) (he : execStart b s = .next t) :
    SessionInv t := by
  unfold Machine.execStart at he
  split at he <;> cases he
  · exact h.setBank ..
  · rename_i hg
    simp only [Bool.or_eq_true, Bool.not_eq_true', not_or, Bool.not_eq_false, Bool.not_eq_true] at hg
    exact (h.setRun hg.1 _ fun hc => by simp [hg.2] at hc).setBank ..

theorem SessionInv.execStop {b : BankId} {s t : State} (h : SessionInv s) (he : execStop b s = .next t) :
    SessionInv t := by
  unfold Machine.execStop at he
  split at he <;> cases he
  · exact h.setBank ..
  · rename_i hv
    exact (h.setRun (by simpa using hv) _ fun _ => rfl).setBank ..

theorem SessionInv.execClose {b : BankId} {s t : State} (h : SessionInv s) (he : execClose b s = .next t) :
    SessionInv t := by
  unfold Machine.execClose at he
  split at he <;> cases he
  · rename_i hv
    exact (h.setRun hv _ fun _ => rfl).setBank ..
  · exact h.setBank ..

theorem SessionInv.execSettrig {b : BankId} {s t : State} (h : SessionInv s) (he : execSettrig b s = .next t) :
    SessionInv t := by
  unfold Machine.execSettrig at he
  split at he <;> cases he
  · exact h.setBank ..
  · rename_i hg
    simp only [Bool.or_eq_true, Bool.not_eq_true', not_or, Bool.not_eq_false] at hg
    exact (h.setRun hg.1 { s.run with trigId := (s.bank b).arg0, trigArmed := true } h.close_stops).setBank ..

/-- Only the session commands write the session or the run control (R280 to R287). -/
theorem SessionInv.command {i : Instr} {b : BankId} {s t : State} (hi : i.bank? = some b)
    (hcfg : s.cfg.poolMax ≤ 64) (he : exec i s = .next t) (h : SessionInv s) : SessionInv t := by
  cases i with
  | init => exact h.execInit hcfg he
  | start => exact h.execStart he
  | stop => exact h.execStop he
  | close => exact h.execClose he
  | settrig => exact h.execSettrig he
  | _ => exact reads_sessionInv.keep_command hi he (by simp [commandWrites]) h

/-- The trigger leaves the request as it is, and starts the stream only where it was armed (R220). -/
theorem RunCtl.trigger_cases (r : RunCtl) (frame : U64) :
    r.trigger frame = r ∨
      (r.trigArmed = true ∧ r.trigger frame = { r with running := true, trigArmed := false }) := by
  unfold RunCtl.trigger
  split
  · rename_i hg
    exact .inr ⟨(Bool.and_eq_true_iff.1 hg).1, rfl⟩
  · exact .inl rfl

theorem SessionInv.trigger {s : State} (h : SessionInv s) (frame : U64) :
    SessionInv { s with run := s.run.trigger frame } := by
  obtain e | ⟨harm, e⟩ := s.run.trigger_cases frame <;> rw [e]
  · exact h
  · exact h.setRun (h.trigger_valid harm) _ h.close_stops

theorem RunCtl.closes_trigger (r : RunCtl) (frame : U64) : (r.trigger frame).closes = r.closes := by
  obtain e | ⟨-, e⟩ := r.trigger_cases frame <;> rw [e]
  rfl

/-- The request is applied at the boundary: STOP leaves nothing that needs a valid session, START runs in one,
and only a pending CLOSE, which comes with STOP, ends the session (R220). -/
theorem SessionInv.applyReq {s : State} (h : SessionInv s) :
    SessionInv { s with
      run := s.run.applyReq
      session := { s.session with valid := s.session.valid && !s.run.closes } } := by
  unfold RunCtl.applyReq RunCtl.closes
  split
  · rename_i hr
    simpa [hr] using h
  · rename_i hr
    have hv : s.session.valid = true := h.request_valid (by simp [hr])
    have hc : s.run.closePending = false := by
      by_contra hc
      simpa [hr] using h.close_stops (by simpa using hc)
    have hs : (s.session.valid && !(decide (s.run.req = .stop) && s.run.closePending)) = s.session.valid := by
      simp [hc]
    rw [hs]
    exact h.setRun hv _ fun h' => by simp [hc] at h'
  · have hw : ∀ {c : Bool}, (s.session.valid && c) = true → s.session.valid = true := fun hc =>
      (Bool.and_eq_true_iff.1 hc).1
    exact ⟨fun hv => h.channels (hw hv), fun hv => h.pool_pos (hw hv), h.pool_le, nofun, nofun,
      fun hn => absurd rfl hn, nofun⟩

theorem SessionInv.stepBoundary {s : State} (h : SessionInv s) : SessionInv s.stepBoundary := by
  have hb := (h.trigger s.frameId).applyReq
  simp only [RunCtl.closes_trigger] at hb
  exact reads_sessionInv.keep (writes_wakeAll ..) (by decide) hb

theorem SessionInv.f1Phase {s : State} (h : SessionInv s) (n : F1Step) : SessionInv (s.f1Phase n) := by
  cases n with
  | boundary => exact reads_sessionInv.keep (writes_goto ..) (by decide) h.stepBoundary
  | _ => exact reads_sessionInv.keep (writes_f1Phase _ s) (by decide) h

theorem poolMax_le {p : Params} (h : p.ok = true) : p.poolMax ≤ 64 := ((p.ok_iff_configValid).1 h).pool.2

/-- Settles O56: the session commands and the boundary are the only writers of the session and the run
control. -/
theorem stepKeepsSessionInvariant : Obligations.StepKeepsSessionInvariant := fun _ _ =>
  step_keeps reads_sessionInv (by decide) (by decide)
    (command := fun hi hok he h => h.command hi (poolMax_le hok) he)
    (dispatch := fun _ _ => reads_sessionInv.keep (writes_takeInterrupt _) (by decide))
    (source := fun _ he => reads_sessionInv.keep (writes_source he) (by decide))
    (phase := fun n _ h => h.f1Phase n)
    (field2 := fun _ => reads_sessionInv.keep (writes_f2Phase _) (by decide))

/-! ### The pacing state (R37, R229, R251) -/

/-- The pacing values are in range, in whatever phase. -/
def PacingRange (s : State) : Prop :=
  s.pacing.acc.toNat < speedOne ∧ s.pacing.speed.toNat ≤ s.cfg.maxSpeed

theorem reads_pacingRange : Reads [.pacing] PacingRange := by
  intro s t hcfg hsame h
  have hp : t.pacing = s.pacing := hsame .pacing (by simp)
  rwa [PacingRange, hp, hcfg]

theorem reads_pacingInv : Reads [.pacing, .pc] PacingInv := by
  intro s t hcfg hsame h
  have hp : t.pacing = s.pacing := hsame .pacing (by simp)
  have hpc : t.pc = s.pc := hsame .pc (by simp)
  exact ⟨hp ▸ h.acc_lt, by rw [hp, hcfg]; exact h.speed_le, by rw [hp, hpc]; exact h.paced_phase⟩

theorem PacingInv.range {s : State} (h : PacingInv s) : PacingRange s := ⟨h.acc_lt, h.speed_le⟩

theorem PacingInv.of_range {s : State} (h : PacingRange s) (hp : s.pacing.paced = true → s.pc ∈ pacedPhases) :
    PacingInv s := ⟨h.1, h.2, hp⟩

/-- Outside the paced phases the tick has not paced. -/
theorem PacingInv.not_paced {s : State} (h : PacingInv s) (hp : s.pc ∉ pacedPhases) : s.pacing.paced = false := by
  by_contra hc
  exact hp (h.paced_phase (by simpa using hc))

/-- A step that leaves the pacing state alone, taken in a phase where the tick has not paced, may go anywhere. -/
theorem PacingInv.elsewhere {s t : State} {ps : List Part} (h : PacingInv s) (hp : s.pc ∉ pacedPhases)
    (hw : Writes ps s t) (hd : .pacing ∉ ps) : PacingInv t := by
  have he : t.pacing = s.pacing := hw.same .pacing hd
  refine .of_range (reads_pacingRange.keep hw (by simpa using hd) h.range) fun ht => ?_
  rw [he, h.not_paced hp] at ht
  cases ht

theorem PacingRange.advance {s : State} (h : PacingRange s) :
    PacingRange { s with pacing := s.pacing.advance } := by
  refine ⟨?_, h.2⟩
  have hlt : (s.pacing.acc.toNat + s.pacing.speed.toNat) % speedOne < speedOne := Nat.mod_lt _ (by simp)
  simp only [Pacing.advance, BitVec.toNat_ofNat]
  exact (Nat.mod_le ..).trans_lt hlt

theorem PacingRange.pace {s : State} (h : PacingRange s) : PacingRange s.pace.2 := by
  unfold State.pace
  split
  · exact h
  · exact h.advance

theorem PacingRange.playbackTick {s : State} (h : PacingRange s) : PacingRange s.playbackTick := by
  unfold State.playbackTick
  split
  · exact h
  split
  · exact h
  dsimp only
  split
  · exact h.pace
  · exact reads_pacingRange.keep (writes_servicePlayback ..) (by decide)
      (reads_pacingRange.keep (writes_discard ..) (by decide) h.pace)

theorem PacingRange.captureTick {s : State} (h : PacingRange s) : PacingRange s.captureTick := by
  unfold State.captureTick
  split
  · exact h
  split
  · exact h
  · exact reads_pacingRange.keep (writes_serviceCapture ..) (by decide)
      (reads_pacingRange.keep (writes_adjustGenerator ..) (by decide) h.pace)

theorem PacingRange.stepService {s : State} (h : PacingRange s) : PacingRange s.stepService := by
  unfold State.stepService
  split
  · exact (reads_pacingRange.keep (writes_audioTrigger s) (by decide) h).playbackTick.captureTick
  · exact h

/-- The service may pace, and F1(7) is a paced phase; the end of the tick clears `paced`; no other phase writes
the pacing state (R224, R229, R250). -/
theorem PacingInv.f1Phase {s : State} (h : PacingInv s) {n : F1Step} (hpc : s.pc = .f1 n) :
    PacingInv (s.f1Phase n) := by
  have hw := writes_f1Phase n s
  have hout : ∀ {m : F1Step}, .f1 m ∈ pacedPhases → (s.f1Phase n).pc = .f1 m → PacingRange (s.f1Phase n) →
      PacingInv (s.f1Phase n) := fun hm hg hr => .of_range hr fun _ => hg ▸ hm
  cases n with
  | frameId | generator | boundary | snapshot | freeing =>
    exact h.elsewhere (by rw [hpc]; decide) hw (by decide)
  | service =>
    have hr : PacingRange (s.f1Phase .service) :=
      reads_pacingRange.keep (writes_goto ..) (by decide) h.range.stepService
    exact hout (m := .wirePush) (by decide) rfl hr
  | wirePush => exact hout (m := .extSync) (by decide) rfl (reads_pacingRange.keep hw (by decide) h.range)
  | extSync => exact hout (m := .serial) (by decide) rfl (reads_pacingRange.keep hw (by decide) h.range)
  | serial => exact hout (m := .wake) (by decide) rfl (reads_pacingRange.keep hw (by decide) h.range)
  | wake => exact hout (m := .audio) (by decide) rfl (reads_pacingRange.keep hw (by decide) h.range)
  | audio =>
    have hr : PacingRange s.stepAudio := reads_pacingRange.keep (writes_stepAudio s) (by decide) h.range
    exact ⟨hr.1, hr.2, nofun⟩

theorem PacingInv.setBank {s : State} (h : PacingInv s) (b : BankId) (x : Bank) : PacingInv (s.setBank b x) :=
  reads_pacingInv.keep (writes_setBank ..) (by decide) h

theorem PacingInv.execInit {b : BankId} {cap pb aud : Bool} {pool : BitVec 8} {nch src : BitVec 4} {s t : State}
    (h : PacingInv s) (hcfg : speedOne ≤ s.cfg.maxSpeed) (he : execInit b cap pb aud pool nch src s = .next t) :
    PacingInv t := by
  have hi : PacingInv (s.initSession cap pb aud pool nch src) :=
    ⟨by simp [State.initSession], (Nat.mod_le ..).trans hcfg, h.paced_phase⟩
  unfold Machine.execInit at he
  split at he <;> cases he
  · exact hi.setBank ..
  · exact h.setBank ..

theorem PacingInv.execSetspeed {b : BankId} {s t : State} (h : PacingInv s) (he : execSetspeed b s = .next t) :
    PacingInv t := by
  unfold Machine.execSetspeed at he
  split at he <;> cases he
  · exact h.setBank ..
  · rename_i hle
    exact PacingInv.setBank (s := { s with pacing := { s.pacing with speed := (s.bank b).arg0 } })
      ⟨h.acc_lt, Nat.not_lt.1 hle, h.paced_phase⟩ ..

theorem PacingInv.command {i : Instr} {b : BankId} {s t : State} (hi : i.bank? = some b)
    (hcfg : speedOne ≤ s.cfg.maxSpeed) (he : exec i s = .next t) (h : PacingInv s) : PacingInv t := by
  cases i with
  | init => exact h.execInit hcfg he
  | setspeed => exact h.execSetspeed he
  | _ => exact reads_pacingInv.keep_command hi he (by simp [commandWrites]) h

theorem speedOne_le_maxSpeed {p : Params} (h : p.ok = true) : speedOne ≤ p.maxSpeed :=
  ((p.ok_iff_configValid).1 h).speed.1

/-- Settles O57: SETSPEED, INIT, the service and the end of a tick write the pacing state, and a pass begins and
ends outside the paced phases. -/
theorem stepKeepsPacingInvariant : Obligations.StepKeepsPacingInvariant := fun _ _ =>
  step_keeps reads_pacingInv (by decide) (by decide)
    (command := fun hi hok he h => h.command hi (speedOne_le_maxSpeed hok) he)
    (dispatch := fun hp _ h => h.elsewhere (by rw [hp]; decide) (writes_takeInterrupt _) (by decide))
    (source := fun hp he h => h.elsewhere (by rw [hp]; decide) (writes_source he) (by decide))
    (phase := fun _ hp h => h.f1Phase hp)
    (field2 := fun hp h => h.elsewhere (by rw [hp]; decide) (writes_f2Phase _) (by decide))

/-! ### The sequencer (R24, R334) -/

theorem reads_sequencerInv : Reads [.pc, .passSet] SequencerInv := by
  intro s t _ hsame h
  have hpc : t.pc = s.pc := hsame .pc (by simp)
  have hset : t.passSet = s.passSet := hsame .passSet (by simp)
  exact ⟨by rw [hpc, hset]; exact h.handling_some, by rw [hpc, hset]; exact h.idle_none⟩

/-- A pass that goes on or ends is in order, whatever it was before (R334). -/
theorem sequencerInv_passEnd (s : State) : SequencerInv s.passEnd := by
  have hpc : s.passEnd.pc = if s.passSet = 0 then .idle else .handling := rfl
  by_cases h : s.passSet = 0
  · rw [if_pos h] at hpc
    exact ⟨fun hp => by simp [hpc] at hp, fun _ => h⟩
  · rw [if_neg h] at hpc
    exact ⟨fun _ => h, fun hp => by simp [hpc] at hp⟩

/-- In a phase of a tick nothing is asked of the pass. -/
theorem sequencerInv_of_tick {s : State} (hh : s.pc ≠ .handling) (hi : s.pc ≠ .idle) : SequencerInv s :=
  ⟨fun h => absurd h hh, fun h => absurd h hi⟩

theorem sequencerInv_f1Phase (n : F1Step) (s : State) : SequencerInv (s.f1Phase n) := by
  cases n with
  | audio => exact sequencerInv_passEnd _
  | _ => exact sequencerInv_of_tick nofun nofun

theorem sequencerInv_source {j : Fin 9} {s t : State} (h : exec (sourceInstr j) s = .next t) : SequencerInv t := by
  obtain ⟨u, -, rfl⟩ | ⟨e, ph, rfl | rfl, rfl⟩ := exec_source h
  · exact sequencerInv_passEnd u
  · exact sequencerInv_of_tick nofun nofun
  · exact sequencerInv_of_tick nofun nofun

/-- A dispatch is taken for a pending source, so the pass it starts is not empty (R325). -/
theorem sequencerInv_dispatch {s : State} (h : s.irqLine = true) : SequencerInv s.takeInterrupt :=
  ⟨fun _ => bne_iff_ne.1 h, nofun⟩

theorem SequencerInv.step {s t : State} (ht : step s = .next t) (h : SequencerInv s) : SequencerInv t :=
  step_keeps reads_sequencerInv (by decide) (by decide)
    (command := fun {i _ _ _} hi _ he =>
      reads_sequencerInv.keep_command hi he (by cases i <;> simp [commandWrites]))
    (dispatch := fun _ hl _ => sequencerInv_dispatch hl)
    (source := fun _ he _ => sequencerInv_source he)
    (phase := fun n _ _ => sequencerInv_f1Phase n _)
    (field2 := fun _ _ => sequencerInv_passEnd _) ht h

/-- Settles O58: the invariants are kept, and the one step that faults handles an empty pass, which they shut
out. -/
theorem stepKeepsSequencerInvariant : Obligations.StepKeepsSequencerInvariant := by
  intro s h
  by_cases hok : s.cfg.ok = true
  · obtain ⟨t, ht⟩ | ⟨hpc, hset, -⟩ := step_outcome hok
    · exact .inl ⟨t, ht, h.step ht⟩
    · exact absurd hset (h.handling_some hpc)
  · exact .inr (step_refused_of_not_ok hok)

/-! ### The frame clock's registers (R28, R29, R44) -/

/-- What a step of one phase of a tick alone writes is left as it is by every other step. -/
theorem Outline.same_or_phase {s t : State} (h : Outline s t) {p : Part}
    (hp : p ∈ [.frameId, .curFrame, .outsel, .insel]) :
    p.Same s t ∨ ∃ n, s.pc = .f1 n ∧ t = s.f1Phase n ∧ p ∈ phaseWrites n := by
  have hcmd : ∀ i, p ∉ Part.banks :: .chans :: commandWrites i := by
    intro i
    fin_cases hp <;> cases i <;> simp [commandWrites]
  have hother : p ∉ [Part.banks, .chans, .pc, .passSet] := by fin_cases hp <;> decide
  cases h with
  | agent hw => exact .inl ((hw.mono (by simp)).same p hother)
  | command b w i hb he =>
    have hw : Writes (.banks :: .chans :: commandWrites i) s t :=
      ((writes_setBank s b _).andThen (writes_command hb he)).mono (by simp)
    exact .inl (hw.same p (hcmd i))
  | dispatch => exact .inl (((writes_takeInterrupt s).mono (by simp)).same p hother)
  | source j _ he => exact .inl (((writes_source he).mono (by simp)).same p hother)
  | phase n hn =>
    by_cases hm : p ∈ phaseWrites n
    · exact .inr ⟨n, hn, rfl, hm⟩
    · exact .inl ((writes_f1Phase n s).same p hm)
  | field2 => exact .inl (((writes_f2Phase s).mono (by simp)).same p hother)

theorem frameId_phase {n : F1Step} (h : .frameId ∈ phaseWrites n) : n = .frameId := by
  cases n <;> simp [phaseWrites] at h ⊢

theorem curFrame_phase {n : F1Step} (h : .curFrame ∈ phaseWrites n) : n = .snapshot := by
  cases n <;> simp [phaseWrites] at h ⊢

theorem select_phase {n : F1Step} (h : .outsel ∈ phaseWrites n ∨ .insel ∈ phaseWrites n) : n = .service := by
  cases n <;> simp [phaseWrites] at h ⊢

/-- F1(1) counts the frame (R218). -/
theorem State.stepFrameId_frameId (s : State) : s.stepFrameId.frameId = s.frameId + 1 :=
  (writes_sampleRate { s with frameId := s.frameId + 1 }).same .frameId (by simp)

/-- Settles O43: by the tables of what commands, handlers and phases write, each of these registers is written
in one phase of a tick only. -/
theorem clockRegisterWriters : Obligations.ClockRegisterWriters := by
  intro s t h
  obtain ⟨-, e, ho⟩ := step_outline h
  refine ⟨fun hne => ?_, fun hne => ?_, fun hne => ?_⟩
  · obtain hs | ⟨n, hn, rfl, hm⟩ := ho.same_or_phase (p := .frameId) (by simp)
    · exact absurd hs hne
    · cases frameId_phase hm
      exact ⟨hn, (s.withEnv e).stepFrameId_frameId⟩
  · obtain hs | ⟨n, hn, -, hm⟩ := ho.same_or_phase (p := .curFrame) (by simp)
    · exact absurd hs hne
    · cases curFrame_phase hm
      exact hn
  · obtain hs | ⟨n, hn, -, hm⟩ := ho.same_or_phase (p := .outsel) (by simp)
    · obtain hs' | ⟨n, hn, -, hm⟩ := ho.same_or_phase (p := .insel) (by simp)
      · exact absurd hne (by simp only [not_or, not_not]; exact ⟨hs, hs'⟩)
      · cases select_phase (.inr hm)
        exact hn
    · cases select_phase (.inl hm)
      exact hn

end Sys2Proof.Machine

/-! SUPPORT. The callers and the channels (R22, R143, R161, R164): what the transfer invariants read of a bank
and of a channel, the few ways in which a transfer's state moves, and that every step is one of them. -/

namespace Sys2Proof.Machine

/-! ### What the invariants read -/

/-- The invariants see the same of both banks. -/
structure Bank.Alike (x y : Bank) : Prop where
  pend : y.pend = x.pend
  op : y.op = x.op

/-- The invariants see the same of both channels, but that GO may have been cleared. -/
structure Channel.Alike (c d : Channel) : Prop where
  token : d.token = c.token
  owner : d.owner = c.owner
  pages : d.pages = c.pages
  sg : d.sg = c.sg
  runs : d.runs = c.runs
  go : d.go = true → c.go = true

theorem Bank.Alike.refl (x : Bank) : x.Alike x := ⟨rfl, rfl⟩

theorem Bank.Alike.trans {x y z : Bank} (h1 : x.Alike y) (h2 : y.Alike z) : x.Alike z :=
  ⟨h2.pend.trans h1.pend, h2.op.trans h1.op⟩

theorem Channel.Alike.refl (c : Channel) : c.Alike c := ⟨rfl, rfl, rfl, rfl, rfl, id⟩

theorem Channel.Alike.trans {c d e : Channel} (h1 : c.Alike d) (h2 : d.Alike e) : c.Alike e :=
  ⟨h2.token.trans h1.token, h2.owner.trans h1.owner, h2.pages.trans h1.pages, h2.sg.trans h1.sg,
    h2.runs.trans h1.runs, h1.go ∘ h2.go⟩

/-- No caller and no transfer has moved, but that GO may have been cleared. -/
structure TransfersKept (s t : State) : Prop where
  cfg : t.cfg = s.cfg
  bank : ∀ b, (s.bank b).Alike (t.bank b)
  chan : ∀ k, (s.chan k).Alike (t.chan k)

theorem TransfersKept.refl (s : State) : TransfersKept s s := ⟨rfl, fun _ => .refl _, fun _ => .refl _⟩

theorem TransfersKept.trans {s t u : State} (h1 : TransfersKept s t) (h2 : TransfersKept t u) :
    TransfersKept s u :=
  ⟨h2.cfg.trans h1.cfg, fun b => (h1.bank b).trans (h2.bank b), fun k => (h1.chan k).trans (h2.chan k)⟩

theorem Writes.transfersKept {ps : List Part} {s t : State} (h : Writes ps s t) (hb : .banks ∉ ps)
    (hc : .chans ∉ ps) : TransfersKept s t where
  cfg := h.cfg
  bank b := by
    have e : t.bank b = s.bank b := congrArg (·[b]) (h.same .banks hb)
    exact e ▸ .refl _
  chan k := by
    have e : t.chan k = s.chan k := congrArg (·[k]) (h.same .chans hc)
    exact e ▸ .refl _

theorem transfersKept_setBank {s : State} {b : BankId} {x : Bank} (h : (s.bank b).Alike x) :
    TransfersKept s (s.setBank b x) where
  cfg := rfl
  bank b' := by
    rw [State.bank_setBank]
    split
    · rename_i e
      exact e ▸ h
    · exact .refl _
  chan _ := .refl _

theorem transfersKept_setChan {s : State} {k : ChanId} {c : Channel} (h : (s.chan k).Alike c) :
    TransfersKept s (s.setChan k c) where
  cfg := rfl
  bank _ := .refl _
  chan k' := by
    rw [State.chan_setChan]
    split
    · rename_i e
      exact e ▸ h
    · exact .refl _

theorem TransferInv.of_kept {s t : State} (h : TransferInv s) (hk : TransfersKept s t) : TransferInv t where
  pend_iff b := by rw [(hk.bank b).pend, (hk.bank b).op, h.pend_iff]
  token_iff k := by rw [(hk.chan k).token, (hk.chan k).owner, h.token_iff]
  owner_iff k b := by rw [(hk.chan k).owner, (hk.bank b).op, h.owner_iff]
  go_waits k hg := by
    obtain ⟨b, r, hop⟩ := h.go_waits k ((hk.chan k).go hg)
    exact ⟨b, r, (hk.bank b).op.trans hop⟩
  free_clear k ht := by
    rw [(hk.chan k).pages, (hk.chan k).sg, (hk.chan k).runs]
    exact h.free_clear k ((hk.chan k).token ▸ ht)
  absent_free k hl := by rw [(hk.chan k).token]; exact h.absent_free k (hk.cfg ▸ hl)

/-! ### The ways a transfer moves -/

/-- The channel of a running transfer is taken, by its caller. -/
theorem TransferInv.owner_of_xfer {s : State} (h : TransferInv s) {b : BankId} {ph : XferPhase} {k : ChanId}
    {r : XferReq} (hop : (s.bank b).op = .xfer ph k r) :
    (s.chan k).owner = some b ∧ (s.chan k).token = true := by
  have ho : (s.chan k).owner = some b := (h.owner_iff k b).2 ⟨ph, r, hop⟩
  exact ⟨ho, (h.token_iff k).2 (by simp [ho])⟩

/-- GO is clear in every phase but X5 (R164). -/
theorem TransferInv.go_false {s : State} (h : TransferInv s) {b : BankId} {ph : XferPhase} {k : ChanId}
    {r : XferReq} (hop : (s.bank b).op = .xfer ph k r) (hph : ph ≠ .x5) : (s.chan k).go = false := by
  by_contra hg
  obtain ⟨b', r', hop'⟩ := h.go_waits k (by simpa using hg)
  have hb : some b' = some b := (h.owner_of_xfer hop').1.symm.trans (h.owner_of_xfer hop).1
  cases hb
  rw [hop] at hop'
  cases hop'
  exact hph rfl

/-- Banks may end or take up commands that are no transfer. -/
theorem TransferInv.settleBanks {s t : State} (h : TransferInv s) (hcfg : t.cfg = s.cfg) (hc : t.chans = s.chans)
    (hb : ∀ b, (s.bank b).Alike (t.bank b) ∨ ((s.bank b).op.NotXfer ∧ (t.bank b).Settled)) : TransferInv t := by
  have hchan : ∀ k, t.chan k = s.chan k := fun k => congrArg (·[k]) hc
  have hxfer : ∀ b ph k r, (t.bank b).op = .xfer ph k r ↔ (s.bank b).op = .xfer ph k r := by
    intro b ph k r
    obtain ha | ⟨h1, -, h2⟩ := hb b
    · rw [ha.op]
    · exact ⟨fun e => absurd e (h2 ph k r), fun e => absurd e (h1 ph k r)⟩
  constructor
  · intro b
    obtain ha | ⟨-, h2, -⟩ := hb b
    · rw [ha.pend, ha.op, h.pend_iff]
    · exact h2
  all_goals simp only [hchan, hxfer, hcfg]
  · exact h.token_iff
  · exact h.owner_iff
  · exact h.go_waits
  · exact h.free_clear
  · exact h.absent_free

theorem TransferInv.setBank {s : State} (h : TransferInv s) {b : BankId} {x : Bank}
    (hs : (s.bank b).op.NotXfer) (hx : x.Settled) : TransferInv (s.setBank b x) := by
  refine h.settleBanks rfl rfl fun b' => ?_
  rw [State.bank_setBank]
  split
  · rename_i e
    exact .inr ⟨e ▸ hs, hx⟩
  · exact .inl (.refl _)

/-- Waking the callers of one wait ends their commands (R220, R227). -/
theorem TransferInv.wakeAll {s : State} (h : TransferInv s) {o : Op} (ho : o.NotXfer) :
    TransferInv (s.wakeAll o) := by
  refine h.settleBanks rfl rfl fun b => ?_
  rw [State.bank_wakeAll]
  split
  · rename_i e
    exact .inr ⟨e ▸ ho, settled_complete ..⟩
  · exact .inl (.refl _)

/-- A transfer goes on to a phase, with GO clear unless it is X5. -/
theorem TransferInv.setXferPhase {s : State} (h : TransferInv s) {b : BankId} {ph : XferPhase} {k : ChanId}
    {r : XferReq} (hop : (s.bank b).op = .xfer ph k r) (ph' : XferPhase) (r' : XferReq)
    (hg : (s.chan k).go = true → ph' = .x5) : TransferInv (s.setXferPhase b ph' k r') := by
  have hbank : ∀ b', (s.setXferPhase b ph' k r').bank b' =
      if b' = b then { s.bank b with op := .xfer ph' k r' } else s.bank b' :=
    fun b' => State.bank_setBank s b b' _
  refine ⟨fun b' => ?_, h.token_iff, fun k' b' => ?_, fun k' hg' => ?_, h.free_clear, h.absent_free⟩
  · rw [hbank]
    split
    · have hp : (s.bank b).pend = true := (h.pend_iff b).2 (by simp [hop])
      simp [hp]
    · exact h.pend_iff b'
  · rw [hbank]
    split
    · rename_i e
      refine (h.owner_iff k' b').trans ?_
      rw [e, hop]
      simp
    · exact h.owner_iff k' b'
  · obtain ⟨b', r'', hop'⟩ := h.go_waits k' hg'
    by_cases e : b' = b
    · subst e
      rw [hop] at hop'
      cases hop'
      exact ⟨b', r', by rw [hbank, if_pos rfl, hg hg']⟩
    · exact ⟨b', r'', by rw [hbank, if_neg e]; exact hop'⟩

/-- The record and the registers of a taken channel may be written, with GO set only in X5. -/
theorem TransferInv.setChan {s : State} (h : TransferInv s) {b : BankId} {ph : XferPhase} {k : ChanId}
    {r : XferReq} (hop : (s.bank b).op = .xfer ph k r) {c : Channel} (ht : c.token = (s.chan k).token)
    (ho : c.owner = (s.chan k).owner) (hg : c.go = true → ph = .x5) : TransferInv (s.setChan k c) := by
  have htok := (h.owner_of_xfer hop).2
  refine ⟨h.pend_iff, fun k' => ?_, fun k' b' => ?_, fun k' hg' => ?_, fun k' hf => ?_, fun k' hl => ?_⟩ <;>
    rw [State.chan_setChan] at * <;> by_cases e : k' = k
  · rw [if_pos e, ht, ho]
    exact h.token_iff k
  · rw [if_neg e]
    exact h.token_iff k'
  · rw [if_pos e, ho, e]
    exact h.owner_iff k b'
  · rw [if_neg e]
    exact h.owner_iff k' b'
  · rw [if_pos e] at hg'
    exact ⟨b, r, by rw [State.setChan_bank, hop, hg hg', e]⟩
  · rw [if_neg e] at hg'
    exact h.go_waits k' hg'
  · rw [if_pos e, ht, htok] at hf
    cases hf
  · rw [if_neg e] at hf ⊢
    exact h.free_clear k' hf
  · subst e
    rw [h.absent_free k' hl] at htok
    cases htok
  · rw [if_neg e]
    exact h.absent_free k' hl

/-- A transfer that ends gives its channel back and ends its command (R146, R152, R161, R162). -/
theorem TransferInv.release {s : State} (h : TransferInv s) {b : BankId} {ph : XferPhase} {k : ChanId}
    {r : XferReq} (hop : (s.bank b).op = .xfer ph k r) (hph : ph ≠ .x5) {x : Bank} (hx : x.Settled) :
    TransferInv ((s.setChan k (s.chan k).release).setBank b x) := by
  have hown := (h.owner_of_xfer hop).1
  have hgo := h.go_false hop hph
  have hbank : ∀ b', ((s.setChan k (s.chan k).release).setBank b x).bank b' = if b' = b then x else s.bank b' :=
    fun b' => State.bank_setBank _ b b' x
  have hchan : ∀ k', ((s.setChan k (s.chan k).release).setBank b x).chan k' =
      if k' = k then (s.chan k).release else s.chan k' :=
    fun k' => State.chan_setChan s k k' _
  constructor <;> simp only [hbank, hchan, State.setBank_cfg, State.setChan_cfg]
  · intro b'
    split
    · exact hx.1
    · exact h.pend_iff b'
  · intro k'
    split
    · simp [Channel.release]
    · exact h.token_iff k'
  · intro k' b'
    by_cases ek : k' = k <;> by_cases eb : b' = b
    · simp [ek, eb, Channel.release, hx.2 _ _ _]
    · have hno : ¬ ∃ ph r, (s.bank b').op = .xfer ph k r := by
        rw [← h.owner_iff, hown]
        simpa using Ne.symm eb
      simpa [ek, eb, Channel.release] using hno
    · have hno : (s.chan k').owner ≠ some b := by
        rw [Ne, h.owner_iff, hop]
        simpa using Ne.symm ek
      simp [ek, eb, hx.2 _ _ _, hno]
    · simp only [ek, eb, if_false]
      exact h.owner_iff k' b'
  · intro k' hg
    by_cases ek : k' = k
    · simp [ek, Channel.release, hgo] at hg
    · rw [if_neg ek] at hg
      obtain ⟨b', r', hop'⟩ := h.go_waits k' hg
      refine ⟨b', r', ?_⟩
      rw [if_neg, hop']
      rintro rfl
      rw [hop] at hop'
      cases hop'
      exact ek rfl
  · intro k'
    split
    · simp [Channel.release]
    · exact h.free_clear k'
  · intro k' hl
    split
    · rfl
    · exact h.absent_free k' hl

/-- A transfer begins: a free channel that exists is taken for a bank that runs nothing (R143). -/
theorem TransferInv.acquire {s : State} (h : TransferInv s) {b : BankId} {k : ChanId} (r : XferReq)
    (hop : (s.bank b).op = .none) (hfree : (s.chan k).token = false) (hk : k.val < s.cfg.numXferCh) :
    TransferInv ((s.acquire k b).hold b (.xfer .x2 k r)) := by
  have hown : (s.chan k).owner = none := by
    by_contra hc
    rw [(h.token_iff k).2 hc] at hfree
    cases hfree
  have hnone : ∀ b' ph r, (s.bank b').op ≠ .xfer ph k r := fun b' ph r hx => by
    rw [(h.owner_of_xfer hx).1] at hown
    cases hown
  have hbank : ∀ b', ((s.acquire k b).hold b (.xfer .x2 k r)).bank b' =
      if b' = b then { s.bank b with pend := true, op := .xfer .x2 k r } else s.bank b' :=
    fun b' => State.bank_setBank _ b b' _
  have hchan : ∀ k', ((s.acquire k b).hold b (.xfer .x2 k r)).chan k' =
      if k' = k then { s.chan k with token := true, owner := some b } else s.chan k' :=
    fun k' => State.chan_setChan s k k' _
  have hcfg : ((s.acquire k b).hold b (.xfer .x2 k r)).cfg = s.cfg := rfl
  constructor <;> simp only [hbank, hchan, hcfg]
  · intro b'
    split
    · simp
    · exact h.pend_iff b'
  · intro k'
    split
    · simp
    · exact h.token_iff k'
  · intro k' b'
    by_cases ek : k' = k <;> by_cases eb : b' = b
    · simp [ek, eb]
    · simp [ek, eb, hnone, Ne.symm eb]
    · have hno : (s.chan k').owner ≠ some b := by
        rw [Ne, h.owner_iff, hop]
        simp
      simp [ek, eb, hno, Ne.symm ek]
    · simp only [ek, eb, if_false]
      exact h.owner_iff k' b'
  · intro k' hg
    by_cases ek : k' = k
    · rw [if_pos ek] at hg
      obtain ⟨b', r', hop'⟩ := h.go_waits k hg
      exact absurd hop' (hnone _ _ _)
    · rw [if_neg ek] at hg
      obtain ⟨b', r', hop'⟩ := h.go_waits k' hg
      refine ⟨b', r', ?_⟩
      rw [if_neg, hop']
      rintro rfl
      rw [hop] at hop'
      cases hop'
  · intro k' hf
    split at hf
    · cases hf
    · rename_i ek
      rw [if_neg ek]
      exact h.free_clear k' hf
  · intro k' hl
    split
    · rename_i ek
      subst ek
      exact absurd hk (Nat.not_lt.2 hl)
    · exact h.absent_free k' hl


/-! ### The phases of a transfer (R141 to R165) -/

theorem transfersKept_stampTs (s : State) (k : ChanId) (j : Fin 6) : TransfersKept s (s.stampTs k j) :=
  ((writes_withEnv s s.inHostTs.2.env).transfersKept (by simp) (by simp)).trans
    (transfersKept_setChan ⟨rfl, rfl, rfl, rfl, rfl, id⟩)

theorem transfersKept_forceOff (s : State) (k : ChanId) : TransfersKept s (s.forceOff k) :=
  transfersKept_setChan ⟨rfl, rfl, rfl, rfl, rfl, nofun⟩

theorem transfersKept_storeBytes (s : State) (a : U64) (bs : List Byte) :
    TransfersKept s (s.storeBytes a bs) := by
  obtain ⟨⟨m, cs, h⟩, hk⟩ := State.storeBytes_eq bs s a
  refine ⟨by rw [h], fun b => ?_, fun k => ?_⟩
  · rw [h]
    exact .refl _
  · obtain ⟨w, hw⟩ := hk k
    rw [hw]
    exact ⟨rfl, rfl, rfl, rfl, rfl, id⟩

theorem Touches.transfersKept {s t : State} (h : Touches s t) : TransfersKept s t := by
  refine ⟨h.cfg, fun b => ?_, fun k => ?_⟩
  · rw [h.frame]
    exact .refl _
  · rw [h.chan k]
    exact ⟨rfl, rfl, rfl, rfl, rfl, id⟩

theorem TransfersKept.op {s t : State} (h : TransfersKept s t) {b : BankId} {o : Op} (hop : (s.bank b).op = o) :
    (t.bank b).op = o := (h.bank b).op.trans hop

/-- A phase other than X5 writes the record of its channel and goes on. -/
theorem TransferInv.advance {s : State} (h : TransferInv s) {b : BankId} {ph : XferPhase} {k : ChanId}
    {r : XferReq} (hop : (s.bank b).op = .xfer ph k r) (hph : ph ≠ .x5) (ph' : XferPhase) {c : Channel}
    (ht : c.token = (s.chan k).token) (ho : c.owner = (s.chan k).owner) (hg : c.go = (s.chan k).go ∨ ph' = .x5) :
    TransferInv ((s.setChan k c).setXferPhase b ph' k r) := by
  have hgo := h.go_false hop hph
  have hnext : TransferInv (s.setXferPhase b ph' k r) := h.setXferPhase hop ph' r fun hc => by simp [hgo] at hc
  have hop' : ((s.setXferPhase b ph' k r).bank b).op = .xfer ph' k r := by simp [State.setXferPhase]
  exact hnext.setChan hop' ht ho fun hc => hg.resolve_left fun e => by simp [e, hgo] at hc

theorem TransferInv.xferPin {s : State} (h : TransferInv s) {b : BankId} {k : ChanId} {r : XferReq}
    (hop : (s.bank b).op = .xfer .x2 k r) : TransferInv (s.xferPin b k r) := by
  unfold State.xferPin
  dsimp only
  have hk : TransfersKept s (s.callPin r.addr (firstPage s.cfg.pageSize r.addr)
      (pageCount s.cfg.pageSize r.addr r.len)).2 := (writes_withEnv s _).transfersKept (by simp) (by simp)
  split
  · exact (h.of_kept hk).release (hk.op hop) nofun (settled_complete ..)
  · exact (h.of_kept hk).advance (hk.op hop) nofun _ rfl rfl (.inl rfl)

theorem TransferInv.xferMap {s : State} (h : TransferInv s) {b : BankId} {k : ChanId} {r : XferReq}
    (hop : (s.bank b).op = .xfer .x3 k r) : TransferInv (s.xferMap b k r) := by
  unfold State.xferMap
  extract_lets d s1 s2
  have hd : TransfersKept s d.2 := (writes_withEnv s _).transfersKept (by simp) (by simp)
  split
  · have hk : TransfersKept s s1 := hd.trans ((writes_withEnv d.2 _).transfersKept (by simp) (by simp))
    exact (h.of_kept hk).release (hk.op hop) nofun (settled_complete ..)
  · have hk : TransfersKept s s2 := by
      refine hd.trans ?_
      unfold s2
      split
      · exact (writes_raise d.2 _).transfersKept (by simp) (by simp)
      · exact .refl _
    exact (h.of_kept hk).advance (hk.op hop) nofun _ rfl rfl (.inl rfl)

theorem TransferInv.xferProgram {s : State} (h : TransferInv s) {b : BankId} {k : ChanId} {r : XferReq}
    (hop : (s.bank b).op = .xfer .x4 k r) : TransferInv (s.xferProgram b k r) := by
  unfold State.xferProgram
  extract_lets s1 s2 s3
  have h1 : TransfersKept s s1 := (writes_raiseAll ..).transfersKept (by simp) (by simp)
  have h2 : TransfersKept s1 s2 := transfersKept_storeBytes ..
  have hp : TransfersKept s2 (s2.programChannel k r) := transfersKept_setChan ⟨rfl, rfl, rfl, rfl, rfl, id⟩
  have h3 : TransfersKept s s3 :=
    (((h1.trans h2).trans hp).trans (transfersKept_stampTs ..)).trans (transfersKept_stampTs ..)
  exact (h.of_kept h3).advance (h3.op hop) nofun .x5 rfl rfl (.inr rfl)

/-- The wait X5 ends once GO is clear (R155). -/
theorem TransferInv.xferStop {s : State} (h : TransferInv s) {b : BankId} {k : ChanId} {r : XferReq}
    (hop : (s.bank b).op = .xfer .x5 k r) (hgo : (s.chan k).go = false) (o : XferOutcome) :
    TransferInv (s.xferStop b k r o) := by
  have hk := transfersKept_stampTs s k 3
  refine (h.of_kept hk).setXferPhase (hk.op hop) _ r fun hg => ?_
  have := (hk.chan k).go hg
  simp [hgo] at this

theorem TransferInv.xferWait {s : State} (h : TransferInv s) {b : BankId} {k : ChanId} {r : XferReq}
    (hop : (s.bank b).op = .xfer .x5 k r) : TransferInv (s.xferWait b k r) := by
  unfold State.xferWait
  split
  · exact h
  · rename_i hgo
    exact h.xferStop hop (by simpa using hgo) _

theorem TransferInv.xferBreak {s : State} (h : TransferInv s) {b : BankId} {k : ChanId} {r : XferReq}
    (hop : (s.bank b).op = .xfer .x5 k r) (o : XferOutcome) : TransferInv (s.xferBreak b k r o) := by
  have hk := transfersKept_forceOff s k
  unfold State.xferBreak
  split
  · exact (h.of_kept hk).xferStop (hk.op hop) (by simp [State.forceOff]) o
  · exact h

theorem settled_transferred (x : Bank) (r : XferReq) (o : XferOutcome) : (x.transferred r o).Settled := by
  cases o <;> exact ⟨by simp [Bank.transferred, Bank.ended], nofun⟩

theorem TransferInv.xferCleanup {s : State} (h : TransferInv s) {b : BankId} {k : ChanId} {r : XferReq}
    {o : XferOutcome} (hop : (s.bank b).op = .xfer (.x6 o) k r) : TransferInv (s.xferCleanup b k r o) := by
  obtain ⟨u, he, hu, -, -, ⟨hself, hne⟩, -⟩ := s.xferCleanup_spec b k r o
  have hk : TransfersKept s u := by
    refine ⟨by rw [hu], fun b' => ?_, fun k' => ?_⟩
    · rw [hu]
      exact .refl _
    · by_cases e : k' = k
      · rw [e, hself]
        exact ⟨rfl, rfl, rfl, rfl, rfl, id⟩
      · rw [hne k' e]
        exact .refl _
  rw [he]
  exact (h.of_kept hk).release (hk.op hop) nofun (settled_transferred ..)

theorem TransferInv.callerStep {s : State} (h : TransferInv s) (b : BankId) : TransferInv (s.callerStep b) := by
  unfold State.callerStep
  split
  · exact h
  · exact h
  · exact h
  · rename_i hop
    exact h.xferPin hop
  · rename_i hop
    exact h.xferMap hop
  · rename_i hop
    exact h.xferProgram hop
  · rename_i hop
    exact h.xferWait hop
  · rename_i hop
    exact h.xferCleanup hop

theorem TransferInv.callerEvent {s : State} (h : TransferInv s) (b : BankId) (o : XferOutcome) :
    TransferInv (s.callerEvent b o) := by
  unfold State.callerEvent
  split
  case h_3 hop => exact h.setBank (by rw [hop]; nofun) (settled_complete ..)
  case h_7 hop => exact h.xferBreak hop o
  all_goals exact h

/-! ### The channels and the dispatcher (R166, R329) -/

theorem transfersKept_performChain (s : State) (k : ChanId) : TransfersKept s (s.performChain k) := by
  obtain ⟨-, h⟩ | ⟨-, -, u, hu, h⟩ := performChain_spec s k <;> rw [h]
  · exact .refl s
  · exact hu.transfersKept.trans (transfersKept_setChan ⟨rfl, rfl, rfl, rfl, rfl, id⟩)

theorem transfersKept_spoil (s : State) (k : ChanId) (a : U64) (v : Byte) :
    TransfersKept s (s.spoil k a v) := by
  obtain h | ⟨u, hu, h⟩ := spoil_spec s k a v <;> rw [h]
  · exact .refl s
  · exact hu.transfersKept.trans (transfersKept_setChan ⟨rfl, rfl, rfl, rfl, rfl, id⟩)

theorem transfersKept_latch (s : State) (j : Fin 9) : TransfersKept s (s.latch j) :=
  (writes_latch s j).transfersKept (by simp) (by simp)

theorem transfersKept_raiseDone (s : State) (k : ChanId) : TransfersKept s (s.raiseDone k) := by
  obtain h | h | h := raiseDone_spec s k <;> rw [h]
  · exact transfersKept_latch ..
  · exact .refl s
  · have hk : TransfersKept s (s.setChan k { s.chan k with reported := true }) :=
      transfersKept_setChan ⟨rfl, rfl, rfl, rfl, rfl, id⟩
    exact hk.trans (transfersKept_latch ..)

/-- A completion clears GO at most (R329). -/
theorem transfersKept_handleDone (s : State) (k : ChanId) : TransfersKept s (s.handleDone k) := by
  unfold State.handleDone
  split
  · refine .trans ?_ (transfersKept_forceOff ..)
    obtain ⟨-, h⟩ | ⟨-, h⟩ := settle_spec s k <;> rw [h]
    · exact transfersKept_performChain ..
    · exact .refl s
  · exact (writes_unread s ..).transfersKept (by simp) (by simp)

theorem Handles.transfersKept {j : Fin 9} {s t : State} (h : Handles j s t) : TransfersKept s t := by
  obtain ⟨u, hu, rfl⟩ := h
  have hk : TransfersKept (s.takeSource j) u := by
    obtain ⟨c, rfl⟩ | ⟨k, rfl⟩ := hu
    · exact (writes_unread (s.takeSource j) ..).transfersKept (by simp) (by simp)
    · exact transfersKept_handleDone ..
  exact (((writes_takeSource s j).transfersKept (by simp) (by simp)).trans hk).trans
    ((writes_passEnd u).transfersKept (by simp) (by simp))

theorem transfersKept_source {j : Fin 9} {s t : State} (h : exec (sourceInstr j) s = .next t) :
    TransfersKept s t := by
  obtain hh | ⟨e, ph, -, rfl⟩ := exec_source h
  · exact hh.transfersKept
  · exact ⟨rfl, fun _ => .refl _, fun _ => .refl _⟩

/-- A tick ends the callers' waits for a boundary and for a frame, and moves no transfer (R220, R227). -/
theorem TransferInv.f1Phase {s : State} (h : TransferInv s) (n : F1Step) : TransferInv (s.f1Phase n) := by
  cases n with
  | boundary =>
    have hk := (writes_runSession s ((s.run.trigger s.frameId).applyReq)
      { s.session with valid := s.session.valid && !s.run.closes }).transfersKept (by simp) (by simp)
    exact ((h.of_kept hk).wakeAll (o := .waitBoundary) nofun).of_kept
      ((writes_goto ..).transfersKept (by simp) (by simp))
  | wake => exact (h.wakeAll (o := .waitFrame) nofun).of_kept ((writes_goto ..).transfersKept (by simp) (by simp))
  | _ => exact h.of_kept ((writes_f1Phase _ s).transfersKept (by simp [phaseWrites]) (by simp [phaseWrites]))

/-! ### Commands and operand writes (R79, R108) -/

theorem Bank.alike_writeReg (x : Bank) (off : Nat) (v : U32) : x.Alike (x.writeReg off v) := by
  unfold Bank.writeReg
  split
  case h_7 => split <;> exact ⟨rfl, rfl⟩
  all_goals exact ⟨rfl, rfl⟩

theorem transfersKept_setCmd (s : State) (b : BankId) (w : U32) : TransfersKept s (s.setCmd b w) :=
  transfersKept_setBank ⟨rfl, rfl⟩

/-- A bank whose PEND is clear runs nothing (R22). -/
theorem TransferInv.op_none {s : State} (h : TransferInv s) {b : BankId} (hp : (s.bank b).pend = false) :
    (s.bank b).op = .none := by
  by_contra hc
  rw [(h.pend_iff b).2 hc] at hp
  cases hp

theorem not_mem_commandWrites (i : Instr) : .banks ∉ commandWrites i ∧ .chans ∉ commandWrites i := by
  cases i <;> simp [commandWrites]

theorem TransferInv.completes {s t : State} (h : TransferInv s) {b : BankId} {ps : List Part}
    (hop : (s.bank b).op = .none) (hc : Completes ps b s (.next t)) (hb : .banks ∉ ps) (hk : .chans ∉ ps) :
    TransferInv t := by
  obtain ⟨u, x, ht, hx, hw⟩ := hc
  cases ht
  have hkept := hw.transfersKept hb hk
  exact (h.of_kept hkept).setBank (by rw [hkept.op hop]; nofun) hx

/-- An accepted command ends, waits, or takes a channel (R108, R143). -/
theorem TransferInv.command {s t : State} (h : TransferInv s) {i : Instr} {b : BankId} (hi : i.bank? = some b)
    (hp : (s.bank b).pend = false) (he : exec i s = .next t) : TransferInv t := by
  have hop := h.op_none hp
  by_cases hx : ∃ dir hint, i = .xfer b dir hint
  · obtain ⟨dir, hint, rfl⟩ := hx
    replace he : execXfer b dir hint s = .next t := he
    obtain hc | ⟨k, r, hfree, hk, hs⟩ := execXfer_cases b dir hint s <;> rw [he] at *
    · exact h.completes hop hc (by simp) (by simp)
    · cases hs
      exact (h.acquire r hop hfree hk).of_kept (transfersKept_stampTs _ k 0)
  · have hc := exec_completes hi (fun dir hint e => hx ⟨dir, hint, e⟩) s
    rw [he] at hc
    exact h.completes hop hc (not_mem_commandWrites i).1 (not_mem_commandWrites i).2

theorem Transition.keeps_transferInv {s t : State} (ht : Transition s t) (h : TransferInv s) : TransferInv t := by
  cases ht with
  | idle => exact h
  | look e => exact h.of_kept ((writes_withEnv s e).transfersKept (by simp) (by simp))
  | note f e =>
    exact h.of_kept (((writes_raise s f).trans (writes_withEnv _ e)).transfersKept (by simp) (by simp))
  | enable v => exact h.of_kept ((writes_unread s ..).transfersKept (by simp) (by simp))
  | operand b off v => exact h.of_kept (transfersKept_setBank (Bank.alike_writeReg ..))
  | illegal b w hb hp =>
    have hk := transfersKept_setCmd s b w
    exact (h.of_kept hk).setBank (by rw [hk.op (h.op_none hp)]; nofun) (settled_complete ..)
  | command b w i t hb hp hd he =>
    have hk := transfersKept_setCmd s b w
    exact (h.of_kept hk).command (bank?_of_decode hd) ((hk.bank b).pend.trans hp) he
  | caller b => exact h.callerStep b
  | callerEvent b o => exact h.callerEvent b o
  | dispatch => exact h.of_kept ((writes_takeInterrupt s).transfersKept (by simp) (by simp))
  | handler i t hp hd he =>
    obtain ⟨j, -, -, rfl⟩ := decode_status hd
    exact h.of_kept (transfersKept_source he)
  | phase n => exact h.f1Phase n
  | field2 => exact h.of_kept ((writes_f2Phase s).transfersKept (by simp) (by simp))
  | raised e j =>
    exact h.of_kept (((writes_withEnv s e).transfersKept (by simp) (by simp)).trans (transfersKept_latch ..))
  | done k => exact h.of_kept (transfersKept_raiseDone ..)
  | chanBuserr k => exact h.of_kept ((writes_raiseChanBuserr s k).transfersKept (by simp) (by simp))
  | move k => exact h.of_kept (transfersKept_performChain ..)
  | spoil k a v => exact h.of_kept (transfersKept_spoil ..)
  | hostStore a v => exact h.of_kept (touches_storeHost ..).transfersKept
  | cardStore a v => exact h.of_kept (touches_storeCard ..).transfersKept

/-- Settles O55: a transfer begins, goes on and ends in the ways above, and every other step leaves callers and
channels alike. -/
theorem stepKeepsTransferInvariant : Obligations.StepKeepsTransferInvariant := by
  intro s t h hs
  obtain ⟨-, e, ht⟩ := step_transition h
  exact ht.keeps_transferInv (hs.of_kept ((writes_withEnv s e).transfersKept (by simp) (by simp)))

end Sys2Proof.Machine

/-! SUPPORT. What each register reads as (R75, R77 to R80), by the three windows of the register space, and that
the reset state has R50's values and meets every invariant. -/

namespace Sys2Proof.Machine

/-! ### The windows (R77 to R80) -/

theorem State.readReg_global (s : State) {off : Nat} (h : off < 0x100) : s.readReg off = s.readGlobal off := by
  rw [State.readReg, regName, if_pos h]

theorem regName_chan_window (p : Params) (k : ChanId) {o off : Nat} (ho : o < 0x20)
    (hoff : off = 0x100 + 0x20 * k.val + o) :
    regName p off = if k.val < p.numXferCh then .chan k o else .unnamed := by
  have hglobal : ¬ off < 0x100 := by omega
  have hchan : 0x100 ≤ off ∧ off < 0x180 := by omega
  have hdiv : (off - 0x100) / 0x20 = k.val := by omega
  have hmod : (off - 0x100) % 0x20 = o := by omega
  rw [regName, if_neg hglobal, dif_pos hchan]
  simp only [hdiv, hmod, Fin.eta]

theorem regName_bank_window (p : Params) (b : BankId) {o off : Nat} (ho : o < 0x100)
    (hoff : off = 0x1000 + 0x100 * b.val + o) :
    regName p off = if bankExists p b = true then .bank b o else .unnamed := by
  have hglobal : ¬ off < 0x100 := by omega
  have hchan : ¬ (0x100 ≤ off ∧ off < 0x180) := by omega
  have hbank : 0x1000 ≤ off ∧ off < 0x1800 := by omega
  have hdiv : (off - 0x1000) / 0x100 = b.val := by omega
  have hmod : (off - 0x1000) % 0x100 = o := by omega
  rw [regName, if_neg hglobal, dif_neg hchan, dif_pos hbank]
  simp only [hdiv, hmod, Fin.eta]

/-- An offset of a channel window reads the channel's register if the channel exists, and 0 otherwise (R78). -/
theorem State.readReg_chan (s : State) (k : ChanId) {o off : Nat} (ho : o < 0x20)
    (hoff : off = 0x100 + 0x20 * k.val + o) :
    s.readReg off = if k.val < s.cfg.numXferCh then (s.chan k).readReg o else 0 := by
  rw [State.readReg, regName_chan_window s.cfg k ho hoff]
  by_cases hk : k.val < s.cfg.numXferCh
  · rw [if_pos hk, if_pos hk]
  · rw [if_neg hk, if_neg hk]

/-- An offset of a bank window reads the bank's register if the bank exists, and 0 otherwise (R79). -/
theorem State.readReg_bank (s : State) (b : BankId) {o off : Nat} (ho : o < 0x100)
    (hoff : off = 0x1000 + 0x100 * b.val + o) :
    s.readReg off = if b.val < s.cfg.numCallers then (s.bank b).readReg o else 0 := by
  rw [State.readReg, regName_bank_window s.cfg b ho hoff]
  simp only [bankExists_iff]
  by_cases hb : b.val < s.cfg.numCallers
  · rw [if_pos hb, if_pos hb]
  · rw [if_neg hb, if_neg hb]

theorem State.readReg_unnamed (s : State) {off : Nat} (h : (0x180 ≤ off ∧ off < 0x1000) ∨ 0x1800 ≤ off) :
    s.readReg off = 0 := by
  rw [State.readReg, regName, if_neg (by omega), dif_neg (by omega), dif_neg (by omega)]

/-- The global offsets R77 does not name read 0. -/
theorem State.readGlobal_unnamed (s : State) {off : Nat} (h : off = 0x00C ∨ off = 0x03C ∨ 0x044 ≤ off) :
    s.readGlobal off = 0 := by
  unfold State.readGlobal
  split
  case h_16 => rfl
  all_goals simp at h

/-! ### Words made of fields -/

theorem toNat_append_eq_add {m n : Nat} (x : BitVec m) (y : BitVec n) :
    (x ++ y).toNat = x.toNat * 2 ^ n + y.toNat := by
  rw [BitVec.toNat_append, ← Nat.shiftLeft_add_eq_or_of_lt y.isLt, Nat.shiftLeft_eq]

theorem toNat_bit1 (b : Bool) : (bit1 b).toNat = b.toNat := by cases b <;> rfl

theorem toNat_flagWord (b : Bool) : (flagWord b).toNat = b.toNat := by cases b <;> rfl

theorem toNat_ctrlWord (c : Channel) : (ctrlWord c).toNat = c.go.toNat + 2 * c.dir.toNat := by
  simp only [ctrlWord, toNat_append_eq_add, toNat_bit1, BitVec.ofNat_eq_ofNat, BitVec.toNat_ofNat]
  omega

theorem toNat_cstatWord (x : Bank) : (cstatWord x).toNat = x.pend.toNat + 16 * x.result.code.toNat := by
  simp only [cstatWord, toNat_append_eq_add, toNat_bit1, BitVec.ofNat_eq_ofNat, BitVec.toNat_ofNat]
  omega

/-- CONFIG holds each parameter in its field, since each fits (R7, R77). -/
theorem toNat_configWord {p : Params} (h : ConfigValid p) :
    (configWord p).toNat =
      p.numXferCh + 2 ^ 3 * p.numCallers + 2 ^ 8 * p.poolMax + 2 ^ 16 * p.dma64.toNat + 2 ^ 17 * p.hasAudio.toNat +
        2 ^ 18 * p.extGen.toNat + 2 ^ 19 * p.mergeEnable.toNat := by
  obtain ⟨-, hch⟩ := h.channels
  obtain ⟨-, hcallers⟩ := h.callers
  obtain ⟨-, hpool⟩ := h.pool
  simp only [configWord, toNat_append_eq_add, toNat_bit1, BitVec.ofNat_eq_ofNat, BitVec.toNat_ofNat]
  omega

/-- IRQ_LINE is 1 exactly when a latched source is enabled (R323). -/
theorem flagWord_irqLine (s : State) :
    flagWord s.irqLine = if s.irqStatus &&& s.irqEnable = 0 then 0 else 1 := by
  unfold State.irqLine State.pendingSources
  by_cases h : s.irqStatus &&& s.irqEnable = 0
  · rw [if_pos h, h]
    rfl
  · rw [if_neg h, bne_iff_ne.2 h]
    rfl

/-! ### The registers of a bank (R79) -/

/-- The halves of the seven 64-bit registers ARG0 to RES3. -/
theorem Bank.readReg_halves (x : Bank) (n : Fin 7) :
    x.readReg (0x08 + 8 * n.val) =
        lo32 [x.arg0, x.arg1, x.arg2, x.res0, x.res1, x.res2, x.res3][n] ∧
      x.readReg (0x0C + 8 * n.val) =
        hi32 [x.arg0, x.arg1, x.arg2, x.res0, x.res1, x.res2, x.res3][n] := by
  fin_cases n <;> exact ⟨rfl, rfl⟩

theorem Bank.readReg_mdbuf (x : Bank) (w : Fin 20) : x.readReg (0x40 + 4 * w.val) = x.mdbuf.word w := by
  fin_cases w <;> rfl

theorem Bank.readReg_unnamed (x : Bank) {o : Nat} (h : 0x90 ≤ o) : x.readReg o = 0 := by
  unfold Bank.readReg
  split
  case h_16 =>
    have hn : mdbufWord o = none := by rw [mdbufWord, dif_neg (by omega)]
    rw [hn]
  all_goals simp at h

/-- The reads of a bank that exists. -/
theorem State.readReg_bank_of_exists (s : State) {b : BankId} (hb : b.val < s.cfg.numCallers) {o off : Nat}
    (ho : o < 0x100) (hoff : off = 0x1000 + 0x100 * b.val + o) : s.readReg off = (s.bank b).readReg o := by
  rw [s.readReg_bank b ho hoff, if_pos hb]

theorem State.readReg_mdbuf (s : State) {b : BankId} (hb : b.val < s.cfg.numCallers) (w : Fin 20) {off : Nat}
    (hoff : off = 0x1040 + 0x100 * b.val + 4 * w.val) : s.readReg off = (s.bank b).mdbuf.word w := by
  rw [s.readReg_bank_of_exists hb (o := 0x40 + 4 * w.val) (by omega) (by omega), Bank.readReg_mdbuf]

/-- The 64-bit fields of the metadata record, each in two words (R43). -/
theorem State.readReg_mdbuf_halves (s : State) {b : BankId} (hb : b.val < s.cfg.numCallers) {o : Nat} {v : U64}
    (h : (o, v) ∈ [(0x08, (s.bank b).mdbuf.tick), (0x10, (s.bank b).mdbuf.hostTs), (0x20, (s.bank b).mdbuf.user),
      (0x28, (s.bank b).mdbuf.audpos), (0x30, (s.bank b).mdbuf.tc0), (0x38, (s.bank b).mdbuf.tc1),
      (0x40, (s.bank b).mdbuf.tc2), (0x48, (s.bank b).mdbuf.tc3)]) :
    s.readReg (0x1040 + 0x100 * b.val + o) = lo32 v ∧ s.readReg (0x1044 + 0x100 * b.val + o) = hi32 v := by
  have hw : ∀ w w' : Fin 20, o = 4 * w.val → o + 4 = 4 * w'.val →
      s.readReg (0x1040 + 0x100 * b.val + o) = (s.bank b).mdbuf.word w ∧
        s.readReg (0x1044 + 0x100 * b.val + o) = (s.bank b).mdbuf.word w' := fun w w' h1 h2 =>
    ⟨s.readReg_mdbuf hb w (by omega), s.readReg_mdbuf hb w' (by omega)⟩
  simp only [List.mem_cons, Prod.mk.injEq, List.not_mem_nil, or_false] at h
  obtain ⟨rfl, rfl⟩ | ⟨rfl, rfl⟩ | ⟨rfl, rfl⟩ | ⟨rfl, rfl⟩ | ⟨rfl, rfl⟩ | ⟨rfl, rfl⟩ | ⟨rfl, rfl⟩ |
    ⟨rfl, rfl⟩ := h
  · exact hw 2 3 rfl rfl
  · exact hw 4 5 rfl rfl
  · exact hw 8 9 rfl rfl
  · exact hw 10 11 rfl rfl
  · exact hw 12 13 rfl rfl
  · exact hw 14 15 rfl rfl
  · exact hw 16 17 rfl rfl
  · exact hw 18 19 rfl rfl

/-- Settles O13: each offset is read through its window. -/
theorem registerContents : Obligations.RegisterContents := by
  intro s
  have global : ∀ off, off < 0x100 → s.readReg off = s.readGlobal off := fun _ => s.readReg_global
  refine ⟨?globals, ?config, ?unnamed, ?chan, ?absentChan, ?cmd, ?cstat, ?halves, ?mdbuf, ?bankUnnamed,
    ?absentBank⟩
  case globals =>
    refine ⟨global _ (by decide), global _ (by decide), ?_, global _ (by decide), global _ (by decide),
      global _ (by decide), global _ (by decide), global _ (by decide), global _ (by decide), global _ (by decide),
      global _ (by decide), global _ (by decide), global _ (by decide), global _ (by decide)⟩
    exact (global _ (by decide)).trans (flagWord_irqLine s)
  case config =>
    intro hok
    rw [global _ (by decide)]
    exact toNat_configWord ((s.cfg.ok_iff_configValid).1 hok)
  case unnamed =>
    intro off hoff
    simp only [List.mem_cons, List.not_mem_nil, or_false] at hoff
    by_cases hg : off < 0x100
    · rw [global off hg]
      exact s.readGlobal_unnamed (by omega)
    · exact s.readReg_unnamed (by omega)
  case chan =>
    intro k hk
    have chan : ∀ {o off : Nat}, o < 0x20 → off = 0x100 + 0x20 * k.val + o →
        s.readReg off = (s.chan k).readReg o := fun ho hoff => by rw [s.readReg_chan k ho hoff, if_pos hk]
    refine ⟨chan (o := 0x00) (by decide) (by omega), chan (o := 0x04) (by decide) (by omega),
      chan (o := 0x08) (by decide) (by omega), chan (o := 0x0C) (by decide) (by omega),
      chan (o := 0x10) (by decide) (by omega), ?_, ?_, chan (o := 0x1C) (by decide) (by omega)⟩
    · rw [chan (o := 0x14) (by decide) (by omega)]
      exact toNat_ctrlWord _
    · rw [chan (o := 0x18) (by decide) (by omega)]
      exact toNat_flagWord _
  case absentChan =>
    intro k o hk
    rw [s.readReg_chan k o.isLt rfl, if_neg (by omega)]
  case cmd =>
    intro b
    rw [s.readReg_bank b (o := 0) (by decide) (by omega)]
    split <;> rfl
  case cstat =>
    intro b hb
    rw [s.readReg_bank_of_exists hb (o := 4) (by decide) (by omega)]
    exact toNat_cstatWord _
  case halves =>
    intro b n v hb hv
    obtain ⟨hlo, hhi⟩ := (s.bank b).readReg_halves n
    rw [hv, s.readReg_bank_of_exists hb (o := 0x08 + 8 * n.val) (by omega) (by omega),
      s.readReg_bank_of_exists hb (o := 0x0C + 8 * n.val) (by omega) (by omega)]
    exact ⟨hlo, hhi⟩
  case mdbuf =>
    rintro b m hb rfl
    exact ⟨s.readReg_mdbuf hb 0 (by simp), s.readReg_mdbuf hb 1 (by simp; omega),
      s.readReg_mdbuf hb 6 (by simp; omega), s.readReg_mdbuf hb 7 (by simp; omega),
      fun o v h => s.readReg_mdbuf_halves hb h⟩
  case bankUnnamed =>
    intro b o hlo hhi
    rw [s.readReg_bank b hhi rfl, (s.bank b).readReg_unnamed hlo, ite_self]
  case absentBank =>
    intro b o hb
    rw [s.readReg_bank b o.isLt rfl, if_neg (by omega)]

/-! ### Reset (R50, R380 to R382) -/

theorem resetWith_bank (p : Params) (b : BankId) : (State.resetWith p).bank b = Bank.reset := by
  simp [State.bank, State.resetWith]

theorem resetWith_chan (p : Params) (k : ChanId) : (State.resetWith p).chan k = Channel.reset := by
  simp [State.chan, State.resetWith]

theorem resetWith_slotState (p : Params) (i : SlotIx) : (State.resetWith p).slotState i = .free := by
  simp [State.slotState, State.resetWith, Pool.clear]

theorem resetWith_metaOf (p : Params) (i : SlotIx) : (State.resetWith p).metaOf i = Meta.zero := by
  simp [State.metaOf, State.resetWith, Pool.clear]

/-- Settles O59: the records of arrays by their reset lemmas, everything else as `State.resetWith` writes it. -/
theorem resetValues : Obligations.ResetValues := by
  rintro p s rfl
  refine ⟨resetWith_bank p, rfl, rfl, rfl, rfl, rfl, rfl, rfl, rfl, rfl, rfl, rfl, rfl, rfl, rfl, rfl, rfl,
    fun c => ?_, fun i => ⟨resetWith_slotState p i, resetWith_metaOf p i⟩, rfl, rfl, fun c => ?_, fun k => ?_, rfl⟩
  · simp [State.resetWith]
  · simp [State.resetWith]
  · rw [resetWith_chan]
    exact ⟨rfl, rfl, rfl, rfl, rfl, rfl, rfl, rfl, rfl, rfl, fun j => by simp [Channel.reset]⟩

/-- No caller runs a command and no channel is taken. -/
theorem transferInv_resetWith (p : Params) : TransferInv (State.resetWith p) := by
  constructor <;> simp only [resetWith_bank, resetWith_chan] <;> simp [Bank.reset, Channel.reset]

theorem sessionInv_resetWith (p : Params) : SessionInv (State.resetWith p) :=
  ⟨nofun, nofun, Nat.zero_le _, nofun, nofun, fun h => absurd rfl h, nofun⟩

theorem pacingInv_resetWith {p : Params} (h : ConfigValid p) : PacingInv (State.resetWith p) :=
  ⟨by simp [State.resetWith], (Nat.mod_le ..).trans h.speed.1, nofun⟩

/-- Settles O60: at reset nothing is queued, taken, running, armed or paced, and no pass runs; only the speed
leans on the configuration. -/
theorem resetMeetsInvariants : Obligations.ResetMeetsInvariants := by
  rintro p s hp rfl
  exact ⟨⟨rfl, rfl⟩, poolInv_of_clear rfl rfl rfl, transferInv_resetWith p, sessionInv_resetWith p,
    pacingInv_resetWith hp, ⟨nofun, fun _ => rfl⟩, by simp [State.resetWith], nofun⟩

end Sys2Proof.Machine

/-! SUPPORT. Who writes the two memories (20_memory.md R70): the stores of the host, of a video path, of the
descriptor builder and of a channel's moves. Every other operation leaves both as they are: `memories_…` says so
for each one that branches, the others by `rfl`. A store keeps the canonical form by `Touches.wf`. -/

namespace Sys2Proof.Machine

/-! ### What leaves the memories alone -/

/-- Host bus memory and card memory (R70). -/
def State.memories (s : State) : Memory × Memory := (s.hostMem, s.cardMem)

theorem MemoryInv.of_memories {s t : State} (hs : MemoryInv s) (h : t.memories = s.memories) : MemoryInv t := by
  obtain ⟨hh, hc⟩ := Prod.mk.inj h
  exact ⟨hh ▸ hs.1, hc ▸ hs.2⟩

/-- Both branches of a choice leave the memories `m`. -/
theorem memories_ite {c : Prop} [Decidable c] {t u : State} {m : Memory × Memory} (ht : t.memories = m)
    (hu : u.memories = m) : (if c then t else u).memories = m := by
  split
  · exact ht
  · exact hu

/-! ### The pool and the stream service (R181 to R184, R253 to R263) -/

theorem memories_allocSlot (s : State) : s.allocSlot.2.memories = s.memories := by
  obtain ⟨h, -⟩ | ⟨i, e, h, -⟩ := s.allocSlot_cases
  · rw [h]
  · rw [h]
    rfl

theorem memories_freeSlot (s : State) (i : SlotIx) : (s.freeSlot i).memories = s.memories := memories_ite rfl rfl

theorem memories_enqSlot (s : State) (i : SlotIx) : (s.enqSlot i).memories = s.memories := memories_ite rfl rfl

theorem memories_deqSlot (s : State) : s.deqSlot.2.memories = s.memories := by
  obtain ⟨-, h⟩ | ⟨i, q, -, h⟩ := s.deqSlot_cases
  · rw [h]
  · rw [h]
    rfl

theorem memories_freePlayed (s : State) (c : VidChan) : (s.freePlayed c).memories = s.memories := by
  unfold State.freePlayed
  split
  · rfl
  · exact memories_freeSlot ..

theorem memories_stampAndQueue (s : State) (i : SlotIx) (ap : U64) :
    (s.stampAndQueue i ap).memories = s.memories := by
  obtain ⟨e, m, h⟩ := s.stampAndQueue_eq i ap
  rw [h]
  exact memories_enqSlot ..

theorem memories_queueCaptured (s : State) (ap : U64) (c : VidChan) :
    (s.queueCaptured ap c).memories = s.memories := by
  unfold State.queueCaptured
  split
  · rfl
  · exact memories_stampAndQueue ..

theorem memories_freeing (s : State) : s.freeing.memories = s.memories := by
  unfold State.freeing
  refine List.foldlRecOn (motive := fun u : State => u.memories = s.memories) _ _ ?_ fun u hu c _ => ?_
  · rfl
  · exact (memories_queueCaptured ..).trans ((memories_freePlayed u c).trans hu)

theorem memories_discard (n : Nat) (s : State) : (State.discard n s).memories = s.memories := by
  induction n generalizing s with
  | zero => rfl
  | succ n ih =>
    have hd := memories_deqSlot s
    unfold State.discard
    split <;> rename_i h <;> rw [h] at hd
    · exact hd
    · exact (ih _).trans ((memories_freeSlot ..).trans hd)

theorem memories_pace (s : State) : s.pace.2.memories = s.memories := by
  unfold State.pace
  split <;> rfl

theorem memories_override (s : State) (i : SlotIx) : (s.override i).memories = s.memories := memories_ite rfl rfl

theorem memories_servicePlayback (cs : List VidChan) (i0 : Option SlotIx) (s : State) :
    (State.servicePlayback cs i0 s).memories = s.memories := by
  induction cs generalizing i0 s with
  | nil =>
    cases i0 with
    | none => rfl
    | some i => exact memories_override s i
  | cons c cs ih =>
    have hd := memories_deqSlot s
    unfold State.servicePlayback
    split <;> rename_i h <;> rw [h] at hd
    · exact hd
    · exact memories_ite ((ih ..).trans hd) ((memories_freeSlot ..).trans hd)

theorem memories_playbackTick (s : State) : s.playbackTick.memories = s.memories := by
  have hp := memories_pace s
  exact memories_ite rfl <| memories_ite rfl <| memories_ite hp
    ((memories_servicePlayback ..).trans ((memories_discard ..).trans hp))

theorem memories_adjustGenerator (s : State) (n : U64) : (s.adjustGenerator n).memories = s.memories :=
  memories_ite (memories_ite rfl rfl) rfl

theorem memories_serviceCapture (cs : List VidChan) (n : U64) (s : State) :
    (State.serviceCapture cs n s).memories = s.memories := by
  induction cs generalizing s with
  | nil => rfl
  | cons c cs ih =>
    have ha := memories_allocSlot s
    unfold State.serviceCapture
    split <;> rename_i h <;> rw [h] at ha
    · exact ha
    · exact (ih _).trans ha

theorem memories_captureTick (s : State) : s.captureTick.memories = s.memories :=
  memories_ite rfl <| memories_ite rfl <|
    (memories_serviceCapture ..).trans ((memories_adjustGenerator ..).trans (memories_pace s))

theorem memories_audioTrigger (s : State) : s.audioTrigger.memories = s.memories := memories_ite rfl rfl

theorem memories_stepService (s : State) : s.stepService.memories = s.memories :=
  memories_ite ((memories_captureTick _).trans ((memories_playbackTick _).trans (memories_audioTrigger s))) rfl

/-! ### The phases of a tick (R218 to R230) -/

theorem memories_sampleRate (s : State) : s.sampleRate.memories = s.memories := memories_ite rfl rfl

theorem memories_stepExtSync (s : State) : s.stepExtSync.memories = s.memories := memories_ite rfl rfl

theorem memories_stepAudio (s : State) : s.stepAudio.memories = s.memories :=
  memories_ite (memories_ite rfl (memories_ite rfl rfl)) rfl

/-- No phase of the field-1 sequence writes a memory. -/
theorem memories_f1Phase (n : F1Step) (s : State) : (s.f1Phase n).memories = s.memories := by
  cases n with
  | frameId => exact memories_sampleRate _
  | freeing => exact memories_freeing s
  | service => exact memories_stepService s
  | extSync => exact memories_stepExtSync s
  | audio => exact memories_stepAudio s
  | snapshot => simp [State.memories, State.f1Phase, State.stepSnapshot]
  | wirePush => simp [State.memories, State.f1Phase, State.stepWirePush]
  | _ => rfl

theorem memories_f2Phase (s : State) : s.f2Phase.memories = s.memories :=
  have hs := memories_sampleRate s
  memories_ite (t := { s.sampleRate with gen := _ }) hs hs

/-! ### Commands (R107, R108) -/

/-- Whatever next state the answer gives, its memories are `m`. -/
def LeavesMemories (m : Memory × Memory) (a : Answered) : Prop := ∀ t, a = .next t → t.memories = m

theorem leavesMemories_next {m : Memory × Memory} {t : State} (h : t.memories = m) :
    LeavesMemories m (.next t) := by
  rintro _ ⟨⟩
  exact h

/-- A command that checks its operand first. -/
theorem leavesMemories_ite {m : Memory × Memory} {c : Prop} [Decidable c] {t u : State} (ht : t.memories = m)
    (hu : u.memories = m) : LeavesMemories m (if c then .next t else .next u) := by
  split
  · exact leavesMemories_next ht
  · exact leavesMemories_next hu

theorem memories_pushExternal (s : State) (g : TC64) : (s.pushExternal g).memories = s.memories := by
  unfold State.pushExternal
  dsimp only
  split
  · split
    · rfl
    · exact memories_ite rfl rfl
  · rfl

theorem memories_readExternal (s : State) : s.readExternal.2.memories = s.memories := by
  obtain ⟨e, h⟩ := s.readExternal_snd
  rw [h]
  rfl

theorem memories_readGenerator (s : State) : s.readGenerator.2.memories = s.memories := by
  obtain ⟨e, h⟩ := s.readGenerator_snd
  rw [h]
  rfl

theorem memories_queryExternal (s : State) (b : BankId) : (s.queryExternal b).memories = s.memories := by
  unfold State.queryExternal
  dsimp only
  split <;> exact memories_readExternal s

theorem memories_queryGenerator (s : State) (b : BankId) : (s.queryGenerator b).memories = s.memories := by
  unfold State.queryGenerator
  dsimp only
  split <;> exact memories_readGenerator s

theorem leavesMemories_execAlloc (b : BankId) (s : State) : LeavesMemories s.memories (execAlloc b s) := by
  have h := memories_allocSlot s
  unfold execAlloc
  split <;> rename_i hs <;> rw [hs] at h <;> exact leavesMemories_next h

theorem leavesMemories_execDeq (b : BankId) (s : State) : LeavesMemories s.memories (execDeq b s) := by
  have h := memories_deqSlot s
  unfold execDeq
  split <;> rename_i hs <;> rw [hs] at h <;> exact leavesMemories_next h

theorem leavesMemories_execTcquery (b : BankId) (src : BitVec 3) (s : State) :
    LeavesMemories s.memories (execTcquery b src s) := by
  unfold execTcquery
  split
  case h_4 => exact leavesMemories_next (memories_queryExternal s b)
  case h_5 => exact leavesMemories_next (memories_queryGenerator s b)
  all_goals exact leavesMemories_next rfl

theorem memories_xferStart (s : State) (b : BankId) (r : XferReq) : (s.xferStart b r).memories = s.memories := by
  unfold State.xferStart
  split <;> rfl

theorem leavesMemories_execXfer (b : BankId) (dir : Bool) (hint : BitVec 2) (s : State) :
    LeavesMemories s.memories (execXfer b dir hint s) := by
  unfold execXfer
  dsimp only
  split
  · exact leavesMemories_next rfl
  split
  · exact leavesMemories_next (memories_xferStart ..)
  · exact leavesMemories_next rfl
  · exact leavesMemories_next rfl

/-- No command writes a memory in its acceptance step. -/
theorem leavesMemories_command {i : Instr} {b : BankId} (hb : i.bank? = some b) (s : State) :
    LeavesMemories s.memories (exec i s) := by
  cases i <;> cases hb
  case init => exact leavesMemories_ite rfl rfl
  case start => exact leavesMemories_ite rfl rfl
  case stop => exact leavesMemories_ite rfl rfl
  case close => exact leavesMemories_ite rfl rfl
  case settrig => exact leavesMemories_ite rfl rfl
  case setspeed => exact leavesMemories_ite rfl rfl
  case audarm => exact leavesMemories_ite rfl rfl
  case mdget => exact leavesMemories_ite rfl rfl
  case mdset => exact leavesMemories_ite rfl rfl
  case free => exact leavesMemories_ite (memories_freeSlot ..) rfl
  case enq => exact leavesMemories_ite (memories_enqSlot ..) rfl
  case alloc => exact leavesMemories_execAlloc b s
  case deq => exact leavesMemories_execDeq b s
  case xfer => exact leavesMemories_execXfer b _ _ s
  case genset => exact leavesMemories_ite (memories_pushExternal ..) rfl
  case genrun => exact leavesMemories_next (memories_ite rfl rfl)
  case tcquery => exact leavesMemories_execTcquery b _ s
  all_goals exact leavesMemories_next rfl

/-! ### Transfers (R141 to R165) -/

/-- A channel and then the bank of its transfer are written: the end of every phase of a transfer. -/
theorem memories_chan_bank (s : State) (k : ChanId) (c : Channel) (b : BankId) (x : Bank) :
    ((s.setChan k c).setBank b x).memories = s.memories := rfl

theorem memories_stampTs (s : State) (k : ChanId) (j : Fin 6) : (s.stampTs k j).memories = s.memories := rfl

theorem memories_xferPin (s : State) (b : BankId) (k : ChanId) (r : XferReq) :
    (s.xferPin b k r).memories = s.memories := by
  unfold State.xferPin
  dsimp only
  split <;> exact memories_chan_bank ..

theorem memories_xferMap (s : State) (b : BankId) (k : ChanId) (r : XferReq) :
    (s.xferMap b k r).memories = s.memories := by
  have hd : (s.callMap (s.chan k).sg r.dir).2.memories = s.memories := rfl
  unfold State.xferMap
  dsimp only
  split
  · exact (memories_chan_bank ..).trans hd
  · exact (memories_chan_bank ..).trans (memories_ite hd hd)

theorem memories_xferWait (s : State) (b : BankId) (k : ChanId) (r : XferReq) :
    (s.xferWait b k r).memories = s.memories := memories_ite rfl rfl

theorem memories_xferCleanup (s : State) (b : BankId) (k : ChanId) (r : XferReq) (o : XferOutcome) :
    (s.xferCleanup b k r o).memories = s.memories := by
  obtain ⟨u, h, hu, -⟩ := s.xferCleanup_spec b k r o
  rw [h, hu]
  rfl

theorem memories_callerEvent (s : State) (b : BankId) (o : XferOutcome) :
    (s.callerEvent b o).memories = s.memories := by
  unfold State.callerEvent
  split
  case h_7 => exact memories_ite rfl rfl
  all_goals rfl

theorem memories_raiseAll (s : State) (fs : List ModelFault) : (s.raiseAll fs).memories = s.memories :=
  List.foldlRecOn (motive := fun u : State => u.memories = s.memories) fs State.raise rfl fun _ hu _ _ => hu

/-- The builder's stores touch host memory as any other agent's (R149). -/
theorem touches_storeBytes (bs : List Byte) (s : State) (addr : U64) : Touches s (s.storeBytes addr bs) := by
  induction bs generalizing s addr with
  | nil => exact .refl s
  | cons v vs ih => exact (touches_storeHost s addr v).trans (ih ..)

theorem MemoryInv.xferProgram {s : State} (h : MemoryInv s) (b : BankId) (k : ChanId) (r : XferReq) :
    MemoryInv (s.xferProgram b k r) := by
  unfold State.xferProgram
  extract_lets s1 s2 s3
  have h2 : MemoryInv s2 := (touches_storeBytes ..).wf (h.of_memories (memories_raiseAll ..))
  have h3 : s3.memories = s2.memories := (memories_stampTs ..).trans (memories_stampTs ..)
  exact h2.of_memories ((memories_chan_bank s3 ..).trans h3)

/-- Of the phases of a transfer only X4 writes a memory: it stores the chain (R149, R153). -/
theorem MemoryInv.callerStep {s : State} (h : MemoryInv s) (b : BankId) : MemoryInv (s.callerStep b) := by
  unfold State.callerStep
  split
  · exact h
  · exact h
  · exact h
  · exact h.of_memories (memories_xferPin ..)
  · exact h.of_memories (memories_xferMap ..)
  · exact h.xferProgram ..
  · exact h.of_memories (memories_xferWait ..)
  · exact h.of_memories (memories_xferCleanup ..)

/-! ### The channels and the dispatcher (R166, R329) -/

theorem MemoryInv.performChain {s : State} (h : MemoryInv s) (k : ChanId) : MemoryInv (s.performChain k) := by
  obtain ⟨-, e⟩ | ⟨-, -, u, hu, e⟩ := performChain_spec s k <;> rw [e]
  · exact h
  · exact hu.wf h

theorem MemoryInv.spoil {s : State} (h : MemoryInv s) (k : ChanId) (a : U64) (v : Byte) :
    MemoryInv (s.spoil k a v) := by
  obtain e | ⟨u, hu, e⟩ := spoil_spec s k a v <;> rw [e]
  · exact h
  · exact hu.wf h

theorem memories_raiseDone (s : State) (k : ChanId) : (s.raiseDone k).memories = s.memories := by
  obtain h | h | h := raiseDone_spec s k <;> rw [h] <;> rfl

theorem memories_raiseChanBuserr (s : State) (k : ChanId) : (s.raiseChanBuserr k).memories = s.memories :=
  memories_ite rfl rfl

/-- A completion does the moves that are still to be done (R329, log 10). -/
theorem MemoryInv.handleDone {s : State} (h : MemoryInv s) (k : ChanId) : MemoryInv (s.handleDone k) := by
  unfold State.handleDone
  split
  · obtain ⟨-, e⟩ | ⟨-, e⟩ := settle_spec s k <;> rw [e]
    · exact h.performChain k
    · exact h
  · exact h

theorem MemoryInv.source {j : Fin 9} {s t : State} (h : MemoryInv s) (he : exec (sourceInstr j) s = .next t) :
    MemoryInv t := by
  obtain ⟨u, hu, rfl⟩ | ⟨e, ph, -, rfl⟩ := exec_source he
  · obtain ⟨c, rfl⟩ | ⟨k, rfl⟩ := hu
    · exact h
    · exact MemoryInv.handleDone (s := s.takeSource j) h k
  · exact h

/-! ### One step -/

/-- The stores of the agents keep the canonical form, and nothing else writes a memory. -/
theorem Transition.keeps_memoryInv {s t : State} (ht : Transition s t) (h : MemoryInv s) : MemoryInv t := by
  cases ht with
  | idle => exact h
  | look e => exact h
  | note f e => exact h
  | enable v => exact h
  | operand b off v => exact h
  | illegal b w => exact h
  | command b w i t _ _ hd he => exact h.of_memories (leavesMemories_command (bank?_of_decode hd) (s.setCmd b w) t he)
  | caller b => exact h.callerStep b
  | callerEvent b o => exact h.of_memories (memories_callerEvent ..)
  | dispatch => exact h
  | handler i t _ hd he =>
    obtain ⟨j, -, -, rfl⟩ := decode_status hd
    exact h.source he
  | phase n => exact h.of_memories (memories_f1Phase n s)
  | field2 => exact h.of_memories (memories_f2Phase s)
  | raised e j => exact h
  | done k => exact h.of_memories (memories_raiseDone s k)
  | chanBuserr k => exact h.of_memories (memories_raiseChanBuserr s k)
  | move k => exact h.performChain k
  | spoil k a v => exact h.spoil k a v
  | hostStore a v => exact (touches_storeHost s a v).wf h
  | cardStore a v => exact (touches_storeCard s a v).wf h

/-- Settles O53: taking the next event off the schedule leaves the memories, and the transition that follows keeps
their form. -/
theorem stepKeepsMemoryForm : Obligations.StepKeepsMemoryForm := by
  intro s t h hs
  obtain ⟨-, e, ht⟩ := step_transition h
  exact ht.keeps_memoryInv hs

end Sys2Proof.Machine

/-! SUPPORT. The host's register accesses, the races of 20_memory.md R88, and the four commands that take a slot
index: what each changes, and that it changes nothing else. -/

namespace Sys2Proof.Machine

/-! ### Slot indices (R74, R112) -/

theorem slotOperand_ofNat (i : SlotIx) : slotOperand (BitVec.ofNat 16 i.val) = i := by
  apply Fin.ext
  have := i.isLt
  simp only [slotOperand, BitVec.toNat_ofNat, Fin.val_ofNat]
  omega

theorem slotValid_ofNat {s : State} {i : SlotIx} (h : i.val < s.session.poolSize.toNat) :
    slotValid s (BitVec.ofNat 16 i.val) = true := by
  have := i.isLt
  have hi : (BitVec.ofNat 16 i.val).toNat = i.val := by
    rw [BitVec.toNat_ofNat]
    omega
  simpa [slotValid, hi] using h

theorem slotValid_eq_false {s : State} {slot : BitVec 16} (h : s.session.poolSize.toNat ≤ slot.toNat) :
    slotValid s slot = false := decide_eq_false (Nat.not_lt.2 h)

/-- A command that is refused for its slot index ends INVALID, whatever it does with a valid one (R185). -/
theorem onlyBankBecomes_of_not_slotValid {b : BankId} {s u : State} {slot : BitVec 16} {a : Answered}
    (h : s.session.poolSize.toNat ≤ slot.toNat)
    (ha : a = if slotValid s slot then .next u else .next (s.finish b .invalid)) :
    ∃ t, a = .next t ∧ OnlyBankBecomes b ((s.bank b).ended .invalid) s t := by
  rw [slotValid_eq_false h] at ha
  exact ⟨_, ha, onlyBankBecomes_finish ..⟩

/-- Settles O17: the index check decides, and the record read or written is the one the index names. -/
theorem indexedCommands : Obligations.IndexedCommands := by
  intro b s
  refine ⟨fun i hi => ⟨?mdget, ?mdset⟩, fun slot i hslot hmem => ?invalid⟩
  case mdget =>
    have he : exec (.mdget b (BitVec.ofNat 16 i.val)) s =
        .next (s.setBank b ({ s.bank b with mdbuf := s.metaOf i }.complete .ok)) := by
      rw [exec, execMdget, if_pos (slotValid_ofNat hi), slotOperand_ofNat]
    exact ⟨_, he, onlyBankBecomes_setBank ..⟩
  case mdset =>
    have he : exec (.mdset b (BitVec.ofNat 16 i.val)) s =
        .next ((s.setMeta i (s.bank b).mdbuf).finish b .ok) := by
      rw [exec, execMdset, if_pos (slotValid_ofNat hi), slotOperand_ofNat]
    exact ⟨_, he, bankBecomes_finish rfl b .ok, metaBecomes_setMeta s i _, rfl, .refl s⟩
  case invalid =>
    simp only [List.mem_cons, List.not_mem_nil, or_false] at hmem
    obtain rfl | rfl | rfl | rfl := hmem
    all_goals exact onlyBankBecomes_of_not_slotValid hslot rfl

/-! ### Races (R88) -/

theorem Channel.inDestination_iff (c : Channel) (a : U64) :
    c.inDestination a = true ↔
      if c.dir = true then ∃ r ∈ c.runs, (a - r.bus).toNat < r.len.toNat
      else c.card.toNat ≤ a.toNat ∧ a.toNat < c.card.toNat + c.len.toNat := by
  unfold Channel.inDestination
  split <;> simp

/-- The executable test of a race is the one the statements name. -/
theorem State.raced_iff (s : State) (reader : Option ChanId) (dir : Bool) (a : U64) :
    s.raced reader dir a = true ↔ Raced s reader dir a := by
  simp only [State.raced, Raced, List.any_eq_true, List.mem_finRange, true_and, Bool.and_eq_true,
    decide_eq_true_eq, beq_iff_eq, and_assoc, ne_eq]
  refine exists_congr fun j => and_congr_right fun _ => and_congr_right fun _ => and_congr_right fun hd => ?_
  rw [Channel.inDestination_iff, hd]

theorem State.loadHost_fst (s : State) (reader : Option ChanId) (a : U64) :
    (s.loadHost reader a).1 =
      if s.raced reader true a = true then Config.freeByte s.env.draws else s.hostMem.read a.toNat :=
  apply_ite Prod.fst ..

theorem State.loadCard_fst (s : State) (reader : Option ChanId) (c : U32) :
    (s.loadCard reader c).1 =
      if s.raced reader false (c.setWidth 64) = true then Config.freeByte s.env.draws
      else s.cardMem.read c.toNat := apply_ite Prod.fst ..

/-- A host's load changes the environment record only: the value it returns, and a draw in a race (R88). -/
theorem State.hostLoad_eq (s : State) (a : U64) :
    ∃ e, s.hostLoad a = s.withEnv e ∧ e.agenda = s.env.agenda ∧ e.trace = s.env.trace ∧
      e.readData = (s.loadHost none a).1.setWidth 64 := by
  unfold State.hostLoad
  obtain h | h := s.loadHost_snd none a <;> simp only [h] <;> exact ⟨_, rfl, rfl, rfl, rfl⟩

/-- While GO is set, a byte of the destination range takes the value, and the moves are to be done again (R88). -/
theorem State.spoil_of_go {s : State} {k : ChanId} {a : U64} (v : Byte) (hgo : (s.chan k).go = true)
    (hin : (s.chan k).inDestination a = true) :
    ∃ u, u = s.storeDestination (s.chan k).dir a v ∧
      s.spoil k a v = u.setChan k { u.chan k with moved := false } := by
  refine ⟨_, rfl, ?_⟩
  rw [State.spoil, hgo, hin]
  rfl

/-- Settles O32: loads by their two branches, and the spoil step by the store it makes. -/
theorem destinationIsRaced : Obligations.DestinationIsRaced := by
  intro s rest a
  refine ⟨fun h => ?hostLoad, fun k => ⟨s.loadHost_fst (some k) a, s.raced_iff ..⟩,
    fun k c => ⟨s.loadCard_fst (some k) c, s.raced_iff ..⟩, fun k v h hm hgo hdir hin => ?toHost,
    fun k v h hm hgo hdir hlo hhi hlt => ?toCard⟩
  case hostLoad =>
    obtain ⟨e, he, hagenda, htrace, hdata⟩ := (s.leaving rest).hostLoad_eq a
    rw [State.loadHost_fst] at hdata
    refine ⟨(s.leaving rest).withEnv e, ?_, rfl, hagenda, htrace, fun hr => ?_, fun hr => ?_⟩
    · rw [step_scheduled h, State.apply, he]
    · exact hdata.trans (congrArg _ (if_pos ((s.raced_iff ..).2 hr)))
    · exact hdata.trans (congrArg _ (if_neg (mt (s.raced_iff ..).1 hr)))
  case toHost =>
    have hd : ((s.leaving rest).chan k).inDestination a = true :=
      (Channel.inDestination_iff ..).2 (by rw [State.leaving_chan, if_pos hdir]; exact hin)
    obtain ⟨u, hu, hs⟩ := State.spoil_of_go v (s := s.leaving rest) hgo hd
    rw [State.leaving_chan, hdir] at hu
    obtain ⟨cs, hcs⟩ := (s.leaving rest).storeHost_eq a v
    replace hu : u = { s.leaving rest with hostMem := s.hostMem.write a.toNat v, chans := cs } := hu.trans hcs
    refine ⟨_, (step_scheduled h).trans (congrArg _ hs), by simp, by rw [hu]; rfl, by rw [hu]; rfl, fun x => ?_⟩
    rw [hu]
    exact Memory.read_write hm.1 ..
  case toCard =>
    have hd : ((s.leaving rest).chan k).inDestination a = true :=
      (Channel.inDestination_iff ..).2 (by rw [State.leaving_chan, if_neg (by simp [hdir])]; exact ⟨hlo, hhi⟩)
    obtain ⟨u, hu, hs⟩ := State.spoil_of_go v (s := s.leaving rest) hgo hd
    rw [State.leaving_chan, hdir] at hu
    have ha : (lo32 a).toNat = a.toNat := by
      simp only [lo32, BitVec.extractLsb'_toNat, Nat.shiftRight_zero]
      exact Nat.mod_eq_of_lt hlt
    replace hu : u = (s.leaving rest).storeCard (lo32 a) v := hu
    refine ⟨_, (step_scheduled h).trans (congrArg _ hs), by simp, by rw [hu]; rfl, by rw [hu]; rfl, fun x => ?_⟩
    rw [hu, ← ha]
    exact Memory.read_write hm.2 ..

end Sys2Proof.Machine

/-! SUPPORT. The host's register accesses (20_memory.md R75, R76, R79 to R81): what each read and each write
changes, and that it changes nothing else. -/

namespace Sys2Proof.Machine

/-! ### Halves and words -/

theorem toNat_lo32 (x : U64) : (lo32 x).toNat = x.toNat % 2 ^ 32 := by simp [lo32]

theorem toNat_hi32 (x : U64) : (hi32 x).toNat = x.toNat / 2 ^ 32 := by
  have := x.isLt
  rw [hi32, BitVec.extractLsb'_toNat, Nat.shiftRight_eq_div_pow]
  omega

theorem toNat_setLo32 (x : U64) (v : U32) : (setLo32 x v).toNat = (hi32 x).toNat * 2 ^ 32 + v.toNat :=
  toNat_append_eq_add ..

theorem toNat_setHi32 (x : U64) (v : U32) : (setHi32 x v).toNat = v.toNat * 2 ^ 32 + (lo32 x).toNat :=
  toNat_append_eq_add ..

@[simp] theorem lo32_setLo32 (x : U64) (v : U32) : lo32 (setLo32 x v) = v := by
  apply BitVec.eq_of_toNat_eq
  rw [toNat_lo32, toNat_setLo32]
  omega

@[simp] theorem hi32_setLo32 (x : U64) (v : U32) : hi32 (setLo32 x v) = hi32 x := by
  apply BitVec.eq_of_toNat_eq
  rw [toNat_hi32, toNat_setLo32]
  omega

@[simp] theorem lo32_setHi32 (x : U64) (v : U32) : lo32 (setHi32 x v) = lo32 x := by
  apply BitVec.eq_of_toNat_eq
  rw [toNat_lo32, toNat_setHi32]
  omega

@[simp] theorem hi32_setHi32 (x : U64) (v : U32) : hi32 (setHi32 x v) = v := by
  apply BitVec.eq_of_toNat_eq
  rw [toNat_hi32, toNat_setHi32]
  omega

/-- The twenty words of a record, in offset order (R43). -/
def Meta.words (m : Meta) : List U32 :=
  [m.line, m.field, lo32 m.tick, hi32 m.tick, lo32 m.hostTs, hi32 m.hostTs, m.chtag, m.incr, lo32 m.user, hi32 m.user,
    lo32 m.audpos, hi32 m.audpos, lo32 m.tc0, hi32 m.tc0, lo32 m.tc1, hi32 m.tc1, lo32 m.tc2, hi32 m.tc2, lo32 m.tc3,
    hi32 m.tc3]

theorem Meta.words_getElem? (m : Meta) (w : Fin 20) : m.words[w.val]? = some (m.word w) := by fin_cases w <;> rfl

theorem Meta.words_setWord (m : Meta) (w : Fin 20) (v : U32) : (m.setWord w v).words = m.words.set w.val v := by
  fin_cases w <;> simp [Meta.words, Meta.setWord]

/-- A word of the record after a word is written: no two words overlap (R43, R79). -/
theorem Meta.word_setWord (m : Meta) (w w' : Fin 20) (v : U32) :
    (m.setWord w v).word w' = if w' = w then v else m.word w' := by
  have h := (m.setWord w v).words_getElem? w'
  rw [Meta.words_setWord] at h
  by_cases hw : w' = w
  · subst hw
    rw [List.getElem?_set_self (by simp [Meta.words])] at h
    exact (Option.some.inj h).symm.trans (if_pos rfl).symm
  · rw [List.getElem?_set_ne (Ne.symm (Fin.val_ne_of_ne hw)), Meta.words_getElem?] at h
    exact (Option.some.inj h).symm.trans (if_neg hw).symm

/-! ### Writes to a bank (R79, R80) -/

theorem Bank.writeReg_mdbuf (x : Bank) (w : Fin 20) (v : U32) :
    x.writeReg (0x40 + 4 * w.val) v = { x with mdbuf := x.mdbuf.setWord w v } := by fin_cases w <;> rfl

/-- A write to CSTAT, to a result register or to an offset that names none stores nothing. -/
theorem Bank.writeReg_ignored (x : Bank) {o : Nat} (v : U32)
    (h : o < 0x08 ∨ 0x20 ≤ o ∧ o < 0x40 ∨ 0x90 ≤ o) : x.writeReg o v = x := by
  unfold Bank.writeReg
  split
  case h_7 =>
    have hn : mdbufWord o = none := by rw [mdbufWord, dif_neg (by omega)]
    rw [hn]
  all_goals simp at h

theorem State.setBank_bank_self (s : State) (b : BankId) : s.setBank b (s.bank b) = s := by
  simp [State.setBank, State.bank]

theorem regName_global_offset {p : Params} {off o : Nat} (h : regName p off = .global o) : o = off := by
  unfold regName at h
  split at h
  · cases h
    rfl
  split at h
  · dsimp only at h
    split at h <;> cases h
  split at h
  · dsimp only at h
    split at h <;> cases h
  · cases h

/-- The offset of a register that belongs to a bank (R79). -/
theorem regName_bank_offset {p : Params} {off : Nat} {b : BankId} {o : Nat} (h : regName p off = .bank b o) :
    off = 0x1000 + 0x100 * b.val + o := by
  unfold regName at h
  split at h
  · cases h
  split at h
  · dsimp only at h
    split at h <;> cases h
  split at h
  · dsimp only at h
    split at h <;> cases h
    dsimp only
    omega
  · cases h

/-! ### A scheduled access (R76) -/

theorem accessOk_iff (off width : Nat) : accessOk off width = true ↔ width = 32 ∧ off % 4 = 0 := by
  simp [accessOk]

theorem step_read {s : State} {rest : List Event} {off width : Nat} (h : Scheduled (.rd off width) rest s)
    (ha : width = 32 ∧ off % 4 = 0) :
    step s = .next ((s.leaving rest).returnRead ((s.readReg off).setWidth 64)) := by
  rw [step_scheduled h, State.apply, State.hostRead, if_pos ((accessOk_iff ..).2 ha)]
  rfl

theorem step_read_bad {s : State} {rest : List Event} {off width : Nat} (h : Scheduled (.rd off width) rest s)
    (ha : ¬ (width = 32 ∧ off % 4 = 0)) :
    ∃ e, step s = .next (((s.leaving rest).raise (.u9 off width)).withEnv e) ∧ e.trace = s.env.trace := by
  rw [step_scheduled h, State.apply, State.hostRead, if_neg (mt (accessOk_iff ..).1 ha)]
  exact ⟨_, rfl, rfl⟩

theorem step_write {s : State} {rest : List Event} {off : Nat} {v : U32} (h : Scheduled (.wr off 32 v) rest s)
    (ha : off % 4 = 0) : step s = (s.leaving rest).writeReg off v := by
  rw [step_scheduled h, State.apply, State.hostWrite, if_pos ((accessOk_iff ..).2 ⟨rfl, ha⟩)]

theorem step_write_bad {s : State} {rest : List Event} {off width : Nat} {v : U32}
    (h : Scheduled (.wr off width v) rest s) (ha : ¬ (width = 32 ∧ off % 4 = 0)) :
    step s = .next ((s.leaving rest).raise (.u9 off width)) := by
  rw [step_scheduled h, State.apply, State.hostWrite, if_neg (mt (accessOk_iff ..).1 ha)]

/-- A write to a register of a bank that exists, other than CMD. -/
theorem step_write_bank {s : State} {rest : List Event} {off : Nat} {v : U32} (h : Scheduled (.wr off 32 v) rest s)
    {b : BankId} (hb : b.val < s.cfg.numCallers) {o : Nat} (ho : o < 0x100) (hoff : off = 0x1000 + 0x100 * b.val + o)
    (h4 : o % 4 = 0) (h0 : o ≠ 0) :
    step s = .next ((s.leaving rest).setBank b ((s.bank b).writeReg o v)) := by
  have hn : regName (s.leaving rest).cfg off = .bank b o := by
    rw [regName_bank_window _ b ho hoff]
    exact if_pos ((bankExists_iff ..).2 hb)
  rw [step_write h (by omega), State.writeReg, hn]
  exact if_neg h0

/-- A write to an offset that is neither IRQ_ENABLE nor an operand register of a bank that exists is ignored
(R80, R81). -/
theorem State.writeReg_ignored (s : State) {off : Nat} (v : U32) (h4 : off % 4 = 0) (hen : off ≠ 0x004)
    (h : ∀ b : BankId, b.val < s.cfg.numCallers →
      ¬ (off = 0x1000 + 0x100 * b.val ∨
        (0x1008 + 0x100 * b.val ≤ off ∧ off < 0x1020 + 0x100 * b.val) ∨
        (0x1040 + 0x100 * b.val ≤ off ∧ off < 0x1090 + 0x100 * b.val))) :
    s.writeReg off v = .next s := by
  unfold State.writeReg
  split
  case h_1 o hn =>
    rw [regName_global_offset hn, if_neg hen]
  case h_2 => rfl
  case h_3 b o hn =>
    have hoff := regName_bank_offset hn
    have hb := h b ((bankExists_iff ..).1 (regName_bank hn))
    rw [if_neg (by omega), Bank.writeReg_ignored _ _ (by omega), State.setBank_bank_self]
  case h_4 => rfl

/-- Settles O12: an access of a bad width or alignment raises U9; an aligned one goes to the register its offset
names. -/
theorem registerAccessEffects : Obligations.RegisterAccessEffects := by
  intro s rest off width v
  refine ⟨fun h ha => step_read h ha, fun h ha => ?badRead, fun h ha => ?badWrite,
    fun b x hb h hx => ?operand, fun b w hb h hoff => ?mdbuf, fun h h4 hen hno => ?ignored⟩
  case badRead =>
    obtain ⟨e, hstep, htrace⟩ := step_read_bad h ha
    exact ⟨_, hstep, faultAdded_raise (s.leaving rest) _, rfl, htrace⟩
  case badWrite => exact ⟨_, step_write_bad h ha, faultAdded_raise (s.leaving rest) _, rfl⟩
  case operand =>
    obtain ⟨o, hlo, hhi, h4, hoff, hx⟩ : ∃ o, 0 < o ∧ o < 0x100 ∧ o % 4 = 0 ∧
        off = 0x1000 + 0x100 * b.val + o ∧ (s.bank b).writeReg o v = x := by
      simp only [List.mem_cons, Prod.mk.injEq, List.not_mem_nil, or_false] at hx
      obtain ⟨rfl, rfl⟩ | ⟨rfl, rfl⟩ | ⟨rfl, rfl⟩ | ⟨rfl, rfl⟩ | ⟨rfl, rfl⟩ | ⟨rfl, rfl⟩ := hx
      · exact ⟨0x08, by decide, by decide, rfl, by omega, rfl⟩
      · exact ⟨0x0C, by decide, by decide, rfl, by omega, rfl⟩
      · exact ⟨0x10, by decide, by decide, rfl, by omega, rfl⟩
      · exact ⟨0x14, by decide, by decide, rfl, by omega, rfl⟩
      · exact ⟨0x18, by decide, by decide, rfl, by omega, rfl⟩
      · exact ⟨0x1C, by decide, by decide, rfl, by omega, rfl⟩
    exact ⟨_, step_write_bank h hb hhi hoff h4 hlo.ne', hx ▸ onlyBankBecomes_setBank ..⟩
  case mdbuf =>
    have hstep := step_write_bank h hb (o := 0x40 + 4 * w.val) (by omega) (by omega) (by omega) (by omega)
    rw [Bank.writeReg_mdbuf] at hstep
    refine ⟨_, hstep, ?_, fun w' => ?_⟩
    · rw [State.bank_setBank_self]
      exact onlyBankBecomes_setBank ..
    · rw [s.readReg_mdbuf hb w' rfl, State.readReg_mdbuf _ (by exact hb) w' rfl, State.bank_setBank_self,
        Meta.word_setWord]
  case ignored => exact (step_write h h4).trans (State.writeReg_ignored (s.leaving rest) v h4 hen hno)

end Sys2Proof.Machine

/-! SUPPORT. The decoder against the encoder and against the opcode table (30_encoding.md R100 to R105, R110,
R114): the operand fields read back from the words they are packed into; and, row by row of the table, what the
decoder makes of the words with the row's OPC. -/

namespace Sys2Proof

open Sys2Proof.Machine

/-! ### Operand fields read back (R101) -/

theorem initSub_fields (cap pb aud : Bool) :
    (initSub cap pb aud).extractLsb' 3 5 = 0 ∧ (initSub cap pb aud).getLsbD 0 = cap ∧
      (initSub cap pb aud).getLsbD 1 = pb ∧ (initSub cap pb aud).getLsbD 2 = aud := by
  revert cap pb aud
  decide

theorem initImm_fields (pool : BitVec 8) (nch src : BitVec 4) :
    (initImm pool nch src).extractLsb' 0 8 = pool ∧ (initImm pool nch src).extractLsb' 8 4 = nch ∧
      (initImm pool nch src).extractLsb' 12 4 = src := by
  refine ⟨BitVec.extractLsb'_append_eq_right, ?_, ?_⟩
  · rw [initImm, BitVec.extractLsb'_append_eq_of_le (by decide)]
    exact BitVec.extractLsb'_append_eq_right
  · rw [initImm, BitVec.extractLsb'_append_eq_of_le (by decide)]
    exact BitVec.extractLsb'_append_eq_left

theorem xferSub_fields (dir : Bool) (hint : BitVec 2) :
    (bit1 dir ++ (0 : BitVec 5) ++ hint).extractLsb' 2 5 = 0 ∧
      (bit1 dir ++ (0 : BitVec 5) ++ hint).getLsbD 7 = dir ∧
      (bit1 dir ++ (0 : BitVec 5) ++ hint).extractLsb' 0 2 = hint := by
  revert dir hint
  decide

theorem genrunSub_fields (en : Bool) :
    ((0 : BitVec 7) ++ bit1 en).extractLsb' 1 7 = 0 ∧ ((0 : BitVec 7) ++ bit1 en).getLsbD 0 = en := by
  revert en
  decide

theorem tcquerySub_fields (src : BitVec 3) :
    ((0 : BitVec 5) ++ src).extractLsb' 3 5 = 0 ∧ ((0 : BitVec 5) ++ src).extractLsb' 0 3 = src := by
  revert src
  decide

/-- Settles O1: the word's three fields come back, and in them the operands packed there; a source's status word
has its own bit lowest. -/
theorem decodeEncodeRoundTrip : Obligations.DecodeEncodeRoundTrip := by
  intro i
  cases i with
  | init b cap pb aud pool nch src =>
    simpa [encode, decode, decodeCommand, initImm_fields] using initSub_fields cap pb aud
  | xfer b dir hint => simpa [encode, decode, decodeCommand] using xferSub_fields dir hint
  | genrun b en => simpa [encode, decode, decodeCommand] using genrunSub_fields en
  | tcquery b src => simpa [encode, decode, decodeCommand] using tcquerySub_fields src
  | free | enq | mdget | mdset => simp [encode, decode, decodeCommand]
  | start | stop | close | alloc | deq | depth | setspeed | getspeed | settrig | frameid | framerec | waitframe
  | drops | genset | genget | audarm => simp [encode, decode, decodeCommand, noOperands]
  | irqBuserr | irqDone0 | irqDone1 | irqDone2 | irqDone3 | irqOutvert | irqInvert0 | irqInvert1 | irqWrap => rfl

/-! ### The words of the opcode table (R100 to R105) -/

theorem commandWord_inj {o o' s s' : BitVec 8} {i i' : BitVec 16} :
    commandWord o s i = commandWord o' s' i' ↔ o = o' ∧ s = s' ∧ i = i' := by
  constructor
  · intro h
    exact ⟨by simpa using congrArg opcOf h, by simpa using congrArg subOf h, by simpa using congrArg immOf h⟩
  · rintro ⟨rfl, rfl, rfl⟩
    rfl

/-- What the decoder makes of word `w` by a row of the table that has its OPC: a word that matches the row is an
instruction's, and the only word of that instruction; one that does not is rejected for its reserved fields. -/
def DecodesBy (b : BankId) (w : U32) (row : U32 × U32) : Prop :=
  ∃ i, decode (.cmd b w) = whenReservedZero (decide (w &&& row.1 = row.2)) i ∧
    (w &&& row.1 = row.2 → encode i = .cmd b w)

/-- A row whose mask takes the OPC, the bits `sm` of SUB and the bits `im` of IMM16. -/
theorem decodesBy_row (b : BankId) {o sub sm : BitVec 8} {imm im : BitVec 16} {z : Bool} {i : Instr}
    (hd : decodeCommand b (commandWord o sub imm) = whenReservedZero z i)
    (hz : z = true ↔ sub &&& sm = 0 ∧ imm &&& im = 0)
    (he : z = true → encode i = .cmd b (commandWord o sub imm)) :
    DecodesBy b (commandWord o sub imm) (commandWord 0xFF sm im, commandWord o 0 0) := by
  have hm : commandWord o sub imm &&& commandWord 0xFF sm im = commandWord o 0 0 ↔ z = true := by
    rw [Laws.commandWord_and, commandWord_inj, hz, show o &&& 0xFF = o from BitVec.and_allOnes]
    simp
  refine ⟨i, ?_, fun h => he (hm.1 h)⟩
  simpa only [decode, hm, Bool.decide_eq_true] using hd

/-- A row of an opcode with no operand: SUB and IMM16 are reserved. -/
theorem decodesBy_plain {b : BankId} {o sub : BitVec 8} {imm : BitVec 16} {i : Instr}
    (hd : decodeCommand b (commandWord o sub imm) = whenReservedZero (noOperands (commandWord o sub imm)) i)
    (he : encode i = .cmd b (commandWord o 0 0)) :
    DecodesBy b (commandWord o sub imm) (commandWord 0xFF 0xFF 0xFFFF, commandWord o 0 0) := by
  refine decodesBy_row b hd ?_ ?_
  · rw [show sub &&& 0xFF = sub from BitVec.and_allOnes, show imm &&& 0xFFFF = imm from BitVec.and_allOnes]
    simp [noOperands]
  · intro hz
    obtain ⟨rfl, rfl⟩ : sub = 0 ∧ imm = 0 := by simpa [noOperands] using hz
    exact he

/-- A row of an opcode whose operand is a slot index: SUB is reserved. -/
theorem decodesBy_slotted {b : BankId} {o sub : BitVec 8} {imm : BitVec 16} {i : Instr}
    (hd : decodeCommand b (commandWord o sub imm) = whenReservedZero (sub == 0) i)
    (he : encode i = .cmd b (commandWord o 0 imm)) :
    DecodesBy b (commandWord o sub imm) (commandWord 0xFF 0xFF 0, commandWord o 0 0) := by
  refine decodesBy_row b hd ?_ ?_
  · rw [show sub &&& 0xFF = sub from BitVec.and_allOnes]
    simp
  · intro hz
    obtain rfl : sub = 0 := by simpa using hz
    exact he

/-- A row of an opcode whose operands lie in SUB, outside the bits `sm`: IMM16 is reserved. -/
theorem decodesBy_sub {b : BankId} {o sub sm : BitVec 8} {imm : BitVec 16} {z : Bool} {i : Instr}
    (hd : decodeCommand b (commandWord o sub imm) = whenReservedZero (z && imm == 0) i)
    (hz : z = true ↔ sub &&& sm = 0) (he : z = true → encode i = .cmd b (commandWord o sub 0)) :
    DecodesBy b (commandWord o sub imm) (commandWord 0xFF sm 0xFFFF, commandWord o 0 0) := by
  refine decodesBy_row b hd ?_ ?_
  · rw [show imm &&& 0xFFFF = imm from BitVec.and_allOnes]
    simp [hz]
  · intro h
    obtain ⟨hz, rfl⟩ : z = true ∧ imm = 0 := by simpa using h
    exact he hz

theorem initSub_of_fields (sub : BitVec 8) : sub.extractLsb' 3 5 = 0 →
    initSub (sub.getLsbD 0) (sub.getLsbD 1) (sub.getLsbD 2) = sub := by
  revert sub
  decide

theorem initImm_of_fields (imm : BitVec 16) :
    initImm (imm.extractLsb' 0 8) (imm.extractLsb' 8 4) (imm.extractLsb' 12 4) = imm := by
  rw [initImm, BitVec.extractLsb'_append_extractLsb'_eq_extractLsb' (x := imm) (start₂ := 12) (start₁ := 8) rfl]
  exact BitVec.extractLsb'_append_extractLsb'

theorem xferSub_of_fields (sub : BitVec 8) : sub.extractLsb' 2 5 = 0 →
    bit1 (sub.getLsbD 7) ++ (0 : BitVec 5) ++ sub.extractLsb' 0 2 = sub := by
  revert sub
  decide

theorem genrunSub_of_fields (sub : BitVec 8) : sub.extractLsb' 1 7 = 0 →
    (0 : BitVec 7) ++ bit1 (sub.getLsbD 0) = sub := by
  revert sub
  decide

theorem tcquerySub_of_fields (sub : BitVec 8) : sub.extractLsb' 3 5 = 0 →
    (0 : BitVec 5) ++ sub.extractLsb' 0 3 = sub := by
  revert sub
  decide

theorem extract3_eq_zero_iff (sub : BitVec 8) : (sub.extractLsb' 3 5 == 0) = true ↔ sub &&& 0xF8 = 0 := by
  revert sub
  decide

theorem decodesBy_init (b : BankId) (sub : BitVec 8) (imm : BitVec 16) :
    DecodesBy b (commandWord 0x01 sub imm) (commandWord 0xFF 0xF8 0, commandWord 0x01 0 0) := by
  refine decodesBy_row b (i := .init b (sub.getLsbD 0) (sub.getLsbD 1) (sub.getLsbD 2) (imm.extractLsb' 0 8)
    (imm.extractLsb' 8 4) (imm.extractLsb' 12 4)) (z := sub.extractLsb' 3 5 == 0) ?_ ?_ ?_
  · simp [decodeCommand]
  · rw [extract3_eq_zero_iff]
    simp
  · intro hz
    rw [encode, initSub_of_fields sub (by simpa using hz), initImm_of_fields]

theorem decodesBy_xfer (b : BankId) (sub : BitVec 8) (imm : BitVec 16) :
    DecodesBy b (commandWord 0x30 sub imm) (commandWord 0xFF 0x7C 0xFFFF, commandWord 0x30 0 0) := by
  refine decodesBy_sub (i := .xfer b (sub.getLsbD 7) (sub.extractLsb' 0 2)) (z := sub.extractLsb' 2 5 == 0) ?_ ?_ ?_
  · simp [decodeCommand]
  · revert sub
    decide
  · intro hz
    rw [encode, xferSub_of_fields sub (by simpa using hz)]

theorem decodesBy_genrun (b : BankId) (sub : BitVec 8) (imm : BitVec 16) :
    DecodesBy b (commandWord 0x42 sub imm) (commandWord 0xFF 0xFE 0xFFFF, commandWord 0x42 0 0) := by
  refine decodesBy_sub (i := .genrun b (sub.getLsbD 0)) (z := sub.extractLsb' 1 7 == 0) ?_ ?_ ?_
  · simp [decodeCommand]
  · revert sub
    decide
  · intro hz
    rw [encode, genrunSub_of_fields sub (by simpa using hz)]

theorem decodesBy_tcquery (b : BankId) (sub : BitVec 8) (imm : BitVec 16) :
    DecodesBy b (commandWord 0x43 sub imm) (commandWord 0xFF 0xF8 0xFFFF, commandWord 0x43 0 0) := by
  refine decodesBy_sub (i := .tcquery b (sub.extractLsb' 0 3)) (z := sub.extractLsb' 3 5 == 0) ?_ ?_ ?_
  · simp [decodeCommand]
  · exact extract3_eq_zero_iff sub
  · intro hz
    rw [encode, tcquerySub_of_fields sub (by simpa using hz)]

/-- Every row of the table reads the words with its OPC. -/
theorem decodesBy_commandRows (b : BankId) (sub : BitVec 8) (imm : BitVec 16) :
    ∀ row ∈ commandRows, DecodesBy b (commandWord (opcOf row.2) sub imm) row := by
  simp only [commandRows, List.forall_mem_cons]
  refine ⟨decodesBy_init b sub imm, decodesBy_plain (i := .start b) ?_ rfl, decodesBy_plain (i := .stop b) ?_ rfl,
    decodesBy_plain (i := .close b) ?_ rfl, decodesBy_plain (i := .alloc b) ?_ rfl,
    decodesBy_slotted (i := .free b imm) ?_ rfl, decodesBy_slotted (i := .enq b imm) ?_ rfl,
    decodesBy_plain (i := .deq b) ?_ rfl, decodesBy_plain (i := .depth b) ?_ rfl,
    decodesBy_slotted (i := .mdget b imm) ?_ rfl, decodesBy_slotted (i := .mdset b imm) ?_ rfl,
    decodesBy_plain (i := .setspeed b) ?_ rfl, decodesBy_plain (i := .getspeed b) ?_ rfl,
    decodesBy_plain (i := .settrig b) ?_ rfl, decodesBy_plain (i := .frameid b) ?_ rfl,
    decodesBy_plain (i := .framerec b) ?_ rfl, decodesBy_plain (i := .waitframe b) ?_ rfl,
    decodesBy_plain (i := .drops b) ?_ rfl, decodesBy_xfer b sub imm, decodesBy_plain (i := .genset b) ?_ rfl,
    decodesBy_plain (i := .genget b) ?_ rfl, decodesBy_genrun b sub imm, decodesBy_tcquery b sub imm,
    decodesBy_plain (i := .audarm b) ?_ rfl, List.forall_mem_nil _⟩
  all_goals
    rw [decodeCommand, opcOf_commandWord, subOf_commandWord, immOf_commandWord]
    rfl

/-! ### The three outcomes of decoding (R103 to R105) -/

theorem shiftRight_eq_iff_opcOf_eq (x y : U32) : x >>> 24 = y >>> 24 ↔ opcOf x = opcOf y := by
  have hx := x.isLt
  have hy := y.isLt
  simp only [← BitVec.toNat_inj, opcOf, BitVec.toNat_ushiftRight, BitVec.extractLsb'_toNat,
    Nat.shiftRight_eq_div_pow]
  omega

/-- The opcode map (R103). -/
theorem commandRows_opcodes : commandRows.map (fun row => (opcOf row.2).toNat) =
    [0x01, 0x02, 0x03, 0x04, 0x10, 0x11, 0x12, 0x13, 0x14, 0x15, 0x16, 0x20, 0x21, 0x22, 0x23, 0x24, 0x25, 0x26,
      0x30, 0x40, 0x41, 0x42, 0x43, 0x50] := rfl

/-- Every row takes the whole of OPC. -/
theorem commandRows_masks : commandRows.map (fun row => opcOf row.1) = List.replicate 24 0xFF := rfl

theorem opcOf_mask {row : U32 × U32} (hr : row ∈ commandRows) : opcOf row.1 = 0xFF :=
  List.eq_of_mem_replicate (commandRows_masks ▸ List.mem_map_of_mem hr)

theorem opcOf_eq_of_match {row : U32 × U32} (hr : row ∈ commandRows) {w : U32} (hw : w &&& row.1 = row.2) :
    opcOf row.2 = opcOf w := by
  rw [← hw, opcOf, BitVec.extractLsb'_and]
  exact (congrArg (opcOf w &&& ·) (opcOf_mask hr)).trans BitVec.and_allOnes

theorem decodesBy_of_opcOf_eq (b : BankId) {w : U32} {row : U32 × U32} (hr : row ∈ commandRows)
    (ho : opcOf row.2 = opcOf w) : DecodesBy b w row := by
  have h := decodesBy_commandRows b (subOf w) (immOf w) row hr
  rwa [ho, commandWord_fields] at h

theorem decode_of_match (b : BankId) {w : U32} {row : U32 × U32} (hr : row ∈ commandRows)
    (hw : w &&& row.1 = row.2) : ∃ i, decode (.cmd b w) = .ok i ∧ encode i = .cmd b w := by
  obtain ⟨i, hd, he⟩ := decodesBy_of_opcOf_eq b hr (opcOf_eq_of_match hr hw)
  exact ⟨i, by simp [hd, hw], he hw⟩

theorem decode_of_reserved (b : BankId) {w : U32} {row : U32 × U32} (hr : row ∈ commandRows)
    (ho : opcOf row.2 = opcOf w) (hw : w &&& row.1 ≠ row.2) : decode (.cmd b w) = .error .reservedField := by
  obtain ⟨i, hd, -⟩ := decodesBy_of_opcOf_eq b hr ho
  simp [hd, hw, whenReservedZero]

theorem decode_of_unlisted (b : BankId) {w : U32} (h : ∀ row ∈ commandRows, opcOf row.2 ≠ opcOf w) :
    decode (.cmd b w) = .error .illegalOpcode := by
  have hn : (opcOf w).toNat ∉ commandRows.map (fun row => (opcOf row.2).toNat) := by
    intro hm
    obtain ⟨row, hr, ho⟩ := List.mem_map.1 hm
    exact h row hr (BitVec.eq_of_toNat_eq ho)
  rw [commandRows_opcodes] at hn
  rw [decode, decodeCommand]
  split
  case h_25 => rfl
  all_goals
    rename_i ho
    rw [ho] at hn
    exact absurd hn (by decide)

/-- A word matches a row; or some row has its OPC and none matches; or no row has its OPC. -/
theorem match_cases (w : U32) :
    (∃ row ∈ commandRows, w &&& row.1 = row.2) ∨
      ((∃ row ∈ commandRows, opcOf row.2 = opcOf w) ∧ ∀ row ∈ commandRows, w &&& row.1 ≠ row.2) ∨
      ∀ row ∈ commandRows, opcOf row.2 ≠ opcOf w := by
  by_cases hm : ∃ row ∈ commandRows, w &&& row.1 = row.2
  · exact .inl hm
  by_cases ho : ∃ row ∈ commandRows, opcOf row.2 = opcOf w
  · exact .inr (.inl ⟨ho, fun row hr hw => hm ⟨row, hr, hw⟩⟩)
  · exact .inr (.inr fun row hr e => ho ⟨row, hr, e⟩)

/-- Settles O2: the three cases of `match_cases` exclude each other, and each has its own outcome of decoding. -/
theorem decodesExactlyTableRows : Obligations.DecodesExactlyTableRows := by
  intro b w
  simp only [ne_eq, shiftRight_eq_iff_opcOf_eq]
  obtain ⟨row, hr, hw⟩ | ⟨⟨row, hr, ho⟩, hno⟩ | hun := match_cases w
  · obtain ⟨i, hd, he⟩ := decode_of_match b hr hw
    have ho := opcOf_eq_of_match hr hw
    rw [hd]
    refine ⟨⟨fun _ => ⟨row, hr, hw⟩, fun _ => ⟨i, rfl⟩⟩, ⟨nofun, fun h => absurd ho (h row hr)⟩,
      ⟨nofun, fun h => absurd hw (h.2 row hr)⟩, ?_⟩
    rintro j ⟨⟩
    exact he
  · rw [decode_of_reserved b hr ho (hno row hr)]
    exact ⟨⟨nofun, fun ⟨row, hr, hw⟩ => absurd hw (hno row hr)⟩, ⟨nofun, fun h => absurd ho (h row hr)⟩,
      ⟨fun _ => ⟨⟨row, hr, ho⟩, hno⟩, fun _ => rfl⟩, nofun⟩
  · rw [decode_of_unlisted b hun]
    exact ⟨⟨nofun, fun ⟨row, hr, hw⟩ => absurd (opcOf_eq_of_match hr hw) (hun row hr)⟩,
      ⟨fun _ => hun, fun _ => rfl⟩, ⟨nofun, fun ⟨⟨row, hr, ho⟩, _⟩ => absurd ho (hun row hr)⟩, nofun⟩

/-- Settles O3: eight words, each decoded. -/
theorem knownWordsDecode : Obligations.KnownWordsDecode := ⟨rfl, rfl, rfl, rfl, rfl, rfl, rfl, rfl⟩

end Sys2Proof

/-! SUPPORT. Acceptance of a command (30_encoding.md R104, R105, R108, R109) and the dispatcher's choice of a source
(45_interrupt_dispatcher.md R326), and the commands that only read, take a slot, or are turned away (R107, R352). -/

namespace Sys2Proof.Machine

/-! ### What a step runs (R108, R109, R326) -/

theorem State.issueCommand_of_pend {s : State} {b : BankId} (hp : (s.bank b).pend = true) (w : U32) :
    s.issueCommand b w = .next (s.raise (.u1 b w)) := by rw [State.issueCommand, if_pos hp]

theorem State.issueCommand_of_ok {s : State} {b : BankId} (hp : (s.bank b).pend = false) {w : U32} {i : Instr}
    (hd : decode (.cmd b w) = .ok i) : s.issueCommand b w = exec i (s.setCmd b w) := by
  rw [State.issueCommand, if_neg (by simp [hp]), hd]

theorem State.issueCommand_of_error {s : State} {b : BankId} (hp : (s.bank b).pend = false) {w : U32} {e : Reject}
    (hd : decode (.cmd b w) = .error e) : s.issueCommand b w = .next ((s.setCmd b w).finish b .illegal) := by
  rw [State.issueCommand, if_neg (by simp [hp]), hd]

/-- Settles O4: the bank is idle and the word is an instruction's. -/
theorem stepRunsIssuedCommand : Obligations.StepRunsIssuedCommand := by
  intro s rest b w i h hb hp hd
  rw [step_issue h hb, State.issueCommand_of_ok (s := s.leaving rest) hp hd]
  rfl

/-- Settles O7: the write raises U1 and does nothing else. -/
theorem pendingWriteIgnored : Obligations.PendingWriteIgnored := by
  intro s rest b w h hb hp
  have hstep := step_issue h hb
  rw [State.issueCommand_of_pend (s := s.leaving rest) hp] at hstep
  exact ⟨_, hstep, faultAdded_raise (s.leaving rest) _, rfl, .refl s⟩

/-- The lowest set bit of a status word is its lowest source. -/
theorem lowestSource_eq_some {p : BitVec 9} {j : Fin 9} (hj : p.getLsbD j.val = true)
    (hlow : ∀ j' : Fin 9, j' < j → p.getLsbD j'.val = false) : lowestSource p = some j := by
  refine List.find?_eq_some_iff_getElem.2 ⟨hj, j.val, by simp, by simp, fun n hn => ?_⟩
  simpa using hlow ⟨n, hn.trans j.isLt⟩ hn

/-- Settles O5: the decoder takes the lowest source of the pass. -/
theorem stepRunsLowestSource : Obligations.StepRunsLowestSource := by
  intro s rest j h hpc hj hlow
  have hd : decode (.status (s.leaving rest).passSet) = .ok (sourceInstr j) := by
    rw [decode, lowestSource_eq_some (p := (s.leaving rest).passSet) hj hlow]
  have hpc' : (s.leaving rest).pc = .handling := hpc
  rw [step_ids h, State.idsStep, hpc']
  dsimp only
  rw [State.handleNext, hd]

/-! ### Words that complete ILLEGAL (R104, R105) -/

theorem State.setBank_setBank (s : State) (b : BankId) (x y : Bank) :
    (s.setBank b x).setBank b y = s.setBank b y := by simp [State.setBank]

theorem State.finish_setCmd (s : State) (b : BankId) (w : U32) (r : ResultCode) :
    (s.setCmd b w).finish b r = s.setBank b ({ s.bank b with cmd := w }.ended r) := by
  rw [State.finish, State.setCmd, State.setBank_setBank, State.bank_setBank_self, Bank.complete_eq_ended]

theorem execXfer_of_reserved {b : BankId} (dir : Bool) (hint : BitVec 2) {s : State}
    (h : hi32 (s.bank b).arg2 ≠ 0) : execXfer b dir hint s = .next (s.finish b .illegal) := by
  rw [execXfer, if_pos h]

/-- The words of XFER's row of the opcode table. -/
theorem decode_xfer (b : BankId) {w : U32} (hw : w &&& 0xFF7CFFFF = 0x30000000) :
    ∃ dir hint, decode (.cmd b w) = .ok (.xfer b dir hint) := by
  have hr : ((0xFF7CFFFF, 0x30000000) : U32 × U32) ∈ commandRows := by decide
  obtain ⟨i, hd, -⟩ := decode_of_match b hr hw
  have hx : decode (.cmd b w) =
      whenReservedZero ((subOf w).extractLsb' 2 5 == 0 && immOf w == 0)
        (.xfer b ((subOf w).getLsbD 7) ((subOf w).extractLsb' 0 2)) := by
    rw [decode, decodeCommand, ← opcOf_eq_of_match hr hw]
    rfl
  rw [hd] at hx
  obtain ⟨-, rfl⟩ := (whenReservedZero_ok _ _ _).1 hx.symm
  exact ⟨_, _, hd⟩

/-- A word that matches no row of the opcode table is rejected (R104, R105). -/
theorem decode_error_of_no_match (b : BankId) {w : U32} (h : ∀ row ∈ commandRows, w &&& row.1 ≠ row.2) :
    ∃ e, decode (.cmd b w) = .error e := by
  obtain ⟨row, hr, hw⟩ | ⟨⟨row, hr, ho⟩, hno⟩ | hun := match_cases w
  · exact absurd hw (h row hr)
  · exact ⟨_, decode_of_reserved b hr ho (hno row hr)⟩
  · exact ⟨_, decode_of_unlisted b hun⟩

/-- Settles O6: either the decoder rejects the word, or XFER's first check does. -/
theorem illegalWordCompletesIllegal : Obligations.IllegalWordCompletesIllegal := by
  intro s rest b w h hb hp hw
  have hstep : step s = .next (((s.leaving rest).setCmd b w).finish b .illegal) := by
    rw [step_issue h hb]
    obtain hno | ⟨hx, harg⟩ := hw
    · obtain ⟨e, hd⟩ := decode_error_of_no_match b hno
      exact State.issueCommand_of_error (s := s.leaving rest) hp hd
    · obtain ⟨dir, hint, hd⟩ := decode_xfer b hx
      rw [State.issueCommand_of_ok (s := s.leaving rest) hp hd]
      refine execXfer_of_reserved dir hint ?_
      rw [State.setCmd, State.bank_setBank_self]
      exact harg
  rw [State.finish_setCmd] at hstep
  exact ⟨_, hstep, onlyBankBecomes_setBank ..⟩

/-! ### Commands that only read (R190, R286, R288, R289, R291, R293) -/

theorem setWidth_bit1 (f : Bool) : (bit1 f).setWidth 64 = if f then 1 else 0 := by
  cases f <;> rfl

/-- Settles O14: each of the six writes its own bank and nothing else. -/
theorem snapshotCommands : Obligations.SnapshotCommands := by
  intro b s
  refine ⟨⟨_, rfl, onlyBankBecomes_finishRes0 ..⟩, ⟨_, rfl, onlyBankBecomes_finishRes0 ..⟩, ⟨_, rfl, ?framerec⟩,
    ⟨_, rfl, onlyBankBecomes_setBank ..⟩, ⟨_, rfl, onlyBankBecomes_finishRes0 ..⟩, ⟨_, rfl, ?depth⟩⟩
  case framerec =>
    rw [setWidth_bit1, BitVec.ofNat_toNat]
    exact onlyBankBecomes_setBank ..
  case depth =>
    rw [BitVec.ofNat_toNat]
    exact onlyBankBecomes_finishRes0 ..

/-! ### ALLOC and DEQ (R181, R184, R186, R189) -/

/-- An allocation makes no output: under ALLOC_POLICY = any it draws, and only the ports and the count of draws
move (R181). -/
theorem State.allocSlot_trace (s : State) : s.allocSlot.2.env.trace = s.env.trace := by
  unfold State.allocSlot
  split
  · rfl
  · split <;> rfl

theorem execAlloc_of_none {b : BankId} {s u : State} (h : s.allocSlot = (none, u)) :
    exec (.alloc b) s = .next (u.finish b .busy) := by rw [exec, execAlloc, h]

theorem execAlloc_of_some {b : BankId} {s u : State} {i : SlotIx} (h : s.allocSlot = (some i, u)) :
    exec (.alloc b) s = .next (u.finishRes0 b (slotResult i)) := by rw [exec, execAlloc, h]

theorem execDeq_of_none {b : BankId} {s u : State} (h : s.deqSlot = (none, u)) :
    exec (.deq b) s = .next (u.finish b .empty) := by rw [exec, execDeq, h]

theorem execDeq_of_some {b : BankId} {s u : State} {i : SlotIx} (h : s.deqSlot = (some i, u)) :
    exec (.deq b) s = .next (u.finishRes0 b (slotResult i)) := by rw [exec, execDeq, h]

/-- Settles O15: the cases of `alloc_slot` and of `deq_slot`. -/
theorem allocAndDeqTakeSlots : Obligations.AllocAndDeqTakeSlots := by
  intro b s
  refine ⟨fun hfull => ?busy, fun hfree => ?alloc, fun hq => ?empty, fun i q hq => ?deq⟩
  case busy =>
    obtain ⟨ha, -⟩ | ⟨i, e, -, hi, hf, -⟩ := s.allocSlot_cases
    · exact ⟨_, execAlloc_of_none ha, onlyBankBecomes_finish ..⟩
    · exact absurd hf (hfull i hi)
  case alloc =>
    obtain ⟨-, hfull⟩ | ⟨i, e, ha, hi, hf, hlow⟩ := s.allocSlot_cases
    · obtain ⟨i, hi, hf⟩ := hfree
      exact absurd hf (hfull i hi)
    · have htrace : e.trace = s.env.trace := by
        have := s.allocSlot_trace
        rwa [ha] at this
      exact ⟨_, i, execAlloc_of_some ha, hi, hf, hlow, slotBecomes_setSlot (s.withEnv e) i .inuse,
        bankBecomes_finishRes0 rfl .., rfl, htrace, .refl s⟩
  case empty =>
    obtain ⟨-, hd⟩ | ⟨i, q, hq', -⟩ := s.deqSlot_cases
    · exact ⟨_, execDeq_of_none hd, onlyBankBecomes_finish ..⟩
    · simp [hq] at hq'
  case deq =>
    obtain ⟨hq', -⟩ | ⟨i', q', hq', hd⟩ := s.deqSlot_cases
    · simp [hq] at hq'
    · obtain ⟨rfl, rfl⟩ : i = i' ∧ q = q' := by simpa [hq] using hq'
      exact ⟨_, execDeq_of_some hd, slotBecomes_setSlot (s.setFifo q _) i .inuse, rfl, rfl,
        bankBecomes_finishRes0 rfl .., rfl, .refl s⟩

/-! ### XFER that does not start (R105, R142, R143) -/

/-- The checks that end INVALID come first, then the alignment check, which also raises U4 (R142). -/
theorem checkXfer_eq (p : Params) (r : XferReq) :
    checkXfer p r =
      if r.addr = 0 ∨ r.len.toNat < minXferBytes ∨ 2 ^ hostAddrBits ≤ r.addr.toNat + r.len.toNat ∨
          p.maxPages < pageCount p.pageSize r.addr r.len ∨ p.numXferCh ≤ r.hint.toNat ∨
          2 ^ cardAddrBits < r.card.toNat + r.len.toNat then .invalid
      else if r.addr.toNat % wordBytes ≠ 0 ∨ r.len.toNat % wordBytes ≠ 0 then .unaligned
      else .pass := by
  simp only [checkXfer, ite_or]

/-- With every token held, no channel of the search order is free (R143). -/
theorem findChannel_none {s : State} {hint : BitVec 2} (hh : hint.toNat < s.cfg.numXferCh)
    (hall : ∀ k : ChanId, k.val < s.cfg.numXferCh → (s.chan k).token = true) :
    s.findChannel (hintChannel hint) = none := by
  cases hf : s.findChannel (hintChannel hint) with
  | none => rfl
  | some k =>
    obtain ⟨hfree, hlt⟩ := findChannel_spec hh hf
    simp [hall k hlt] at hfree

theorem execXfer_of_invalid {b : BankId} {dir : Bool} {hint : BitVec 2} {s : State}
    (h : hi32 (s.bank b).arg2 = 0) (hc : checkXfer s.cfg (s.xferReq b dir hint) = .invalid) :
    execXfer b dir hint s = .next (s.finish b .invalid) := by
  rw [execXfer, if_neg (not_not.2 h)]
  dsimp only
  rw [hc]

theorem execXfer_of_unaligned {b : BankId} {dir : Bool} {hint : BitVec 2} {s : State}
    (h : hi32 (s.bank b).arg2 = 0) (hc : checkXfer s.cfg (s.xferReq b dir hint) = .unaligned) :
    execXfer b dir hint s =
      .next ((s.raise (.u4 b (s.bank b).arg0 (s.bank b).arg1)).finish b .invalid) := by
  rw [execXfer, if_neg (not_not.2 h)]
  dsimp only
  rw [hc]
  rfl

theorem execXfer_of_pass {b : BankId} {dir : Bool} {hint : BitVec 2} {s : State}
    (h : hi32 (s.bank b).arg2 = 0) (hc : checkXfer s.cfg (s.xferReq b dir hint) = .pass) :
    execXfer b dir hint s = .next (s.xferStart b (s.xferReq b dir hint)) := by
  rw [execXfer, if_neg (not_not.2 h)]
  dsimp only
  rw [hc]

/-- Settles O24: the reserved operand, the checks of R142 in their order, and the search of R143. -/
theorem xferRejectsRequest : Obligations.XferRejectsRequest := by
  rintro b dir hint s a len co rfl rfl rfl
  have hcheck := checkXfer_eq s.cfg (s.xferReq b dir hint)
  split
  next hres => exact ⟨_, execXfer_of_reserved dir hint hres, onlyBankBecomes_finish ..⟩
  next hres =>
  have hres' := not_not.1 hres
  split
  next hinv => exact ⟨_, execXfer_of_invalid hres' (hcheck.trans (if_pos hinv)), onlyBankBecomes_finish ..⟩
  next hinv =>
  replace hcheck := hcheck.trans (if_neg hinv)
  split
  next hal =>
    exact ⟨_, execXfer_of_unaligned hres' (hcheck.trans (if_pos hal)), bankBecomes_finish rfl .., s.mem_raise _,
      rfl, .refl s⟩
  next hal =>
  intro hall
  have hhint : hint.toNat < s.cfg.numXferCh := by
    by_contra hn
    exact hinv (by simp [Nat.not_lt.1 hn])
  have hbusy : s.xferStart b (s.xferReq b dir hint) = s.finish b .busy := by
    rw [State.xferStart, show (s.xferReq b dir hint).hint = hint from rfl, findChannel_none hhint hall]
  exact ⟨_, (execXfer_of_pass hres' (hcheck.trans (if_neg hal))).trans (congrArg _ hbusy),
    onlyBankBecomes_finish ..⟩

/-! ### A command turned away (R107, R352) -/

/-- If the answer completes the command of bank b with one of the four codes that turn it away, only the bank's
status and the fault set have changed. -/
structure TurnsAway (b : BankId) (s : State) (a : Answered) : Prop where
  clean : ∀ t, a = .next t → (t.bank b).pend = false →
    (t.bank b).result ∈ [ResultCode.illegal, .invalid, .busy, .empty] →
    BankBecomes b ((s.bank b).ended (t.bank b).result) s t ∧
      t = { s with banks := t.banks, faults := t.faults } ∧ MemorySame s t

theorem turnsAway_faulted (b : BankId) (s : State) (fs : List ModelFault) (r : ResultCode) :
    TurnsAway b s (.next (({ s with faults := fs }).finish b r)) where
  clean := by
    rintro t ⟨⟩ - -
    have hr : ((({ s with faults := fs }).finish b r).bank b).result = r := by
      rw [State.bank_finish, if_pos rfl]
      rfl
    rw [hr]
    exact ⟨bankBecomes_finish rfl .., rfl, .refl s⟩

theorem turnsAway_finish (b : BankId) (s : State) (r : ResultCode) : TurnsAway b s (.next (s.finish b r)) :=
  turnsAway_faulted b s s.faults r

theorem turnsAway_raise_finish (b : BankId) (s : State) (f : ModelFault) (r : ResultCode) :
    TurnsAway b s (.next ((s.raise f).finish b r)) := turnsAway_faulted ..

/-- A command that completes with another code is not turned away. -/
theorem turnsAway_complete {b : BankId} {s u : State} {x : Bank} {r : ResultCode}
    (hr : r ∉ [ResultCode.illegal, .invalid, .busy, .empty]) :
    TurnsAway b s (.next (u.setBank b (x.complete r))) where
  clean := by
    rintro t ⟨⟩ - hmem
    rw [State.bank_setBank_self] at hmem
    exact absurd hmem hr

/-- Nor is one that waits. -/
theorem turnsAway_hold (b : BankId) (s u : State) (o : Op) : TurnsAway b s (.next (u.hold b o)) where
  clean := by
    rintro t ⟨⟩ hp -
    rw [State.bank_hold, if_pos rfl] at hp
    cases hp

theorem turnsAway_ok (b : BankId) (s u : State) : TurnsAway b s (.next (u.finish b .ok)) :=
  turnsAway_complete (by decide)

theorem turnsAway_finishRes0 (b : BankId) (s u : State) (v : U64) : TurnsAway b s (.next (u.finishRes0 b v)) :=
  turnsAway_complete (by decide)

theorem turnsAway_ite {b : BankId} {s : State} {c : Prop} [Decidable c] {x y : Answered} (hx : TurnsAway b s x)
    (hy : TurnsAway b s y) : TurnsAway b s (if c then x else y) := by
  split
  · exact hx
  · exact hy

theorem turnsAway_execAlloc (b : BankId) (s : State) : TurnsAway b s (exec (.alloc b) s) := by
  obtain ⟨ha, -⟩ | ⟨i, e, ha, -⟩ := s.allocSlot_cases
  · rw [execAlloc_of_none ha]
    exact turnsAway_finish ..
  · rw [execAlloc_of_some ha]
    exact turnsAway_finishRes0 ..

theorem turnsAway_execDeq (b : BankId) (s : State) : TurnsAway b s (exec (.deq b) s) := by
  obtain ⟨-, hd⟩ | ⟨i, q, -, hd⟩ := s.deqSlot_cases
  · rw [execDeq_of_none hd]
    exact turnsAway_finish ..
  · rw [execDeq_of_some hd]
    exact turnsAway_finishRes0 ..

theorem turnsAway_execXfer (b : BankId) (dir : Bool) (hint : BitVec 2) (s : State) :
    TurnsAway b s (execXfer b dir hint s) := by
  refine turnsAway_ite (turnsAway_finish ..) ?_
  dsimp only
  split
  · unfold State.xferStart
    split
    · exact turnsAway_finish ..
    · exact turnsAway_hold ..
  · exact turnsAway_finish ..
  · exact turnsAway_raise_finish ..

theorem Reading.ofAnswer_ne_noneAttached (a : Option TC64) : Reading.ofAnswer a ≠ .noneAttached := by
  cases a <;> nofun

/-- With no external device attached no call is made (R233, R366). -/
theorem readExternal_of_noneAttached {s : State} (h : s.readExternal.1 = .noneAttached) : s.readExternal.2 = s := by
  unfold State.readExternal at h ⊢
  split
  next hx =>
    rw [if_pos hx] at h
    exact absurd h (Reading.ofAnswer_ne_noneAttached _)
  next => rfl

theorem readGenerator_of_noneAttached {s : State} (h : s.readGenerator.1 = .noneAttached) :
    s.readGenerator.2 = s := by
  unfold State.readGenerator at h ⊢
  split
  next hx =>
    rw [if_pos hx] at h
    exact absurd h (Reading.ofAnswer_ne_noneAttached _)
  next => rfl

theorem turnsAway_queryExternal (b : BankId) (s : State) : TurnsAway b s (.next (s.queryExternal b)) := by
  unfold State.queryExternal
  dsimp only
  split
  next h =>
    rw [readExternal_of_noneAttached h]
    exact turnsAway_finish ..
  next => exact turnsAway_complete (by decide)
  next => exact turnsAway_finishRes0 ..

theorem turnsAway_queryGenerator (b : BankId) (s : State) : TurnsAway b s (.next (s.queryGenerator b)) := by
  unfold State.queryGenerator
  dsimp only
  split
  next h =>
    rw [readGenerator_of_noneAttached h]
    exact turnsAway_finish ..
  next => exact turnsAway_complete (by decide)
  next => exact turnsAway_finishRes0 ..

theorem turnsAway_execTcquery (b : BankId) (src : BitVec 3) (s : State) : TurnsAway b s (execTcquery b src s) := by
  unfold execTcquery
  split
  · exact turnsAway_finishRes0 ..
  · exact turnsAway_finishRes0 ..
  · exact turnsAway_finishRes0 ..
  · exact turnsAway_queryExternal b s
  · exact turnsAway_queryGenerator b s
  · exact turnsAway_finish ..

/-- Every command checks before it changes anything (R352). -/
theorem exec_turnsAway {i : Instr} {b : BankId} (hb : i.bank? = some b) (s : State) : TurnsAway b s (exec i s) := by
  cases i <;> cases hb
  case alloc => exact turnsAway_execAlloc b s
  case deq => exact turnsAway_execDeq b s
  case xfer => exact turnsAway_execXfer ..
  case tcquery => exact turnsAway_execTcquery ..
  case start | stop => exact turnsAway_ite (turnsAway_finish ..) (turnsAway_hold ..)
  case waitframe => exact turnsAway_hold ..
  case init | close | free | enq | mdset | genset => exact turnsAway_ite (turnsAway_ok ..) (turnsAway_finish ..)
  case mdget => exact turnsAway_ite (turnsAway_complete (by decide)) (turnsAway_finish ..)
  case setspeed | settrig | audarm => exact turnsAway_ite (turnsAway_finish ..) (turnsAway_ok ..)
  case depth | getspeed | frameid | framerec | drops | genget | genrun => exact turnsAway_complete (by decide)

/-- Settles O38: a command that is turned away has only raised a fault and completed. -/
theorem rejectionBeforeMutation : Obligations.RejectionBeforeMutation := fun _ _ s t hb he hp hr =>
  (exec_turnsAway hb s).clean t he hp hr

end Sys2Proof.Machine

/-! SUPPORT. Phase X4 of a transfer (40_descriptor_builder.md R147 to R153): the words of a chain's records in
memory order, what host memory holds after they are stored, the faults of a build, and what the phase writes. -/

namespace Sys2Proof.Machine

/-! ### Lists of blocks of one length -/

theorem length_flatMap_of_length {α β : Type} {f : α → List β} {c : Nat} (hf : ∀ a, (f a).length = c) (l : List α) :
    (l.flatMap f).length = c * l.length := by
  simp [List.length_flatMap, hf, Nat.mul_comm]

theorem getElem?_flatMap_of_length {α β : Type} {f : α → List β} {c : Nat} (hf : ∀ a, (f a).length = c)
    {l : List α} {n : Nat} {a : α} (hn : l[n]? = some a) {i : Nat} (hi : i < c) :
    (l.flatMap f)[c * n + i]? = (f a)[i]? := by
  induction l generalizing n with
  | nil => simp at hn
  | cons x l ih =>
    rw [List.flatMap_cons]
    cases n with
    | zero =>
      obtain rfl : x = a := by simpa using hn
      rw [Nat.mul_zero, Nat.zero_add, List.getElem?_append_left (by rwa [hf])]
    | succ n =>
      rw [List.getElem?_append_right (by rw [hf, Nat.mul_succ]; omega), hf,
        show c * (n + 1) + i - c = c * n + i by rw [Nat.mul_succ]; omega]
      exact ih (by simpa using hn)

/-! ### Words in memory (R72, R75) -/

theorem length_u32Bytes (v : U32) : (u32Bytes v).length = 4 := rfl

/-- A u32 is its four bytes, the lowest first. -/
theorem toNat_u32Bytes (v : U32) :
    v.toNat = (v.extractLsb' 0 8).toNat + 256 * ((v.extractLsb' 8 8).toNat + 256 * ((v.extractLsb' 16 8).toNat +
      256 * (v.extractLsb' 24 8).toNat)) := by
  have := v.isLt
  simp only [BitVec.extractLsb'_toNat, Nat.shiftRight_eq_div_pow]
  omega

theorem toNat_add_ofNat {a : U64} {n : Nat} (h : a.toNat + n < 2 ^ 64) :
    (a + BitVec.ofNat 64 n).toNat = a.toNat + n := by
  rw [BitVec.toNat_add, BitVec.toNat_ofNat]
  omega

/-- Memory that holds the four bytes of a word reads as the word. -/
theorem Memory.readU32_eq {m : Memory} {addr : U64} {v : U32} (ha : addr.toNat + 4 ≤ 2 ^ 64)
    (hm : ∀ i (hi : i < 4), m.read (addr.toNat + i) = (u32Bytes v)[i]) : m.readU32 addr = v := by
  have h1 : (addr + 1).toNat = addr.toNat + 1 := toNat_add_ofNat (n := 1) (by omega)
  have h2 : (addr + 1 + 1).toNat = addr.toNat + 2 := by
    rw [show addr + 1 + 1 = addr + 2 by rw [BitVec.add_assoc]; rfl]
    exact toNat_add_ofNat (n := 2) (by omega)
  have h3 : (addr + 1 + 1 + 1).toNat = addr.toNat + 3 := by
    rw [show addr + 1 + 1 + 1 = addr + 3 by rw [BitVec.add_assoc, BitVec.add_assoc]; rfl]
    exact toNat_add_ofNat (n := 3) (by omega)
  have m0 : m.read addr.toNat = v.extractLsb' 0 8 := hm 0 (by decide)
  have m1 : m.read (addr.toNat + 1) = v.extractLsb' 8 8 := hm 1 (by decide)
  have m2 : m.read (addr.toNat + 2) = v.extractLsb' 16 8 := hm 2 (by decide)
  have m3 : m.read (addr.toNat + 3) = v.extractLsb' 24 8 := hm 3 (by decide)
  have hv := toNat_u32Bytes v
  have hle : m.readLE addr 4 = v.toNat := by
    simp only [Memory.readLE, h1, h2, h3, m0, m1, m2, m3]
    omega
  rw [Memory.readU32, hle, BitVec.ofNat_toNat, BitVec.setWidth_eq]

/-- Words stored from `addr` up read back at their places, and every byte outside them reads as before. -/
theorem State.storeWords_read {s : State} {addr : U64} {ws : List U32} (hwf : s.hostMem.wf = true)
    (hr : addr.toNat + 4 * ws.length ≤ 2 ^ 64) :
    (∀ (j : Nat) (v : U32), ws[j]? = some v →
      (s.storeBytes addr (ws.flatMap u32Bytes)).hostMem.readU32 (addr + BitVec.ofNat 64 (4 * j)) = v) ∧
    (∀ a, a < addr.toNat ∨ addr.toNat + 4 * ws.length ≤ a →
      (s.storeBytes addr (ws.flatMap u32Bytes)).hostMem.read a = s.hostMem.read a) := by
  have hlen : (ws.flatMap u32Bytes).length = 4 * ws.length := length_flatMap_of_length length_u32Bytes ws
  obtain ⟨-, hread⟩ := State.storeBytes_read (ws.flatMap u32Bytes) s addr hwf (by omega)
  constructor
  · intro j v hj
    obtain ⟨hlt, -⟩ := List.getElem?_eq_some_iff.1 hj
    have hat : (addr + BitVec.ofNat 64 (4 * j)).toNat = addr.toNat + 4 * j := toNat_add_ofNat (by omega)
    refine Memory.readU32_eq (by omega) fun i hi => ?_
    have hbyte := getElem?_flatMap_of_length length_u32Bytes hj hi
    have hidx : (addr + BitVec.ofNat 64 (4 * j)).toNat + i - addr.toNat = 4 * j + i := by omega
    rw [hread, dif_pos (by omega)]
    simp only [hidx]
    rw [List.getElem?_eq_getElem (by omega), List.getElem?_eq_getElem (length_u32Bytes v ▸ hi)] at hbyte
    exact Option.some.inj hbyte
  · intro a ha
    rw [hread, dif_neg (by omega)]

/-! ### The records of a chain (R149 to R151) -/

/-- Record `n` of the chain of the runs `m`, stored from `base`: that of run `x`. -/
def recordAt (dir : Bool) (base : U64) (card : U32) (m : List Run) (n : Nat) (x : Run) : Descriptor :=
  ⟨x.bus, card + BitVec.ofNat 32 (bytesBefore m n), ctrlOf dir x,
    if n + 1 < m.length then base + BitVec.ofNat 64 (32 * (n + 1)) else 0⟩

theorem recordAt_succ (dir : Bool) (base : U64) (card : U32) (r : Run) (rs : List Run) (n : Nat) (x : Run) :
    recordAt dir base card (r :: rs) (n + 1) x =
      recordAt dir (base + BitVec.ofNat 64 descSize) (card + lo32 r.len) rs n x := by
  have hcard : card + BitVec.ofNat 32 (bytesBefore (r :: rs) (n + 1)) =
      card + lo32 r.len + BitVec.ofNat 32 (bytesBefore rs n) := by
    rw [bytesBefore, List.take_succ_cons, List.map_cons, List.sum_cons, BitVec.ofNat_add, BitVec.add_assoc]
    congr 2
  have hnext : base + BitVec.ofNat 64 (32 * (n + 1 + 1)) =
      base + BitVec.ofNat 64 descSize + BitVec.ofNat 64 (32 * (n + 1)) := by
    rw [BitVec.add_assoc, ← BitVec.ofNat_add]
    congr 2
    simp only [descSize]
    omega
  simp only [recordAt, hcard, hnext, List.length_cons, Nat.add_lt_add_iff_right]

theorem chainFrom_getElem? (dir : Bool) {m : List Run} {n : Nat} {x : Run} (hn : m[n]? = some x) (base : U64)
    (card : U32) : (chainFrom dir base card m)[n]? = some (recordAt dir base card m n x) := by
  induction m generalizing n base card with
  | nil => simp at hn
  | cons r rs ih =>
    cases n with
    | zero =>
      obtain rfl : r = x := by simpa using hn
      cases rs <;> simp [chainFrom, recordAt, bytesBefore, descSize]
    | succ n =>
      rw [recordAt_succ, chainFrom, List.getElem?_cons_succ]
      exact ih (by simpa using hn) ..

theorem length_chainFrom (dir : Bool) (m : List Run) (base : U64) (card : U32) :
    (chainFrom dir base card m).length = m.length := by
  induction m generalizing base card with
  | nil => rfl
  | cons r rs ih => rw [chainFrom, List.length_cons, ih, List.length_cons]

theorem length_words (d : Descriptor) : d.words.length = 8 := rfl

/-- The image of a build is the words of its records, in memory order. -/
theorem buildImage_eq (p : Params) (dir : Bool) (co : U32) (runs : List Run) (base : U64) :
    buildImage p dir co runs base = ((buildChain p dir co runs base).flatMap Descriptor.words).flatMap u32Bytes := by
  rw [buildImage, List.flatMap_assoc]
  rfl

/-- The chain stored from `base`: word `i` of record `n` is at offset 32 n + 4 i, and every other byte of host
memory is as before, if the storage does not pass the end of the address space (R149). -/
theorem State.storeImage_read {s : State} {base : U64} {p : Params} {runs m : List Run} (dir : Bool) (co : U32)
    (hm : m = mergeRuns p runs) (hwf : s.hostMem.wf = true) (hr : base.toNat + 32 * m.length ≤ 2 ^ 64) :
    (∀ (n : Nat) (x : Run), m[n]? = some x → ∀ i : Fin 8,
      (s.storeBytes base (buildImage p dir co runs base)).hostMem.readU32
        (base + BitVec.ofNat 64 (32 * n + 4 * i.val)) = (recordAt dir base co m n x).words[i]) ∧
    (∀ a, a < base.toNat ∨ base.toNat + 32 * m.length ≤ a →
      (s.storeBytes base (buildImage p dir co runs base)).hostMem.read a = s.hostMem.read a) := by
  have hlen : ((buildChain p dir co runs base).flatMap Descriptor.words).length = 8 * m.length := by
    rw [length_flatMap_of_length length_words, buildChain, length_chainFrom, hm]
  obtain ⟨hwords, hrest⟩ := State.storeWords_read (s := s) (addr := base)
    (ws := (buildChain p dir co runs base).flatMap Descriptor.words) hwf (by omega)
  rw [buildImage_eq]
  refine ⟨fun n x hn i => ?_, fun a ha => hrest a (by omega)⟩
  have hrec : (buildChain p dir co runs base)[n]? = some (recordAt dir base co m n x) := by
    rw [buildChain, ← hm]
    exact chainFrom_getElem? dir hn base co
  rw [show 32 * n + 4 * i.val = 4 * (8 * n + i.val) by omega]
  refine hwords _ _ ?_
  rw [getElem?_flatMap_of_length length_words hrec i.isLt]
  exact List.getElem?_eq_getElem _

/-! ### The faults of a build (R147, R150) -/

theorem State.mem_raiseAll (fs : List ModelFault) (s : State) (g : ModelFault) :
    g ∈ (s.raiseAll fs).faults ↔ g ∈ s.faults ∨ g ∈ fs := by
  induction fs generalizing s with
  | nil => simp [State.raiseAll]
  | cons f fs ih =>
    rw [show s.raiseAll (f :: fs) = (s.raise f).raiseAll fs from rfl, ih, s.mem_raise, List.mem_cons, or_assoc]

theorem mem_runFaults (p : Params) (k : ChanId) (x : Run) (f : ModelFault) :
    f ∈ runFaults p k x ↔
      (p.dma64 = false ∧ hi32 x.bus ≠ 0 ∧ f = .u6 k x.bus) ∨
        (2 ^ 30 ≤ x.len.toNat / 4 ∧ f = .u7 k x.bus x.len) := by
  simp [runFaults, wordBytes, and_assoc, and_left_comm]

theorem mem_buildFaults (p : Params) (k : ChanId) (runs : List Run) (f : ModelFault) :
    f ∈ buildFaults p k runs ↔
      (p.descCap < (mergeRuns p runs).length ∧ f = .u5 k (mergeRuns p runs).length) ∨
        (∃ x ∈ mergeRuns p runs, p.dma64 = false ∧ hi32 x.bus ≠ 0 ∧ f = .u6 k x.bus) ∨
        (∃ x ∈ mergeRuns p runs, 2 ^ 30 ≤ x.len.toNat / 4 ∧ f = .u7 k x.bus x.len) ∨
        (∃ x ∈ runs, hi32 x.bus ≠ hi32 (runLast x) ∧ f = .u7 k x.bus x.len) := by
  simp [buildFaults, mem_runFaults, runCrosses, and_or_left, exists_or, or_assoc, and_assoc, eq_comm (b := f)]

/-! ### The phase (R153, R163) -/

theorem State.raiseAll_eq (fs : List ModelFault) (s : State) :
    s.raiseAll fs = { s with faults := (s.raiseAll fs).faults } := by
  induction fs generalizing s with
  | nil => rfl
  | cons f fs ih => exact ih (s.raise f)

/-- The state of X4 after the faults are raised and the records stored, before the channel is programmed. -/
def State.built (s : State) (k : ChanId) (r : XferReq) : State :=
  (s.raiseAll (buildFaults s.cfg k (s.chan k).runs)).storeBytes s.cfg.descBase[k]
    (buildImage s.cfg r.dir r.card (s.chan k).runs s.cfg.descBase[k])

/-- Building raises faults and stores bytes, which may mark channels as tampered with; nothing else (R91, R149). -/
theorem State.built_spec (s : State) (k : ChanId) (r : XferReq) :
    s.built k r = { s with
      faults := (s.raiseAll (buildFaults s.cfg k (s.chan k).runs)).faults
      hostMem := (s.built k r).hostMem, chans := (s.built k r).chans } ∧
    ∀ k', (s.built k r).chan k' = { s.chan k' with tampered := ((s.built k r).chan k').tampered } := by
  have hraise := State.raiseAll_eq (buildFaults s.cfg k (s.chan k).runs) s
  obtain ⟨⟨m, cs, hstore⟩, htamper⟩ := State.storeBytes_eq
    (buildImage s.cfg r.dir r.card (s.chan k).runs s.cfg.descBase[k])
    (s.raiseAll (buildFaults s.cfg k (s.chan k).runs)) s.cfg.descBase[k]
  constructor
  · rw [State.built, hstore]
    conv_lhs => rw [hraise]
  · intro k'
    obtain ⟨w, hw⟩ := htamper k'
    have hchan : (s.raiseAll (buildFaults s.cfg k (s.chan k).runs)).chan k' = s.chan k' := by rw [hraise]; rfl
    rw [State.built, hw, hchan]

/-- What a reading of HOST_TS gives, and the environment it leaves, depend on the environment alone (R163). -/
theorem State.inHostTs_congr {s t : State} (h : t.env = s.env) :
    t.inHostTs.1 = s.inHostTs.1 ∧ t.inHostTs.2.env = s.inHostTs.2.env := by
  simp only [State.inHostTs, State.drawn, State.withEnv, h, and_self]

/-- The channel that X4 leaves (R153): programmed, stamped twice and started, with its record kept. -/
def Channel.programmed (c : Channel) (base : U64) (r : XferReq) (t1 t2 : U64) : Channel :=
  { c with
    head := base, card := r.card, len := r.len, dir := r.dir, go := true
    ts := (c.ts.set 1 t1).set 2 t2
    moved := false, reported := false, tampered := false }

theorem State.xferProgram_eq (s : State) (b : BankId) (k : ChanId) (r : XferReq) :
    s.xferProgram b k r =
      (((((s.built k r).programChannel k r).stampTs k 1).stampTs k 2).startChannel k).setXferPhase b .x5 k r := rfl

theorem State.xferProgram_chan_self (s : State) (b : BankId) (k : ChanId) (r : XferReq) :
    (s.xferProgram b k r).chan k =
      (s.chan k).programmed s.cfg.descBase[k] r s.inHostTs.1 s.inHostTs.2.inHostTs.1 := by
  obtain ⟨hframe, hchan⟩ := s.built_spec k r
  have hcfg : (s.built k r).cfg = s.cfg := by rw [hframe]
  have henv : ((s.built k r).programChannel k r).env = s.env := by rw [State.programChannel, State.setChan_env, hframe]
  obtain ⟨h1, henv1⟩ := State.inHostTs_congr henv
  obtain ⟨h2, -⟩ := State.inHostTs_congr (s := s.inHostTs.2) (t := ((s.built k r).programChannel k r).stampTs k 1) henv1
  rw [State.xferProgram_eq, State.setXferPhase, State.setBank_chan, State.startChannel, State.chan_setChan_self,
    State.stampTs_chan_self, h2, State.stampTs_chan_self, h1, State.programChannel, State.chan_setChan_self, hchan k,
    hcfg]
  rfl

theorem State.xferProgram_chan_ne (s : State) (b : BankId) {k k' : ChanId} (r : XferReq) (h : k' ≠ k) :
    (s.xferProgram b k r).chan k' = (s.built k r).chan k' := by
  rw [State.xferProgram_eq, State.setXferPhase, State.setBank_chan, State.startChannel, State.chan_setChan_ne _ _ h,
    State.stampTs_chan_ne _ _ h, State.stampTs_chan_ne _ _ h, State.programChannel, State.chan_setChan_ne _ _ h]

theorem State.stampTs_frame (s : State) (k : ChanId) (j : Fin 6) :
    ∃ cs ports draws,
      s.stampTs k j = { s with chans := cs, env := { s.env with ports := ports, draws := draws } } := ⟨_, _, _, rfl⟩

/-- Programming and starting the channel changes channels, the environment record and the bank of the transfer. -/
theorem State.program_frame (u : State) (b : BankId) (k : ChanId) (r : XferReq) :
    ∃ cs ports draws,
      ((((u.programChannel k r).stampTs k 1).stampTs k 2).startChannel k).setXferPhase b .x5 k r = { u with
        banks := u.banks.set b.val { u.bank b with op := .xfer .x5 k r }
        chans := cs
        env := { u.env with ports := ports, draws := draws } } := by
  obtain ⟨cs1, ports1, draws1, h1⟩ := (u.programChannel k r).stampTs_frame k 1
  obtain ⟨cs2, ports2, draws2, h2⟩ := ((u.programChannel k r).stampTs k 1).stampTs_frame k 2
  rw [h2, h1]
  exact ⟨_, _, _, rfl⟩

/-- Beside its bank, the channels, the fault set and host memory, X4 changes the environment record only. -/
theorem State.xferProgram_frame (s : State) (b : BankId) (k : ChanId) (r : XferReq) :
    ∃ cs ports draws, s.xferProgram b k r = { s with
      banks := s.banks.set b.val { s.bank b with op := .xfer .x5 k r }
      chans := cs
      env := { s.env with ports := ports, draws := draws }
      faults := (s.raiseAll (buildFaults s.cfg k (s.chan k).runs)).faults
      hostMem := (s.built k r).hostMem } := by
  obtain ⟨hframe, -⟩ := s.built_spec k r
  obtain ⟨cs, ports, draws, hprogram⟩ := (s.built k r).program_frame b k r
  refine ⟨cs, ports, draws, ?_⟩
  rw [State.xferProgram_eq, hprogram]
  generalize (s.built k r).hostMem = m, (s.built k r).chans = cs',
    (s.raiseAll (buildFaults s.cfg k (s.chan k).runs)).faults = fs at hframe ⊢
  rw [hframe]
  rfl

/-- A channel that exists has its descriptor storage inside the bus address space (R149). -/
theorem storage_reach {p : Params} (h : p.ok = true) {k : ChanId} (hk : k.val < p.numXferCh) :
    p.descBase[k].toNat + p.descCap * 32 ≤ 2 ^ 64 := ((Params.ok_iff_configValid p).1 h).reach k hk

/-- Settles O29: the phase's state is `xferProgram_frame`; the faults are those of the build, and the words those
of the records stored. -/
theorem transferPrograms : Obligations.TransferPrograms := by
  rintro s rest b k r m base h hb hop rfl rfl
  have hstep : step s = .next ((s.leaving rest).xferProgram b k r) := by
    rw [step_caller h hb, State.callerStep_x4 (s := s.leaving rest) hop]
  obtain ⟨cs, ports, draws, hframe⟩ := (s.leaving rest).xferProgram_frame b k r
  refine ⟨_, hstep, ?frame, ?agenda, ?trace, ?bank, (s.leaving rest).xferProgram_chan_self b k r, fun k' hk => ?chans,
    fun f => ?faults, ?card, fun hk hmem hcap => ?memory⟩
  case frame => rw [hframe]; rfl
  case agenda => rw [hframe]; rfl
  case trace => rw [hframe]; rfl
  case bank =>
    rw [hframe]
    exact bankBecomes_setBank (u := s) rfl b _
  case chans =>
    rw [State.xferProgram_chan_ne _ _ _ hk]
    exact ((s.leaving rest).built_spec k r).2 k'
  case faults =>
    rw [hframe]
    exact ((s.leaving rest).mem_raiseAll _ f).trans (or_congr_right (mem_buildFaults ..))
  case card => rw [hframe]; rfl
  case memory =>
    have hreach := storage_reach h.1 hk
    have hhost : ((s.leaving rest).raiseAll (buildFaults s.cfg k (s.chan k).runs)).hostMem = s.hostMem := by
      rw [State.raiseAll_eq]
      rfl
    have hread := State.storeImage_read (p := s.cfg) (runs := (s.chan k).runs) (base := s.cfg.descBase[k]) r.dir
      r.card rfl (hhost ▸ hmem.1) (by omega)
    rw [hhost] at hread
    rw [hframe]
    exact hread

end Sys2Proof.Machine

/-! SUPPORT. The events that latch a status bit (45_interrupt_dispatcher.md R321, R335), the handlers of the
completions (R329, R330), and what the dispatcher's other steps leave alone (40_descriptor_builder.md R164). -/

namespace Sys2Proof.Machine

/-! ### Events that latch a source (R166, R321, R335) -/

theorem State.raiseDone_of_absent {s : State} {k : ChanId} (hk : s.cfg.numXferCh ≤ k.val) :
    s.raiseDone k = s.latch (doneSource k) := if_neg (Nat.not_lt.2 hk)

theorem State.raiseDone_of_idle {s : State} {k : ChanId} (hk : k.val < s.cfg.numXferCh)
    (hgo : (s.chan k).go = false) : s.raiseDone k = s := by
  rw [State.raiseDone, if_pos hk, if_neg (by simp [hgo])]

theorem State.raiseDone_of_going {s : State} {k : ChanId} (hk : k.val < s.cfg.numXferCh)
    (hgo : (s.chan k).go = true) :
    s.raiseDone k = (s.setChan k { s.chan k with reported := true }).latch (doneSource k) := by
  rw [State.raiseDone, if_pos hk, if_pos hgo]

/-- Settles O10: each event is its latch, and the completions by whether the channel exists and is going. -/
theorem eventsLatch : Obligations.EventsLatch := by
  intro s rest
  refine ⟨fun i h => step_scheduled h, fun h => step_scheduled h, fun h => step_scheduled h,
    fun h => step_scheduled h, fun h => step_scheduled h, fun k h => step_scheduled h,
    fun k h hk => ?absent, fun k h hk hgo => ?idle, fun k h hk hgo => ?going⟩
  case absent =>
    exact (step_scheduled h).trans (congrArg _ (State.raiseDone_of_absent (s := s.leaving rest) hk))
  case idle =>
    exact (step_scheduled h).trans (congrArg _ (State.raiseDone_of_idle (s := s.leaving rest) hk hgo))
  case going =>
    exact ⟨_, (step_scheduled h).trans (congrArg _ (State.raiseDone_of_going (s := s.leaving rest) hk hgo)), rfl,
      chanBecomes_setChan (s := s) (u := s.leaving rest) rfl k _⟩

/-! ### The completion handlers (R329, R330, R334) -/

theorem exec_doneInstr (k : ChanId) (s : State) :
    exec (doneInstr k) s = .next ((s.takeSource (doneSource k)).handleDone k).passEnd := by
  fin_cases k <;> rfl

theorem State.handleDone_of_spurious {s : State} {k : ChanId}
    (h : ¬ (k.val < s.cfg.numXferCh ∧ (s.chan k).go = true)) :
    s.handleDone k = s.count { s.counters with spuriousDone := s.counters.spuriousDone + 1 } := by
  rw [State.handleDone, if_neg (by simpa using h)]

/-- A transfer whose moves are done, or that has not raised this completion, only has its GO cleared (R167). -/
theorem State.handleDone_of_settled {s : State} {k : ChanId} (hgo : k.val < s.cfg.numXferCh ∧ (s.chan k).go = true)
    (h : (s.chan k).moved = true ∨ (s.chan k).reported = false) : s.handleDone k = s.forceOff k := by
  have hset : s.settle k = s := by
    obtain ⟨hr, he⟩ | ⟨-, he⟩ := settle_spec s k
    · have hm : (s.chan k).moved = true := h.resolve_right (by simp [hr])
      obtain ⟨-, hp⟩ | ⟨-, hno, -⟩ := performChain_spec s k
      · exact he.trans hp
      · simp [hm] at hno
    · exact he
  rw [State.handleDone, if_pos (by simp [hgo]), hset]

/-- A transfer that has raised this completion first does what moves are left (R88, log 10). -/
theorem State.handleDone_of_reported {s : State} {k : ChanId} (hgo : k.val < s.cfg.numXferCh ∧ (s.chan k).go = true)
    (h : (s.chan k).reported = true) : s.handleDone k = (s.performChain k).forceOff k := by
  rw [State.handleDone, if_pos (by simp [hgo]), State.settle, if_pos h]

theorem State.performChain_passSet (s : State) (k : ChanId) : (s.performChain k).passSet = s.passSet := by
  obtain ⟨-, h⟩ | ⟨-, -, u, hu, h⟩ := performChain_spec s k <;> rw [h]
  rw [State.setChan_passSet, hu.frame]

/-- Settles O36: the source is taken out of the pass, and the completion is settled or counted. -/
theorem doneHandlers : Obligations.DoneHandlers := by
  intro k s
  refine ⟨_, _, rfl, exec_doneInstr k s, fun hgo => ⟨fun hset => ?settled, fun u hm hr hu => ?moving⟩,
    fun hno => ?spurious⟩
  case settled =>
    rw [State.handleDone_of_settled (s := s.takeSource (doneSource k)) hgo hset]
    exact ⟨chanBecomes_setChan (s := s) rfl k _, .refl s, rfl⟩
  case moving =>
    have hpass : u.passSet = s.passSet &&& ~~~(1#9 <<< (1 + k.val)) := by
      rw [hu, State.performChain_passSet]
    replace hu : (s.takeSource (doneSource k)).performChain k = u := hu.symm
    rw [State.handleDone_of_reported (s := s.takeSource (doneSource k)) hgo hr, hu, ← hpass]
    exact ⟨chanBecomes_setChan (s := u) rfl k _, .refl u, rfl⟩
  case spurious =>
    rw [State.handleDone_of_spurious (s := s.takeSource (doneSource k)) hno]
    exact ⟨.refl s, rfl⟩

/-! ### What the dispatcher leaves alone (R164) -/

/-- The channels and both memories are as before. -/
def LeavesTransfers (s t : State) : Prop := t.chans = s.chans ∧ t.hostMem = s.hostMem ∧ t.cardMem = s.cardMem

theorem LeavesTransfers.of_writes {ps : List Part} {s t : State} (hw : Writes ps s t) (hc : .chans ∉ ps)
    (hm : t.memories = s.memories) : LeavesTransfers s t :=
  ⟨hw.same .chans hc, congrArg Prod.fst hm, congrArg Prod.snd hm⟩

theorem leavesTransfers_f1Phase (n : F1Step) (s : State) : LeavesTransfers s (s.f1Phase n) :=
  .of_writes (writes_f1Phase n s) (by cases n <;> decide) (memories_f1Phase n s)

theorem leavesTransfers_f2Phase (s : State) : LeavesTransfers s s.f2Phase :=
  .of_writes (writes_f2Phase s) (by decide) (memories_f2Phase s)

/-- A source that is no completion is counted, or enters a tick (R328, R331 to R333). -/
theorem leavesTransfers_source {j : Fin 9} (hj : ¬ (1 ≤ j.val ∧ j.val ≤ 4)) {s t : State}
    (h : exec (sourceInstr j) s = .next t) : LeavesTransfers s t := by
  have hcases : j = 0 ∨ j = 5 ∨ j = 6 ∨ j = 7 ∨ j = 8 := by omega
  obtain rfl | rfl | rfl | rfl | rfl := hcases
  all_goals
    cases h
    exact ⟨rfl, rfl, rfl⟩

/-- Settles O44: the four kinds of step of the dispatcher, by `pc`. -/
theorem tickLeavesChannels : Obligations.TickLeavesChannels := by
  intro s t rest h ht hsource
  change LeavesTransfers (s.leaving rest) t
  cases hpc : s.pc with
  | idle =>
    rw [step_ids h, State.idsStep, show (s.leaving rest).pc = .idle from hpc] at ht
    cases ht
    split <;> exact ⟨rfl, rfl, rfl⟩
  | handling =>
    obtain ⟨j, hj, hset, hlow⟩ := hsource hpc
    rw [stepRunsLowestSource s rest j h hpc hset hlow] at ht
    exact leavesTransfers_source hj ht
  | f1 n =>
    rw [step_phase h hpc] at ht
    cases ht
    exact leavesTransfers_f1Phase n _
  | f2 =>
    rw [step_ids h, State.idsStep, show (s.leaving rest).pc = .f2 from hpc] at ht
    cases ht
    exact leavesTransfers_f2Phase _

end Sys2Proof.Machine

/-! SUPPORT. The acquisition of a channel and the phases X2, X3, X5 and X6 of a transfer (40_descriptor_builder.md
R141 to R165), and the timeouts and signals that end a wait. -/

namespace Sys2Proof.Machine

/-! ### The state a phase leaves -/

/-- Bank b, channel k and the environment record written: what a phase of a transfer leaves. -/
def State.phaseTo (s : State) (b : BankId) (x : Bank) (k : ChanId) (c : Channel) (e : Env) : State :=
  { s with banks := s.banks.set b.val x, chans := s.chans.set k.val c, env := e }

theorem State.setBank_setChan_withEnv (s : State) (b : BankId) (x : Bank) (k : ChanId) (c : Channel) (e : Env) :
    ((s.withEnv e).setChan k c).setBank b x = s.phaseTo b x k c e := rfl

theorem State.leaving_phaseTo (s : State) (rest : List Event) (b : BankId) (x : Bank) (k : ChanId) (c : Channel)
    (e : Env) : (s.leaving rest).phaseTo b x k c e = s.phaseTo b x k c e := rfl

theorem State.phaseTo_frame (s : State) (b : BankId) (x : Bank) (k : ChanId) (c : Channel) (e : Env) :
    s.phaseTo b x k c e = { s with
      banks := (s.phaseTo b x k c e).banks, chans := (s.phaseTo b x k c e).chans, env := (s.phaseTo b x k c e).env } :=
  rfl

theorem bankBecomes_phaseTo (s : State) (b : BankId) (x : Bank) (k : ChanId) (c : Channel) (e : Env) :
    BankBecomes b x s (s.phaseTo b x k c e) :=
  bankBecomes_setBank (u := (s.withEnv e).setChan k c) rfl b x

theorem chanBecomes_phaseTo (s : State) (b : BankId) (x : Bank) (k : ChanId) (c : Channel) (e : Env) :
    ChanBecomes k c s (s.phaseTo b x k c e) := chanBecomes_setChan (u := s.withEnv e) rfl k c

theorem State.withEnv_withEnv (s : State) (e e' : Env) : (s.withEnv e).withEnv e' = s.withEnv e' := rfl

theorem State.setChan_setChan (s : State) (k : ChanId) (c d : Channel) :
    (s.setChan k c).setChan k d = s.setChan k d := by simp [State.setChan]

/-! ### Acquisition (R142, R143) -/

/-- A 32-bit operand is the low half of its register, and the high half is 0 (R75, R105). -/
theorem halves_of_u32 (co : U32) : hi32 (BitVec.ofNat 64 co.toNat) = 0 ∧ lo32 (BitVec.ofNat 64 co.toNat) = co := by
  have hco := co.isLt
  have hval : (BitVec.ofNat 64 co.toNat).toNat = co.toNat := by simp; omega
  constructor <;> apply BitVec.eq_of_toNat_eq
  · rw [toNat_hi32, hval]
    exact Nat.div_eq_of_lt hco
  · rw [toNat_lo32, hval]
    exact Nat.mod_eq_of_lt hco

/-- The first index with a property comes before every other one that has it. -/
theorem find?_finRange_le {n : Nat} {p : Fin n → Bool} {k : Fin n} (hk : (List.finRange n).find? p = some k)
    {j : Fin n} (hj : p j = true) : k ≤ j := by
  obtain ⟨-, i, hi, rfl, hbefore⟩ := List.find?_eq_some_iff_getElem.1 hk
  by_contra hlt
  have := hbefore j.val (by simpa using Nat.lt_of_not_le hlt)
  simp [hj] at this

/-- With some channel free, the search finds the hinted one, or else the lowest free one (R143). -/
theorem findChannel_some {s : State} {hint : BitVec 2}
    (hfree : ∃ j : ChanId, j.val < s.cfg.numXferCh ∧ (s.chan j).token = false) :
    ∃ k, s.findChannel (hintChannel hint) = some k ∧
      ((s.chan hint.toFin).token = false → k = hint.toFin) ∧
      ((s.chan hint.toFin).token = true →
        ∀ j : ChanId, j.val < s.cfg.numXferCh → (s.chan j).token = false → k ≤ j) := by
  rw [State.findChannel, channelOrder, List.find?_cons, List.find?_filter, hintChannel]
  cases htok : (s.chan hint.toFin).token with
  | false => exact ⟨hint.toFin, rfl, fun _ => rfl, nofun⟩
  | true =>
    have hothers : ∀ j : ChanId, j.val < s.cfg.numXferCh → (s.chan j).token = false → j ≠ hint.toFin := by
      rintro j - hj rfl
      simp [htok] at hj
    cases hf : (List.finRange 4).find? _ with
    | none =>
      obtain ⟨j, hlt, hj⟩ := hfree
      have := List.find?_eq_none.1 hf j (List.mem_finRange _)
      simp [hlt, hj, hothers j hlt hj] at this
    | some k =>
      refine ⟨k, rfl, nofun, fun _ j hlt hj => find?_finRange_le hf ?_⟩
      simp [hlt, hj, hothers j hlt hj]

/-- The token is taken and the setup start stamped, and the command waits in X2 (R143, R163). -/
theorem State.xferStart_of_some {s : State} (b : BankId) {r : XferReq} {k : ChanId}
    (h : s.findChannel (hintChannel r.hint) = some k) :
    s.xferStart b r = s.phaseTo b ((s.bank b).waiting (.xfer .x2 k r)) k
      { s.chan k with token := true, owner := some b, ts := (s.chan k).ts.set 0 s.inHostTs.1 } s.inHostTs.2.env := by
  have hstamp : (s.acquire k b).stampTs k 0 = (s.withEnv s.inHostTs.2.env).setChan k
      { s.chan k with token := true, owner := some b, ts := (s.chan k).ts.set 0 s.inHostTs.1 } := by
    have hchan : (s.acquire k b).inHostTs.2.chan k = { s.chan k with token := true, owner := some b } :=
      State.chan_setChan_self ..
    rw [State.stampTs]
    dsimp only
    rw [hchan]
    exact State.setChan_setChan (s.withEnv s.inHostTs.2.env) k _ _
  rw [State.xferStart, h]
  dsimp only
  rw [hstamp]
  generalize s.inHostTs.2.env = e
  rfl

/-- Settles O23: the checks of R142 pass, and `findChannel_some` says which channel is taken. -/
theorem xferAcquiresChannel : Obligations.XferAcquiresChannel := by
  intro b dir hint s a len co h0 h1 h2 ha hlen hend hpages hhint hcard haw hlw hfree
  obtain ⟨hhi, hlo⟩ := halves_of_u32 co
  have hreq : s.xferReq b dir hint = ⟨dir, hint, a, len, co⟩ := by rw [State.xferReq, h0, h1, h2, hlo]
  have hpass : checkXfer s.cfg (s.xferReq b dir hint) = .pass := by
    rw [hreq, checkXfer_eq, if_neg, if_neg]
    · simp [haw, hlw]
    · rintro (h | h | h | h | h | h)
      · exact ha h
      · exact absurd hlen (Nat.not_le.2 h)
      · exact absurd hend (Nat.not_lt.2 h)
      · exact absurd hpages (Nat.not_le.2 h)
      · exact absurd hhint (Nat.not_lt.2 h)
      · exact absurd hcard (Nat.not_le.2 h)
  obtain ⟨k, hk, hhinted, hlowest⟩ := findChannel_some (hint := hint) hfree
  obtain ⟨htok, hlt⟩ := findChannel_spec hhint hk
  have hexec : execXfer b dir hint s = .next _ := execXfer_of_pass (by rw [h2, hhi]) hpass
  rw [hreq, State.xferStart_of_some (r := ⟨dir, hint, a, len, co⟩) b hk] at hexec
  exact ⟨_, k, hexec, hlt, htok, hhinted, hlowest, bankBecomes_phaseTo .., chanBecomes_phaseTo ..,
    State.phaseTo_frame .., rfl, .refl s⟩

/-! ### X2 and X3: pinning and mapping (R144 to R146, R152) -/

/-- The pin call of a request (R144). -/
def State.pinCall (s : State) (r : XferReq) : Option (List PageHandle) × State :=
  s.callPin r.addr (firstPage s.cfg.pageSize r.addr) (pageCount s.cfg.pageSize r.addr r.len)

theorem State.pinCall_snd (s : State) (r : XferReq) : (s.pinCall r).2 = s.withEnv (s.pinCall r).2.env := rfl

theorem State.xferPin_of_none {s : State} (b : BankId) (k : ChanId) {r : XferReq} (h : (s.pinCall r).1 = none) :
    s.xferPin b k r = s.phaseTo b ((s.bank b).ended .invalid) k (s.chan k).release (s.pinCall r).2.env := by
  rw [State.pinCall] at h
  rw [State.xferPin]
  dsimp only
  rw [h]
  dsimp only
  rw [← State.pinCall, State.pinCall_snd]
  generalize (s.pinCall r).2.env = e
  rfl

theorem State.xferPin_of_some {s : State} (b : BankId) (k : ChanId) {r : XferReq} {pages : List PageHandle}
    (h : (s.pinCall r).1 = some pages) :
    s.xferPin b k r = s.phaseTo b { s.bank b with op := .xfer .x3 k r } k
      { s.chan k with pages := pages, sg := scatterList s.cfg.pageSize r.addr r.len pages } (s.pinCall r).2.env := by
  rw [State.pinCall] at h
  rw [State.xferPin]
  dsimp only
  rw [h]
  dsimp only
  rw [← State.pinCall, State.pinCall_snd]
  generalize (s.pinCall r).2.env = e
  rfl

/-- An answer of pin that is not FAIL has as many handles as were asked for (R366, log 3). -/
theorem State.callPin_length {s : State} {a : U64} {first np : Nat} {pages : List PageHandle}
    (h : (s.callPin a first np).1 = some pages) : pages.length = np := by
  obtain ⟨p, -, rfl⟩ := Option.map_eq_some_iff.1 h
  rw [List.length_map, List.length_range]

/-- Settles O25: the two answers of pin. -/
theorem transferPins : Obligations.TransferPins := by
  rintro s rest b k r np h hb hop rfl
  have hstep : step s = .next ((s.leaving rest).xferPin b k r) := by
    rw [step_caller h hb, State.callerStep_x2 (s := s.leaving rest) hop]
  rw [hstep]
  cases hpin : ((s.leaving rest).pinCall r).1 with
  | none =>
    rw [State.xferPin_of_none b k hpin, State.leaving_phaseTo]
    refine ⟨_, rfl, State.phaseTo_frame .., rfl, rfl, .refl s,
      fun _ => ⟨bankBecomes_phaseTo .., chanBecomes_phaseTo ..⟩, fun pages hp => ?_⟩
    cases hpin.symm.trans hp
  | some pages =>
    rw [State.xferPin_of_some b k hpin, State.leaving_phaseTo]
    refine ⟨_, rfl, State.phaseTo_frame .., rfl, rfl, .refl s, fun hp => ?_, fun pages' hp => ?_⟩
    · cases hpin.symm.trans hp
    · cases hpin.symm.trans hp
      exact ⟨State.callPin_length hpin, bankBecomes_phaseTo .., chanBecomes_phaseTo ..⟩

theorem mapBroken_eq_false_iff (np : Nat) (len : U64) (runs : List Run) :
    mapBroken np len runs = false ↔
      (runs.map (·.len.toNat)).sum = len.toNat ∧ runs.length ≤ np ∧ ∀ x ∈ runs, x.len ≠ 0 := by
  simp [mapBroken, and_assoc]

/-- The state after the collaborator's answer: U10 is raised if it breaks the contract (R152). -/
def State.noteMap (s : State) (k : ChanId) (broken : Bool) : State := if broken then s.raise (.u10 k) else s

theorem State.noteMap_withEnv (s : State) (e : Env) (k : ChanId) (broken : Bool) :
    (s.withEnv e).noteMap k broken = (s.noteMap k broken).withEnv e := by
  cases broken <;> rfl

theorem State.noteMap_eq (s : State) (k : ChanId) (broken : Bool) :
    s.noteMap k broken = { s with faults := (s.noteMap k broken).faults } := by
  cases broken <;> rfl

theorem State.callMap_snd_eq (s : State) (sg : List ScatterEntry) (dir : Bool) :
    (s.callMap sg dir).2 = s.withEnv (s.callMap sg dir).2.env := rfl

/-- An empty mapping ends the transfer (R152). -/
theorem State.xferMap_of_nil {s : State} (b : BankId) (k : ChanId) {r : XferReq}
    (h : (s.callMap (s.chan k).sg r.dir).1 = []) :
    s.xferMap b k r = s.phaseTo b ((s.bank b).ended .busy) k (s.chan k).release
      ((s.callMap (s.chan k).sg r.dir).2.emit (.hmmUnpin (s.chan k).pages false)).env := by
  rw [State.xferMap]
  dsimp only
  rw [h, if_pos List.isEmpty_nil, State.callMap_snd_eq]
  generalize (s.callMap (s.chan k).sg r.dir).2.env = e
  rw [State.emit, State.withEnv_withEnv]
  rfl

/-- A mapping with a run in it is kept (R152). -/
theorem State.xferMap_of_ne_nil {s : State} (b : BankId) (k : ChanId) {r : XferReq}
    (h : (s.callMap (s.chan k).sg r.dir).1 ≠ []) {broken : Bool}
    (hbroken : mapBroken (pageCount s.cfg.pageSize r.addr r.len) r.len (s.callMap (s.chan k).sg r.dir).1 = broken) :
    s.xferMap b k r = (s.noteMap k broken).phaseTo b { s.bank b with op := .xfer .x4 k r } k
      { s.chan k with runs := (s.callMap (s.chan k).sg r.dir).1 } (s.callMap (s.chan k).sg r.dir).2.env := by
  rw [State.xferMap]
  dsimp only
  rw [if_neg (by simpa using h), hbroken, ← State.noteMap, State.callMap_snd_eq, State.noteMap_withEnv,
    State.noteMap_eq]
  generalize (s.callMap (s.chan k).sg r.dir).2.env = e
  rfl

/-- Settles O27: the empty and the non-empty mapping. -/
theorem transferMaps : Obligations.TransferMaps := by
  rintro s rest b k r np runs h hb hop rfl hruns
  have hstep : step s = .next ((s.leaving rest).xferMap b k r) := by
    rw [step_caller h hb, State.callerStep_x3 (s := s.leaving rest) hop]
  rw [hstep]
  by_cases hne : runs = []
  · subst hne
    rw [State.xferMap_of_nil (s := s.leaving rest) b k hruns, State.leaving_phaseTo]
    exact ⟨_, rfl, .refl s, rfl, rfl, fun _ => ⟨rfl, List.append_assoc .., bankBecomes_phaseTo ..,
      chanBecomes_phaseTo ..⟩, fun hc => absurd rfl hc⟩
  · have hcall : ((s.leaving rest).callMap ((s.leaving rest).chan k).sg r.dir).1 = runs := hruns
    obtain ⟨broken, hbroken⟩ : ∃ x, mapBroken (pageCount s.cfg.pageSize r.addr r.len) r.len runs = x :=
      ⟨_, rfl⟩
    rw [State.xferMap_of_ne_nil (s := s.leaving rest) b k (hcall ▸ hne) (hcall ▸ hbroken), hcall]
    have hfaults : (s.leaving rest).noteMap k broken = (s.noteMap k broken).leaving rest := by cases broken <;> rfl
    rw [hfaults, State.leaving_phaseTo, State.noteMap_eq]
    refine ⟨_, rfl, .refl s, rfl, rfl, fun hc => absurd hc hne, fun _ => ⟨rfl, bankBecomes_phaseTo ..,
      chanBecomes_phaseTo .., ?_⟩⟩
    split
    next hkept =>
      obtain rfl : broken = false := hbroken.symm.trans ((mapBroken_eq_false_iff ..).2 hkept)
      rfl
    next hno =>
      obtain rfl : broken = true := by
        rw [← hbroken, ← Bool.not_eq_false, mapBroken_eq_false_iff]
        exact hno
      exact s.mem_raise (.u10 k)

/-! ### X5 and X6: the wait and the cleanup (R155 to R162) -/

theorem State.xferStop_eq_phaseTo (s : State) (b : BankId) (k : ChanId) (r : XferReq) (o : XferOutcome) :
    s.xferStop b k r o = s.phaseTo b { s.bank b with op := .xfer (.x6 o) k r } k
      { s.chan k with ts := (s.chan k).ts.set 3 s.inHostTs.1 } s.inHostTs.2.env := s.xferStop_eq b k r o

theorem State.xferStop_forceOff (s : State) (b : BankId) (k : ChanId) (r : XferReq) (o : XferOutcome) :
    (s.forceOff k).xferStop b k r o = s.phaseTo b { s.bank b with op := .xfer (.x6 o) k r } k
      { s.chan k with go := false, ts := (s.chan k).ts.set 3 s.inHostTs.1 } s.inHostTs.2.env := by
  have hchan : (s.forceOff k).chan k = { s.chan k with go := false } := State.chan_setChan_self ..
  have hover : ∀ c : Channel, (s.forceOff k).chans.set k.val c = s.chans.set k.val c := fun c =>
    congrArg State.chans (s.setChan_setChan k _ c)
  rw [State.xferStop_eq_phaseTo, hchan, State.phaseTo, hover]
  rfl

/-- Settles O33: X5 by GO, and X6 by `xferCleanup_spec`. -/
theorem transferWaitsAndCompletes : Obligations.TransferWaitsAndCompletes := by
  intro s rest b k r h hb
  rw [step_caller h hb]
  refine ⟨fun hop hgo => ?held, fun hop hgo => ?stopped, fun o hop => ?cleanup⟩
  case held =>
    rw [State.callerStep_x5 (s := s.leaving rest) hop, State.xferWait, State.leaving_chan, if_pos hgo]
  case stopped =>
    have hwait : (s.leaving rest).xferWait b k r = (s.leaving rest).xferStop b k r .ok :=
      if_neg (by simp [hgo])
    rw [State.callerStep_x5 (s := s.leaving rest) hop, hwait, State.xferStop_eq_phaseTo, State.leaving_phaseTo]
    exact ⟨_, rfl, State.phaseTo_frame .., rfl, .refl s, bankBecomes_phaseTo .., chanBecomes_phaseTo ..⟩
  case cleanup =>
    obtain ⟨u, hcleanup, hframe, -, htrace, ⟨hself, hother⟩, hts⟩ := (s.leaving rest).xferCleanup_spec b k r o
    obtain ⟨cs, e, rfl⟩ : ∃ cs e, u = { s with chans := cs, env := e } := ⟨_, _, hframe⟩
    rw [State.callerStep_x6 (s := s.leaving rest) hop, hcleanup]
    refine ⟨_, rfl, rfl, .refl s, htrace, ⟨?_, fun k' hk => ?_⟩, fun j h4 h5 => ?_, ?_⟩
    · rw [State.setBank_chan, State.chan_setChan_self, hself]
      rfl
    · rw [State.setBank_chan, State.chan_setChan_ne _ _ hk]
      exact hother k' hk
    · rw [State.setBank_chan, State.chan_setChan_self]
      exact hts j h4 h5
    · cases o <;> exact bankBecomes_setBank rfl ..

/-! ### Timeouts and signals (R157, R158, R165, R297) -/

theorem step_callerEvent {s : State} {rest : List Event} {b : BankId} {e : Event} {o : XferOutcome}
    {code : ResultCode} (he : (e, o, code) ∈ [(Event.timeout b, XferOutcome.timeout, ResultCode.timeout),
      (.signal b, .interrupted, .interrupted)]) (h : Scheduled e rest s) (hb : b.val < s.cfg.numCallers) :
    step s = .next ((s.leaving rest).callerEvent b o) ∧ o.code = code := by
  have hexists : bankExists (s.leaving rest).cfg b = true := (bankExists_iff ..).2 hb
  simp only [List.mem_cons, List.not_mem_nil, or_false, Prod.mk.injEq] at he
  obtain ⟨rfl, rfl, rfl⟩ | ⟨rfl, rfl, rfl⟩ := he
  · exact ⟨by rw [step_scheduled h, State.apply, if_pos hexists], rfl⟩
  · exact ⟨by rw [step_scheduled h, State.apply, if_pos hexists], rfl⟩

/-- Outside a frame wait, and outside X5 with GO set, the event is discarded (R165). -/
theorem State.callerEvent_discarded {s : State} {b : BankId} (o : XferOutcome) (hwait : (s.bank b).op ≠ .waitFrame)
    (hgo : ∀ k r, (s.bank b).op = .xfer .x5 k r → (s.chan k).go = false) : s.callerEvent b o = s := by
  unfold State.callerEvent
  split
  case h_3 hop => exact absurd hop hwait
  case h_7 k r hop => exact if_neg (by simp [hgo k r hop])
  all_goals rfl

/-- Settles O34: the frame wait, X5 with GO set, and everything else. -/
theorem callerEvents : Obligations.CallerEvents := by
  intro s rest b e o code he h hb
  obtain ⟨hstep, rfl⟩ := step_callerEvent he h hb
  rw [hstep]
  refine ⟨fun hop => ?wait, fun k r hop hgo => ?broken, fun hop hgo => ?discarded⟩
  case wait =>
    rw [State.callerEvent, State.leaving_bank, hop]
    exact ⟨_, rfl, onlyBankBecomes_finish ..⟩
  case broken =>
    have hbreak : (s.leaving rest).callerEvent b o = ((s.leaving rest).forceOff k).xferStop b k r o := by
      rw [State.callerEvent, State.leaving_bank, hop]
      exact if_pos hgo
    rw [hbreak, State.xferStop_forceOff, State.leaving_phaseTo]
    exact ⟨_, rfl, State.phaseTo_frame .., rfl, .refl s, bankBecomes_phaseTo .., chanBecomes_phaseTo ..⟩
  case discarded =>
    rw [State.callerEvent_discarded (s := s.leaving rest) o hop hgo]

end Sys2Proof.Machine

/-! SUPPORT. The pure parts of the descriptor-list builder: the scatter list covers the buffer
(40_descriptor_builder.md R144, R145), and the merge pass moves no byte and leaves nothing to merge (R147). -/

namespace Sys2Proof.Machine

/-! ### The scatter list (R144, R145) -/

theorem scatterFrom_page (P rem off : Nat) (pages : List PageHandle) :
    (scatterFrom P rem off pages).map (·.page) = pages := by
  induction pages generalizing rem off with
  | nil => rfl
  | cons p ps ih => rw [scatterFrom, List.map_cons, ih]

/-- Only the first entry may start inside its page. -/
theorem scatterFrom_off (P rem off : Nat) (p : PageHandle) (ps : List PageHandle) :
    (scatterFrom P rem off (p :: ps)).map (·.off) = off :: List.replicate ps.length 0 := by
  induction ps generalizing rem off p with
  | nil => rfl
  | cons q ps ih => rw [scatterFrom, List.map_cons, ih, List.length_cons, List.replicate_succ]

theorem scatterFrom_within {P off : Nat} (rem : Nat) (hoff : off ≤ P) (pages : List PageHandle) :
    ∀ e ∈ scatterFrom P rem off pages, e.off + e.len ≤ P := by
  induction pages generalizing rem off with
  | nil => nofun
  | cons p ps ih =>
    rw [scatterFrom]
    rintro e (_ | ⟨_, he⟩)
    · exact Nat.add_le_of_le_sub' hoff (Nat.min_le_right ..)
    · exact ih _ (Nat.zero_le P) e he

/-- The lengths sum to the bytes left, if the pages hold them. -/
theorem scatterFrom_sum {P rem off : Nat} (hoff : off ≤ P) {pages : List PageHandle}
    (hfit : off + rem ≤ P * pages.length) : ((scatterFrom P rem off pages).map (·.len)).sum = rem := by
  induction pages generalizing rem off with
  | nil =>
    simp only [List.length_nil, Nat.mul_zero] at hfit
    exact (Nat.eq_zero_of_add_eq_zero_left (Nat.le_zero.1 hfit)).symm
  | cons p ps ih =>
    rw [List.length_cons, Nat.mul_succ] at hfit
    rw [scatterFrom, List.map_cons, List.sum_cons, ih (Nat.zero_le P) (by omega)]
    exact Nat.add_sub_of_le (Nat.min_le_left ..)

/-- The pages R144 counts hold the buffer from its offset in the first one. -/
theorem buffer_fits {P a len np : Nat} (hP : 0 < P) (hlen : 1 ≤ len) (hnp : np = (a + len - 1) / P - a / P + 1) :
    a % P + len ≤ P * np := by
  have hfirst := Nat.div_add_mod a P
  have hlast := Nat.lt_mul_div_succ (a + len - 1) hP
  have hle : a / P ≤ (a + len - 1) / P := Nat.div_le_div_right (by omega)
  have hpages : P * (a / P) + P * np = P * ((a + len - 1) / P + 1) := by
    rw [← Nat.mul_add, hnp]
    congr 1
    omega
  omega

/-- Settles O26: the four parts, for the pages that hold the buffer. -/
theorem scatterListCoversBuffer : Obligations.ScatterListCoversBuffer := by
  rintro n a len pages sg hlen hnp rfl
  have hP : 0 < 2 ^ n := Nat.two_pow_pos n
  have hoff : a.toNat % 2 ^ n ≤ 2 ^ n := (Nat.mod_lt _ hP).le
  refine ⟨scatterFrom_page .., scatterFrom_within _ hoff pages, ?_, scatterFrom_sum hoff (buffer_fits hP hlen hnp)⟩
  cases pages with
  | nil => cases hnp
  | cons p ps => exact scatterFrom_off ..

/-! ### The merge pass (R147) -/

/-- What the merge pass makes of two runs. -/
def joinRuns (x y : Run) : Run := ⟨x.bus, x.len + y.len⟩

theorem mergeable_iff (p : Params) (x y : Run) :
    mergeable p x y = true ↔
      p.mergeEnable = true ∧ x.bus + x.len = y.bus ∧ x.len.toNat + y.len.toNat ≤ p.maxMergeBytes ∧
        hi32 x.bus = hi32 (runLast y) := by
  simp only [mergeable, Bool.and_eq_true, beq_iff_eq, decide_eq_true_eq, and_assoc]

/-- What holds of every mapped run, and of a joining of two runs that meet the merge condition if it holds of both,
holds of every merged run. -/
theorem mergeInto_forall {p : Params} {Q : Run → Prop}
    (hjoin : ∀ x y, Q x → Q y → mergeable p x y = true → Q (joinRuns x y))
    {cur : Run} {runs : List Run} (hcur : Q cur) (hruns : ∀ r ∈ runs, Q r) :
    ∀ r ∈ mergeInto p cur runs, Q r := by
  induction runs generalizing cur with
  | nil => simpa [mergeInto] using hcur
  | cons r rs ih =>
    obtain ⟨hr, hrs⟩ := List.forall_mem_cons.1 hruns
    rw [mergeInto]
    split
    next hm => exact ih (hjoin _ _ hcur hr hm) hrs
    next => exact List.forall_mem_cons.2 ⟨hcur, ih hr hrs⟩

theorem mergeRuns_forall {p : Params} {Q : Run → Prop}
    (hjoin : ∀ x y, Q x → Q y → mergeable p x y = true → Q (joinRuns x y))
    {runs : List Run} (hruns : ∀ r ∈ runs, Q r) : ∀ r ∈ mergeRuns p runs, Q r := by
  cases runs with
  | nil => exact hruns
  | cons r rs =>
    obtain ⟨hr, hrs⟩ := List.forall_mem_cons.1 hruns
    exact mergeInto_forall hjoin hr hrs

theorem length_mergeInto_le (p : Params) (cur : Run) (runs : List Run) :
    (mergeInto p cur runs).length ≤ runs.length + 1 := by
  induction runs generalizing cur with
  | nil => exact le_rfl
  | cons r rs ih =>
    rw [mergeInto]
    split
    · exact (ih _).trans (Nat.le_succ _)
    · exact Nat.succ_le_succ (ih r)

theorem length_mergeRuns_le (p : Params) (runs : List Run) : (mergeRuns p runs).length ≤ runs.length := by
  cases runs with
  | nil => exact le_rfl
  | cons r rs => exact length_mergeInto_le p r rs

theorem mergeInto_of_disabled {p : Params} (hp : p.mergeEnable = false) (cur : Run) (runs : List Run) :
    mergeInto p cur runs = cur :: runs := by
  induction runs generalizing cur with
  | nil => rfl
  | cons r rs ih => rw [mergeInto, if_neg (by simp [mergeable_iff, hp]), ih]

theorem mergeRuns_of_disabled {p : Params} (hp : p.mergeEnable = false) (runs : List Run) :
    mergeRuns p runs = runs := by
  cases runs with
  | nil => rfl
  | cons r rs => exact mergeInto_of_disabled hp r rs

/-- The bytes of two adjacent runs are those of their joining, if its length does not wrap. -/
theorem addresses_joinRuns {x y : Run} (hadj : x.bus + x.len = y.bus) (hlen : x.len.toNat + y.len.toNat < 2 ^ 64) :
    Run.addresses (joinRuns x y) = Run.addresses x ++ Run.addresses y := by
  have hsum : (x.len + y.len).toNat = x.len.toNat + y.len.toNat := BitVec.toNat_add_of_lt hlen
  simp only [Run.addresses, joinRuns, hsum, List.range_add, List.map_append, List.map_map, ← hadj]
  congr 1
  refine List.map_congr_left fun i _ => ?_
  simp [BitVec.ofNat_add, BitVec.add_assoc]

theorem addresses_mergeInto {p : Params} {cur : Run} {runs : List Run}
    (hsum : cur.len.toNat + (runs.map (·.len.toNat)).sum < 2 ^ 64) :
    (mergeInto p cur runs).flatMap Run.addresses = Run.addresses cur ++ runs.flatMap Run.addresses := by
  induction runs generalizing cur with
  | nil => rfl
  | cons r rs ih =>
    rw [List.map_cons, List.sum_cons] at hsum
    rw [mergeInto, List.flatMap_cons]
    split
    next hm =>
      obtain ⟨-, hadj, -⟩ := (mergeable_iff ..).1 hm
      have hlen : cur.len.toNat + r.len.toNat < 2 ^ 64 := by omega
      have hjoin : (joinRuns cur r).len.toNat = cur.len.toNat + r.len.toNat := BitVec.toNat_add_of_lt hlen
      rw [← joinRuns, ih (by rw [hjoin]; omega), addresses_joinRuns hadj hlen, List.append_assoc]
    next => rw [List.flatMap_cons, ih (by omega)]

/-- The merge pass moves no byte (R147). -/
theorem addresses_mergeRuns {p : Params} {runs : List Run} (hsum : (runs.map (·.len.toNat)).sum < 2 ^ 64) :
    (mergeRuns p runs).flatMap Run.addresses = runs.flatMap Run.addresses := by
  cases runs with
  | nil => rfl
  | cons r rs =>
    rw [List.map_cons, List.sum_cons] at hsum
    rw [mergeRuns, addresses_mergeInto hsum, List.flatMap_cons]

/-- A run that the merge pass may leave: one of the mapped runs, or one within the bounds (R147). -/
def MergedFrom (p : Params) (runs : List Run) (r : Run) : Prop :=
  r ∈ runs ∨ (p.mergeEnable = true ∧ r.len.toNat ≤ p.maxMergeBytes ∧ hi32 r.bus = hi32 (runLast r))

theorem runLast_join {x y : Run} (hadj : x.bus + x.len = y.bus) : runLast (joinRuns x y) = runLast y := by
  rw [runLast, runLast, joinRuns, ← hadj, BitVec.add_assoc]

/-- A joining of two runs that meet the condition is within the bounds. -/
theorem MergedFrom.join {p : Params} {runs : List Run} {x y : Run} (hm : mergeable p x y = true) :
    MergedFrom p runs (joinRuns x y) := by
  obtain ⟨hen, hadj, hmax, hhi⟩ := (mergeable_iff ..).1 hm
  refine .inr ⟨hen, ?_, by rw [runLast_join hadj]; exact hhi⟩
  exact (BitVec.toNat_add .. ▸ Nat.mod_le ..).trans hmax

/-! ### What is left after the merge pass (R147) -/

/-- The run has a byte, and ends before the end of the bus address space. -/
def BoundedRun (r : Run) : Prop := 0 < r.len.toNat ∧ r.bus.toNat + r.len.toNat < 2 ^ 64

/-- The lengths of adjacent runs add up without wrapping. -/
theorem toNat_len_joinRuns {x y : Run} (hx : BoundedRun x) (hy : BoundedRun y) (hadj : x.bus + x.len = y.bus) :
    (joinRuns x y).len.toNat = x.len.toNat + y.len.toNat := by
  have hbus : y.bus.toNat = x.bus.toNat + x.len.toNat := by rw [← hadj, BitVec.toNat_add_of_lt hx.2]
  have hend := hy.2
  exact BitVec.toNat_add_of_lt (by omega)

theorem BoundedRun.join {x y : Run} (hx : BoundedRun x) (hy : BoundedRun y) (hadj : x.bus + x.len = y.bus) :
    BoundedRun (joinRuns x y) := by
  have hbus : y.bus.toNat = x.bus.toNat + x.len.toNat := by rw [← hadj, BitVec.toNat_add_of_lt hx.2]
  have hend := hy.2
  have hlen := toNat_len_joinRuns hx hy hadj
  exact ⟨by rw [hlen]; exact Nat.add_pos_left hx.1 _, by rw [hlen]; change x.bus.toNat + _ < _; omega⟩

theorem BoundedRun.toNat_runLast {r : Run} (h : BoundedRun r) : (runLast r).toNat = r.bus.toNat + r.len.toNat - 1 := by
  obtain ⟨hpos, hend⟩ := h
  have hsum := BitVec.toNat_add_of_lt hend
  rw [runLast, BitVec.toNat_sub_of_le (by rw [BitVec.le_def, hsum]; exact hpos.trans_le (by simp)), hsum]
  rfl

/-- Run `y` starts where `x` starts and is at least as long. -/
def ExtendsRun (y x : Run) : Prop := y.bus = x.bus ∧ x.len.toNat ≤ y.len.toNat

/-- A run that does not merge with the next one does not merge with a longer run in its place either. -/
theorem mergeable_of_extends {p : Params} {cur r y : Run} (hcur : BoundedRun cur) (hr : BoundedRun r)
    (hy : BoundedRun y) (hext : ExtendsRun y r) (hm : mergeable p cur y = true) : mergeable p cur r = true := by
  obtain ⟨hen, hadj, hmax, hhi⟩ := (mergeable_iff ..).1 hm
  obtain ⟨hbus, hlen⟩ := hext
  rw [hbus] at hadj
  refine (mergeable_iff ..).2 ⟨hen, hadj, by omega, ?_⟩
  have hstart : r.bus.toNat = cur.bus.toNat + cur.len.toNat := by rw [← hadj, BitVec.toNat_add_of_lt hcur.2]
  have hhi' := congrArg BitVec.toNat hhi
  apply BitVec.eq_of_toNat_eq
  rw [toNat_hi32, toNat_hi32, hy.toNat_runLast, hbus] at hhi'
  rw [toNat_hi32, toNat_hi32, hr.toNat_runLast]
  have := hr.1
  omega

theorem mergeInto_head {p : Params} {cur : Run} {runs : List Run} (hcur : BoundedRun cur)
    (hruns : ∀ r ∈ runs, BoundedRun r) : ∃ y ys, mergeInto p cur runs = y :: ys ∧ ExtendsRun y cur := by
  induction runs generalizing cur with
  | nil => exact ⟨cur, [], rfl, rfl, le_rfl⟩
  | cons r rs ih =>
    obtain ⟨hr, hrs⟩ := List.forall_mem_cons.1 hruns
    rw [mergeInto]
    split
    next hm =>
      obtain ⟨-, hadj, -⟩ := (mergeable_iff ..).1 hm
      obtain ⟨y, ys, he, hbus, hlen⟩ := ih (hcur.join hr hadj) hrs
      refine ⟨y, ys, he, hbus, Nat.le_trans ?_ hlen⟩
      rw [toNat_len_joinRuns hcur hr hadj]
      exact Nat.le_add_right ..
    next => exact ⟨cur, _, rfl, rfl, le_rfl⟩

theorem mergeInto_bounded {p : Params} {cur : Run} {runs : List Run} (hcur : BoundedRun cur)
    (hruns : ∀ r ∈ runs, BoundedRun r) : ∀ r ∈ mergeInto p cur runs, BoundedRun r :=
  mergeInto_forall (fun _ _ hx hy hm => hx.join hy ((mergeable_iff ..).1 hm).2.1) hcur hruns

/-- No two runs in a row that the merge pass leaves meet its condition. -/
theorem isChain_mergeInto {p : Params} {cur : Run} {runs : List Run} (hcur : BoundedRun cur)
    (hruns : ∀ r ∈ runs, BoundedRun r) : (mergeInto p cur runs).IsChain (fun x y => ¬ mergeable p x y = true) := by
  induction runs generalizing cur with
  | nil => exact .singleton _
  | cons r rs ih =>
    obtain ⟨hr, hrs⟩ := List.forall_mem_cons.1 hruns
    rw [mergeInto]
    split
    next hm => exact ih (hcur.join hr ((mergeable_iff ..).1 hm).2.1) hrs
    next hm =>
      obtain ⟨y, ys, he, hext⟩ := mergeInto_head (p := p) hr hrs
      have hy : BoundedRun y := mergeInto_bounded hr hrs y (by rw [he]; exact List.mem_cons_self)
      have hrest := ih hr hrs
      rw [he] at hrest ⊢
      exact List.isChain_cons_cons.2 ⟨fun hmy => hm (mergeable_of_extends hcur hr hy hext hmy), hrest⟩

theorem isChain_mergeRuns {p : Params} {runs : List Run} (hruns : ∀ r ∈ runs, BoundedRun r) :
    (mergeRuns p runs).IsChain (fun x y => ¬ mergeable p x y = true) := by
  cases runs with
  | nil => exact .nil
  | cons r rs =>
    obtain ⟨hr, hrs⟩ := List.forall_mem_cons.1 hruns
    exact isChain_mergeInto hr hrs

/-- Settles O28: the bytes, the number and the bounds of the merged runs, and the pass is a chain of runs that do not
merge. -/
theorem mergeIsExact : Obligations.MergeIsExact := by
  intro p runs hsum
  refine ⟨addresses_mergeRuns hsum, length_mergeRuns_le p runs,
    mergeRuns_forall (Q := MergedFrom p runs) (fun _ _ _ _ hm => .join hm) (fun _ hr => .inl hr),
    fun hp => mergeRuns_of_disabled hp runs, fun hp hruns n x y hx hy ⟨hadj, hmax, hhi⟩ => ?_⟩
  obtain ⟨hn, rfl⟩ := List.getElem?_eq_some_iff.1 hx
  obtain ⟨hn', rfl⟩ := List.getElem?_eq_some_iff.1 hy
  exact List.isChain_iff_getElem.1 (isChain_mergeRuns hruns) n hn' ((mergeable_iff ..).2 ⟨hp, hadj, hmax, hhi⟩)

end Sys2Proof.Machine

/-! SUPPORT. What the chain that X4 leaves means (40_descriptor_builder.md R148 to R151): its records read
back, and the walk from HEAD denotes the moves of the merged runs. -/

namespace Sys2Proof.Machine

/-! ### Reading a record back (R111, R148) -/

/-- Host memory holds the records of the runs `m` from bus address `base` up (R149). -/
def HoldsChain (mem : Memory) (dir : Bool) (base : U64) (co : U32) (m : List Run) : Prop :=
  ∀ (n : Nat) (x : Run), m[n]? = some x → ∀ i : Fin 8,
    mem.readU32 (base + BitVec.ofNat 64 (32 * n + 4 * i.val)) = (recordAt dir base co m n x).words[i]

theorem hi32_append_lo32 (x : U64) : hi32 x ++ lo32 x = x := by
  apply BitVec.eq_of_toNat_eq
  rw [toNat_append_eq_add, toNat_hi32, toNat_lo32]
  omega

/-- The bus address of record `n` of a chain stored from `base`. -/
def recordAddr (base : U64) (n : Nat) : U64 := base + BitVec.ofNat 64 (32 * n)

section
variable {mem : Memory} {dir : Bool} {base : U64} {co : U32} {m : List Run} {n : Nat} {x : Run}

/-- Word `i` of record `n`, by its offset in the record. -/
theorem HoldsChain.word (h : HoldsChain mem dir base co m) (hn : m[n]? = some x) (i : Fin 8) :
    mem.readU32 (recordAddr base n + BitVec.ofNat 64 (4 * i.val)) = (recordAt dir base co m n x).words[i] := by
  rw [recordAddr, BitVec.add_assoc, ← BitVec.ofNat_add]
  exact h n x hn i

theorem HoldsChain.nextAt (h : HoldsChain mem dir base co m) (hn : m[n]? = some x) :
    nextAt mem (recordAddr base n) = if n + 1 < m.length then recordAddr base (n + 1) else 0 := by
  have hlo : mem.readU32 (recordAddr base n + 0x10) = _ := h.word hn 4
  have hhi : mem.readU32 (recordAddr base n + 0x14) = _ := h.word hn 5
  rw [Machine.nextAt, hlo, hhi]
  exact hi32_append_lo32 _

theorem ctrlWords_ctrlOf (hlen : x.len.toNat % 4 = 0 ∧ x.len.toNat < 2 ^ 32) :
    ctrlWords (ctrlOf dir x) * wordBytes = x.len.toNat := by
  obtain ⟨hmod, hlt⟩ := hlen
  have hwords : ctrlWords (ctrlOf dir x) = x.len.toNat / 4 := by
    rw [ctrlWords, ctrlOf, BitVec.extractLsb'_toNat, toNat_append_eq_add, BitVec.toNat_ofNat, Nat.shiftRight_zero]
    simp only [wordBytes]
    omega
  rw [hwords]
  exact Nat.div_mul_cancel (Nat.dvd_of_mod_eq_zero hmod)

theorem getLsbD_ctrlOf : (ctrlOf dir x).getLsbD 31 = dir := by
  simp only [ctrlOf, bit1, BitVec.getLsbD_append]
  simp

/-- A record denotes the move of its run, if the run's length fits WORDS. -/
theorem HoldsChain.moveAt (h : HoldsChain mem dir base co m) (hn : m[n]? = some x)
    (hlen : x.len.toNat % 4 = 0 ∧ x.len.toNat < 2 ^ 32) :
    moveAt mem (recordAddr base n) = ⟨x.bus, co + BitVec.ofNat 32 (bytesBefore m n), x.len.toNat, dir⟩ := by
  have h0 : mem.readU32 (recordAddr base n) = lo32 x.bus := by
    have := h.word hn 0
    rwa [Fin.val_zero, BitVec.add_zero] at this
  have h1 : mem.readU32 (recordAddr base n + 4) = hi32 x.bus := h.word hn 1
  have h2 : mem.readU32 (recordAddr base n + 8) = co + BitVec.ofNat 32 (bytesBefore m n) := h.word hn 2
  have h3 : mem.readU32 (recordAddr base n + 0x0C) = ctrlOf dir x := h.word hn 3
  rw [Machine.moveAt, h0, h1, h2, h3, hi32_append_lo32, ctrlWords_ctrlOf hlen, getLsbD_ctrlOf]

/-! ### Walking the chain (R148) -/

/-- From record `n` the walk visits that record and all after it, if the storage does not pass the end of the bus
address space. -/
theorem HoldsChain.chainRecords (h : HoldsChain mem dir base co m) (hreach : base.toNat + 32 * m.length ≤ 2 ^ 64)
    {fuel : Nat} (hn : n < m.length) (hfuel : m.length - n ≤ fuel) :
    chainRecords mem fuel (recordAddr base n) = (List.range' n (m.length - n)).map (recordAddr base) := by
  induction fuel generalizing n with
  | zero => omega
  | succ fuel ih =>
    rw [Machine.chainRecords, h.nextAt (List.getElem?_eq_getElem hn),
      show m.length - n = m.length - (n + 1) + 1 by omega, List.range'_succ, List.map_cons]
    by_cases hlast : n + 1 < m.length
    · have hne : recordAddr base (n + 1) ≠ 0 := fun hz => by
        have hval : (recordAddr base (n + 1)).toNat = base.toNat + 32 * (n + 1) := toNat_add_ofNat (by omega)
        rw [hz] at hval
        simp at hval
      rw [if_pos hlast, if_neg hne, ih hlast (by omega)]
    · rw [if_neg hlast, if_pos rfl, show m.length - (n + 1) = 0 by omega]
      rfl

/-- Walked from its first record, the chain denotes the moves of the runs. -/
theorem HoldsChain.map_moveAt (h : HoldsChain mem dir base co m)
    (hlen : ∀ x ∈ m, x.len.toNat % 4 = 0 ∧ x.len.toNat < 2 ^ 32) :
    ((List.range m.length).map (recordAddr base)).map (Machine.moveAt mem) = runMoves dir co m := by
  refine List.ext_getElem (by simp [runMoves]) fun n hn _ => ?_
  have hlt : n < m.length := by simpa using hn
  simp only [List.getElem_map, List.getElem_range, runMoves, List.getElem_mapIdx]
  exact h.moveAt (List.getElem?_eq_getElem hlt) (hlen _ (List.getElem_mem hlt))

end

/-! ### The chain that X4 leaves (R151, R153) -/

/-- Tamper marks are not part of a race (R88). -/
theorem Raced.of_chans {s t : State} {k : ChanId} {dir : Bool} {a : U64} (h : Raced t (some k) dir a)
    (hchans : ∀ k', k' ≠ k → t.chan k' = { s.chan k' with tampered := (t.chan k').tampered }) :
    Raced s (some k) dir a := by
  obtain ⟨j, hj, hrun⟩ := h
  have hjk : j ≠ k := fun e => hj (by rw [e])
  rw [hchans j hjk] at hrun
  exact ⟨j, hj, hrun⟩

/-- Settles O30: the records stand in memory by `transferPrograms`, the walk visits each once, and a record
denotes the move of its run. -/
theorem chainDenotesMergedRuns : Obligations.ChainDenotesMergedRuns := by
  rintro s rest b k r m h hb hop hk hmem rfl hne hcap hlen
  have hreach := storage_reach h.1 hk
  obtain ⟨t, hstep, hframe, -, -, -, hchan, hothers, -, -, hmemory⟩ :=
    transferPrograms s rest b k r _ _ h hb hop rfl rfl
  have hchain : HoldsChain t.hostMem r.dir s.cfg.descBase[k] r.card (mergeRuns s.cfg (s.chan k).runs) :=
    (hmemory hk hmem hcap).1
  have hwalk : chainRecords t.hostMem (s.cfg.descCap + (s.chan k).runs.length) (t.chan k).head =
      (List.range (mergeRuns s.cfg (s.chan k).runs).length).map (recordAddr s.cfg.descBase[k]) := by
    have hpos : 0 < (mergeRuns s.cfg (s.chan k).runs).length := List.length_pos_iff.2 hne
    have hw := hchain.chainRecords (by omega) hpos (fuel := s.cfg.descCap + (s.chan k).runs.length) (by omega)
    rw [Nat.sub_zero, ← List.range_eq_range', recordAddr, Nat.mul_zero, BitVec.add_zero] at hw
    rw [hchan]
    exact hw
  refine ⟨t, hstep, ?_, fun hfree => ?_⟩
  · rw [chainMoves, hwalk]
    exact hchain.map_moveAt hlen
  · have hrecords : t.recordsOf k =
        (List.range (mergeRuns s.cfg (s.chan k).runs).length).map (recordAddr s.cfg.descBase[k]) := by
      rw [State.recordsOf, ← hwalk, show t.cfg = s.cfg by rw [hframe], hchan]
    have hnone : t.chainFree k = false := by
      rw [Bool.eq_false_iff]
      intro hbad
      have htamper : (t.chan k).tampered = false := by rw [hchan]
      simp only [State.chainFree, htamper, hrecords, Bool.false_or, List.any_eq_true, List.mem_map,
        List.mem_range] at hbad
      obtain ⟨-, ⟨n, hn, rfl⟩, i, hi, hraced⟩ := hbad
      replace hi : i < 32 := hi
      have hat : (recordAddr s.cfg.descBase[k] n + BitVec.ofNat 64 i).toNat =
          s.cfg.descBase[k].toNat + (32 * n + i) := by
        rw [recordAddr, BitVec.add_assoc, ← BitVec.ofNat_add]
        exact toNat_add_ofNat (by omega)
      exact hfree _ (by omega) (by omega) (((t.raced_iff ..).1 hraced).of_chans hothers)
    rw [State.chainOf, if_neg (by simp [hnone]), hrecords]
    exact hchain.map_moveAt hlen

end Sys2Proof.Machine

/-! SUPPORT. What a channel's moves do to the two memories (40_descriptor_builder.md R148, R166), said once for both
directions: `target` is the memory that a direction writes and `place` a move's address in it; the other
direction's are what the move reads. -/

namespace Sys2Proof.Machine

/-! ### The two sides of a move (R140, R148) -/

/-- The memory that moves in direction `dir` write: host memory for card to host. -/
def State.target (s : State) (dir : Bool) : Memory := if dir then s.hostMem else s.cardMem

/-- A move's first address in the memory that direction `dir` writes. -/
def place (dir : Bool) (mv : Move) : Nat := if dir then mv.host.toNat else mv.card.toNat

/-- Two moves write apart from each other in direction `dir`. -/
def Apart (dir : Bool) (x y : Move) : Prop :=
  place dir x + x.bytes ≤ place dir y ∨ place dir y + y.bytes ≤ place dir x

/-- Channel k may make the move: it goes in direction `dir`, no address wraps, and no source byte is in a race. -/
structure Movable (k : ChanId) (dir : Bool) (s : State) (mv : Move) : Prop where
  dir_eq : mv.dir = dir
  host_end : mv.host.toNat + mv.bytes ≤ 2 ^ 64
  card_end : mv.card.toNat + mv.bytes ≤ 2 ^ 32
  calm : ∀ i, i < mv.bytes → s.raced (some k) (!dir) (BitVec.ofNat 64 (place (!dir) mv + i)) = false

/-- From `s` to `u` the moves are done: each destination byte is its source's byte, and no other byte of either
memory has changed; no draw is used, and a move to the card leaves the channels. -/
structure Copies (dir : Bool) (ms : List Move) (s u : State) : Prop where
  env : u.env = s.env
  source : u.target (!dir) = s.target (!dir)
  written : ∀ mv ∈ ms, ∀ i, i < mv.bytes →
    (u.target dir).read (place dir mv + i) = (s.target (!dir)).read (place (!dir) mv + i)
  kept : ∀ a, (∀ mv ∈ ms, a < place dir mv ∨ place dir mv + mv.bytes ≤ a) →
    (u.target dir).read a = (s.target dir).read a
  chans : dir = false → u.chans = s.chans

theorem Copies.refl (dir : Bool) (s : State) : Copies dir [] s s :=
  ⟨rfl, rfl, nofun, fun _ _ => rfl, fun _ => rfl⟩

/-- One move and then others that write apart from it. -/
theorem Copies.cons {dir : Bool} {mv : Move} {ms : List Move} {s t u : State} (h1 : Copies dir [mv] s t)
    (h2 : Copies dir ms t u) (hapart : ∀ x ∈ ms, Apart dir mv x) : Copies dir (mv :: ms) s u where
  env := h2.env.trans h1.env
  source := h2.source.trans h1.source
  written := by
    refine List.forall_mem_cons.2 ⟨fun i hi => ?_, fun x hx i hi => ?_⟩
    · rw [h2.kept, h1.written mv List.mem_cons_self i hi]
      intro x hx
      have := hapart x hx
      unfold Apart at this
      omega
    · rw [h2.written x hx i hi, h1.source]
  kept a ha := by
    obtain ⟨hmv, hms⟩ := List.forall_mem_cons.1 ha
    rw [h2.kept a hms, h1.kept a (by simpa using hmv)]
  chans hd := (h2.chans hd).trans (h1.chans hd)

/-- A memory in which a range is a copy and the rest is as before, in the terms of `Copies`. -/
theorem Copies.of_read {dir : Bool} {mv : Move} {s u : State} (henv : u.env = s.env)
    (hsource : u.target (!dir) = s.target (!dir)) (hchans : dir = false → u.chans = s.chans)
    (hread : ∀ a, (u.target dir).read a =
      if place dir mv ≤ a ∧ a < place dir mv + mv.bytes then
        (s.target (!dir)).read (place (!dir) mv + (a - place dir mv)) else (s.target dir).read a) :
    Copies dir [mv] s u where
  env := henv
  source := hsource
  written := by
    refine List.forall_mem_singleton.2 fun i hi => ?_
    rw [hread, if_pos (by omega), Nat.add_sub_cancel_left]
  kept a ha := by
    have := ha mv List.mem_cons_self
    rw [hread, if_neg (by omega)]
  chans := hchans

/-- One move by channel k, by its direction. -/
theorem copies_doMove {k : ChanId} {dir : Bool} {s : State} {mv : Move} (hmem : MemoryInv s)
    (h : Movable k dir s mv) : Copies dir [mv] s (State.doMove k s mv) := by
  rw [State.doMove, h.dir_eq]
  cases dir with
  | true =>
    obtain ⟨henv, hcard, hread⟩ := copyToHost_spec k mv.bytes mv.host mv.card s hmem.1 h.host_end h.card_end h.calm
    exact .of_read henv hcard nofun hread
  | false =>
    obtain ⟨henv, hhost, hchans, hread⟩ :=
      copyToCard_spec k mv.bytes mv.host mv.card s hmem.2 h.host_end h.card_end h.calm
    exact .of_read henv hhost (fun _ => hchans) hread

theorem Movable.of_touches {k : ChanId} {dir : Bool} {s t : State} {mv : Move} (h : Movable k dir s mv)
    (ht : Touches s t) : Movable k dir t mv :=
  ⟨h.dir_eq, h.host_end, h.card_end, fun i hi => (ht.raced ..).trans (h.calm i hi)⟩

/-- The moves of a chain, in order. -/
theorem copies_doMoves {k : ChanId} {dir : Bool} {ms : List Move} {s : State} (hmem : MemoryInv s)
    (hms : ∀ mv ∈ ms, Movable k dir s mv) (hapart : ms.Pairwise (Apart dir)) :
    Copies dir ms s (ms.foldl (State.doMove k) s) := by
  induction ms generalizing s with
  | nil => exact .refl dir s
  | cons mv ms ih =>
    obtain ⟨hmv, hms⟩ := List.forall_mem_cons.1 hms
    obtain ⟨hfirst, hrest⟩ := List.pairwise_cons.1 hapart
    have ht := touches_doMove k s mv
    exact (copies_doMove hmem hmv).cons (ih (ht.wf hmem) (fun x hx => (hms x hx).of_touches ht) hrest) hfirst

/-! ### The channel's step (R166) -/

theorem State.performChain_of_done {s : State} {k : ChanId} (h : (s.chan k).go = false ∨ (s.chan k).moved = true) :
    s.performChain k = s := by
  obtain ⟨-, he⟩ | ⟨hgo, hmoved, -⟩ := performChain_spec s k
  · exact he
  · simp [hgo, hmoved] at h

theorem State.performChain_of_running {s : State} {k : ChanId} (hgo : (s.chan k).go = true)
    (hmoved : (s.chan k).moved = false) (hfree : s.chainFree k = false) {u : State}
    (hu : u = (s.chainOf k).foldl (State.doMove k) s) :
    s.performChain k = u.setChan k { u.chan k with moved := true } := by
  rw [State.performChain, if_pos (by simp [hgo, hmoved]), State.countChain, if_neg (by simp [hfree]), hu]

/-- What only touches the memories, and uses no draw, writes the memories and the channels. -/
theorem Touches.frame_of_env {s u : State} (h : Touches s u) (he : u.env = s.env) :
    ∃ hm cm cs, u = { s with hostMem := hm, cardMem := cm, chans := cs } :=
  ⟨_, _, _, h.frame.trans (by rw [he])⟩

/-- Settles O31: the moves by `copies_doMoves`, and then the channel's mark. -/
theorem channelMovesData : Obligations.ChannelMovesData := by
  intro s rest k h
  rw [step_scheduled h, State.apply]
  refine ⟨fun hdone => congrArg _ (State.performChain_of_done (s := s.leaving rest) hdone), ?_⟩
  rintro ms dir hgo hmoved hfree rfl hmem hms hapart hcalm
  have hmovable : ∀ mv ∈ s.chainOf k, Movable k dir (s.leaving rest) mv := by
    intro mv hmv
    obtain ⟨hdir, hhost, hcard⟩ := hms mv hmv
    refine ⟨hdir, hhost, hcard, fun i hi => Bool.eq_false_iff.2 fun hraced => hcalm mv hmv i hi ?_⟩
    have hr := (State.raced_iff ..).1 hraced
    cases dir <;> exact hr
  have hpairs : (s.chainOf k).Pairwise (Apart dir) := by
    cases dir <;> exact hapart
  have htouch := touches_doMoves k (s.chainOf k) (s.leaving rest)
  have hcopies := copies_doMoves (s := s.leaving rest) hmem hmovable hpairs
  obtain ⟨u, hu⟩ : ∃ u, u = (s.chainOf k).foldl (State.doMove k) (s.leaving rest) := ⟨_, rfl⟩
  rw [← hu] at htouch hcopies
  rw [State.performChain_of_running (s := s.leaving rest) hgo hmoved hfree hu]
  have hinv : MemoryInv u := htouch.wf hmem
  refine ⟨_, rfl, hinv, ?frame, fun j => ?chan, ?copied⟩
  case frame =>
    obtain ⟨hm, cm, cs, rfl⟩ := htouch.frame_of_env hcopies.env
    rfl
  case chan =>
    have hj := htouch.chan j
    by_cases hjk : j = k
    · subst hjk
      rw [State.chan_setChan_self, if_pos rfl, hj]
      rfl
    · rw [State.chan_setChan_ne _ _ hjk, if_neg hjk]
      exact hj
  case copied =>
    cases dir with
    | true => exact ⟨hcopies.source, hcopies.written, hcopies.kept⟩
    | false =>
      have hchans : u.chans = s.chans := hcopies.chans rfl
      have hchan : u.chan k = s.chan k := congrArg (·[k]) hchans
      exact ⟨hcopies.source, by rw [State.setChan, State.setChan, hchans, hchan], hcopies.written, hcopies.kept⟩

end Sys2Proof.Machine

/-! SUPPORT. The pool commands FREE and ENQ (41_pool_fifo.md R182, R183, R187, R188), INIT (44_session_commands.md
R280) and the freeing step of a tick (43_stream_pacing.md R253, R254): what each writes, and that it writes nothing
else. -/

namespace Sys2Proof.Machine

/-! ### One element of the pool or of a channel's records -/

/-- One element of an array after another is written. -/
theorem getElem_set_fin {α : Type} {n : Nat} (v : Vector α n) (c c' : Fin n) (x : α) :
    (v.set c.val x)[c'] = if c' = c then x else v[c'] := by
  simp only [Fin.getElem_fin, Vector.getElem_set, Fin.ext_iff, eq_comm]

/-- A state's slots decide what a slot becomes, whatever else differs. -/
theorem slotBecomes_of_slots {s t : State} {i : SlotIx} {st : SlotState}
    (h : t.pool.slots = s.pool.slots.set i.val st) : SlotBecomes i st s t := by
  have hslot : ∀ j, t.slotState j = if j = i then st else s.slotState j := fun j => by
    rw [State.slotState, h]
    exact getElem_set_fin ..
  exact ⟨(hslot i).trans (if_pos rfl), fun j hj => (hslot j).trans (if_neg hj)⟩

theorem metaBecomes_of_metas {s t : State} {i : SlotIx} {m : Meta}
    (h : t.pool.metas = s.pool.metas.set i.val m) : MetaBecomes i m s t := by
  have hmeta : ∀ j, t.metaOf j = if j = i then m else s.metaOf j := fun j => by
    rw [State.metaOf, h]
    exact getElem_set_fin ..
  exact ⟨(hmeta i).trans (if_pos rfl), fun j hj => (hmeta j).trans (if_neg hj)⟩

theorem faultAdded_of_faults {s t : State} {f : ModelFault} (h : t.faults = (s.raise f).faults) :
    FaultAdded f s t := fun g => by rw [h, s.mem_raise]

/-! ### FREE and ENQ (R187, R188) -/

theorem execFree_of_lt {b : BankId} {s : State} {i : SlotIx} (hi : i.val < s.session.poolSize.toNat) :
    exec (.free b (BitVec.ofNat 16 i.val)) s = .next ((s.freeSlot i).finish b .ok) := by
  rw [exec, execFree, if_pos (slotValid_ofNat hi), slotOperand_ofNat]

theorem execEnq_of_lt {b : BankId} {s : State} {i : SlotIx} (hi : i.val < s.session.poolSize.toNat) :
    exec (.enq b (BitVec.ofNat 16 i.val)) s = .next ((s.enqSlot i).finish b .ok) := by
  rw [exec, execEnq, if_pos (slotValid_ofNat hi), slotOperand_ofNat]

/-- Settles O16: the index is in the pool, and the slot's state decides between the effect and the fault. -/
theorem freeAndEnqSlots : Obligations.FreeAndEnqSlots := by
  intro b i s hi
  refine ⟨⟨_, execFree_of_lt hi, ?free⟩, ⟨_, execEnq_of_lt hi, ?enq⟩⟩
  case free =>
    obtain ⟨hq, he⟩ | ⟨hq, he⟩ := s.freeSlot_cases i <;> rw [he]
    · exact ⟨bankBecomes_finish rfl b .ok, .refl s, fun h => absurd hq h, fun _ => ⟨faultAdded_of_faults rfl, rfl⟩⟩
    · exact ⟨bankBecomes_finish rfl b .ok, .refl s, fun _ => ⟨slotBecomes_of_slots rfl, rfl⟩, fun h => absurd h hq⟩
  case enq =>
    obtain ⟨hu, he⟩ | ⟨hu, he⟩ := s.enqSlot_cases i <;> rw [he]
    · exact ⟨bankBecomes_finish rfl b .ok, .refl s, fun _ => ⟨slotBecomes_of_slots rfl, rfl, rfl, rfl⟩,
        fun h => absurd hu h⟩
    · exact ⟨bankBecomes_finish rfl b .ok, .refl s, fun h => absurd h hu, fun _ => ⟨faultAdded_of_faults rfl, rfl⟩⟩

/-! ### INIT (R194, R280) -/

/-- A fresh session's pool holds FREE slots with zero records (R194). -/
theorem clear_slot {s : State} (hp : s.pool = Pool.clear) (i : SlotIx) :
    s.slotState i = .free ∧ s.metaOf i = Meta.zero := by
  simp [State.slotState, State.metaOf, hp, Pool.clear]

/-- Settles O18: the checks decide, and what an accepted INIT writes is `State.initSession`. -/
theorem initConfiguresSession : Obligations.InitConfiguresSession := by
  intro b cap pb aud pool nch src s
  have haud : (aud = false ∨ s.cfg.hasAudio = true) ↔ (aud = true → s.cfg.hasAudio = true) := by cases aud <;> simp
  have hiff := initAccepted_iff s aud pool nch src
  rw [haud, ← and_assoc (a := 1 ≤ pool.toNat)] at hiff
  split
  next h =>
    have he : exec (.init b cap pb aud pool nch src) s =
        .next ((s.initSession cap pb aud pool nch src).finish b .ok) := by
      rw [exec, execInit, if_pos (hiff.2 h)]
    have hnone : ∀ c : VidChan, (Vector.replicate 2 (none : Option SlotIx))[c] = none := by simp
    exact ⟨_, he, bankBecomes_finish rfl b .ok, fun i _ => clear_slot rfl i, rfl, rfl,
      fun c => ⟨hnone c, hnone c⟩, rfl, .refl s⟩
  next h =>
    have he : exec (.init b cap pb aud pool nch src) s = .next (s.finish b .invalid) := by
      rw [exec, execInit, if_neg (mt hiff.1 h)]
    exact ⟨_, he, onlyBankBecomes_finish ..⟩

/-! ### The freeing step (R222, R253, R254) -/

theorem State.freeing_eq (s : State) :
    s.freeing = (((s.inAudpos.2.freePlayed 0).queueCaptured s.inAudpos.1 0).freePlayed 1).queueCaptured
      s.inAudpos.1 1 := rfl

theorem State.freePlayed_of_none {s : State} {c : VidChan} (h : s.lastPb[c] = none) : s.freePlayed c = s := by
  rw [State.freePlayed, h]

theorem State.freePlayed_of_some {s : State} {c : VidChan} {i : SlotIx} (h : s.lastPb[c] = some i) :
    s.freePlayed c = { s.freeSlot i with lastPb := (s.freeSlot i).lastPb.set c.val none } := by
  rw [State.freePlayed, h]

theorem State.queueCaptured_of_none {s : State} {ap : U64} {c : VidChan} (h : s.lastCap[c] = none) :
    s.queueCaptured ap c = s := by
  rw [State.queueCaptured, h]

theorem State.queueCaptured_of_some {s : State} {ap : U64} {c : VidChan} {i : SlotIx} (h : s.lastCap[c] = some i) :
    s.queueCaptured ap c =
      { s.stampAndQueue i ap with lastCap := (s.stampAndQueue i ap).lastCap.set c.val none } := by
  rw [State.queueCaptured, h]

/-- Reading the external reader makes one call when a generator is attached, and no output otherwise (R233, R366). -/
theorem State.readExternal_env (s : State) :
    ∃ e, s.readExternal.2 = s.withEnv e ∧ e.agenda = s.env.agenda ∧
      e.trace = s.env.trace ++ (if s.cfg.extGen = true then [.extReadExternal] else []) := by
  rw [State.readExternal]
  split
  · exact ⟨_, rfl, rfl, rfl⟩
  · exact ⟨s.env, rfl, rfl, (List.append_nil _).symm⟩

/-- The external reader's part of a stamp: VALID set on a good reading, 0 for a reader that is absent or errs (R233,
R254). -/
theorem State.readExternal_stamp (s : State) :
    s.readExternal.1.stamp =
      if s.cfg.extGen = true then s.callReadExternal.1.elim 0 (· ||| 0x04000000) else 0 := by
  rw [State.readExternal]
  split
  · cases h : s.callReadExternal.1 <;> simp only [h] <;> rfl
  · rfl

/-- What `stamp_and_queue` writes into a record, in terms of the draws (R233, R254). -/
def State.queueStamp (s : State) (ap : U64) (m : Meta) : Meta :=
  { m with
    audpos := ap
    tc1 := s.inWire1.1 ||| 0x04000000
    tc2 := s.inWire1.2.inWire2.1 ||| 0x04000000
    tc3 := if s.cfg.extGen = true then s.inWire1.2.inWire2.2.callReadExternal.1.elim 0 (· ||| 0x04000000) else 0 }

/-- The stamp goes into the record, then the slot is queued; the readings leave the schedule alone (R254). -/
theorem State.stampAndQueue_spec (s : State) (i : SlotIx) (ap : U64) :
    ∃ e : Env, s.stampAndQueue i ap = ((s.withEnv e).setMeta i (s.queueStamp ap (s.metaOf i))).enqSlot i ∧
      e.agenda = s.env.agenda ∧
      e.trace = s.env.trace ++ (if s.cfg.extGen = true then [.extReadExternal] else []) := by
  obtain ⟨e, he, hagenda, htrace⟩ := s.readWire1.2.readWire2.2.readExternal_env
  refine ⟨e, ?_, hagenda, htrace⟩
  simp only [State.stampAndQueue, he, State.readExternal_stamp]
  rfl

/-- Stamped, a slot that is INUSE goes to the tail of the FIFO, and any other raises U3 (R183, R254). -/
theorem State.stampAndQueue_cases (s : State) (i : SlotIx) (ap : U64) :
    ∃ e : Env, e.agenda = s.env.agenda ∧
      e.trace = s.env.trace ++ (if s.cfg.extGen = true then [.extReadExternal] else []) ∧
      ((s.slotState i = .inuse ∧ s.stampAndQueue i ap = { s with
          pool := ⟨s.pool.slots.set i.val .queued, s.pool.fifo ++ [i], s.pool.depth + 1,
            s.pool.metas.set i.val (s.queueStamp ap (s.metaOf i))⟩
          env := e }) ∨
        (s.slotState i ≠ .inuse ∧ s.stampAndQueue i ap = { s with
          pool := { s.pool with metas := s.pool.metas.set i.val (s.queueStamp ap (s.metaOf i)) }
          faults := (s.raise (.u3 i (s.slotState i))).faults
          env := e })) := by
  obtain ⟨e, hs, hagenda, htrace⟩ := s.stampAndQueue_spec i ap
  refine ⟨e, hagenda, htrace, ?_⟩
  rw [hs]
  exact ((s.withEnv e).setMeta i _).enqSlot_cases i

/-- Settles O41: the order of the step is `State.freeing_eq`; of each half, the record and the slot's state decide. -/
theorem freeingStep : Obligations.FreeingStep := by
  refine ⟨fun s u rest h hpc hu => ?step, fun s => rfl, fun s c => ⟨State.freePlayed_of_none, fun i hi => ?played⟩,
    fun s c ap => ⟨State.queueCaptured_of_none, fun i w1 w2 x hi h1 h2 hx => ?captured⟩⟩
  case step =>
    rw [step_phase h hpc, ← hu, State.f1Phase, State.freeing_eq]
    rfl
  case played =>
    refine ⟨_, State.freePlayed_of_some hi, ?_⟩
    obtain ⟨hq, he⟩ | ⟨hq, he⟩ := s.freeSlot_cases i <;> rw [he]
    · exact ⟨(getElem_set_fin ..).trans (if_pos rfl), fun c' hc => (getElem_set_fin ..).trans (if_neg hc),
        fun h => absurd hq h, fun _ => ⟨faultAdded_of_faults rfl, rfl⟩⟩
    · exact ⟨(getElem_set_fin ..).trans (if_pos rfl), fun c' hc => (getElem_set_fin ..).trans (if_neg hc),
        fun _ => ⟨slotBecomes_of_slots rfl, rfl⟩, fun h => absurd h hq⟩
  case captured =>
    have hm : s.queueStamp ap (s.metaOf i) = { s.metaOf i with audpos := ap, tc1 := w1, tc2 := w2, tc3 := x } := by
      rw [State.queueStamp, h1, h2, hx]
      cases s.inWire1.2.inWire2.2.callReadExternal.1 <;> rfl
    obtain ⟨e, hagenda, htrace, hcases⟩ := s.stampAndQueue_cases i ap
    rw [hm] at hcases
    refine ⟨_, State.queueCaptured_of_some hi, ?_⟩
    obtain ⟨hu, he⟩ | ⟨hu, he⟩ := hcases <;> rw [he]
    · exact ⟨(getElem_set_fin ..).trans (if_pos rfl), fun c' hc => (getElem_set_fin ..).trans (if_neg hc),
        metaBecomes_of_metas rfl, htrace, hagenda, fun _ => ⟨slotBecomes_of_slots rfl, rfl, rfl, rfl⟩,
        fun h => absurd hu h⟩
    · exact ⟨(getElem_set_fin ..).trans (if_pos rfl), fun c' hc => (getElem_set_fin ..).trans (if_neg hc),
        metaBecomes_of_metas rfl, htrace, hagenda, fun h => absurd h hu, fun _ => ⟨faultAdded_of_faults rfl, rfl⟩⟩

end Sys2Proof.Machine

/-! SUPPORT. The capture tick (43_stream_pacing.md R250, R260 to R263): the evaluation of the pace, the adjustment of
the generator, and the allocation and stamping of one channel's slot, each said once. -/

namespace Sys2Proof.Machine

/-! ### Pace and generator (R250, R261) -/

/-- The pace gives the step count of `PaceGives`, which fits its register, and writes the pacing state only (R250). -/
theorem State.pace_of_paceGives {s : State} {n : Nat} {p : Pacing} (h : PaceGives s n p) :
    n < 2 ^ 64 ∧ s.pace = (BitVec.ofNat 64 n, { s with pacing := p }) := by
  unfold PaceGives at h
  unfold State.pace
  split at h
  next hp =>
    obtain ⟨rfl, rfl⟩ := h
    rw [if_pos hp, BitVec.ofNat_toNat, BitVec.setWidth_eq]
    exact ⟨s.pacing.stepCache.isLt, rfl⟩
  next hp =>
    obtain ⟨rfl, rfl⟩ := h
    have hacc := s.pacing.acc.isLt
    have hspeed := s.pacing.speed.isLt
    rw [if_neg hp]
    exact ⟨by omega, rfl⟩

theorem State.adjustGenerator_eq (s : State) (n : U64) :
    s.adjustGenerator n = { s with
      gen := if s.genRunning = true then
        (if n = 0 then tcDec s.gen s.tickRate else tcIncN (n.toNat - 1) s.gen s.tickRate) else s.gen } := by
  unfold State.adjustGenerator
  split
  · split <;> rfl
  · rfl

/-- With one or two channels, channel 0 comes first, and channel 1 follows if there are two. -/
theorem videoChannels_cases {nch : BitVec 2} {m : Nat} (h : m = nch.toNat) (hlo : 1 ≤ m) (hhi : m ≤ 2) :
    ∃ cs, (m = 1 ∧ cs = [] ∨ m = 2 ∧ cs = [1]) ∧ videoChannels nch = 0 :: cs := by
  rw [videoChannels, ← h]
  obtain rfl | rfl : m = 1 ∨ m = 2 := by omega
  · exact ⟨[], .inl ⟨rfl, rfl⟩, rfl⟩
  · exact ⟨[1], .inr ⟨rfl, rfl⟩, rfl⟩

/-! ### One channel's slot (R181, R262) -/

/-- The environment record after an allocation: no output is made and no event taken, and no draw is made either under
ALLOC_POLICY = lowest (R181). -/
structure PickLeaves (s : State) (e : Env) : Prop where
  trace : e.trace = s.env.trace
  agenda : e.agenda = s.env.agenda
  lowest : s.cfg.allocPolicy = .lowest → e = s.env

theorem State.allocSlot_agenda (s : State) : s.allocSlot.2.env.agenda = s.env.agenda := by
  unfold State.allocSlot
  split
  · rfl
  · split <;> rfl

/-- An allocation takes an allocatable slot, if there is one (R181). -/
theorem State.allocSlot_allocatable (s : State) :
    (s.allocSlot = (none, s) ∧ ∀ i, ¬ Allocatable s [] i) ∨
      ∃ i e, s.allocSlot = (some i, (s.withEnv e).setSlot i .inuse) ∧ Allocatable s [] i ∧ PickLeaves s e := by
  have htrace := s.allocSlot_trace
  have hagenda := s.allocSlot_agenda
  obtain ⟨ha, hfull⟩ | ⟨i, e, ha, hi, hf, hlow⟩ := s.allocSlot_cases
  · exact .inl ⟨ha, fun i ⟨⟨hi, hf, _⟩, _⟩ => hfull i hi hf⟩
  · rw [ha] at htrace hagenda
    refine .inr ⟨i, e, ha, ⟨⟨hi, hf, List.not_mem_nil⟩, fun hl j hj hfj => ?_⟩, htrace, hagenda, fun hl => (hlow hl).1⟩
    exact absurd ((hlow hl).2 j (Nat.lt_trans hj hi) hfj) (not_le.2 hj)

/-- From `s` to `t` the capture of the channels has written only the slots, the records, the selects, the slots last
captured, the counters and the environment record, with no output and no event (R262, R263). -/
structure CaptureWrites (s t : State) : Prop where
  frame : t = { s with
    pool := { s.pool with slots := t.pool.slots, metas := t.pool.metas }
    insel := t.insel, lastCap := t.lastCap, counters := t.counters, env := t.env }
  leaves : PickLeaves s t.env

theorem CaptureWrites.failed (s : State) : CaptureWrites s s.captureFailed := ⟨rfl, rfl, rfl, fun _ => rfl⟩

theorem CaptureWrites.cfg {s t : State} (h : CaptureWrites s t) : t.cfg = s.cfg := by rw [h.frame]

theorem CaptureWrites.session {s t : State} (h : CaptureWrites s t) : t.session = s.session := by rw [h.frame]

theorem CaptureWrites.captureStamp {s t : State} (h : CaptureWrites s t) : t.captureStamp = s.captureStamp := by
  rw [h.frame]
  rfl

theorem CaptureWrites.trans {s t u : State} (h : CaptureWrites s t) (h' : CaptureWrites t u) :
    CaptureWrites s u where
  frame := h'.frame.trans (by rw [h.frame])
  leaves := {
    trace := h'.leaves.trace.trans h.leaves.trace
    agenda := h'.leaves.agenda.trans h.leaves.agenda
    lowest := fun hl => (h'.leaves.lowest (h.cfg ▸ hl)).trans (h.leaves.lowest hl) }

/-- Channel c has taken slot i and captures into it: what that changes (R262). -/
structure Captures (c : VidChan) (i : SlotIx) (n : U64) (s t : State) : Prop where
  free : Allocatable s [] i
  slot : SlotBecomes i .inuse s t
  record : MetaBecomes i (s.captureStamp c n (s.metaOf i)) s t
  insel : ∀ c', t.insel[c'] = if c' = c then BitVec.ofNat 16 i.val else s.insel[c']
  lastCap : ∀ c', t.lastCap[c'] = if c' = c then some i else s.lastCap[c']
  counters : t.counters = s.counters
  writes : CaptureWrites s t

/-- The first channel left finds no slot and the tick ends, or it captures and the others follow (R262, R263). -/
theorem State.serviceCapture_cons (s : State) (c : VidChan) (cs : List VidChan) (n : U64) :
    ((∀ i, ¬ Allocatable s [] i) ∧ State.serviceCapture (c :: cs) n s = s.captureFailed) ∨
      ∃ i t, Captures c i n s t ∧ State.serviceCapture (c :: cs) n s = State.serviceCapture cs n t := by
  rw [State.serviceCapture]
  obtain ⟨ha, hfull⟩ | ⟨i, e, ha, hi, he⟩ := s.allocSlot_allocatable <;> rw [ha]
  · exact .inl ⟨hfull, rfl⟩
  · exact .inr ⟨i, ((s.withEnv e).setSlot i .inuse).captureInto c i n, {
      free := hi
      slot := slotBecomes_of_slots rfl
      record := metaBecomes_of_metas rfl
      insel := fun _ => getElem_set_fin ..
      lastCap := fun _ => getElem_set_fin ..
      counters := rfl
      writes := ⟨rfl, he⟩ }, rfl⟩

/-- Once slot i is taken, the slots that can be allocated are those that could and are not i (R181). -/
theorem Captures.allocatable {c : VidChan} {i : SlotIx} {n : U64} {s t : State} (h : Captures c i n s t)
    (j : SlotIx) : Allocatable t [] j ↔ Allocatable s [i] j := by
  have hfree : ∀ k, t.slotState k = .free ↔ s.slotState k = .free ∧ k ≠ i := fun k => by
    by_cases hk : k = i
    · subst hk
      simp [h.slot.1]
    · simp [h.slot.2 k hk, hk]
  simp only [Allocatable, h.writes.cfg, h.writes.session, hfree, List.mem_singleton, List.not_mem_nil,
    not_false_eq_true, and_true, imp_false, not_and, not_not, ne_eq]

/-- Two slots, one after the other, go to the same state. -/
theorem SlotBecomes.both {s u t : State} {i j : SlotIx} {st : SlotState} (h : SlotBecomes i st s u)
    (h' : SlotBecomes j st u t) (x : SlotIx) :
    t.slotState x = if x = i ∨ x = j then st else s.slotState x := by
  obtain rfl | hj := eq_or_ne x j
  · rw [if_pos (.inr rfl), h'.1]
  rw [h'.2 x hj]
  obtain rfl | hi := eq_or_ne x i
  · rw [if_pos (.inl rfl), h.1]
  · rw [h.2 x hi, if_neg (by simp [hi, hj])]

/-- Two different records are written, one after the other. -/
theorem MetaBecomes.both {s u t : State} {i j : SlotIx} {m m' : Meta} (h : MetaBecomes i m s u)
    (h' : MetaBecomes j m' u t) (hji : j ≠ i) (x : SlotIx) :
    t.metaOf x = if x = i then m else if x = j then m' else s.metaOf x := by
  obtain rfl | hj := eq_or_ne x j
  · rw [if_neg hji, if_pos rfl, h'.1]
  rw [h'.2 x hj, if_neg hj]
  obtain rfl | hi := eq_or_ne x i
  · rw [if_pos rfl, h.1]
  · rw [if_neg hi, h.2 x hi]

/-! ### The tick (R260 to R263) -/

/-- With room left, the tick paces, adjusts the generator, and serves its channels. -/
theorem State.captureTick_of_room {s : State} {n : Nat} {p : Pacing} (hcap : s.session.flagCap = true)
    (hroom : s.session.nch.toNat < s.session.poolSize.toNat - s.pool.depth.toNat) (hpace : PaceGives s n p) :
    s.captureTick = State.serviceCapture (videoChannels s.session.nch) (BitVec.ofNat 64 n) { s with
      pacing := p
      gen := if s.genRunning = true then
        (if n = 0 then tcDec s.gen s.tickRate else tcIncN (n - 1) s.gen s.tickRate) else s.gen } := by
  obtain ⟨hn, hp⟩ := State.pace_of_paceGives hpace
  have hzero : BitVec.ofNat 64 n = 0 ↔ n = 0 := by
    rw [← BitVec.toNat_inj, BitVec.toNat_ofNat, Nat.mod_eq_of_lt hn]
    rfl
  rw [State.captureTick, if_neg (by simp [hcap]), if_neg (Nat.not_le.2 hroom), hp]
  simp only [State.adjustGenerator_eq, hzero, BitVec.toNat_ofNat, Nat.mod_eq_of_lt hn]

/-- The stamp of R262 in terms of the step count. -/
theorem State.captureStamp_ofNat (s : State) (c : VidChan) (n : Nat) (m : Meta) :
    s.captureStamp c (BitVec.ofNat 64 n) m = { m with
      line := s.curFrame.line
      field := if s.curFrame.field = true then 1 else 0
      tick := s.curFrame.tick
      hostTs := s.curFrame.hostTs
      chtag := BitVec.ofNat 32 c.val
      incr := BitVec.ofNat 32 n
      tc0 := s.gen } := by
  have hfield : (bit1 s.curFrame.field).setWidth 32 = if s.curFrame.field = true then (1 : U32) else 0 := by
    cases s.curFrame.field <;> rfl
  have hincr : lo32 (BitVec.ofNat 64 n) = BitVec.ofNat 32 n := by
    apply BitVec.eq_of_toNat_eq
    rw [toNat_lo32, BitVec.toNat_ofNat, BitVec.toNat_ofNat]
    omega
  rw [State.captureStamp, hfield, hincr]

/-- Settles O47: each channel in turn finds a slot and captures into it, or ends the tick. -/
theorem captureTick : Obligations.CaptureTick := by
  refine ⟨fun s hcap => ?idle, fun s hcap hfull => ?drop,
    fun s n p nch g stamp hcap hnch hlo hhi hroom hpace hg hstamp => ?serve⟩
  case idle => rw [State.captureTick, if_pos (by simp [hcap])]
  case drop =>
    rw [State.captureTick, if_neg (by simp [hcap]), if_pos hfull]
    rfl
  case serve =>
    obtain ⟨cs, hcs, hchans⟩ := videoChannels_cases hnch hlo hhi
    have ht := State.captureTick_of_room hcap (hnch ▸ hroom) hpace
    rw [← hg, hchans] at ht
    have hst : ∀ c m, State.captureStamp { s with pacing := p, gen := g } c (BitVec.ofNat 64 n) m = stamp c m :=
      fun c m => (State.captureStamp_ofNat ..).trans (hstamp c m).symm
    obtain ⟨hnone, h0⟩ | ⟨i, u, hi, h0⟩ := State.serviceCapture_cons { s with pacing := p, gen := g } 0 cs _
    · have hw := CaptureWrites.failed { s with pacing := p, gen := g }
      exact ⟨_, ht.trans h0, hw.frame, hw.leaves.trace, hw.leaves.agenda, hw.leaves.lowest, fun _ => rfl,
        fun ⟨i, hi⟩ => absurd hi (hnone i)⟩
    have hrecord := hi.record
    rw [hst] at hrecord
    obtain ⟨hone, rfl⟩ | ⟨htwo, rfl⟩ := hcs
    · exact ⟨u, ht.trans h0, hi.writes.frame, hi.writes.leaves.trace, hi.writes.leaves.agenda, hi.writes.leaves.lowest,
        fun hno => absurd hi.free (hno i), fun _ => ⟨i, hi.free, hi.insel 0, hi.lastCap 0,
          fun _ => ⟨hi.slot, hrecord, hi.insel 1, hi.lastCap 1, hi.counters.trans (if_pos hone).symm⟩,
          fun htwo => absurd (hone.symm.trans htwo) (by decide)⟩⟩
    have hone : nch ≠ 1 := by omega
    obtain ⟨hnone, h1⟩ | ⟨j, t, hj, h1⟩ := u.serviceCapture_cons 1 [] (BitVec.ofNat 64 n)
    · have hw := hi.writes.trans (.failed u)
      have hcount : u.captureFailed.counters = { s.counters with capfail := s.counters.capfail + 1 } := by
        rw [State.captureFailed, hi.counters]
      exact ⟨_, ht.trans (h0.trans h1), hw.frame, hw.leaves.trace, hw.leaves.agenda, hw.leaves.lowest,
        fun hno => absurd hi.free (hno i), fun _ => ⟨i, hi.free, hi.insel 0, hi.lastCap 0,
          fun _ => ⟨hi.slot, hrecord, hi.insel 1, hi.lastCap 1, hcount.trans (if_neg hone).symm⟩,
          fun _ ⟨j, hj⟩ => absurd ((hi.allocatable j).2 hj) (hnone j)⟩⟩
    · have hw := hi.writes.trans hj.writes
      have hfree := (hi.allocatable j).1 hj.free
      have ⟨⟨_, _, htaken⟩, _⟩ := hfree
      have hji : j ≠ i := by simpa using htaken
      have hrecord' := hj.record
      rw [hi.writes.captureStamp, hst, hi.record.2 j hji] at hrecord'
      exact ⟨t, ht.trans (h0.trans h1), hw.frame, hw.leaves.trace, hw.leaves.agenda, hw.leaves.lowest,
        fun hno => absurd hi.free (hno i), fun _ => ⟨i, hi.free, (hj.insel 0).trans (hi.insel 0),
          (hj.lastCap 0).trans (hi.lastCap 0), fun h => absurd hfree (h.resolve_left hone j),
          fun _ _ => ⟨j, hfree, hj.insel 1, hj.lastCap 1, hj.counters.trans hi.counters,
            hi.slot.both hj.slot, hrecord.both hrecord' hji⟩⟩⟩

end Sys2Proof.Machine

/-! SUPPORT. Timecode labels (42_frame_clock.md R210 to R216): a timecode is its label beside 41 bits that counting
carries unchanged, so that `tcInc` and `tcDec` are functions of the label. -/

namespace Sys2Proof.Machine

/-! ### Rates (R210) -/

theorem fps_eq (r : BitVec 3) : fps r = if r = 0 ∨ r = 4 then 24 else if r = 1 then 25 else 30 := by
  revert r
  decide

theorem fps_bounds (r : BitVec 3) : 24 ≤ fps r ∧ fps r ≤ 30 := by
  rw [fps_eq]
  split_ifs <;> omega

theorem highRate_iff (r : BitVec 3) : highRate r = true ↔ r = 5 ∨ r = 6 := by
  revert r
  decide

/-! ### The label of a timecode (R30) -/

/-- The four fields of a timecode's label. -/
@[ext]
structure Label where
  frames : Nat
  seconds : Nat
  minutes : Nat
  hours : Nat

/-- The label of a timecode. -/
def tcLabel (t : TC64) : Label := ⟨tcFrames t, tcSeconds t, tcMinutes t, tcHours t⟩

/-- The timecode with another label. -/
def relabel (t : TC64) (l : Label) : TC64 := tcWithLabel t l.frames l.seconds l.minutes l.hours

/-- The label fits its fields. -/
def Label.Fits (l : Label) : Prop := l.frames < 64 ∧ l.seconds < 64 ∧ l.minutes < 64 ∧ l.hours < 32

theorem toNat_tcWithLabel (t : TC64) (f s m h : Nat) :
    (tcWithLabel t f s m h).toNat =
      t.toNat / 2 ^ 23 * 2 ^ 23 + h % 32 * 2 ^ 18 + m % 64 * 2 ^ 12 + s % 64 * 2 ^ 6 + f % 64 := by
  have ht := t.isLt
  simp only [tcWithLabel, toNat_append_eq_add, BitVec.extractLsb'_toNat, BitVec.toNat_ofNat, Nat.shiftRight_eq_div_pow]
  omega

theorem toNat_tcFields (t : TC64) :
    tcFrames t = t.toNat % 64 ∧ tcSeconds t = t.toNat / 2 ^ 6 % 64 ∧ tcMinutes t = t.toNat / 2 ^ 12 % 64 ∧
      tcHours t = t.toNat / 2 ^ 18 % 32 := by
  simp only [tcFrames, tcSeconds, tcMinutes, tcHours, BitVec.extractLsb'_toNat, Nat.shiftRight_eq_div_pow,
    Nat.pow_zero, Nat.div_one]
  norm_num

theorem relabel_tcLabel (t : TC64) : relabel t (tcLabel t) = t := by
  obtain ⟨hf, hs, hm, hh⟩ := toNat_tcFields t
  apply BitVec.eq_of_toNat_eq
  simp only [relabel, tcLabel, toNat_tcWithLabel, hf, hs, hm, hh]
  omega

theorem tcLabel_relabel (t : TC64) {l : Label} (h : l.Fits) : tcLabel (relabel t l) = l := by
  obtain ⟨hf, hs, hm, hh⟩ := toNat_tcFields (relabel t l)
  obtain ⟨bf, bs, bm, bh⟩ := h
  rw [relabel, toNat_tcWithLabel] at hf hs hm hh
  ext <;> simp only [tcLabel, relabel] <;> omega

theorem relabel_relabel (t : TC64) (l l' : Label) : relabel (relabel t l) l' = relabel t l' := by
  apply BitVec.eq_of_toNat_eq
  simp only [relabel, toNat_tcWithLabel]
  omega

/-- Counting carries the flags and the user bits (R213, R214). -/
theorem getLsbD_relabel (t : TC64) (l : Label) {n : Nat} (hn : 23 ≤ n) : (relabel t l).getLsbD n = t.getLsbD n := by
  have hdiv : (relabel t l).toNat / 2 ^ 23 = t.toNat / 2 ^ 23 := by
    rw [relabel, toNat_tcWithLabel]
    omega
  obtain ⟨k, rfl⟩ := Nat.exists_eq_add_of_le' hn
  rw [← BitVec.testBit_toNat, ← BitVec.testBit_toNat, ← Nat.testBit_div_two_pow, hdiv, Nat.testBit_div_two_pow]

theorem extractLsb'_relabel (t : TC64) (l : Label) : (relabel t l).extractLsb' 27 5 = t.extractLsb' 27 5 := by
  apply BitVec.eq_of_getLsbD_eq
  intro n hn
  simp only [BitVec.getLsbD_extractLsb', getLsbD_relabel t l (show 23 ≤ 27 + n by omega)]

theorem dfApplies_relabel (t : TC64) (l : Label) (r : BitVec 3) : dfApplies (relabel t l) r = dfApplies t r := by
  rw [dfApplies, tcDf, getLsbD_relabel t l (by decide), dfApplies, tcDf]

/-! ### Counting on labels (R212 to R214) -/

/-- Drop-frame counting leaves the label out: frame 0 or 1 of a minute not divisible by ten (R212). -/
def Label.Skipped (l : Label) : Prop := l.seconds = 0 ∧ l.frames < 2 ∧ l.minutes % 10 ≠ 0

/-- The label is legal at `lim` frames per second, with or without drop-frame counting (R216). -/
structure Label.Legal (lim : Nat) (df : Bool) (l : Label) : Prop where
  frames : l.frames < lim
  seconds : l.seconds < 60
  minutes : l.minutes < 60
  hours : l.hours < 24
  counted : df = true → ¬ l.Skipped

/-- The label one frame on, by the first field that has room (R213). -/
def Label.inc (lim : Nat) (df : Bool) (l : Label) : Label :=
  if l.frames + 1 < lim then { l with frames := l.frames + 1 }
  else if l.seconds + 1 < 60 then ⟨0, l.seconds + 1, l.minutes, l.hours⟩
  else if l.minutes + 1 < 60 then
    ⟨if df = true ∧ (l.minutes + 1) % 10 ≠ 0 then 2 else 0, 0, l.minutes + 1, l.hours⟩
  else ⟨0, 0, 0, if l.hours + 1 < 24 then l.hours + 1 else 0⟩

/-- The label one frame back (R214). -/
def Label.dec (lim : Nat) (df : Bool) (l : Label) : Label :=
  if df = true ∧ l.frames = 2 ∧ l.seconds = 0 ∧ l.minutes % 10 ≠ 0 then ⟨lim - 1, 59, l.minutes - 1, l.hours⟩
  else if 0 < l.frames then { l with frames := min l.frames lim - 1 }
  else if 0 < l.seconds then ⟨lim - 1, min l.seconds 60 - 1, l.minutes, l.hours⟩
  else if 0 < l.minutes then ⟨lim - 1, 59, min l.minutes 60 - 1, l.hours⟩
  else ⟨lim - 1, 59, 59, if 0 < l.hours then min l.hours 24 - 1 else 23⟩

theorem tcInc_eq_relabel (t : TC64) (r : BitVec 3) :
    tcInc t r = relabel t ((tcLabel t).inc (fps r) (dfApplies t r)) := by
  rw [tcLabel, Label.inc, relabel]
  by_cases hf : tcFrames t + 1 < fps r
  · simp [tcInc, hf, Nat.not_le.2 hf]
  by_cases hs : tcSeconds t + 1 < 60
  · have hs' : ¬ 59 ≤ tcSeconds t := by omega
    simp [tcInc, hf, hs, hs', Nat.not_lt.1 hf]
  by_cases hm : tcMinutes t + 1 < 60
  · have hm' : ¬ 59 ≤ tcMinutes t := by omega
    simp [tcInc, hf, hs, hm, hm', Nat.not_lt.1 hf, Nat.not_lt.1 hs]
  · have hm' : 59 ≤ tcMinutes t := by omega
    by_cases hh : tcHours t + 1 < 24
    · simp [tcInc, hf, hs, hm, hm', hh, Nat.not_le.2 (Nat.lt_of_succ_lt_succ hh), Nat.not_lt.1 hf, Nat.not_lt.1 hs]
    · simp [tcInc, hf, hs, hm, hm', hh, Nat.le_of_succ_le_succ (Nat.not_lt.1 hh), Nat.not_lt.1 hf, Nat.not_lt.1 hs]

theorem tcDec_eq_relabel (t : TC64) (r : BitVec 3) :
    tcDec t r = relabel t ((tcLabel t).dec (fps r) (dfApplies t r)) := by
  rw [tcLabel, Label.dec]
  simp only [tcDec, Bool.and_eq_true, beq_iff_eq, bne_iff_ne, and_assoc, apply_ite (relabel t)]
  rfl

theorem tcLegal_iff (t : TC64) (r : BitVec 3) :
    tcLegal t r = true ↔ (t.getLsbD 23 = false ∧ t.extractLsb' 27 5 = 0) ∧
      (tcLabel t).Legal (fps r) (dfApplies t r) := by
  simp only [tcLegal, Bool.and_eq_true, Bool.not_eq_true', decide_eq_true_eq, beq_iff_eq, Bool.and_eq_false_imp]
  constructor
  · rintro ⟨⟨⟨⟨⟨⟨hf, hs⟩, hm⟩, hh⟩, h23⟩, h27⟩, hc⟩
    exact ⟨⟨h23, h27⟩, hf, hs, hm, hh, fun hd ⟨h0, h2, h10⟩ => h10 (bne_eq_false_iff_eq.1 (hc ⟨⟨hd, h0⟩, h2⟩))⟩
  · rintro ⟨⟨h23, h27⟩, hf, hs, hm, hh, hc⟩
    exact ⟨⟨⟨⟨⟨⟨hf, hs⟩, hm⟩, hh⟩, h23⟩, h27⟩, fun ⟨⟨hd, h0⟩, h2⟩ =>
      bne_eq_false_iff_eq.2 (not_not.1 fun h10 => hc hd ⟨h0, h2, h10⟩)⟩

theorem Label.Legal.fits {lim : Nat} {df : Bool} {l : Label} (h : l.Legal lim df) (hlim : lim ≤ 64) : l.Fits := by
  obtain ⟨hf, hs, hm, hh, -⟩ := h
  exact ⟨by omega, by omega, by omega, by omega⟩

section
variable {lim f s m n : Nat} {df : Bool} {l : Label}

/-! The four carries of R213. -/

theorem Label.inc_frames (df : Bool) (h : f + 1 < lim) : Label.inc lim df ⟨f, s, m, n⟩ = ⟨f + 1, s, m, n⟩ := if_pos h

theorem Label.inc_seconds (df : Bool) (hf : lim ≤ f + 1) (h : s + 1 < 60) :
    Label.inc lim df ⟨f, s, m, n⟩ = ⟨0, s + 1, m, n⟩ := by
  rw [Label.inc, if_neg (Nat.not_lt.2 hf), if_pos h]

theorem Label.inc_minutes (df : Bool) (hf : lim ≤ f + 1) (hs : 60 ≤ s + 1) (h : m + 1 < 60) :
    Label.inc lim df ⟨f, s, m, n⟩ = ⟨if df = true ∧ (m + 1) % 10 ≠ 0 then 2 else 0, 0, m + 1, n⟩ := by
  rw [Label.inc, if_neg (Nat.not_lt.2 hf), if_neg (Nat.not_lt.2 hs), if_pos h]

theorem Label.inc_hours (df : Bool) (hf : lim ≤ f + 1) (hs : 60 ≤ s + 1) (hm : 60 ≤ m + 1) :
    Label.inc lim df ⟨f, s, m, n⟩ = ⟨0, 0, 0, if n + 1 < 24 then n + 1 else 0⟩ := by
  rw [Label.inc, if_neg (Nat.not_lt.2 hf), if_neg (Nat.not_lt.2 hs), if_neg (Nat.not_lt.2 hm)]

theorem Label.Legal.inc (h : l.Legal lim df) (hlim : 2 < lim) : (l.inc lim df).Legal lim df := by
  obtain ⟨f, s, m, n⟩ := l
  obtain ⟨hf, hs, hm, hn, hc⟩ := h
  dsimp only at hf hs hm hn hc
  rcases Nat.lt_or_ge (f + 1) lim with h1 | h1
  · rw [Label.inc_frames df h1]
    exact ⟨h1, hs, hm, hn, fun hd ⟨h0, h2, h10⟩ => hc hd ⟨h0, Nat.lt_of_succ_lt h2, h10⟩⟩
  rcases Nat.lt_or_ge (s + 1) 60 with h2 | h2
  · rw [Label.inc_seconds df h1 h2]
    exact ⟨Nat.zero_lt_of_lt hlim, h2, hm, hn, fun _ ⟨h0, _⟩ => Nat.succ_ne_zero s h0⟩
  rcases Nat.lt_or_ge (m + 1) 60 with h3 | h3
  · rw [Label.inc_minutes df h1 h2 h3]
    split_ifs with hskip
    · exact ⟨hlim, Nat.succ_pos _, h3, hn, fun _ ⟨_, h2, _⟩ => Nat.lt_irrefl 2 h2⟩
    · exact ⟨Nat.zero_lt_of_lt hlim, Nat.succ_pos _, h3, hn, fun hd ⟨_, _, h10⟩ => hskip ⟨hd, h10⟩⟩
  · rw [Label.inc_hours df h1 h2 h3]
    refine ⟨Nat.zero_lt_of_lt hlim, Nat.succ_pos _, Nat.succ_pos _, ?_, fun _ ⟨_, _, h10⟩ => h10 rfl⟩
    dsimp only
    split_ifs with h4
    · exact h4
    · decide

theorem Label.Legal.dec (h : l.Legal lim df) (hlim : 2 < lim) : (l.dec lim df).Legal lim df := by
  obtain ⟨f, s, m, n⟩ := l
  obtain ⟨hf, hs, hm, hn, hc⟩ := h
  dsimp only at hf hs hm hn hc
  have hlast : lim - 1 < lim ∧ ¬ lim - 1 < 2 := by omega
  rw [Label.dec]
  dsimp only
  split_ifs with h1 h2 h3 h4 h5
  · exact ⟨hlast.1, Nat.lt_add_one 59, Nat.lt_of_le_of_lt (Nat.sub_le ..) hm, hn, fun _ ⟨_, h2, _⟩ => hlast.2 h2⟩
  · have hmin : min f lim = f := Nat.min_eq_left hf.le
    refine ⟨by dsimp only; omega, hs, hm, hn, fun hd ⟨h0, hlt, h10⟩ => ?_⟩
    dsimp only at h0 hlt h10
    obtain rfl | hlow : f = 2 ∨ f < 2 := by omega
    · exact h1 ⟨hd, rfl, h0, h10⟩
    · exact hc hd ⟨h0, hlow, h10⟩
  all_goals exact ⟨hlast.1, by dsimp only; omega, by dsimp only; omega, by dsimp only; omega,
    fun _ ⟨_, h2, _⟩ => hlast.2 h2⟩

/-- One frame on and one back: in each carry, the way back undoes it (R213, R214). -/
theorem Label.Legal.dec_inc (h : l.Legal lim df) (hlim : 2 < lim) : (l.inc lim df).dec lim df = l := by
  obtain ⟨f, s, m, n⟩ := l
  obtain ⟨hf, hs, hm, hn, hc⟩ := h
  dsimp only [Label.Skipped] at hf hs hm hn hc
  rcases Nat.lt_or_ge (f + 1) lim with h1 | h1
  · have hskip : ¬ (df = true ∧ f + 1 = 2 ∧ s = 0 ∧ m % 10 ≠ 0) :=
      fun ⟨hd, h2, h0, h10⟩ => hc hd ⟨h0, by omega, h10⟩
    rw [Label.inc_frames df h1, Label.dec, if_neg hskip, if_pos (Nat.succ_pos f), Nat.min_eq_left h1.le]
    rfl
  obtain rfl : lim = f + 1 := by omega
  rcases Nat.lt_or_ge (s + 1) 60 with h2 | h2
  · rw [Label.inc_seconds df h1 h2]
    simp [Label.dec, Nat.min_eq_left h2.le]
  obtain rfl : s = 59 := by omega
  rcases Nat.lt_or_ge (m + 1) 60 with h3 | h3
  · rw [Label.inc_minutes df h1 h2 h3]
    split_ifs with hskip
    · simp [Label.dec, hskip]
    · simp [Label.dec, Nat.min_eq_left h3.le]
  obtain rfl : m = 59 := by omega
  rw [Label.inc_hours df h1 h2 h3]
  split_ifs with h4
  · simp [Label.dec, Nat.min_eq_left h4.le]
  · obtain rfl : n = 23 := by omega
    simp [Label.dec]

/-- One frame back and one on: a label that is counted is where the way back starts again (R212 to R214). -/
theorem Label.Legal.inc_dec (h : l.Legal lim df) (hlim : 2 < lim) : (l.dec lim df).inc lim df = l := by
  obtain ⟨f, s, m, n⟩ := l
  obtain ⟨hf, hs, hm, hn, hc⟩ := h
  dsimp only [Label.Skipped] at hf hs hm hn hc
  rw [Label.dec]
  dsimp only
  split_ifs with h1 h2 h3 h4 h5
  · obtain ⟨hd, rfl, rfl, h10⟩ := h1
    have hback : m - 1 + 1 = m := by omega
    rw [Label.inc_minutes df (by omega) (by omega) (by omega), hback, if_pos ⟨hd, h10⟩]
  · have hback : min f lim - 1 + 1 = f := by omega
    rw [Label.inc_frames df (by omega), hback]
  · obtain rfl : f = 0 := by omega
    have hback : min s 60 - 1 + 1 = s := by omega
    rw [Label.inc_seconds df (by omega) (by omega), hback]
  · obtain rfl : f = 0 := by omega
    obtain rfl : s = 0 := by omega
    have hback : min m 60 - 1 + 1 = m := by omega
    have hcount : ¬ (df = true ∧ m % 10 ≠ 0) := fun ⟨hd, h10⟩ => hc hd ⟨rfl, by omega, h10⟩
    rw [Label.inc_minutes df (by omega) (by omega) (by omega), hback, if_neg hcount]
  all_goals
    obtain rfl : f = 0 := by omega
    obtain rfl : s = 0 := by omega
    obtain rfl : m = 0 := by omega
    rw [Label.inc_hours df (by omega) (by omega) (by omega)]
  · have hback : min n 24 - 1 + 1 = n := by omega
    rw [hback, if_pos hn]
  · obtain rfl : n = 0 := by omega
    rfl

end

/-- One frame either way keeps the bits beside the label, so legality and the inverse law are the label's. -/
theorem tcInc_of_legal {t : TC64} {r : BitVec 3} (h : tcLegal t r = true) :
    tcDec (tcInc t r) r = t ∧ tcLegal (tcInc t r) r = true := by
  obtain ⟨hflags, hl⟩ := (tcLegal_iff t r).1 h
  have hfps := fps_bounds r
  have hi := hl.inc (by omega)
  have hlabel := tcLabel_relabel t (hi.fits (by omega))
  rw [tcInc_eq_relabel, tcDec_eq_relabel, tcLegal_iff, hlabel, dfApplies_relabel, relabel_relabel,
    hl.dec_inc (by omega), relabel_tcLabel, getLsbD_relabel _ _ (by decide), extractLsb'_relabel]
  exact ⟨rfl, hflags, hi⟩

theorem tcDec_of_legal {t : TC64} {r : BitVec 3} (h : tcLegal t r = true) :
    tcInc (tcDec t r) r = t ∧ tcLegal (tcDec t r) r = true := by
  obtain ⟨hflags, hl⟩ := (tcLegal_iff t r).1 h
  have hfps := fps_bounds r
  have hd := hl.dec (by omega)
  have hlabel := tcLabel_relabel t (hd.fits (by omega))
  rw [tcDec_eq_relabel, tcInc_eq_relabel, tcLegal_iff, hlabel, dfApplies_relabel, relabel_relabel,
    hl.inc_dec (by omega), relabel_tcLabel, getLsbD_relabel _ _ (by decide), extractLsb'_relabel]
  exact ⟨rfl, hflags, hd⟩

/-- Settles O49: `tcInc` and `tcDec` are counting on labels, and legal labels count forth and back. -/
theorem timecodeSteps : Obligations.TimecodeSteps := by
  refine ⟨fun t r lim f s m h df hlim hdf hf hs hm hh => ?carries, fun t r hl => ?inverse⟩
  case inverse =>
    obtain ⟨hback, hkeep⟩ := tcInc_of_legal hl
    obtain ⟨hforth, hkeep'⟩ := tcDec_of_legal hl
    exact ⟨hback, hforth, hkeep, hkeep'⟩
  case carries =>
    have hlabel : tcLabel t = ⟨f, s, m, h⟩ := by rw [hf, hs, hm, hh]; rfl
    have hinc := tcInc_eq_relabel t r
    rw [hlabel, fps_eq, ← hlim, show dfApplies t r = df from hdf.symm] at hinc
    rcases Nat.lt_or_ge (f + 1) lim with h1 | h1
    · rw [Label.inc_frames df h1] at hinc
      exact ⟨_, _, _, _, hinc, fun _ => ⟨rfl, rfl, rfl, rfl⟩, by omega, by omega, by omega⟩
    rcases Nat.lt_or_ge (s + 1) 60 with h2 | h2
    · rw [Label.inc_seconds df h1 h2] at hinc
      exact ⟨_, _, _, _, hinc, by omega, fun _ _ => ⟨rfl, rfl, rfl, rfl⟩, by omega, by omega⟩
    rcases Nat.lt_or_ge (m + 1) 60 with h3 | h3
    · rw [Label.inc_minutes df h1 h2 h3] at hinc
      exact ⟨_, _, _, _, hinc, by omega, by omega, fun _ _ _ => ⟨rfl, rfl, rfl, rfl⟩, by omega⟩
    · rw [Label.inc_hours df h1 h2 h3] at hinc
      exact ⟨_, _, _, _, hinc, by omega, by omega, by omega, fun _ _ _ => ⟨rfl, rfl, rfl, rfl⟩⟩

end Sys2Proof.Machine

/-! SUPPORT. GENSET and TCQUERY (44_session_commands.md R292, R295) and the steps of the frame clock
(42_frame_clock.md R217 to R230), each as the update it makes. -/

namespace Sys2Proof.Machine

/-! ### GENSET (R216, R292) -/

theorem dfApplies_iff (t : TC64) (r : BitVec 3) :
    dfApplies t r = true ↔ t.getLsbD 24 = true ∧ (r = 3 ∨ r = 6) := by
  simp [dfApplies, tcDf]

/-- The generator's form of a value: F2 and VALID cleared at once (R292). -/
theorem tcClearFlags_eq (v : TC64) : tcClearValid (tcClearF2 v) = v &&& ~~~0x06000000 := by
  rw [tcClearValid, tcClearF2, BitVec.and_assoc]
  rfl

theorem tcWire_clearFlags (v : TC64) : tcWire (v &&& ~~~0x06000000) = v &&& ~~~0x06000000 := by
  rw [tcWire, tcClearF2, BitVec.and_assoc]
  rfl

theorem tcSame_iff (r g : TC64) :
    tcSame r g = true ↔ r.extractLsb' 0 23 = g.extractLsb' 0 23 ∧ r.getLsbD 24 = g.getLsbD 24 ∧
      r.extractLsb' 32 32 = g.extractLsb' 32 32 := by
  simp only [tcSame, tcDf, hi32, Bool.and_eq_true, beq_iff_eq, and_assoc]

/-- The external generator reads back as the value: the time, DF and the user bits agree (R292). -/
def State.ReadsBack (s : State) (g : TC64) : Prop := ∃ r, s.callReadGenerator.1 = some r ∧ tcSame r g = true

/-- The external generator's part of GENSET: nothing when none is attached, otherwise a read-back, and a write unless
it reads back as the value (R292). -/
theorem State.pushExternal_spec (s : State) (g : TC64) :
    ∃ e, s.pushExternal g = s.withEnv e ∧ (s.cfg.extGen = false → e = s.env) ∧
      (s.cfg.extGen = true →
        (s.ReadsBack g → e.trace = s.env.trace ++ [.extReadGenerator]) ∧
        (¬ s.ReadsBack g → e.trace = s.env.trace ++ [.extReadGenerator, .extWrite (tcWire g)])) := by
  have hpair : ∀ (l : List Output) (o o' : Output), l ++ [o] ++ [o'] = l ++ [o, o'] := fun l o o' => by simp
  rw [State.pushExternal]
  split
  next hext =>
    dsimp only
    split
    next hnone =>
      exact ⟨_, rfl, by simp [hext], fun _ =>
        ⟨fun ⟨r, hr, _⟩ => by simp [hnone] at hr, fun _ => hpair ..⟩⟩
    next r hr =>
      split
      next hsame => exact ⟨_, rfl, by simp [hext], fun _ => ⟨fun _ => rfl, fun hno => absurd ⟨r, hr, hsame⟩ hno⟩⟩
      next hdiff =>
        refine ⟨_, rfl, by simp [hext], fun _ => ⟨fun ⟨r', hr', hsame⟩ => ?_, fun _ => hpair ..⟩⟩
        cases hr.symm.trans hr'
        exact absurd hsame hdiff
  next hext => exact ⟨s.env, rfl, fun _ => rfl, fun h => absurd h hext⟩

/-- GENSET tells both wire writers (R292). -/
theorem State.setGenerator_env (s : State) (g : TC64) :
    (s.setGenerator g).env =
      { s.env with trace := s.env.trace ++ [.wireW1 (tcWire g), .wireW2 (tcWire g)] } := by
  simp only [State.setGenerator, State.emit, State.withEnv, List.append_assoc, List.singleton_append]

theorem execGenset_of_legal {b : BankId} {s : State} (h : tcLegal (s.bank b).arg0 s.tickRate = true) {g : TC64}
    (hg : g = (s.bank b).arg0 &&& ~~~0x06000000) :
    exec (.genset b) s = .next (((s.setGenerator g).pushExternal g).finish b .ok) := by
  rw [hg, ← tcClearFlags_eq]
  exact if_pos h

/-- Settles O21: the fields of `tcLegal_iff`, and the two ways `pushExternal` goes. -/
theorem gensetWritesGenerator : Obligations.GensetWritesGenerator := by
  refine ⟨fun v r => ?legal, fun b s => ⟨fun hl => ⟨_, if_neg (by simp [hl]), onlyBankBecomes_finish ..⟩,
    fun hl => ?set⟩⟩
  case legal =>
    have hsec : tcSeconds v = 0 ↔ v.extractLsb' 6 6 = 0 := BitVec.toNat_inj (y := 0)
    rw [tcLegal_iff, ← fps_eq, ← dfApplies_iff, ← hsec]
    constructor
    · rintro ⟨⟨h23, h27⟩, hf, hs, hm, hh, hc⟩
      exact ⟨hf, hs, hm, hh, h23, h27, fun ⟨hd, hskip⟩ => hc hd hskip⟩
    · rintro ⟨hf, hs, hm, hh, h23, h27, hc⟩
      exact ⟨⟨h23, h27⟩, hf, hs, hm, hh, fun hd hskip => hc ⟨hd, hskip⟩⟩
  case set =>
    obtain ⟨g, hg⟩ : ∃ g, g = (s.bank b).arg0 &&& ~~~0x06000000 := ⟨_, rfl⟩
    have hw : tcWire g = g := by rw [hg, tcWire_clearFlags]
    have hset := s.setGenerator_env g
    obtain ⟨e, hpush, habsent, hattached⟩ := (s.setGenerator g).pushExternal_spec g
    have hexec := execGenset_of_legal hl hg
    rw [hpush] at hexec
    rw [hset, hw] at habsent hattached
    have hback : (s.setGenerator g).ReadsBack g ↔ ∃ r, s.callReadGenerator.1 = some r ∧
        r.extractLsb' 0 23 = g.extractLsb' 0 23 ∧ r.getLsbD 24 = g.getLsbD 24 ∧
        r.extractLsb' 32 32 = g.extractLsb' 32 32 := by
      simp only [← tcSame_iff]
      rfl
    refine ⟨_, g, hg, hexec, bankBecomes_finish rfl b _, rfl, .refl s, habsent, fun hext => ⟨fun h => ?_, fun h => ?_⟩⟩
    · exact ((hattached hext).1 (hback.2 h)).trans (List.append_assoc ..)
    · exact ((hattached hext).2 fun hr => (hback.1 hr).elim fun r hr => h r hr.1 hr.2).trans (List.append_assoc ..)

/-! ### TCQUERY (R233, R295) -/

theorem State.queryExternal_of_absent {s : State} (b : BankId) (h : s.cfg.extGen = false) :
    s.queryExternal b = s.finish b .invalid := by
  simp [State.queryExternal, State.readExternal, h]

theorem State.queryExternal_of_error {s : State} (b : BankId) (h : s.cfg.extGen = true)
    (ha : s.callReadExternal.1 = none) : s.queryExternal b = s.callReadExternal.2.finish b .deverr := by
  simp only [State.queryExternal, State.readExternal, if_pos h, ha, Reading.ofAnswer]

theorem State.queryExternal_of_answer {s : State} (b : BankId) (h : s.cfg.extGen = true) {v : TC64}
    (ha : s.callReadExternal.1 = some v) :
    s.queryExternal b = s.callReadExternal.2.finishRes0 b (v ||| 0x04000000) := by
  simp only [State.queryExternal, State.readExternal, if_pos h, ha, Reading.ofAnswer]
  rfl

theorem State.queryGenerator_of_absent {s : State} (b : BankId) (h : s.cfg.extGen = false) :
    s.queryGenerator b = s.finish b .invalid := by
  simp [State.queryGenerator, State.readGenerator, h]

theorem State.queryGenerator_of_error {s : State} (b : BankId) (h : s.cfg.extGen = true)
    (ha : s.callReadGenerator.1 = none) : s.queryGenerator b = s.callReadGenerator.2.finish b .deverr := by
  simp only [State.queryGenerator, State.readGenerator, if_pos h, ha, Reading.ofAnswer]

theorem State.queryGenerator_of_answer {s : State} (b : BankId) (h : s.cfg.extGen = true) {v : TC64}
    (ha : s.callReadGenerator.1 = some v) :
    s.queryGenerator b = State.finishRes0
      { s.callReadGenerator.2 with tcCache := { s.tcCache with extGen := v ||| 0x04000000 } } b
      (v ||| 0x04000000) := by
  simp only [State.queryGenerator, State.readGenerator, if_pos h, ha, Reading.ofAnswer]
  rfl

theorem execTcquery_of_other {b : BankId} {src : BitVec 3} (h : 5 ≤ src.toNat) (s : State) :
    exec (.tcquery b src) s = .next (s.finish b .invalid) := by
  rw [exec, execTcquery]
  split
  case h_6 => rfl
  all_goals omega

/-- Settles O22: one clause per source code. -/
theorem tcqueryReadsSource : Obligations.TcqueryReadsSource := by
  intro b s
  refine ⟨⟨_, rfl, onlyBankBecomes_finishRes0 ..⟩,
    ⟨_, _, rfl, rfl, bankBecomes_finishRes0 rfl b _, rfl, rfl, .refl s⟩,
    ⟨_, _, rfl, rfl, bankBecomes_finishRes0 rfl b _, rfl, rfl, .refl s⟩, ⟨s.queryExternal b, rfl, ?ext⟩,
    ⟨s.queryGenerator b, rfl, ?gen⟩, fun src hsrc => ⟨_, execTcquery_of_other hsrc s, onlyBankBecomes_finish ..⟩⟩
  case ext =>
    cases h : s.cfg.extGen
    · rw [State.queryExternal_of_absent b h]
      exact ⟨.refl s, fun _ => onlyBankBecomes_finish .., nofun⟩
    cases ha : s.callReadExternal.1 with
    | none =>
      rw [State.queryExternal_of_error b h ha]
      exact ⟨.refl s, nofun, fun _ => ⟨rfl, rfl, fun _ => bankBecomes_finish rfl b _, nofun⟩⟩
    | some v =>
      rw [State.queryExternal_of_answer b h ha]
      refine ⟨.refl s, nofun, fun _ => ⟨rfl, rfl, nofun, fun w hw => ?_⟩⟩
      cases hw
      exact bankBecomes_finishRes0 rfl b _
  case gen =>
    cases h : s.cfg.extGen
    · rw [State.queryGenerator_of_absent b h]
      exact ⟨.refl s, fun _ => onlyBankBecomes_finish .., nofun⟩
    cases ha : s.callReadGenerator.1 with
    | none =>
      rw [State.queryGenerator_of_error b h ha]
      exact ⟨.refl s, nofun, fun _ => ⟨rfl, rfl, fun _ => ⟨rfl, bankBecomes_finish rfl b _⟩, nofun⟩⟩
    | some v =>
      rw [State.queryGenerator_of_answer b h ha]
      refine ⟨.refl s, nofun, fun _ => ⟨rfl, rfl, nofun, fun w hw => ?_⟩⟩
      cases hw
      exact ⟨rfl, bankBecomes_finishRes0 rfl b _⟩

end Sys2Proof.Machine

/-! SUPPORT. The steps of the frame clock (42_frame_clock.md R217 to R230), each as the update it makes. -/

namespace Sys2Proof.Machine

/-- Settles O37: the source is taken out of the pass, and FIELD is drawn once. -/
theorem outvertSelectsField : Obligations.OutvertSelectsField := fun s => ⟨_, rfl, rfl, rfl, .refl s⟩

/-! ### The boundary (R220) -/

theorem RunCtl.trigger_eq (r : RunCtl) (frame : U64) {fired : Bool}
    (h : fired = true ↔ r.trigArmed = true ∧ r.trigId = frame) :
    r.trigger frame = { r with running := r.running || fired, trigArmed := r.trigArmed && !fired } := by
  rw [RunCtl.trigger]
  cases fired
  · have hno : ¬ (r.trigArmed && r.trigId == frame) = true := by simpa using h
    simp [hno]
  · have hyes : (r.trigArmed && r.trigId == frame) = true := by simpa using h
    simp [hyes]

/-- Settles O39: the trigger by `RunCtl.trigger_eq`, then one case per request. -/
theorem fieldOneBoundary : Obligations.FieldOneBoundary := by
  intro s rest fired h hpc hfired
  refine ⟨_, step_phase h hpc, ?frame, fun b => State.bank_wakeAll .., .refl s⟩
  have hrun : (s.run.trigger s.frameId).applyReq = _ := congrArg RunCtl.applyReq (s.run.trigger_eq s.frameId hfired)
  have hphase : (s.leaving rest).f1Phase .boundary = { s.leaving rest with
      pc := .f1 .snapshot
      banks := ((s.leaving rest).f1Phase .boundary).banks
      run := (s.run.trigger s.frameId).applyReq
      session := { s.session with valid := s.session.valid && !s.run.closes } } := rfl
  refine hphase.trans ?_
  rw [hrun, RunCtl.applyReq, RunCtl.closes]
  cases hreq : s.run.req <;> rfl

/-! ### Clock, snapshot and field 2 (R211, R218 to R221, R230) -/

/-- RATE is drawn once into `tick_rate`; the reserved code raises U8 and nothing else happens (R210, R211). -/
theorem State.sampleRate_eq (s : State) :
    s.sampleRate = { s with tickRate := s.inRate.1, faults := s.sampleRate.faults, env := s.inRate.2.env } ∧
      (s.inRate.1 = 7 → FaultAdded (.u8 s.frameId 7) s s.sampleRate) ∧
      (s.inRate.1 ≠ 7 → s.sampleRate.faults = s.faults) := by
  rw [State.sampleRate]
  dsimp only
  split
  next h =>
    exact ⟨rfl, fun _ => faultAdded_of_faults (by rw [h]; rfl), fun hne => absurd h hne⟩
  next h => exact ⟨rfl, fun h7 => absurd h7 h, fun _ => rfl⟩

theorem step_field2 {s : State} {rest : List Event} (h : Scheduled .ids rest s) (hp : s.pc = .f2) :
    step s = .next (s.leaving rest).f2Phase := by
  rw [step_ids h, State.idsStep]
  simp [State.leaving, hp]

/-- After the rate, the field-2 step sets F2 of a running generator and ends the tick (R230). -/
theorem State.f2Phase_eq (s : State) :
    s.f2Phase = { s with
      pc := passGoes s.passSet
      tickRate := s.inRate.1
      gen := if s.genRunning = true then s.gen ||| 0x02000000 else s.gen
      faults := s.sampleRate.faults
      env := s.inRate.2.env } := by
  rw [State.f2Phase, s.sampleRate_eq.1]
  dsimp only
  split <;> rfl

theorem FaultAdded.congr {f : ModelFault} {s s' t t' : State} (h : FaultAdded f s t) (hs : s'.faults = s.faults)
    (ht : t'.faults = t.faults) : FaultAdded f s' t' := fun g => by rw [hs, ht, h g]

/-- The three draws of a snapshot change the environment record only (R11). -/
theorem State.snapshotDraws_eq (s : State) :
    s.inLine.2.inTick.2.inHostTs.2 = s.withEnv s.inLine.2.inTick.2.inHostTs.2.env := by
  simp only [State.inHostTs_snd, State.inTick_snd, State.inLine_snd]
  rfl

theorem State.stepSnapshot_eq (s : State) :
    s.stepSnapshot = { s with
      curFrame := ⟨s.inLine.1, false, s.inLine.2.inTick.1, s.inLine.2.inTick.2.inHostTs.1⟩
      env := s.inLine.2.inTick.2.inHostTs.2.env } := by
  rw [State.stepSnapshot, s.snapshotDraws_eq]
  rfl

/-- Settles O40: the rate by `State.sampleRate_eq`, the other steps as they stand. -/
theorem clockSteps : Obligations.ClockSteps := by
  intro s u rest h hu
  refine ⟨fun hpc => ?frameId, fun hpc => hu ▸ step_phase h hpc, fun hpc => ?snapshot, fun hpc => ?field2⟩
  case frameId =>
    obtain ⟨heq, h7, hne⟩ := State.sampleRate_eq { u with frameId := s.frameId + 1 }
    subst hu
    exact ⟨_, step_phase h hpc, congrArg (State.goto · .generator) heq, fun h => (h7 h).congr rfl rfl, hne⟩
  case snapshot =>
    rw [step_phase h hpc, ← hu, State.f1Phase, State.stepSnapshot_eq]
    rfl
  case field2 =>
    obtain ⟨-, h7, hne⟩ := u.sampleRate_eq
    have hstep := step_field2 h hpc
    rw [← hu, State.f2Phase_eq] at hstep
    subst hu
    exact ⟨_, hstep, rfl, fun h => (h7 h).congr rfl rfl, hne⟩

/-! ### Outputs and the end of the tick (R215, R224 to R229) -/

theorem State.emit_emit (s : State) (o o' : Output) :
    (s.emit o).emit o' = s.withEnv { s.env with trace := s.env.trace ++ [o, o'] } := by
  simp only [State.emit, State.withEnv, List.append_assoc, List.singleton_append]

theorem State.syncTick_iff (s : State) :
    s.syncTick = true ↔
      s.cfg.extGen = true ∧ (¬ (s.tickRate = 5 ∨ s.tickRate = 6) ∨ s.frameId.toNat % 2 = 0) := by
  rw [State.syncTick, ← highRate_iff]
  simp only [Bool.and_eq_true, Bool.or_eq_true, Bool.not_eq_true', decide_eq_true_eq, Bool.not_eq_true]

/-- A tick that qualifies writes the external generator and pulses its synchronisation line (R225). -/
theorem State.stepExtSync_eq (s : State) :
    s.stepExtSync = s.withEnv { s.env with trace := s.env.trace ++
      if s.cfg.extGen = true ∧ (¬ (s.tickRate = 5 ∨ s.tickRate = 6) ∨ s.frameId.toNat % 2 = 0) then
        [.extWrite (tcWire s.gen), .extSync true, .extSync false]
      else [] } := by
  simp only [State.stepExtSync, s.syncTick_iff]
  split
  · simp only [State.emit, State.withEnv, List.append_assoc, List.cons_append, List.nil_append]
  · simp only [List.append_nil]
    rfl

/-- The audio countdown: at 0 it stops the audio and is disarmed, before that it starts the audio (R228). -/
theorem State.stepAudio_eq (s : State) {n : U32} (hn : n = if s.audio.count = 0 then 0 else s.audio.count - 1) :
    s.stepAudio = { s with
      audio :=
        if s.audio.armed = false then s.audio
        else if n = 0 then { s.audio with count := 0, running := false, armed := false }
        else { s.audio with count := n, running := true }
      env := { s.env with trace := s.env.trace ++
        if s.audio.armed = false then []
        else if n = 0 then [.audioStop]
        else if s.audio.running = true then []
        else [.audioStart] } } := by
  have hcount : (if s.audio.count = 0 then s.audio.count else s.audio.count - 1) = n := by
    rw [hn]
    split
    next h => exact h
    next => rfl
  rw [State.stepAudio]
  simp only [hcount]
  cases harm : s.audio.armed
  · simp
  rcases eq_or_ne n 0 with rfl | h0
  · simp [State.emit, State.withEnv]
  cases hrunning : s.audio.running
  · simp only [if_neg h0, State.emit, State.withEnv, Bool.false_eq_true, reduceCtorEq, reduceIte]
  · simp only [if_neg h0, reduceCtorEq, reduceIte, List.append_nil]

/-- Settles O42: each step as the update it makes. -/
theorem tickOutputSteps : Obligations.TickOutputSteps := by
  intro s u rest cur nxt h hu hcur hnxt
  subst hu hcur hnxt
  refine ⟨fun hpc => ?push, fun hpc => ?sync, fun hpc => step_phase h hpc, fun hpc => ?wake, fun n hpc hn => ?audio⟩
  case push =>
    rw [step_phase h hpc, State.f1Phase, State.stepWirePush, State.emit_emit]
    rfl
  case sync =>
    rw [step_phase h hpc, State.f1Phase, State.stepExtSync_eq]
    rfl
  case wake => exact ⟨_, step_phase h hpc, rfl, fun b => State.bank_wakeAll ..⟩
  case audio =>
    rw [step_phase h hpc, State.f1Phase, (s.leaving rest).stepAudio_eq hn]
    rfl

end Sys2Proof.Machine

/-! SUPPORT. The stream service of F1(6) (42_frame_clock.md R223) and the playback tick (43_stream_pacing.md R250,
R252, R255 to R259): the discards and the service of each channel, each said once. -/

namespace Sys2Proof.Machine

/-! ### The service and its drops (R223, R252, R255, R260) -/

theorem State.audioTrigger_eq (s : State) :
    s.audioTrigger = { s with
      audio := if s.audio.trigPending = true then { s.audio with running := true, trigPending := false } else s.audio
      env := { s.env with
        trace := s.env.trace ++ if s.audio.trigPending = true then [.audioStart] else [] } } := by
  rw [State.audioTrigger]
  split
  · rfl
  · simp only [List.append_nil]

/-- The drop record after `n` drops in one frame (R252). -/
def DropRec.after (d : DropRec) (n : Nat) (frame : U64) (tc : TC64) : DropRec :=
  if n = 0 then d else ⟨d.count + BitVec.ofNat 64 n, frame, tc⟩

theorem DropRec.after_after (d : DropRec) (m n : Nat) (frame : U64) (tc : TC64) :
    (d.after m frame tc).after n frame tc = d.after (m + n) frame tc := by
  unfold DropRec.after
  rcases Nat.eq_zero_or_pos m with rfl | hm
  · simp
  rcases Nat.eq_zero_or_pos n with rfl | hn
  · simp
  · rw [if_neg hm.ne', if_neg hn.ne', if_neg (by omega), BitVec.add_assoc, BitVec.ofNat_add]

theorem State.playbackTick_of_not_flag {s : State} (h : s.session.flagPb = false) : s.playbackTick = s := by
  rw [State.playbackTick, if_pos (by simp [h])]

theorem State.playbackTick_of_short {s : State} (h : s.session.flagPb = true)
    (hlow : s.pool.depth.toNat < s.session.nch.toNat) : s.playbackTick = s.recordDrop := by
  rw [State.playbackTick, if_neg (by simp [h]), if_pos hlow]

/-- A playback tick that fails its guard, if playback is enabled at all, records a drop and nothing else (R255). -/
theorem State.playbackTick_of_guard {s : State}
    (h : s.session.flagPb = true → s.pool.depth.toNat < s.session.nch.toNat) :
    s.playbackTick = { s with drops := s.drops.after s.session.flagPb.toNat s.frameId s.gen } := by
  cases hp : s.session.flagPb
  · exact State.playbackTick_of_not_flag hp
  · exact State.playbackTick_of_short hp (h hp)

/-- The same of a capture tick (R260). -/
theorem State.captureTick_of_guard {s : State}
    (h : s.session.flagCap = true → s.session.poolSize.toNat - s.pool.depth.toNat ≤ s.session.nch.toNat) :
    s.captureTick = { s with drops := s.drops.after s.session.flagCap.toNat s.frameId s.gen } := by
  obtain ⟨hidle, hdrop, -⟩ := Sys2Proof.Machine.captureTick
  cases hc : s.session.flagCap
  · exact hidle s hc
  · exact hdrop s hc (h hc)

/-- When both guards fail, the two ticks record a drop for each enabled direction. -/
theorem State.ticks_of_guards {s : State}
    (hpb : s.session.flagPb = true → s.pool.depth.toNat < s.session.nch.toNat)
    (hcap : s.session.flagCap = true → s.session.poolSize.toNat - s.pool.depth.toNat ≤ s.session.nch.toNat) :
    s.playbackTick.captureTick = { s with
      drops := s.drops.after (s.session.flagPb.toNat + s.session.flagCap.toNat) s.frameId s.gen } := by
  rw [State.playbackTick_of_guard hpb, ← DropRec.after_after]
  exact State.captureTick_of_guard hcap

theorem State.stepService_of_running {s : State} (hrun : s.run.running = true) (hvalid : s.session.valid = true) :
    s.stepService = s.audioTrigger.playbackTick.captureTick := if_pos (by rw [hrun, hvalid]; rfl)

/-- Settles O45: the audio trigger, then `State.ticks_of_guards`. -/
theorem dropAccounting : Obligations.DropAccounting := by
  intro s rest h hpc hrun hvalid hpb hcap
  have hservice := State.stepService_of_running (s := s.leaving rest) hrun hvalid
  rw [State.audioTrigger_eq] at hservice
  replace hservice := hservice.trans (State.ticks_of_guards hpb hcap)
  have hstep := step_phase h hpc
  rw [State.f1Phase, hservice] at hstep
  refine ⟨_, hstep, rfl, ?_, rfl, rfl⟩
  show s.drops.after (s.session.flagPb.toNat + s.session.flagCap.toNat) s.frameId s.gen = _
  cases s.session.flagPb <;> cases s.session.flagCap <;> rfl

end Sys2Proof.Machine

/-! SUPPORT. The playback tick (43_stream_pacing.md R256 to R259): what the discards and each channel's service take
off the ready-FIFO, and what they write. -/

namespace Sys2Proof.Machine

/-! ### Taking a slot off the FIFO (R184) -/

/-- The state after the slot i at the head of the FIFO i :: q is taken. -/
def State.taken (s : State) (i : SlotIx) (q : List SlotIx) : State :=
  (s.setFifo q (s.pool.depth - 1)).setSlot i .inuse

theorem State.deqSlot_of_cons {s : State} {i : SlotIx} {q : List SlotIx} (h : s.pool.fifo = i :: q) :
    s.deqSlot = (some i, s.taken i q) := by
  rw [State.deqSlot, h]
  rfl

theorem State.deqSlot_of_nil {s : State} (h : s.pool.fifo = []) : s.deqSlot = (none, s) := by
  rw [State.deqSlot, h]

theorem State.slotState_taken (s : State) (i j : SlotIx) (q : List SlotIx) :
    (s.taken i q).slotState j = if j = i then .inuse else s.slotState j :=
  State.slotState_setSlot ..

/-- A slot just taken is INUSE, so freeing it succeeds (R182). -/
theorem State.freeSlot_taken (s : State) (i : SlotIx) (q : List SlotIx) :
    (s.taken i q).freeSlot i = (s.taken i q).setSlot i .free :=
  if_neg (by simp [State.slotState_taken])

theorem State.tagMismatch_taken (s : State) (i : SlotIx) (q : List SlotIx) :
    (s.taken i q).tagMismatch i = { (s.taken i q).setSlot i .free with
      counters := { s.counters with tagerr := s.counters.tagerr + 1 } } :=
  if_neg (by
    show (s.taken i q).slotState i ≠ .queued
    simp [State.slotState_taken])

theorem State.discard_of_cons {s : State} {i : SlotIx} {q : List SlotIx} (h : s.pool.fifo = i :: q) (k : Nat) :
    State.discard (k + 1) s = State.discard k ((s.taken i q).setSlot i .free) := by
  rw [State.discard, State.deqSlot_of_cons h, ← State.freeSlot_taken]

theorem State.discard_of_nil {s : State} (h : s.pool.fifo = []) (k : Nat) : State.discard k s = s := by
  cases k with
  | zero => rfl
  | succ k => rw [State.discard, State.deqSlot_of_nil h]

/-- One channel's service (R258): the head of the FIFO is shown if its tag is the channel's, and refused otherwise. -/
theorem State.servicePlayback_of_cons {s : State} {i : SlotIx} {q : List SlotIx} (h : s.pool.fifo = i :: q)
    (c : VidChan) (cs : List VidChan) (i0 : Option SlotIx) :
    State.servicePlayback (c :: cs) i0 s =
      if (s.metaOf i).chtag = BitVec.ofNat 32 c.val then
        State.servicePlayback cs (if c = 0 then some i else i0) ((s.taken i q).display c i)
      else (s.taken i q).tagMismatch i := by
  rw [State.servicePlayback, State.deqSlot_of_cons h]
  rfl

theorem State.servicePlayback_of_nil {s : State} (h : s.pool.fifo = []) (c : VidChan) (cs : List VidChan)
    (i0 : Option SlotIx) : State.servicePlayback (c :: cs) i0 s = s := by
  rw [State.servicePlayback, State.deqSlot_of_nil h]

/-! ### What has left the FIFO (R257, R258) -/

theorem FifoBecomes.refl {s : State} (h : s.pool.depth.toNat = s.pool.fifo.length) :
    FifoBecomes [] s.pool.fifo s s :=
  ⟨rfl, h, fun i => by simp⟩

/-- A slot taken off the FIFO to be shown. -/
theorem FifoBecomes.take {shown q : List SlotIx} {i : SlotIx} {s t : State}
    (h : FifoBecomes shown (i :: q) s t) : FifoBecomes (shown ++ [i]) q s (t.taken i q) := by
  obtain ⟨-, hdepth, hslots⟩ := h
  refine ⟨rfl, ?_, fun j => ?_⟩
  · show (t.pool.depth - 1).toNat = q.length
    have hlt := t.pool.depth.isLt
    simp only [List.length_cons] at hdepth
    rw [BitVec.toNat_sub]
    simp
    omega
  · rw [State.slotState_taken]
    obtain rfl | hj := eq_or_ne j i
    · simp
    · simp [hslots, hj]

/-- A slot taken off the FIFO and freed at once. -/
theorem FifoBecomes.free {shown q : List SlotIx} {i : SlotIx} {s t : State}
    (h : FifoBecomes shown (i :: q) s t) (hi : i ∈ s.pool.fifo) (hq : i ∉ q) (hshown : i ∉ shown) :
    FifoBecomes shown q s ((t.taken i q).setSlot i .free) := by
  obtain ⟨hfifo, hdepth, hslots⟩ := h.take
  refine ⟨hfifo, hdepth, fun j => ?_⟩
  rw [State.slotState_setSlot]
  obtain rfl | hj := eq_or_ne j i
  · simp [hshown, hi, hq]
  · simp [hslots, hj]

/-- The discards free the slots at the head of the FIFO, and change nothing but the pool's slots and FIFO (R257). -/
theorem FifoBecomes.discard {s t : State} {q : List SlotIx} (h : FifoBecomes [] q s t) (hq : q <:+ s.pool.fifo)
    (hnodup : s.pool.fifo.Nodup) (k : Nat) : FifoBecomes [] (q.drop k) s (State.discard k t) := by
  induction k generalizing q t with
  | zero => exact h
  | succ k ih =>
    have hfifo : t.pool.fifo = q := h.1
    cases q with
    | nil => rwa [State.discard_of_nil hfifo, List.drop_nil]
    | cons i q =>
      rw [State.discard_of_cons hfifo, List.drop_succ_cons]
      have hi := (List.nodup_cons.1 (hnodup.sublist hq.sublist)).1
      exact ih (h.free (hq.subset List.mem_cons_self) hi List.not_mem_nil) ((List.suffix_cons i q).trans hq)

/-! ### What the service writes (R257 to R259) -/

/-- From `s` to `t` a playback tick that has paced has written only the pool, the output selects, the slots last
shown, the generator and the counters. -/
def PlaybackWrites (s t : State) : Prop :=
  t = { s with pool := t.pool, outsel := t.outsel, lastPb := t.lastPb, gen := t.gen, counters := t.counters }

theorem PlaybackWrites.trans {s t u : State} (h : PlaybackWrites s t) (h' : PlaybackWrites t u) :
    PlaybackWrites s u :=
  Eq.trans h' (by rw [h])

/-- The discards change the pool only, and no record of it. -/
theorem State.discard_frame (s : State) (k : Nat) :
    State.discard k s = { s with pool := { (State.discard k s).pool with metas := s.pool.metas } } := by
  induction k generalizing s with
  | zero => rfl
  | succ k ih =>
    cases hfifo : s.pool.fifo with
    | nil => rw [State.discard_of_nil hfifo]
    | cons i q =>
      rw [State.discard_of_cons hfifo]
      exact (ih _).trans rfl

/-- Channel 0's override (R259): the record's VALID bit is cleared, and the generator adopts it if it was set. -/
theorem State.override_eq (s : State) (i : SlotIx) :
    s.override i = ({ s with
      gen := if (s.metaOf i).tc0.getLsbD 26 = true then (s.metaOf i).tc0 &&& ~~~0x06000000 else s.gen }).setMeta i
        { s.metaOf i with tc0 := (s.metaOf i).tc0 &&& ~~~0x04000000 } := by
  rw [State.override]
  cases hvalid : (s.metaOf i).tc0.getLsbD 26
  case true =>
    rw [if_pos (by exact hvalid), if_pos rfl]
    congr 2
    rw [tcClearF2, tcClearValid, BitVec.and_assoc]
    rfl
  case false =>
    have hkeep : (s.metaOf i).tc0 &&& ~~~0x04000000 = (s.metaOf i).tc0 := by
      generalize (s.metaOf i).tc0 = v at hvalid
      ext j hj
      have hbit : ∀ j < 64, (~~~(0x04000000 : TC64)).getLsbD j = decide (j ≠ 26) := by decide
      rw [← BitVec.getLsbD_eq_getElem, ← BitVec.getLsbD_eq_getElem, BitVec.getLsbD_and, hbit j hj]
      obtain rfl | hne := eq_or_ne j 26
      · rw [hvalid, Bool.false_and]
      · simp [hne]
    have hmetas : s.pool.metas.set i.val (s.metaOf i) = s.pool.metas := Vector.set_getElem_self ..
    rw [if_neg (by rw [tcValid, hvalid]; decide), if_neg (by decide), hkeep, State.setMeta, hmetas]

theorem playbackWrites_servicePlayback (cs : List VidChan) (i0 : Option SlotIx) (s : State) :
    PlaybackWrites s (State.servicePlayback cs i0 s) := by
  induction cs generalizing i0 s with
  | nil =>
    cases i0 with
    | none => exact rfl
    | some i =>
      rw [State.servicePlayback, State.override_eq]
      exact rfl
  | cons c cs ih =>
    cases hfifo : s.pool.fifo with
    | nil =>
      rw [State.servicePlayback_of_nil hfifo]
      exact rfl
    | cons i q =>
      rw [State.servicePlayback_of_cons hfifo]
      split
      · exact PlaybackWrites.trans (t := (s.taken i q).display c i) rfl (ih ..)
      · rw [State.tagMismatch_taken]
        exact rfl

/-! ### The tick (R255 to R259) -/

/-- What the pacing and the discards of a tick leave of `s`, with `q` still queued (R250, R257). -/
structure Discarded (p : Pacing) (q : List SlotIx) (s u : State) : Prop where
  fifo : FifoBecomes [] q s u
  metas : u.pool.metas = s.pool.metas
  outsel : u.outsel = s.outsel
  lastPb : u.lastPb = s.lastPb
  gen : u.gen = s.gen
  counters : u.counters = s.counters
  writes : PlaybackWrites { s with pacing := p } u

theorem discarded_discard {s : State} (h : PoolInv s) (p : Pacing) (k : Nat) :
    Discarded p (s.pool.fifo.drop k) s (State.discard k { s with pacing := p }) := by
  have hfifo := (FifoBecomes.refl h.depth_eq).discard (t := { s with pacing := p }) List.suffix_rfl h.nodup k
  have hframe := State.discard_frame { s with pacing := p } k
  generalize State.discard k { s with pacing := p } = u at hfifo hframe
  rw [hframe] at hfifo ⊢
  exact ⟨hfifo, rfl, rfl, rfl, rfl, rfl, rfl⟩

/-- With enough slots queued and a step count, the tick paces, discards, and serves its channels. -/
theorem State.playbackTick_of_steps {s : State} {n : Nat} {p : Pacing} (hinv : PoolInv s)
    (hpb : s.session.flagPb = true) (hroom : s.session.nch.toNat ≤ s.pool.fifo.length) (hpace : PaceGives s n p)
    (hn : 1 ≤ n) :
    ∃ u, Discarded p (s.pool.fifo.drop (min (n - 1) (s.pool.fifo.length - s.session.nch.toNat))) s u ∧
      s.playbackTick = State.servicePlayback (videoChannels s.session.nch) none u := by
  obtain ⟨hlt, hp⟩ := State.pace_of_paceGives hpace
  have hdepth := hinv.depth_eq
  have hnat : (BitVec.ofNat 64 n).toNat = n := by rw [BitVec.toNat_ofNat, Nat.mod_eq_of_lt hlt]
  have hne : BitVec.ofNat 64 n ≠ 0 := fun h => by
    rw [h] at hnat
    exact absurd (hnat ▸ hn) (by decide)
  refine ⟨_, discarded_discard hinv p _, ?_⟩
  rw [State.playbackTick, if_neg (by simp [hpb]), if_neg (by omega), hp]
  simp only [if_neg hne, discardCount, hnat, hdepth]

theorem State.playbackTick_of_hold {s : State} {p : Pacing} (hpb : s.session.flagPb = true)
    (hroom : s.session.nch.toNat ≤ s.pool.depth.toNat) (hpace : PaceGives s 0 p) :
    s.playbackTick = { s with pacing := p } := by
  obtain ⟨-, hp⟩ := State.pace_of_paceGives hpace
  rw [State.playbackTick, if_neg (by simp [hpb]), if_neg (by omega), hp]
  rfl

/-- A channel's tag does not match: what the refusal of a slot leaves of `u` (R258). -/
structure Refused (shown q : List SlotIx) (s u t : State) : Prop where
  fifo : FifoBecomes shown q s t
  metas : t.pool.metas = u.pool.metas
  outsel : t.outsel = u.outsel
  lastPb : t.lastPb = u.lastPb
  gen : t.gen = u.gen
  counters : t.counters = { u.counters with tagerr := u.counters.tagerr + 1 }

/-- Channel c shows slot i: what that leaves of `u` (R258). -/
structure Shows (c : VidChan) (i : SlotIx) (shown q : List SlotIx) (s u t : State) : Prop where
  fifo : FifoBecomes (shown ++ [i]) q s t
  metas : t.pool.metas = u.pool.metas
  outsel : ∀ c', t.outsel[c'] = if c' = c then BitVec.ofNat 16 i.val else u.outsel[c']
  lastPb : ∀ c', t.lastPb[c'] = if c' = c then some i else u.lastPb[c']
  gen : t.gen = u.gen
  counters : t.counters = u.counters

/-- The override after the last channel: what it makes of `u`, whose records and generator are those of `s` (R259). -/
structure Overridden (shown q : List SlotIx) (i : SlotIx) (s u t : State) : Prop where
  fifo : FifoBecomes shown q s t
  outsel : ∀ c : VidChan, t.outsel[c] = u.outsel[c]
  lastPb : ∀ c : VidChan, t.lastPb[c] = u.lastPb[c]
  counters : t.counters = u.counters
  gen : t.gen = if (s.metaOf i).tc0.getLsbD 26 = true then (s.metaOf i).tc0 &&& ~~~0x06000000 else s.gen
  record : MetaBecomes i { s.metaOf i with tc0 := (s.metaOf i).tc0 &&& ~~~0x04000000 } s t

theorem metaOf_of_metas {s t : State} (h : t.pool.metas = s.pool.metas) (x : SlotIx) : t.metaOf x = s.metaOf x := by
  rw [State.metaOf, h]
  rfl

theorem overridden_override {shown q : List SlotIx} {s u : State} (h : FifoBecomes shown q s u)
    (hmetas : u.pool.metas = s.pool.metas) (hgen : u.gen = s.gen) (i : SlotIx) :
    Overridden shown q i s u (u.override i) := by
  rw [State.override_eq, metaOf_of_metas hmetas, hgen]
  exact ⟨h, fun _ => rfl, fun _ => rfl, rfl, rfl, metaBecomes_of_metas (by rw [← hmetas]; rfl)⟩

/-- The first channel left refuses the slot at the head of the FIFO and the tick ends, or it shows the slot and the
others follow (R258). -/
theorem State.servicePlayback_cases {shown q : List SlotIx} {i : SlotIx} {s u : State}
    (h : FifoBecomes shown (i :: q) s u) (hsub : (i :: q).Sublist s.pool.fifo) (hnodup : s.pool.fifo.Nodup)
    (hshown : i ∉ shown) (c : VidChan) (cs : List VidChan) (i0 : Option SlotIx) :
    ((u.metaOf i).chtag ≠ BitVec.ofNat 32 c.val ∧ Refused shown q s u (State.servicePlayback (c :: cs) i0 u)) ∨
      (u.metaOf i).chtag = BitVec.ofNat 32 c.val ∧ ∃ v, Shows c i shown q s u v ∧
        State.servicePlayback (c :: cs) i0 u = State.servicePlayback cs (if c = 0 then some i else i0) v := by
  rw [State.servicePlayback_of_cons h.1]
  split
  case isTrue htag =>
    exact .inr ⟨htag, (u.taken i q).display c i, ⟨h.take, rfl, fun _ => getElem_set_fin ..,
      fun _ => getElem_set_fin .., rfl, rfl⟩, rfl⟩
  case isFalse htag =>
    rw [State.tagMismatch_taken]
    have hi := hsub.subset List.mem_cons_self
    exact .inl ⟨htag, h.free hi (List.nodup_cons.1 (hnodup.sublist hsub)).1 hshown, rfl, rfl, rfl, rfl, rfl⟩

/-- Settles O46: the discards, and then each channel in turn refuses or shows the head of the FIFO. -/
theorem playbackTick : Obligations.PlaybackTick := by
  refine ⟨fun s u rest h hpc hu => ?service, fun _ => State.playbackTick_of_not_flag,
    fun _ => State.playbackTick_of_short, fun s n p nch hinv hpb hnch hlo hhi hroom hpace => ⟨?hold, ?serve⟩⟩
  case service =>
    subst hu
    rw [step_phase h hpc, State.f1Phase, State.stepService]
    simp only [Bool.and_eq_true]
    rfl
  case hold =>
    rintro rfl
    exact State.playbackTick_of_hold hpb (by rw [hinv.depth_eq, ← hnch]; exact hroom) hpace
  case serve =>
    intro hn
    obtain ⟨cs, hcs, hchans⟩ := videoChannels_cases hnch hlo hhi
    obtain ⟨u, hu, ht⟩ := State.playbackTick_of_steps hinv hpb (hnch ▸ hroom) hpace hn
    rw [hchans] at ht
    refine ⟨_, ht, hu.writes.trans (playbackWrites_servicePlayback ..), fun i q hiq => ?_⟩
    rw [hnch] at hiq
    have hsub : (i :: q).Sublist s.pool.fifo := hiq ▸ List.drop_sublist ..
    have hfifo := hiq ▸ hu.fifo
    have hcases := State.servicePlayback_cases hfifo hsub hinv.nodup List.not_mem_nil 0 cs none
    rw [metaOf_of_metas hu.metas] at hcases
    obtain ⟨htag, hr⟩ | ⟨htag, v, hv, hnext⟩ := hcases
    · exact ⟨fun _ => ⟨hr.fifo, metaOf_of_metas (hr.metas.trans hu.metas), hr.outsel.trans hu.outsel,
        hr.lastPb.trans hu.lastPb, hr.gen.trans hu.gen, by rw [hr.counters, hu.counters]⟩, fun h => absurd h htag⟩
    refine ⟨fun h => absurd htag h, fun _ => ?_⟩
    rw [hnext, if_pos (show (0 : VidChan) = 0 from rfl)]
    have hvmetas := hv.metas.trans hu.metas
    have hvgen := hv.gen.trans hu.gen
    have hvcounters := hv.counters.trans hu.counters
    have hvout := (hv.outsel 1).trans (congrArg (·[1]) hu.outsel)
    have hvlast := (hv.lastPb 1).trans (congrArg (·[1]) hu.lastPb)
    obtain ⟨hone, rfl⟩ | ⟨htwo, rfl⟩ := hcs
    · have ho := overridden_override hv.fifo hvmetas hvgen i
      exact ⟨(ho.outsel 0).trans (hv.outsel 0), (ho.lastPb 0).trans (hv.lastPb 0),
        fun _ => ⟨ho.fifo, (ho.outsel 1).trans hvout, (ho.lastPb 1).trans hvlast, ho.counters.trans hvcounters⟩,
        fun _ _ htwo => absurd (hone.symm.trans htwo) (by decide), fun _ => ⟨ho.gen, ho.record⟩⟩
    have hone : nch ≠ 1 := by omega
    obtain ⟨j, q', rfl⟩ : ∃ j q', q = j :: q' := by
      have hlen := congrArg List.length hiq
      simp only [List.length_drop, List.length_cons] at hlen
      exact List.exists_cons_of_length_pos (by omega)
    have hji : j ∉ ([] ++ [i] : List SlotIx) := by
      have hnot := (List.nodup_cons.1 (hinv.nodup.sublist hsub)).1
      intro hmem
      exact hnot (List.mem_singleton.1 hmem ▸ List.mem_cons_self)
    have hcases := State.servicePlayback_cases hv.fifo ((List.sublist_cons_self ..).trans hsub) hinv.nodup hji 1 []
      (some i)
    rw [metaOf_of_metas hvmetas] at hcases
    obtain ⟨htag', hr⟩ | ⟨htag', w, hw, hnext⟩ := hcases
    · refine ⟨(congrArg (·[0]) hr.outsel).trans (hv.outsel 0), (congrArg (·[0]) hr.lastPb).trans (hv.lastPb 0),
        fun h => absurd h hone, ?_, ?_⟩
      · rintro _ _ - ⟨rfl, rfl⟩
        exact ⟨fun _ => ⟨hr.fifo, metaOf_of_metas (hr.metas.trans hvmetas), (congrArg (·[1]) hr.outsel).trans hvout,
          (congrArg (·[1]) hr.lastPb).trans hvlast, hr.gen.trans hvgen, by rw [hr.counters, hvcounters]⟩,
          fun h => absurd h htag'⟩
      · rintro (h | ⟨_, _, ⟨rfl, rfl⟩, h⟩)
        · exact absurd h hone
        · exact absurd h htag'
    · rw [hnext]
      have ho := overridden_override hw.fifo (hw.metas.trans hvmetas) (hw.gen.trans hvgen) i
      refine ⟨(ho.outsel 0).trans ((hw.outsel 0).trans (hv.outsel 0)),
        (ho.lastPb 0).trans ((hw.lastPb 0).trans (hv.lastPb 0)), fun h => absurd h hone, ?_,
        fun _ => ⟨ho.gen, ho.record⟩⟩
      rintro _ _ - ⟨rfl, rfl⟩
      exact ⟨fun h => absurd htag' h, fun _ => ⟨ho.fifo, (ho.outsel 1).trans (hw.outsel 1),
        (ho.lastPb 1).trans (hw.lastPb 1), ho.counters.trans (hw.counters.trans hvcounters)⟩⟩

end Sys2Proof.Machine

/-! SUPPORT. The flags of the timecodes (42_frame_clock.md R215, R216): `FlagsKept` for every operation. The outputs
that carry a timecode carry its wire form; the generator is written by a count, by an adoption that clears VALID, and
by F2 alone. Every other operation leaves the trace and the generator as they are. -/

namespace Sys2Proof.Machine

/-! ### What a step may do to the trace and the generator -/

/-- From `s` to `t` no timecode went out with F2 set, and the generator did not gain VALID. -/
structure FlagsKept (s t : State) : Prop where
  trace : (∀ o ∈ s.env.trace, o.clean = true) → ∀ o ∈ t.env.trace, o.clean = true
  gen : s.gen.getLsbD 26 = false → t.gen.getLsbD 26 = false

theorem FlagsKept.trans {s t u : State} (h : FlagsKept s t) (h' : FlagsKept t u) : FlagsKept s u :=
  ⟨h'.trace ∘ h.trace, h'.gen ∘ h.gen⟩

/-- An operation that leaves the trace and the generator alone. -/
theorem FlagsKept.of_eq {s t : State} (htrace : t.env.trace = s.env.trace) (hgen : t.gen = s.gen) :
    FlagsKept s t :=
  ⟨by rw [htrace]; exact id, by rw [hgen]; exact id⟩

theorem FlagsKept.refl (s : State) : FlagsKept s s := .of_eq rfl rfl

/-- Before the operation, one that leaves the trace and the generator alone. -/
theorem FlagsKept.after {s t u : State} (h : FlagsKept u t) (htrace : u.env.trace = s.env.trace)
    (hgen : u.gen = s.gen) : FlagsKept s t := (FlagsKept.of_eq htrace hgen).trans h

/-- After the operation, one that leaves the trace and the generator alone. -/
theorem FlagsKept.before {s t u : State} (h : FlagsKept s t) (htrace : u.env.trace = t.env.trace)
    (hgen : u.gen = t.gen) : FlagsKept s u := h.trans (.of_eq htrace hgen)

theorem FlagsKept.ite {c : Prop} [Decidable c] {s t u : State} (ht : FlagsKept s t) (hu : FlagsKept s u) :
    FlagsKept s (if c then t else u) := by
  split
  · exact ht
  · exact hu

theorem flagsKept_emit (s : State) {o : Output} (h : o.clean = true) : FlagsKept s (s.emit o) where
  trace hs o' ho := by
    obtain hmem | hmem := List.mem_append.1 ho
    · exact hs o' hmem
    · exact List.mem_singleton.1 hmem ▸ h
  gen := id

theorem flagsKept_drawn (s : State) (p : Ports) : FlagsKept s (s.drawn p) := .of_eq rfl rfl

theorem flagsKept_gen (s : State) {g : TC64} (h : s.gen.getLsbD 26 = false → g.getLsbD 26 = false) :
    FlagsKept s { s with gen := g } := ⟨id, h⟩

/-! ### Timecode words (R213 to R215) -/

/-- The wire form has F2 clear (R215). -/
theorem tcF2_tcWire (v : TC64) : tcF2 (tcWire v) = false := by
  rw [tcF2, tcWire, tcClearF2, BitVec.getLsbD_and]
  simp [f2Mask]

theorem not_tcF2_tcWire (v : TC64) : (!tcF2 (tcWire v)) = true := by rw [tcF2_tcWire]; rfl

theorem getLsbD_tcClearValid (v : TC64) : (tcClearValid v).getLsbD 26 = false := by
  rw [tcClearValid, BitVec.getLsbD_and]
  simp [validMask]

theorem getLsbD_tcClearF2 (v : TC64) : (tcClearF2 v).getLsbD 26 = v.getLsbD 26 := by
  rw [tcClearF2, BitVec.getLsbD_and]
  simp [f2Mask]

theorem getLsbD_tcSetF2 (v : TC64) : (tcSetF2 v).getLsbD 26 = v.getLsbD 26 := by
  rw [tcSetF2, BitVec.getLsbD_or]
  simp [f2Mask]

theorem getLsbD_tcInc (v : TC64) (r : BitVec 3) : (tcInc v r).getLsbD 26 = v.getLsbD 26 := by
  rw [tcInc_eq_relabel]
  exact getLsbD_relabel v _ (by decide)

theorem getLsbD_tcDec (v : TC64) (r : BitVec 3) : (tcDec v r).getLsbD 26 = v.getLsbD 26 := by
  rw [tcDec_eq_relabel]
  exact getLsbD_relabel v _ (by decide)

theorem getLsbD_tcIncN (n : Nat) (v : TC64) (r : BitVec 3) : (tcIncN n v r).getLsbD 26 = v.getLsbD 26 := by
  induction n generalizing v with
  | zero => rfl
  | succ n ih => exact (ih _).trans (getLsbD_tcInc v r)

/-! ### The pool and the stream service (R181 to R184, R253 to R263) -/

theorem flagsKept_allocSlot (s : State) : FlagsKept s s.allocSlot.2 := by
  refine .of_eq s.allocSlot_trace ?_
  obtain ⟨h, -⟩ | ⟨i, e, h, -⟩ := s.allocSlot_cases <;> rw [h]
  rfl

theorem flagsKept_freeSlot (s : State) (i : SlotIx) : FlagsKept s (s.freeSlot i) :=
  .ite (.of_eq rfl rfl) (.of_eq rfl rfl)

theorem flagsKept_enqSlot (s : State) (i : SlotIx) : FlagsKept s (s.enqSlot i) :=
  .ite (.of_eq rfl rfl) (.of_eq rfl rfl)

theorem flagsKept_deqSlot (s : State) : FlagsKept s s.deqSlot.2 := by
  obtain ⟨-, h⟩ | ⟨i, q, -, h⟩ := s.deqSlot_cases <;> rw [h]
  · exact .refl s
  · exact .of_eq rfl rfl

theorem flagsKept_readExternal (s : State) : FlagsKept s s.readExternal.2 := by
  rw [State.readExternal]
  split
  · exact (flagsKept_emit s (o := .extReadExternal) rfl).trans (.of_eq rfl rfl)
  · exact .refl s

theorem flagsKept_readGenerator (s : State) : FlagsKept s s.readGenerator.2 := by
  rw [State.readGenerator]
  split
  · exact (flagsKept_emit s (o := .extReadGenerator) rfl).trans (.of_eq rfl rfl)
  · exact .refl s

theorem flagsKept_freePlayed (s : State) (c : VidChan) : FlagsKept s (s.freePlayed c) := by
  unfold State.freePlayed
  split
  · exact .refl s
  · exact (flagsKept_freeSlot ..).trans (.of_eq rfl rfl)

theorem flagsKept_stampAndQueue (s : State) (i : SlotIx) (ap : U64) : FlagsKept s (s.stampAndQueue i ap) := by
  have hwires : FlagsKept s s.readWire1.2.readWire2.2 := .of_eq rfl rfl
  exact (hwires.trans (flagsKept_readExternal _)).trans ((flagsKept_enqSlot ..).after rfl rfl)

theorem flagsKept_queueCaptured (s : State) (ap : U64) (c : VidChan) : FlagsKept s (s.queueCaptured ap c) := by
  unfold State.queueCaptured
  split
  · exact .refl s
  · exact (flagsKept_stampAndQueue ..).trans (.of_eq rfl rfl)

theorem flagsKept_freeing (s : State) : FlagsKept s s.freeing := by
  unfold State.freeing
  refine List.foldlRecOn (motive := FlagsKept s) _ _ ?_ fun u hu c _ => ?_
  · exact .of_eq rfl rfl
  · exact hu.trans ((flagsKept_freePlayed u c).trans (flagsKept_queueCaptured ..))

theorem flagsKept_discard (n : Nat) (s : State) : FlagsKept s (State.discard n s) := by
  induction n generalizing s with
  | zero => exact .refl s
  | succ n ih =>
    have hd := flagsKept_deqSlot s
    unfold State.discard
    split <;> rename_i h <;> rw [h] at hd
    · exact hd
    · exact hd.trans ((flagsKept_freeSlot ..).trans (ih _))

theorem flagsKept_pace (s : State) : FlagsKept s s.pace.2 := by
  unfold State.pace
  split <;> exact .of_eq rfl rfl

/-- An adopted override has VALID cleared (R216, R259). -/
theorem flagsKept_override (s : State) (i : SlotIx) : FlagsKept s (s.override i) := by
  unfold State.override
  dsimp only
  exact .ite ⟨id, fun _ => (getLsbD_tcClearF2 _).trans (getLsbD_tcClearValid _)⟩ (.refl s)

theorem flagsKept_tagMismatch (s : State) (i : SlotIx) : FlagsKept s (s.tagMismatch i) :=
  (flagsKept_freeSlot ..).after rfl rfl

theorem flagsKept_servicePlayback (cs : List VidChan) (i0 : Option SlotIx) (s : State) :
    FlagsKept s (State.servicePlayback cs i0 s) := by
  induction cs generalizing i0 s with
  | nil =>
    cases i0 with
    | none => exact .refl s
    | some i => exact flagsKept_override s i
  | cons c cs ih =>
    have hd := flagsKept_deqSlot s
    unfold State.servicePlayback
    split <;> rename_i h <;> rw [h] at hd
    · exact hd
    · exact .ite (hd.trans ((ih ..).after rfl rfl)) (hd.trans (flagsKept_tagMismatch ..))

theorem flagsKept_playbackTick (s : State) : FlagsKept s s.playbackTick := by
  have hp := flagsKept_pace s
  exact .ite (.refl s) <| .ite (.of_eq rfl rfl) <| .ite hp
    (hp.trans ((flagsKept_discard ..).trans (flagsKept_servicePlayback ..)))

theorem flagsKept_adjustGenerator (s : State) (n : U64) : FlagsKept s (s.adjustGenerator n) :=
  .ite (.ite (flagsKept_gen s fun h => (getLsbD_tcDec ..).trans h)
    (flagsKept_gen s fun h => (getLsbD_tcIncN ..).trans h))
    (.refl s)

theorem flagsKept_serviceCapture (cs : List VidChan) (n : U64) (s : State) :
    FlagsKept s (State.serviceCapture cs n s) := by
  induction cs generalizing s with
  | nil => exact .refl s
  | cons c cs ih =>
    have ha := flagsKept_allocSlot s
    unfold State.serviceCapture
    split <;> rename_i h <;> rw [h] at ha
    · exact ha.trans (.of_eq rfl rfl)
    · exact ha.trans ((ih _).after rfl rfl)

theorem flagsKept_captureTick (s : State) : FlagsKept s s.captureTick :=
  .ite (.refl s) <| .ite (.of_eq rfl rfl) <|
    (flagsKept_pace s).trans ((flagsKept_adjustGenerator ..).trans (flagsKept_serviceCapture ..))

theorem flagsKept_audioTrigger (s : State) : FlagsKept s s.audioTrigger :=
  .ite ((flagsKept_emit _ rfl).after rfl rfl) (.refl s)

theorem flagsKept_stepService (s : State) : FlagsKept s s.stepService :=
  .ite ((flagsKept_audioTrigger s).trans ((flagsKept_playbackTick _).trans (flagsKept_captureTick _))) (.refl s)

/-! ### The phases of a tick (R218 to R230) -/

theorem flagsKept_sampleRate (s : State) : FlagsKept s s.sampleRate := .ite (.of_eq rfl rfl) (.of_eq rfl rfl)

theorem flagsKept_stepFrameId (s : State) : FlagsKept s s.stepFrameId :=
  (flagsKept_sampleRate { s with frameId := s.frameId + 1 }).after rfl rfl

/-- The generator's advance is a count with F2 cleared (R219). -/
theorem flagsKept_stepGenerator (s : State) : FlagsKept s s.stepGenerator := by
  refine flagsKept_gen s fun h => ?_
  rw [getLsbD_tcClearF2]
  split
  · rwa [getLsbD_tcInc]
  · exact h

theorem flagsKept_stepSnapshot (s : State) : FlagsKept s s.stepSnapshot := by
  have hdraws : FlagsKept s s.inLine.2.inTick.2.inHostTs.2 :=
    (flagsKept_drawn s _).trans ((flagsKept_drawn _ _).trans (flagsKept_drawn _ _))
  unfold State.stepSnapshot
  dsimp only
  generalize s.inLine.2.inTick.2.inHostTs.2 = u at hdraws
  exact hdraws.trans (.of_eq rfl rfl)

theorem flagsKept_stepWirePush (s : State) : FlagsKept s s.stepWirePush :=
  (flagsKept_emit s (o := .wireW1 _) (not_tcF2_tcWire s.nextTimecode)).trans
    (flagsKept_emit _ (o := .wireW2 _) (not_tcF2_tcWire s.nextTimecode))

theorem flagsKept_stepExtSync (s : State) : FlagsKept s s.stepExtSync :=
  .ite ((flagsKept_emit s (o := .extWrite _) (not_tcF2_tcWire s.gen)).trans
    ((flagsKept_emit _ rfl).trans (flagsKept_emit _ rfl))) (.refl s)

theorem flagsKept_stepAudio (s : State) : FlagsKept s s.stepAudio :=
  .ite (.ite ((flagsKept_emit _ rfl).after rfl rfl)
    (.ite (.of_eq rfl rfl) ((flagsKept_emit _ rfl).after rfl rfl))) (.refl s)

theorem flagsKept_goto (s : State) (n : F1Step) : FlagsKept s (s.goto n) := .of_eq rfl rfl

theorem flagsKept_f1Phase (n : F1Step) (s : State) : FlagsKept s (s.f1Phase n) := by
  cases n with
  | frameId => exact (flagsKept_stepFrameId s).trans (flagsKept_goto ..)
  | generator => exact (flagsKept_stepGenerator s).trans (flagsKept_goto ..)
  | boundary => exact .of_eq rfl rfl
  | snapshot => exact (flagsKept_stepSnapshot s).trans (flagsKept_goto ..)
  | freeing => exact (flagsKept_freeing s).trans (flagsKept_goto ..)
  | service => exact (flagsKept_stepService s).trans (flagsKept_goto ..)
  | wirePush => exact (flagsKept_stepWirePush s).trans (flagsKept_goto ..)
  | extSync => exact (flagsKept_stepExtSync s).trans (flagsKept_goto ..)
  | serial => exact (flagsKept_emit s (o := .serial _) (not_tcF2_tcWire s.gen)).trans (flagsKept_goto ..)
  | wake => exact .of_eq rfl rfl
  | audio => exact (flagsKept_stepAudio s).trans (.of_eq rfl rfl)

/-- The field-2 step sets F2 alone (R230). -/
theorem flagsKept_f2Phase (s : State) : FlagsKept s s.f2Phase := by
  refine (flagsKept_sampleRate s).trans (.trans (.ite (flagsKept_gen _ fun h => ?_) (.refl _)) (.of_eq rfl rfl))
  exact (getLsbD_tcSetF2 _).trans h

/-! ### Commands (R107, R108) -/

/-- Whatever next state the answer gives, the flags are kept. -/
def AnswerKeepsFlags (s : State) (a : Answered) : Prop := ∀ t, a = .next t → FlagsKept s t

theorem answerKeepsFlags_next {s t : State} (h : FlagsKept s t) : AnswerKeepsFlags s (.next t) := by
  rintro _ ⟨⟩
  exact h

/-- A command that checks its operand first. -/
theorem answerKeepsFlags_ite {c : Prop} [Decidable c] {s t u : State} (ht : FlagsKept s t) (hu : FlagsKept s u) :
    AnswerKeepsFlags s (if c then .next t else .next u) := by
  split
  · exact answerKeepsFlags_next ht
  · exact answerKeepsFlags_next hu

theorem flagsKept_setBank (s : State) (b : BankId) (x : Bank) : FlagsKept s (s.setBank b x) := .of_eq rfl rfl

/-- The new generator has VALID clear, and goes out in its wire form (R292). -/
theorem flagsKept_setGenerator (s : State) {g : TC64} (hg : g.getLsbD 26 = false) :
    FlagsKept s (s.setGenerator g) :=
  (flagsKept_gen s fun _ => hg).trans ((flagsKept_emit _ (o := .wireW1 _) (not_tcF2_tcWire g)).trans
    (flagsKept_emit _ (o := .wireW2 _) (not_tcF2_tcWire g)))

theorem flagsKept_pushExternal (s : State) (g : TC64) : FlagsKept s (s.pushExternal g) := by
  have hread : FlagsKept s s.callReadGenerator.2 :=
    (flagsKept_emit s (o := .extReadGenerator) rfl).trans (flagsKept_drawn ..)
  have hwrite := hread.trans (flagsKept_emit _ (o := .extWrite _) (not_tcF2_tcWire g))
  unfold State.pushExternal
  dsimp only
  split
  · split
    · exact hwrite
    · exact .ite hread hwrite
  · exact .refl s

theorem answerKeepsFlags_execGenset (b : BankId) (s : State) : AnswerKeepsFlags s (execGenset b s) :=
  answerKeepsFlags_ite ((flagsKept_setGenerator s (getLsbD_tcClearValid _)).trans
    ((flagsKept_pushExternal ..).trans (flagsKept_setBank ..))) (flagsKept_setBank ..)

theorem answerKeepsFlags_execGenrun (b : BankId) (en : Bool) (s : State) : AnswerKeepsFlags s (execGenrun b en s) := by
  refine answerKeepsFlags_next (.trans ?_ (flagsKept_setBank ..))
  split
  · exact (flagsKept_emit _ rfl).after rfl rfl
  · exact .of_eq rfl rfl

theorem flagsKept_queryExternal (s : State) (b : BankId) : FlagsKept s (s.queryExternal b) := by
  unfold State.queryExternal
  dsimp only
  split <;> exact (flagsKept_readExternal s).trans (flagsKept_setBank ..)

theorem flagsKept_queryGenerator (s : State) (b : BankId) : FlagsKept s (s.queryGenerator b) := by
  unfold State.queryGenerator
  dsimp only
  split
  case h_3 => exact (flagsKept_readGenerator s).trans (.of_eq rfl rfl)
  all_goals exact (flagsKept_readGenerator s).trans (flagsKept_setBank ..)

theorem answerKeepsFlags_execTcquery (b : BankId) (src : BitVec 3) (s : State) :
    AnswerKeepsFlags s (execTcquery b src s) := by
  unfold execTcquery
  split
  case h_4 => exact answerKeepsFlags_next (flagsKept_queryExternal s b)
  case h_5 => exact answerKeepsFlags_next (flagsKept_queryGenerator s b)
  all_goals exact answerKeepsFlags_next (.of_eq rfl rfl)

theorem answerKeepsFlags_execAlloc (b : BankId) (s : State) : AnswerKeepsFlags s (execAlloc b s) := by
  have h := flagsKept_allocSlot s
  unfold execAlloc
  split <;> rename_i hs <;> rw [hs] at h <;> exact answerKeepsFlags_next (h.trans (flagsKept_setBank ..))

theorem answerKeepsFlags_execDeq (b : BankId) (s : State) : AnswerKeepsFlags s (execDeq b s) := by
  have h := flagsKept_deqSlot s
  unfold execDeq
  split <;> rename_i hs <;> rw [hs] at h <;> exact answerKeepsFlags_next (h.trans (flagsKept_setBank ..))

theorem answerKeepsFlags_execXfer (b : BankId) (dir : Bool) (hint : BitVec 2) (s : State) :
    AnswerKeepsFlags s (execXfer b dir hint s) := by
  unfold execXfer
  dsimp only
  split
  · exact answerKeepsFlags_next (flagsKept_setBank ..)
  split
  · refine answerKeepsFlags_next ?_
    unfold State.xferStart
    split <;> exact .of_eq rfl rfl
  · exact answerKeepsFlags_next (flagsKept_setBank ..)
  · exact answerKeepsFlags_next (.of_eq rfl rfl)

/-- No command sends a timecode with F2 set or gives the generator VALID. -/
theorem answerKeepsFlags_command {i : Instr} {b : BankId} (hb : i.bank? = some b) (s : State) :
    AnswerKeepsFlags s (exec i s) := by
  have hsame : ∀ t : State, t.env.trace = s.env.trace → t.gen = s.gen → FlagsKept s t := fun _ => .of_eq
  cases i <;> cases hb
  case init | start | stop | close | settrig | setspeed | audarm | mdget | mdset =>
    exact answerKeepsFlags_ite (hsame _ rfl rfl) (hsame _ rfl rfl)
  case free => exact answerKeepsFlags_ite ((flagsKept_freeSlot ..).trans (flagsKept_setBank ..)) (hsame _ rfl rfl)
  case enq => exact answerKeepsFlags_ite ((flagsKept_enqSlot ..).trans (flagsKept_setBank ..)) (hsame _ rfl rfl)
  case alloc => exact answerKeepsFlags_execAlloc b s
  case deq => exact answerKeepsFlags_execDeq b s
  case xfer => exact answerKeepsFlags_execXfer b _ _ s
  case genset => exact answerKeepsFlags_execGenset b s
  case genrun => exact answerKeepsFlags_execGenrun b _ s
  case tcquery => exact answerKeepsFlags_execTcquery b _ s
  all_goals exact answerKeepsFlags_next (hsame _ rfl rfl)

theorem answerKeepsFlags_issueCommand (s : State) (b : BankId) (w : U32) :
    AnswerKeepsFlags s (s.issueCommand b w) := by
  unfold State.issueCommand
  split
  · exact answerKeepsFlags_next (.of_eq rfl rfl)
  split
  next hd => exact fun t ht => (answerKeepsFlags_command (bank?_of_decode hd) _ t ht).after rfl rfl
  next => exact answerKeepsFlags_next (.of_eq rfl rfl)

theorem answerKeepsFlags_hostWrite (s : State) (off width : Nat) (v : U32) :
    AnswerKeepsFlags s (s.hostWrite off width v) := by
  unfold State.hostWrite
  split
  · unfold State.writeReg
    split
    case h_1 => exact answerKeepsFlags_next (.ite (.of_eq rfl rfl) (.refl s))
    case h_3 b o _ =>
      split
      · exact answerKeepsFlags_issueCommand s b v
      · exact answerKeepsFlags_next (flagsKept_setBank ..)
    all_goals exact answerKeepsFlags_next (.refl s)
  · exact answerKeepsFlags_next (.of_eq rfl rfl)

/-! ### Transfers (R141 to R165) -/

theorem flagsKept_stampTs (s : State) (k : ChanId) (j : Fin 6) : FlagsKept s (s.stampTs k j) := .of_eq rfl rfl

/-- A channel and then the bank of its transfer are written: the end of a phase of a transfer. -/
theorem flagsKept_chan_bank (s : State) (k : ChanId) (c : Channel) (b : BankId) (x : Bank) :
    FlagsKept s ((s.setChan k c).setBank b x) := .of_eq rfl rfl

theorem flagsKept_xferPin (s : State) (b : BankId) (k : ChanId) (r : XferReq) : FlagsKept s (s.xferPin b k r) := by
  have hd : FlagsKept s
      (s.callPin r.addr (firstPage s.cfg.pageSize r.addr) (pageCount s.cfg.pageSize r.addr r.len)).2 :=
    (flagsKept_emit s (o := .hmmPin ..) rfl).trans (flagsKept_drawn ..)
  unfold State.xferPin
  dsimp only
  split <;> exact hd.trans (flagsKept_chan_bank ..)

theorem flagsKept_xferMap (s : State) (b : BankId) (k : ChanId) (r : XferReq) : FlagsKept s (s.xferMap b k r) := by
  have hd : FlagsKept s (s.callMap (s.chan k).sg r.dir).2 :=
    (flagsKept_emit s (o := .hmmMap ..) rfl).trans (flagsKept_drawn ..)
  unfold State.xferMap
  dsimp only
  split
  · exact (hd.trans (flagsKept_emit _ rfl)).trans (flagsKept_chan_bank ..)
  · refine .trans (hd.trans ?_) (flagsKept_chan_bank ..)
    exact .ite (.of_eq rfl rfl) (.refl _)

theorem flagsKept_xferProgram (s : State) (b : BankId) (k : ChanId) (r : XferReq) :
    FlagsKept s (s.xferProgram b k r) := by
  have hbuilt : FlagsKept s (s.built k r) := by
    obtain ⟨h, -⟩ := s.built_spec k r
    exact .of_eq (by rw [h]) (by rw [h])
  have hchan : ∀ u : State, FlagsKept u (u.programChannel k r) := fun _ => .of_eq rfl rfl
  exact (hbuilt.trans (hchan _)).trans
    ((flagsKept_stampTs _ k 1).trans ((flagsKept_stampTs _ k 2).trans (flagsKept_chan_bank ..)))

theorem flagsKept_xferStop (s : State) (b : BankId) (k : ChanId) (r : XferReq) (o : XferOutcome) :
    FlagsKept s (s.xferStop b k r o) := (flagsKept_stampTs s k 3).trans (flagsKept_setBank ..)

/-- The cleanup's two calls carry no timecode (R159, R160). -/
theorem flagsKept_xferCleanup (s : State) (b : BankId) (k : ChanId) (r : XferReq) (o : XferOutcome) :
    FlagsKept s (s.xferCleanup b k r o) := by
  obtain ⟨u, h, hframe, -, htrace, -⟩ := s.xferCleanup_spec b k r o
  have hu : FlagsKept s u := by
    refine ⟨fun hs o' ho => ?_, fun hg => by rwa [hframe]⟩
    rw [htrace] at ho
    obtain hmem | hmem := List.mem_append.1 ho
    · exact hs o' hmem
    · obtain rfl | rfl : o' = .hmmUnmap (s.chan k).runs ∨ o' = .hmmUnpin (s.chan k).pages r.dir := by simpa using hmem
      all_goals rfl
  rw [h]
  exact hu.trans (flagsKept_chan_bank ..)

theorem flagsKept_callerStep (s : State) (b : BankId) : FlagsKept s (s.callerStep b) := by
  unfold State.callerStep
  split
  · exact .refl s
  · exact .refl s
  · exact .refl s
  · exact flagsKept_xferPin ..
  · exact flagsKept_xferMap ..
  · exact flagsKept_xferProgram ..
  · exact .ite (.refl s) (flagsKept_xferStop ..)
  · exact flagsKept_xferCleanup ..

theorem flagsKept_callerEvent (s : State) (b : BankId) (o : XferOutcome) : FlagsKept s (s.callerEvent b o) := by
  unfold State.callerEvent
  split
  case h_3 => exact flagsKept_setBank ..
  case h_7 => exact .ite ((flagsKept_xferStop ..).after rfl rfl) (.refl s)
  all_goals exact .refl s

/-! ### The channels and the dispatcher (R166, R329) -/

theorem Touches.flagsKept {s t : State} (h : Touches s t) : FlagsKept s t := .of_eq h.trace (by rw [h.frame])

theorem flagsKept_performChain (s : State) (k : ChanId) : FlagsKept s (s.performChain k) := by
  obtain ⟨-, h⟩ | ⟨-, -, u, hu, h⟩ := performChain_spec s k <;> rw [h]
  · exact .refl s
  · exact hu.flagsKept.trans (.of_eq rfl rfl)

theorem flagsKept_spoil (s : State) (k : ChanId) (a : U64) (v : Byte) : FlagsKept s (s.spoil k a v) := by
  obtain h | ⟨u, hu, h⟩ := spoil_spec s k a v <;> rw [h]
  · exact .refl s
  · exact hu.flagsKept.trans (.of_eq rfl rfl)

theorem flagsKept_raiseDone (s : State) (k : ChanId) : FlagsKept s (s.raiseDone k) := by
  obtain h | h | h := raiseDone_spec s k <;> rw [h] <;> exact .of_eq rfl rfl

theorem flagsKept_handleDone (s : State) (k : ChanId) : FlagsKept s (s.handleDone k) := by
  refine .ite (.before (t := s.settle k) ?_ rfl rfl) (.of_eq rfl rfl)
  obtain ⟨-, h⟩ | ⟨-, h⟩ := settle_spec s k <;> rw [h]
  · exact flagsKept_performChain s k
  · exact .refl s

/-- A handler counts, handles a completion or hands over to a tick (R326, R331). -/
theorem answerKeepsFlags_source (j : Fin 9) (s : State) : AnswerKeepsFlags s (exec (sourceInstr j) s) := by
  have hdone : ∀ k, AnswerKeepsFlags s (.next ((s.takeSource j).handleDone k).passEnd) := fun k =>
    answerKeepsFlags_next (.before (.after (flagsKept_handleDone (s.takeSource j) k) rfl rfl) rfl rfl)
  have hleave : ∀ t : State, t.env.trace = s.env.trace → t.gen = s.gen → AnswerKeepsFlags s (.next t) :=
    fun _ htrace hgen => answerKeepsFlags_next (.of_eq htrace hgen)
  fin_cases j
  · exact hleave _ rfl rfl
  · exact hdone 0
  · exact hdone 1
  · exact hdone 2
  · exact hdone 3
  · exact hleave _ rfl rfl
  · exact hleave _ rfl rfl
  · exact hleave _ rfl rfl
  · exact hleave _ rfl rfl

theorem flagsKept_takeInterrupt (s : State) : FlagsKept s s.takeInterrupt := by
  have htick : s.env.beginTick.trace = s.env.trace := by
    unfold Env.beginTick
    split <;> rfl
  refine .of_eq ?_ rfl
  show (if s.pendingSources.getLsbD 5 then s.env.beginTick else s.env).trace = _
  split
  · exact htick
  · rfl

theorem answerKeepsFlags_idsStep (s : State) : AnswerKeepsFlags s s.idsStep := by
  unfold State.idsStep
  split
  · exact answerKeepsFlags_next (.ite (flagsKept_takeInterrupt s) (.refl s))
  · unfold State.handleNext
    split
    next hd =>
      obtain ⟨j, -, -, rfl⟩ := decode_status hd
      exact answerKeepsFlags_source j s
    next => exact fun _ h => nomatch h
  · exact answerKeepsFlags_next (flagsKept_f1Phase ..)
  · exact answerKeepsFlags_next (flagsKept_f2Phase s)

/-! ### One step (R12) -/

theorem answerKeepsFlags_apply (s : State) (e : Event) : AnswerKeepsFlags s (s.apply e) := by
  cases e <;> simp only [State.apply]
  case wr off width v => exact answerKeepsFlags_hostWrite s off width v
  case ids => exact answerKeepsFlags_idsStep s
  all_goals refine answerKeepsFlags_next ?_
  case rd => exact .ite (.of_eq rfl rfl) (.of_eq rfl rfl)
  case caller b => exact .ite (flagsKept_callerStep ..) (.refl s)
  case done k => exact flagsKept_raiseDone ..
  case chanBuserr k => exact .ite (.of_eq rfl rfl) (.refl s)
  case timeout b => exact .ite (flagsKept_callerEvent ..) (.refl s)
  case signal b => exact .ite (flagsKept_callerEvent ..) (.refl s)
  case move k => exact flagsKept_performChain ..
  case spoil k a v => exact flagsKept_spoil ..
  case hostStore a v => exact (touches_storeHost s a v).flagsKept
  case hostLoad a =>
    exact (touches_loadHost s none a).flagsKept.before rfl rfl
  all_goals exact .of_eq rfl rfl

theorem flagsKept_nextEvent (s : State) : FlagsKept s s.nextEvent.2 := by
  unfold State.nextEvent
  split <;> exact .of_eq rfl rfl

/-- Settles O50: taking the next event off the schedule sends nothing, and what the event does keeps the flags. -/
theorem stepKeepsTimecodeFlags : Obligations.StepKeepsTimecodeFlags := by
  intro s t h
  have hkept : FlagsKept s t := by
    rw [step, State.advance] at h
    split at h
    · exact (flagsKept_nextEvent s).trans (answerKeepsFlags_apply _ _ t h)
    · cases h
  exact ⟨hkept.trace, hkept.gen⟩

end Sys2Proof.Machine

/-! SUPPORT. The step counts of many evaluations (43_stream_pacing.md R250, R251): one evaluation divides
acc + speed by SPEED_ONE, and since each remainder is carried into the next, T of them together divide r0 + T × v. -/

namespace Sys2Proof.Machine

/-! ### One evaluation -/

@[simp] theorem Pacing.advance_speed (p : Pacing) : p.advance.speed = p.speed := rfl

@[simp] theorem Pacing.advance_acc (p : Pacing) :
    p.advance.acc.toNat = (p.acc.toNat + p.speed.toNat) % speedOne := by
  simp only [Pacing.advance, BitVec.toNat_ofNat, speedOne]
  exact Nat.mod_eq_of_lt (by omega)

/-- The count fits its 64 bits because the remainder is below SPEED_ONE. -/
theorem Pacing.advance_stepCache {p : Pacing} (h : p.acc.toNat < speedOne) :
    p.advance.stepCache.toNat = (p.acc.toNat + p.speed.toNat) / speedOne := by
  simp only [Pacing.advance, BitVec.toNat_ofNat, speedOne] at h ⊢
  exact Nat.mod_eq_of_lt (by omega)

/-! ### T evaluations -/

@[simp] theorem Pacing.iterate_advance_speed (p : Pacing) (T : Nat) :
    (Pacing.advance^[T] p).speed = p.speed := by
  induction T with
  | zero => rfl
  | succ T ih => rw [Function.iterate_succ_apply', Pacing.advance_speed, ih]

theorem Pacing.iterate_advance_acc {p : Pacing} (h : p.acc.toNat < speedOne) (T : Nat) :
    (Pacing.advance^[T] p).acc.toNat = (p.acc.toNat + T * p.speed.toNat) % speedOne := by
  induction T with
  | zero => simpa using (Nat.mod_eq_of_lt h).symm
  | succ T ih =>
    rw [Function.iterate_succ_apply', Pacing.advance_acc, ih, Pacing.iterate_advance_speed, Nat.mod_add_mod,
      Nat.add_assoc, ← Nat.succ_mul]

theorem Pacing.iterate_advance_acc_lt {p : Pacing} (h : p.acc.toNat < speedOne) (T : Nat) :
    (Pacing.advance^[T] p).acc.toNat < speedOne := by
  rw [iterate_advance_acc h]
  exact Nat.mod_lt _ (by decide)

/-- The count of the evaluation after `T` others. -/
theorem Pacing.iterate_succ_advance_stepCache {p : Pacing} (h : p.acc.toNat < speedOne) (T : Nat) :
    (Pacing.advance^[T + 1] p).stepCache.toNat =
      ((p.acc.toNat + T * p.speed.toNat) % speedOne + p.speed.toNat) / speedOne := by
  rw [Function.iterate_succ_apply', advance_stepCache (iterate_advance_acc_lt h T), iterate_advance_acc h,
    iterate_advance_speed]

theorem Pacing.sum_stepCache {p : Pacing} (h : p.acc.toNat < speedOne) (T : Nat) :
    ((List.range T).map fun n => (Pacing.advance^[n + 1] p).stepCache.toNat).sum =
      (p.acc.toNat + T * p.speed.toNat) / speedOne := by
  induction T with
  | zero => simpa using (Nat.div_eq_of_lt h).symm
  | succ T ih =>
    have hcarry (a v : Nat) : a / speedOne + (a % speedOne + v) / speedOne = (a + v) / speedOne := by
      simp only [speedOne]; omega
    rw [List.range_succ, List.map_append, List.sum_append, ih, List.map_singleton, List.sum_singleton,
      iterate_succ_advance_stepCache h, hcarry, Nat.add_assoc, ← Nat.succ_mul]

/-- At 1x a remainder below SPEED_ONE adds nothing to the count. -/
theorem Pacing.iterate_succ_advance_stepCache_of_unit_speed {p : Pacing} (h : p.acc.toNat < speedOne)
    (hspeed : p.speed = 1000000) (T : Nat) : (Pacing.advance^[T + 1] p).stepCache = 1 := by
  have hunit : p.speed.toNat = speedOne := by rw [hspeed]; rfl
  apply BitVec.eq_of_toNat_eq
  rw [iterate_succ_advance_stepCache h, hunit, Nat.add_div_right _ (by decide),
    Nat.div_eq_of_lt (Nat.mod_lt _ (by decide))]
  rfl

/-- Settles O48, from the sum, the remainder and the count at 1x, each over any number of evaluations. -/
theorem pacingSum : Obligations.PacingSum := fun _ T h =>
  ⟨Pacing.sum_stepCache h T, Pacing.iterate_advance_acc h T,
    fun hspeed => Pacing.iterate_succ_advance_stepCache_of_unit_speed h hspeed T⟩

end Sys2Proof.Machine

/-! SUPPORT. The session, pacing and audio commands that check an operand or the session before they write a register
(44_session_commands.md R281 to R283, R285, R287, R294, R296): for each, its check and the state it completes or waits
in, said once. -/

namespace Sys2Proof.Machine

/-- The model's check names what it refuses; told by what is accepted, its two answers change places. -/
theorem ite_refused {P : Prop} [Decidable P] {refused : Bool} (h : refused = true ↔ ¬ P) (x y : Answered) :
    (if refused = true then x else y) = if P then y else x := (if_congr h rfl rfl).trans (ite_not ..)

/-- A command that goes on as `u` when its check `P` passes, and otherwise completes INVALID with no other effect. -/
theorem answers_of_check {P : Prop} [Decidable P] {a : Answered} {b : BankId} {s u : State} {Q : State → Prop}
    (ha : a = if P then .next u else .next (s.finish b .invalid)) (hu : Q u) :
    if P then ∃ t, a = .next t ∧ Q t
    else ∃ t, a = .next t ∧ OnlyBankBecomes b ((s.bank b).ended .invalid) s t := by
  split
  next h => exact ⟨u, ha.trans (if_pos h), hu⟩
  next h => exact ⟨_, ha.trans (if_neg h), onlyBankBecomes_finish ..⟩

/-! ### Run control (R281 to R283, R290) -/

theorem execStart_eq (b : BankId) (s : State) :
    exec (.start b) s = if s.session.valid = true ∧ s.run.closePending = false
      then .next ((s.ask .run).hold b .waitBoundary) else .next (s.finish b .invalid) :=
  ite_refused (by simp [Decidable.imp_iff_not_or]) ..

theorem execStop_eq (b : BankId) (s : State) :
    exec (.stop b) s = if s.session.valid = true
      then .next ((s.ask .stop).hold b .waitBoundary) else .next (s.finish b .invalid) :=
  ite_refused (by simp) ..

theorem execClose_of_valid (b : BankId) {s : State} (h : s.session.valid = true) :
    exec (.close b) s = .next
      (({ s with run := { s.run with req := .stop, closePending := true } } : State).finish b .ok) := if_pos h

theorem execClose_of_not_valid (b : BankId) {s : State} (h : s.session.valid = false) :
    exec (.close b) s = .next (s.finish b .ok) := if_neg (by simp [h])

/-- Settles O19: START and STOP by their checks, CLOSE with and without a session, WAITFRAME without a check. -/
theorem runAndWaitCommands : Obligations.RunAndWaitCommands := by
  intro b s
  refine ⟨answers_of_check (execStart_eq b s) ?start, answers_of_check (execStop_eq b s) ?stop, fun h => ?close,
    fun h => ⟨_, execClose_of_not_valid b h, onlyBankBecomes_finish ..⟩, ⟨_, rfl, onlyBankBecomes_hold ..⟩⟩
  case start | stop => exact ⟨bankBecomes_hold rfl b _, rfl, .refl s⟩
  case close => exact ⟨_, execClose_of_valid b h, bankBecomes_finish rfl b .ok, rfl, .refl s⟩

/-! ### Register writes (R285, R287, R294, R296) -/

theorem execSettrig_eq (b : BankId) (s : State) :
    exec (.settrig b) s = if s.session.valid = true ∧ s.frameId.toNat < (s.bank b).arg0.toNat
      then .next
        (({ s with run := { s.run with trigId := (s.bank b).arg0, trigArmed := true } } : State).finish b .ok)
      else .next (s.finish b .invalid) :=
  ite_refused (by simp [Decidable.imp_iff_not_or]) ..

theorem execSetspeed_eq (b : BankId) (s : State) :
    exec (.setspeed b) s = if (s.bank b).arg0.toNat ≤ s.cfg.maxSpeed
      then .next (({ s with pacing := { s.pacing with speed := (s.bank b).arg0 } } : State).finish b .ok)
      else .next (s.finish b .invalid) :=
  (if_congr Nat.not_le.symm rfl rfl).trans (ite_not ..)

/-- The countdowns AUDARM accepts fit its 32-bit register (R296). -/
theorem execAudarm_eq (b : BankId) (s : State) :
    exec (.audarm b) s = if s.cfg.hasAudio = true ∧ 1 ≤ (s.bank b).arg0.toNat ∧ (s.bank b).arg0.toNat < 2 ^ 32
      then .next
        (({ s with audio := { s.audio with count := lo32 (s.bank b).arg0, armed := true } } : State).finish b .ok)
      else .next (s.finish b .invalid) := by
  have hzero : (s.bank b).arg0 = 0 ↔ ¬ 1 ≤ (s.bank b).arg0.toNat := by bv_omega
  refine ite_refused ?_ ..
  rw [Bool.or_eq_true, Bool.or_eq_true, Bool.not_eq_true', beq_iff_eq, decide_eq_true_eq, hzero, not_and_or, not_and_or,
    Bool.not_eq_true, Nat.not_lt, or_assoc]

/-- GENRUN sends EXT.run only to an external generator that is attached (R294). -/
theorem execGenrun_eq (b : BankId) (en : Bool) (s : State) :
    exec (.genrun b en) s = .next (({ s with
      genRunning := en
      env := { s.env with trace := if s.cfg.extGen = true then s.env.trace ++ [.extRun en] else s.env.trace }
      } : State).finish b .ok) := by
  rw [exec, execGenrun]
  split <;> rfl

/-- Settles O20: SETTRIG, SETSPEED and AUDARM by their checks, GENRUN without one. -/
theorem registerWritingCommands : Obligations.RegisterWritingCommands := by
  intro b s
  refine ⟨answers_of_check (execSettrig_eq b s) ?settrig, answers_of_check (execSetspeed_eq b s) ?setspeed,
    answers_of_check (execAudarm_eq b s) ?audarm, fun en => ⟨_, execGenrun_eq b en s, ?genrun⟩⟩
  case settrig | setspeed | audarm | genrun => exact ⟨bankBecomes_finish rfl b .ok, rfl, .refl s⟩

end Sys2Proof.Machine

/-! SUPPORT. The dispatch step (45_interrupt_dispatcher.md R325), the write to IRQ_ENABLE (R322) and the handlers
that count their event (R328, R332, R333), each as the update it makes. -/

namespace Sys2Proof.Machine

/-! ### The dispatch step (R325) -/

theorem State.irqLine_iff (s : State) : s.irqLine = true ↔ s.irqStatus &&& s.irqEnable ≠ 0 := bne_iff_ne

/-- With `pc` IDLE the dispatcher takes the pending sources if the line is asserted, and has no step otherwise. -/
theorem step_dispatch {s : State} {rest : List Event} (h : Scheduled .ids rest s) (hp : s.pc = .idle) :
    step s = .next (if s.irqLine = true then (s.leaving rest).takeInterrupt else s.leaving rest) := by
  rw [step_ids h, State.idsStep, show (s.leaving rest).pc = .idle from hp]
  rfl

theorem Env.beginTick_of_none {e : Env} (h : e.tick = none) : e.beginTick = e := by rw [Env.beginTick, h]

/-- The tick begins with the inputs chosen with its OUTVERT (R335, log 24). -/
theorem Env.beginTick_of_some {e : Env} {i : TickInputs} (h : e.tick = some i) :
    e.beginTick = { e with tick := none, ports := e.ports.outvert i } := by rw [Env.beginTick, h]

/-- A dispatch leaves the schedule and what was sent. -/
theorem State.takeInterrupt_schedule (s : State) :
    s.takeInterrupt.env.agenda = s.env.agenda ∧ s.takeInterrupt.env.trace = s.env.trace := by
  have hbegin : s.env.beginTick.agenda = s.env.agenda ∧ s.env.beginTick.trace = s.env.trace := by
    cases htick : s.env.tick with
    | none => rw [Env.beginTick_of_none htick]; exact ⟨rfl, rfl⟩
    | some i => rw [Env.beginTick_of_some htick]; exact ⟨rfl, rfl⟩
  rw [State.takeInterrupt]
  dsimp only
  split
  · exact hbegin
  · exact ⟨rfl, rfl⟩

/-- Without OUTVERT in the pass, or with no inputs chosen, a dispatch leaves the environment record. -/
theorem State.takeInterrupt_env_of_no_tick {s : State}
    (h : (s.irqStatus &&& s.irqEnable).getLsbD 5 = false ∨ s.env.tick = none) : s.takeInterrupt.env = s.env := by
  obtain hno | hnone := h
  · exact if_neg (by rw [State.pendingSources, hno]; decide)
  · rw [State.takeInterrupt, Env.beginTick_of_none hnone]
    exact ite_self _

/-- With OUTVERT in the pass the inputs chosen with it become those of the tick (log 24). -/
theorem State.takeInterrupt_env_of_tick {s : State} {i : TickInputs}
    (h : (s.irqStatus &&& s.irqEnable).getLsbD 5 = true) (hi : s.env.tick = some i) :
    s.takeInterrupt.env = { s.env with tick := none, ports := s.env.ports.outvert i } :=
  (if_pos h).trans (Env.beginTick_of_some hi)

/-- During a tick the sampled inputs give the values chosen with its OUTVERT (R335). -/
theorem State.inputs_of_outvert {s : State} {p : Ports} {i : TickInputs} (h : s.env.ports = p.outvert i) :
    s.inField.1 = i.field ∧ s.inRate.1 = i.rate ∧ s.inLine.1 = i.line ∧ s.inTick.1 = i.tick ∧
      s.inHostTs.1 = i.hostTs ∧ s.inAudpos.1 = i.audpos ∧ s.inWire1.1 = i.wire1 ∧ s.inWire2.1 = i.wire2 := by
  simp only [State.inField, State.inRate, State.inLine, State.inTick, State.inHostTs, State.inAudpos,
    State.inWire1, State.inWire2, h]
  exact ⟨rfl, rfl, rfl, rfl, rfl, rfl, rfl, rfl⟩

/-- Settles O9: the step by the line, then the environment record by OUTVERT and its inputs. -/
theorem dispatchStep : Obligations.DispatchStep := by
  rintro s rest p h hpc rfl
  have hstep := step_dispatch h hpc
  refine ⟨fun hp => ?taken, fun hp => ?unchanged⟩
  case taken =>
    rw [if_pos (s.irqLine_iff.2 hp)] at hstep
    obtain ⟨hagenda, htrace⟩ := (s.leaving rest).takeInterrupt_schedule
    refine ⟨_, hstep, hagenda, htrace, rfl, fun hno => ?same, fun i h5 hi => ?tick⟩
    case same => exact State.takeInterrupt_env_of_no_tick (s := s.leaving rest) hno
    case tick =>
      have henv := State.takeInterrupt_env_of_tick (s := s.leaving rest) h5 hi
      exact ⟨congrArg Env.tick henv, State.inputs_of_outvert (congrArg Env.ports henv)⟩
  case unchanged => rwa [if_neg (mt s.irqLine_iff.1 (not_not_intro hp))] at hstep

/-! ### The enables (R322) -/

/-- A write to IRQ_ENABLE takes bits [8:0] of the word. -/
theorem step_enable {s : State} {rest : List Event} {v : U32} (h : Scheduled (.wr 0x004 32 v) rest s) :
    step s = .next { s.leaving rest with irqEnable := v.extractLsb' 0 9 } := by
  have hname : regName (s.leaving rest).cfg 0x004 = .global 0x004 := if_pos (by decide)
  rw [step_write h (by decide), State.writeReg, hname,
    ← BitVec.setWidth_eq_extractLsb' (by decide)]
  rfl

/-- Settles O11: the write by `step_enable`, and the reset state as it stands. -/
theorem enableWrite : Obligations.EnableWrite :=
  ⟨fun _ _ _ h => ⟨_, step_enable h, rfl, State.irqLine_iff _⟩, fun _ => rfl⟩

/-! ### The counting handlers (R328, R332 to R334) -/

/-- A source other than OUTVERT's and a completion's is taken out of the pass and counted, and the pass goes on or
ends (R326, R334). -/
theorem answer_countedSource (s : State) (j : Fin 9) (c : Counters) :
    (.next ((s.takeSource j).count c).passEnd : Answered) = .next { s with
      passSet := s.passSet &&& ~~~sourceMask j, pc := passGoes (s.passSet &&& ~~~sourceMask j), counters := c } := rfl

/-- Settles O35: each handler is `answer_countedSource` of its source and its counter. -/
theorem countingHandlers : Obligations.CountingHandlers := fun s =>
  ⟨answer_countedSource s 0 _, answer_countedSource s 6 _, answer_countedSource s 7 _, answer_countedSource s 8 _⟩

end Sys2Proof.Machine

/-! SUPPORT. Who writes `irq_status` (45_interrupt_dispatcher.md R321, R325): an event that latches a source sets its
bit and a dispatch clears those it acknowledges. Every other operation leaves the register as it is: one lemma per
operation below says so, for the simplifier. With what a handler does to `pass_set` (R326, R327), a running pass is
joined by no source and loses none. -/

namespace Sys2Proof.Machine

/-! ### The pool and the stream service (R181 to R184, R253 to R263) -/

@[simp] theorem State.allocSlot_irqStatus (s : State) : s.allocSlot.2.irqStatus = s.irqStatus := by
  obtain ⟨h, -⟩ | ⟨i, e, h, -⟩ := s.allocSlot_cases <;> simp [h]

@[simp] theorem State.deqSlot_irqStatus (s : State) : s.deqSlot.2.irqStatus = s.irqStatus := by
  obtain ⟨-, h⟩ | ⟨i, q, -, h⟩ := s.deqSlot_cases <;> simp [h]

@[simp] theorem State.freeSlot_irqStatus (s : State) (i : SlotIx) : (s.freeSlot i).irqStatus = s.irqStatus := by
  obtain ⟨-, h⟩ | ⟨-, h⟩ := s.freeSlot_cases i <;> simp [h]

@[simp] theorem State.enqSlot_irqStatus (s : State) (i : SlotIx) : (s.enqSlot i).irqStatus = s.irqStatus := by
  obtain ⟨-, h⟩ | ⟨-, h⟩ := s.enqSlot_cases i <;> simp [h]

@[simp] theorem State.freePlayed_irqStatus (s : State) (c : VidChan) : (s.freePlayed c).irqStatus = s.irqStatus := by
  rw [State.freePlayed]
  split <;> simp

@[simp] theorem State.queueCaptured_irqStatus (s : State) (ap : U64) (c : VidChan) :
    (s.queueCaptured ap c).irqStatus = s.irqStatus := by
  rw [State.queueCaptured]
  split
  next => rfl
  next i _ =>
    obtain ⟨e, m, h⟩ := s.stampAndQueue_eq i ap
    simp [h]

@[simp] theorem State.freeing_irqStatus (s : State) : s.freeing.irqStatus = s.irqStatus :=
  List.foldlRecOn (motive := fun u : State => u.irqStatus = s.irqStatus) _ _ (by simp) fun u hu c _ => by simpa using hu

@[simp] theorem State.discard_irqStatus (n : Nat) (s : State) : (State.discard n s).irqStatus = s.irqStatus := by
  induction n generalizing s with
  | zero => rfl
  | succ n ih =>
    have hd := s.deqSlot_irqStatus
    rw [State.discard]
    split <;> rename_i h <;> rw [h] at hd <;> simpa [ih] using hd

@[simp] theorem State.pace_irqStatus (s : State) : s.pace.2.irqStatus = s.irqStatus := by
  rw [State.pace]
  split <;> rfl

@[simp] theorem State.servicePlayback_irqStatus (cs : List VidChan) (i0 : Option SlotIx) (s : State) :
    (State.servicePlayback cs i0 s).irqStatus = s.irqStatus := by
  induction cs generalizing i0 s with
  | nil =>
    cases i0 with
    | none => rfl
    | some i => simp [State.servicePlayback, State.override, apply_ite State.irqStatus]
  | cons c cs ih =>
    have hd := s.deqSlot_irqStatus
    rw [State.servicePlayback]
    split <;> rename_i h <;> rw [h] at hd <;> simpa [ih, State.tagMismatch, apply_ite State.irqStatus] using hd

@[simp] theorem State.playbackTick_irqStatus (s : State) : s.playbackTick.irqStatus = s.irqStatus := by
  simp [State.playbackTick, apply_ite State.irqStatus]

@[simp] theorem State.serviceCapture_irqStatus (cs : List VidChan) (n : U64) (s : State) :
    (State.serviceCapture cs n s).irqStatus = s.irqStatus := by
  induction cs generalizing s with
  | nil => rfl
  | cons c cs ih =>
    have ha := s.allocSlot_irqStatus
    rw [State.serviceCapture]
    split <;> rename_i h <;> rw [h] at ha <;> simpa [ih, State.captureFailed, State.captureInto] using ha

@[simp] theorem State.captureTick_irqStatus (s : State) : s.captureTick.irqStatus = s.irqStatus := by
  simp [State.captureTick, State.adjustGenerator, apply_ite State.irqStatus]

@[simp] theorem State.stepService_irqStatus (s : State) : s.stepService.irqStatus = s.irqStatus := by
  simp [State.stepService, State.audioTrigger, apply_ite State.irqStatus]

/-! ### The phases of a tick (R218 to R230) -/

@[simp] theorem State.sampleRate_irqStatus (s : State) : s.sampleRate.irqStatus = s.irqStatus := by
  rw [State.sampleRate_eq s |>.1]

@[simp] theorem State.f1Phase_irqStatus (n : F1Step) (s : State) : (s.f1Phase n).irqStatus = s.irqStatus := by
  cases n with
  | frameId => simp [State.f1Phase, State.stepFrameId]
  | generator => rfl
  | boundary => rfl
  | snapshot => simp [State.f1Phase, State.stepSnapshot]
  | freeing => simp [State.f1Phase]
  | service => simp [State.f1Phase]
  | wirePush => rfl
  | extSync => simp [State.f1Phase, State.stepExtSync, apply_ite State.irqStatus]
  | serial => rfl
  | wake => rfl
  | audio => simp [State.f1Phase, State.stepAudio, State.tickEnd, apply_ite State.irqStatus]

@[simp] theorem State.f2Phase_irqStatus (s : State) : s.f2Phase.irqStatus = s.irqStatus := by rw [State.f2Phase_eq]

/-! ### Commands (R107, R108) -/

@[simp] theorem State.pushExternal_irqStatus (s : State) (g : TC64) : (s.pushExternal g).irqStatus = s.irqStatus := by
  rw [State.pushExternal]
  split
  · dsimp only
    split <;> simp [apply_ite State.irqStatus]
  · rfl

@[simp] theorem State.queryExternal_irqStatus (s : State) (b : BankId) :
    (s.queryExternal b).irqStatus = s.irqStatus := by
  obtain ⟨e, h⟩ := s.readExternal_snd
  rw [State.queryExternal]
  split <;> simp [h]

@[simp] theorem State.queryGenerator_irqStatus (s : State) (b : BankId) :
    (s.queryGenerator b).irqStatus = s.irqStatus := by
  obtain ⟨e, h⟩ := s.readGenerator_snd
  rw [State.queryGenerator]
  split <;> simp [h]

@[simp] theorem State.xferStart_irqStatus (s : State) (b : BankId) (r : XferReq) :
    (s.xferStart b r).irqStatus = s.irqStatus := by
  rw [State.xferStart]
  split <;> rfl

/-- Whatever next state the answer gives, its latched sources are `m`. -/
def LeavesStatus (m : BitVec 9) (a : Answered) : Prop := ∀ t, a = .next t → t.irqStatus = m

@[simp] theorem leavesStatus_next {m : BitVec 9} {t : State} : LeavesStatus m (.next t) ↔ t.irqStatus = m :=
  ⟨fun h => h t rfl, fun h _ ht => by cases ht; exact h⟩

/-- A command that checks its operand first. -/
theorem leavesStatus_ite {m : BitVec 9} {c : Prop} [Decidable c] {x y : Answered} (hx : LeavesStatus m x)
    (hy : LeavesStatus m y) : LeavesStatus m (if c then x else y) := by
  split
  · exact hx
  · exact hy

theorem leavesStatus_execAlloc (b : BankId) (s : State) : LeavesStatus s.irqStatus (execAlloc b s) := by
  have ha := s.allocSlot_irqStatus
  rw [execAlloc]
  split <;> rename_i h <;> rw [h] at ha <;> simpa using ha

theorem leavesStatus_execDeq (b : BankId) (s : State) : LeavesStatus s.irqStatus (execDeq b s) := by
  have hd := s.deqSlot_irqStatus
  rw [execDeq]
  split <;> rename_i h <;> rw [h] at hd <;> simpa using hd

theorem leavesStatus_execXfer (b : BankId) (dir : Bool) (hint : BitVec 2) (s : State) :
    LeavesStatus s.irqStatus (execXfer b dir hint s) := by
  refine leavesStatus_ite (by simp) ?_
  dsimp only
  split <;> simp

theorem leavesStatus_execTcquery (b : BankId) (src : BitVec 3) (s : State) :
    LeavesStatus s.irqStatus (execTcquery b src s) := by
  rw [execTcquery]
  split <;> simp [State.queryWire1, State.queryWire2, State.readWire1, State.readWire2]

/-- No command writes `irq_status` in its acceptance step. -/
theorem leavesStatus_command {i : Instr} {b : BankId} (hb : i.bank? = some b) (s : State) :
    LeavesStatus s.irqStatus (exec i s) := by
  cases i <;> cases hb
  case init | start | stop | close | settrig | free | enq | mdget | mdset | setspeed | genset | audarm =>
    exact leavesStatus_ite (by simp [State.initSession, State.setGenerator]) (by simp)
  case alloc => exact leavesStatus_execAlloc b s
  case deq => exact leavesStatus_execDeq b s
  case xfer => exact leavesStatus_execXfer b _ _ s
  case tcquery => exact leavesStatus_execTcquery b _ s
  case genrun => exact leavesStatus_next.2 (by simp [apply_ite State.irqStatus])
  all_goals exact leavesStatus_next.2 rfl

/-! ### Transfers and channels (R141 to R166, R329) -/

theorem Touches.irqStatus {s t : State} (h : Touches s t) : t.irqStatus = s.irqStatus := by rw [h.frame]

@[simp] theorem State.xferPin_irqStatus (s : State) (b : BankId) (k : ChanId) (r : XferReq) :
    (s.xferPin b k r).irqStatus = s.irqStatus := by
  rw [State.xferPin]
  split <;> rfl

@[simp] theorem State.xferMap_irqStatus (s : State) (b : BankId) (k : ChanId) (r : XferReq) :
    (s.xferMap b k r).irqStatus = s.irqStatus := by
  simp [State.xferMap, State.setXferPhase, apply_ite State.irqStatus]

@[simp] theorem State.xferProgram_irqStatus (s : State) (b : BankId) (k : ChanId) (r : XferReq) :
    (s.xferProgram b k r).irqStatus = s.irqStatus := by
  have hraise : ∀ fs, (s.raiseAll fs).irqStatus = s.irqStatus := fun fs =>
    List.foldlRecOn (motive := fun u : State => u.irqStatus = s.irqStatus) fs State.raise rfl fun _ hu _ _ => hu
  simp [State.xferProgram, State.setXferPhase, State.startChannel, State.programChannel, State.stampTs,
    (touches_storeBytes ..).irqStatus, hraise]

@[simp] theorem State.xferCleanup_irqStatus (s : State) (b : BankId) (k : ChanId) (r : XferReq) (o : XferOutcome) :
    (s.xferCleanup b k r o).irqStatus = s.irqStatus := by
  obtain ⟨u, h, hu, -⟩ := s.xferCleanup_spec b k r o
  rw [h, hu]
  rfl

@[simp] theorem State.callerStep_irqStatus (s : State) (b : BankId) : (s.callerStep b).irqStatus = s.irqStatus := by
  rw [State.callerStep]
  split
  case h_7 => exact (apply_ite State.irqStatus ..).trans (ite_self _)
  all_goals simp

@[simp] theorem State.callerEvent_irqStatus (s : State) (b : BankId) (o : XferOutcome) :
    (s.callerEvent b o).irqStatus = s.irqStatus := by
  rw [State.callerEvent]
  split
  case h_7 => exact (apply_ite State.irqStatus ..).trans (ite_self _)
  all_goals rfl

@[simp] theorem State.performChain_irqStatus (s : State) (k : ChanId) : (s.performChain k).irqStatus = s.irqStatus := by
  obtain ⟨-, h⟩ | ⟨-, -, u, hu, h⟩ := performChain_spec s k <;> rw [h]
  exact hu.irqStatus

@[simp] theorem State.spoil_irqStatus (s : State) (k : ChanId) (a : U64) (v : Byte) :
    (s.spoil k a v).irqStatus = s.irqStatus := by
  obtain h | ⟨u, hu, h⟩ := spoil_spec s k a v <;> rw [h]
  exact hu.irqStatus

/-- A completion does the moves that are still to be done, or is counted (R329, R330). -/
@[simp] theorem State.handleDone_irqStatus (s : State) (k : ChanId) : (s.handleDone k).irqStatus = s.irqStatus := by
  obtain ⟨-, h⟩ | ⟨-, h⟩ := settle_spec s k <;> simp [State.handleDone, apply_ite State.irqStatus, h]

/-- A handler reads its source from `pass_set`, not from `irq_status` (R326). -/
theorem irqStatus_source {j : Fin 9} {s t : State} (h : exec (sourceInstr j) s = .next t) :
    t.irqStatus = s.irqStatus := by
  obtain ⟨u, ⟨c, rfl⟩ | ⟨k, rfl⟩, rfl⟩ | ⟨e, ph, -, rfl⟩ := exec_source h <;> simp

/-! ### One step (R321, R325, R327) -/

/-- `irq_status` is as before, or the bit of a source is set in it (R321). -/
def Latches (s t : State) : Prop :=
  t.irqStatus = s.irqStatus ∨ ∃ j, t.irqStatus = s.irqStatus ||| sourceMask j

/-- `pass_set` is as before, or a source is taken out of it (R326). -/
def TakesSource (s t : State) : Prop :=
  t.passSet = s.passSet ∨ ∃ j, t.passSet = s.passSet &&& ~~~sourceMask j

theorem Latches.getLsbD {s t : State} (h : Latches s t) {n : Nat} (hn : s.irqStatus.getLsbD n = true) :
    t.irqStatus.getLsbD n = true := by
  obtain h | ⟨j, h⟩ := h <;> rw [h]
  · exact hn
  · rw [BitVec.getLsbD_or, hn, Bool.true_or]

theorem TakesSource.getLsbD {s t : State} (h : TakesSource s t) {n : Nat} (hn : t.passSet.getLsbD n = true) :
    s.passSet.getLsbD n = true := by
  obtain h | ⟨j, h⟩ := h <;> rw [h] at hn
  · exact hn
  · rw [BitVec.getLsbD_and, Bool.and_eq_true] at hn
    exact hn.1

theorem latches_raiseDone (s : State) (k : ChanId) : Latches s (s.raiseDone k) := by
  obtain h | h | h := raiseDone_spec s k <;> rw [h]
  · exact .inr ⟨_, rfl⟩
  · exact .inl rfl
  · exact .inr ⟨_, rfl⟩

theorem latches_raiseChanBuserr (s : State) (k : ChanId) : Latches s (s.raiseChanBuserr k) := by
  rw [State.raiseChanBuserr]
  split
  · exact .inr ⟨0, rfl⟩
  · exact .inl rfl

/-- Only a dispatch, taken with `pc` IDLE, clears a latched source (R325). -/
theorem Transition.latches {s t : State} (h : Transition s t) : Latches s t ∨ s.pc = .idle := by
  cases h with
  | command b w i t _ _ hd he => exact .inl (.inl (leavesStatus_command (bank?_of_decode hd) (s.setCmd b w) t he))
  | dispatch hp => exact .inr hp
  | handler i t _ hd he =>
    obtain ⟨j, -, -, rfl⟩ := decode_status hd
    exact .inl (.inl (irqStatus_source he))
  | raised e j => exact .inl (.inr ⟨j, rfl⟩)
  | done k => exact .inl (latches_raiseDone s k)
  | chanBuserr k => exact .inl (latches_raiseChanBuserr s k)
  | hostStore a v => exact .inl (.inl (touches_storeHost s a v).irqStatus)
  | illegal b w => exact .inl (.inl rfl)
  | _ => exact .inl (.inl (by simp))

/-- Only a dispatch, taken with `pc` IDLE, puts sources into a pass; a handler takes its own out (R325, R326). -/
theorem Outline.takesSource {s t : State} (h : Outline s t) : TakesSource s t ∨ s.pc = .idle := by
  cases h with
  | agent hw => exact .inl (.inl (hw.same .passSet (by decide)))
  | command b w i hb he =>
    exact .inl (.inl ((writes_command hb he).same .passSet (by cases i <;> simp [commandWrites])))
  | dispatch hp => exact .inr hp
  | source j _ he =>
    refine .inl (.inr ⟨j, ?_⟩)
    obtain ⟨u, ⟨c, rfl⟩ | ⟨k, rfl⟩, rfl⟩ | ⟨e, ph, -, rfl⟩ := exec_source he
    · rfl
    · exact (writes_handleDone (s.takeSource j) k).same .passSet (by decide)
    · rfl
  | phase n => exact .inl (.inl ((writes_f1Phase n s).same .passSet (by cases n <;> decide)))
  | field2 => exact .inl (.inl ((writes_f2Phase s).same .passSet (by decide)))

/-- Settles O51: with `pc` other than IDLE there is no dispatch, so a step at most takes a source out of the pass and
at most latches one. -/
theorem noNesting : Obligations.NoNesting := by
  intro s t h hpc
  obtain ⟨-, e, ht⟩ := step_transition h
  exact ⟨fun _ hj => (ht.outline.takesSource.resolve_right hpc).getLsbD hj,
    fun _ hj => (ht.latches.resolve_right hpc).getLsbD hj⟩

end Sys2Proof.Machine
